-- ==== Sys2Proof/Word.lean ====
section
/-! DEFINITION. The numbers and names the CT4's records are made of: byte, zone set, and the numbers of ports, zones, slots, entries and plans. -/

namespace Sys2Proof

/-- One byte of a station frame or a link block. -/
abbrev Byte := BitVec 8

/-- A zone set, coded as Table 10-8 codes it: bit z is set when zone z is in the set. -/
abbrev ZoneSet := BitVec 8

/-- A station port, SP0 to SP3. -/
abbrev PortId := Fin 4

/-- A zone and its link, ZL0 to ZL7. -/
abbrev ZoneId := Fin 8

/-- A slot of the message store (R76). -/
abbrev SlotId := Fin 512

/-- The reuse count of a slot, 0..15 (R77). -/
abbrev Epoch := BitVec 4

/-- A directory index (R1). -/
abbrev AccountIndex := Fin 8192

/-- A tariff plan (R19). -/
abbrev PlanIndex := Fin 16

/-- A message priority, 0..3. -/
abbrev Priority := Fin 4

/-- A pager address: 22 bits (R1). -/
abbrev PagerAddress := BitVec 22

/-- The office clock: seconds, wrapping at 2^32 (R171). -/
abbrev Clock := BitVec 32

/-- One 32-bit air word (Table 7-4). -/
abbrev AirWord := BitVec 32

/-- A table of values by key, held as the list of the keys that have a value, keys strictly rising. -/
abbrev Tbl (κ α : Type) := List (κ × α)

end Sys2Proof
end

