-- ==== Sys2Proof/Config.lean ====
section
/-! DEFINITION. The sizes the spec fixes for the CT4, and the two free values: what a CLASSIFY_PROBE response sends where the spec states no value. -/

namespace Sys2Proof

/-- R144: the charge journal holds at most 1,024 records. -/
def Config.journalSize : Nat := 1024

/-- R166: an event queue holds at most 32 records. -/
def Config.eventQueueSize : Nat := 32

/-- R76: the message store has 512 slots. -/
def Config.slotCount : Nat := 512

/-- FREE VALUE (log entry 2). R58 reports "the merged disposition with its reason or target": the spec states no
reason byte for a merged PASS or FORWARD. Nothing is known of it; the arguments are the reasons stored in the
FIRST and the SECOND action. -/
opaque Config.probeUnusedReason : BitVec 4 → BitVec 4 → Byte

/-- FREE VALUE (log entry 2). The target bytes of a CLASSIFY_PROBE response whose merged disposition is PASS or
REFUSE; the arguments are the targets stored in the FIRST and the SECOND action. -/
opaque Config.probeUnusedTarget : AccountIndex → AccountIndex → BitVec 16

end Sys2Proof
end

