-- ==== Sys2Proof/Syntax.lean ====
section
/-! DEFINITION. The commands of the CT4: one constructor for each of the 71 rows of spec/opcode_table.json.

A station command is carried by the port that took it and the BODY bytes of its frame (R160, R169).
A received link block is carried by the zone of its link and the body bytes of the block (Table 7-2);
BAD_BLOCK carries the bytes from kind to CRC as they were taken, COMMAND_FRAME_BAD_CRC those from LENGTH to CRC.
The rows that take a device reset carry the levels of the strap pins RATE1 and RATE0, sampled there (R159). -/

namespace Sys2Proof

/-- One row of the table of operations and events. -/
inductive Instr where
  /-- SUBSCRIBER_WRITE (R10): Creates or changes a directory entry after its format, range, address-uniqueness and in-use checks. -/
  | subscriberWrite (port : PortId) (body : List Byte)
  /-- SUBSCRIBER_READ (R15): Returns one directory entry as it stands. -/
  | subscriberRead (port : PortId) (body : List Byte)
  /-- SUBSCRIBER_DELETE (R16): Makes an entry UNUSED and frees its pager address when its open count and balance are zero. -/
  | subscriberDelete (port : PortId) (body : List Byte)
  /-- PLAN_WRITE (R20): Replaces every field of one tariff plan. -/
  | planWrite (port : PortId) (body : List Byte)
  /-- PLAN_READ (R21): Returns every field of one tariff plan. -/
  | planRead (port : PortId) (body : List Byte)
  /-- CLASSIFIER_WRITE (R54): Replaces one whole classifier entry. -/
  | classifierWrite (port : PortId) (body : List Byte)
  /-- CLASSIFIER_DEFAULT (R55): Replaces the FIRST or the SECOND default action. -/
  | classifierDefault (port : PortId) (body : List Byte)
  /-- CLASSIFIER_READ (R56): Returns one classifier entry or one default action. -/
  | classifierRead (port : PortId) (body : List Byte)
  /-- RANGE_WRITE (R44): Replaces the source and bounds of one range checker. -/
  | rangeWrite (port : PortId) (body : List Byte)
  /-- RANGE_READ (R44): Returns the four range checkers. -/
  | rangeRead (port : PortId) (body : List Byte)
  /-- CLASSIFY_PROBE (R58): Classifies a trial message and reports the winners and the merged action, changing no state. -/
  | classifyProbe (port : PortId) (body : List Byte)
  /-- SUBMIT (R59): Admits or refuses a paging message through the ordered admission checks. -/
  | submit (port : PortId) (body : List Byte)
  /-- CANCEL (R85): Closes an open message CANCELLED, or refuses. -/
  | cancel (port : PortId) (body : List Byte)
  /-- QUERY_MESSAGE (R91): Returns the slot record of a live message id. -/
  | queryMessage (port : PortId) (body : List Byte)
  /-- FETCH_OUTCOMES (R89): Takes up to six closed slots from the port's outcome list, reports them and frees them. -/
  | fetchOutcomes (port : PortId) (body : List Byte)
  /-- ZONE_CONFIG (R97): Replaces a zone's written dispatch and link settings. -/
  | zoneConfig (port : PortId) (body : List Byte)
  /-- READ_ZONE (R110): Returns a zone's dispatcher state. -/
  | readZone (port : PortId) (body : List Byte)
  /-- AIR_HOLD (R109): Puts the device-wide air hold in force and freezes the retry timers in WAIT. -/
  | airHold (port : PortId) (body : List Byte)
  /-- AIR_RELEASE (R109): Releases the air hold, unfreezes retry timers and attempts formation where a priority-3 entry is first in the queue. -/
  | airRelease (port : PortId) (body : List Byte)
  /-- LINK_ENABLE (R116): Turns a zone link on into HUNT, or off into OFF. -/
  | linkEnable (port : PortId) (body : List Byte)
  /-- LINK_RESTART (R126): Fails a zone link with cause RESTART, or reloads its hold-off timer. -/
  | linkRestart (port : PortId) (body : List Byte)
  /-- READ_LINK (R127): Returns a link record and clears its receive error count. -/
  | readLink (port : PortId) (body : List Byte)
  /-- RETRY_STATUS (R142): Reports a message's state, current attempt, retry timer, frozen flag and next coverage. -/
  | retryStatus (port : PortId) (body : List Byte)
  /-- ACCOUNT_READ (R149): Returns an account portion with its clamped available amount. -/
  | accountRead (port : PortId) (body : List Byte)
  /-- ACCOUNT_ADJUST (R150): Changes a balance by a signed amount and appends an ADJUST record. -/
  | accountAdjust (port : PortId) (body : List Byte)
  /-- ACCOUNT_LIMIT (R151): Replaces an account's credit limit. -/
  | accountLimit (port : PortId) (body : List Byte)
  /-- ACCOUNT_STATE (R152): Writes an entry's state and, with the purge flag, purges its open messages. -/
  | accountState (port : PortId) (body : List Byte)
  /-- JOURNAL_FETCH (R147): Removes and returns up to four journal records. -/
  | journalFetch (port : PortId) (body : List Byte)
  /-- JOURNAL_CONFIG (R148): Replaces the journal high water and makes the high-water test. -/
  | journalConfig (port : PortId) (body : List Byte)
  /-- SWEEP_START (R153): Starts, restarts or stops the credit sweep and copies the plans' low waters. -/
  | sweepStart (port : PortId) (body : List Byte)
  /-- SWEEP_STATUS (R156): Returns the sweep state. -/
  | sweepStatus (port : PortId) (body : List Byte)
  /-- FETCH_EVENTS (R167): Removes and returns up to eight event records and reads and clears the lost flag. -/
  | fetchEvents (port : PortId) (body : List Byte)
  /-- SET_ROLE (R164): Writes a port's role, keeping at least one SUPERVISOR. -/
  | setRole (port : PortId) (body : List Byte)
  /-- PORT_CONFIG (R165): Replaces a port's turn-around gap. -/
  | portConfig (port : PortId) (body : List Byte)
  /-- PORT_READ (R165): Returns the role, gap, queue count, lost flag and outcome list length of every port. -/
  | portRead (port : PortId) (body : List Byte)
  /-- READ_CLOCK (R171): Returns the office clock. -/
  | readClock (port : PortId) (body : List Byte)
  /-- CLOCK_SET (R171): Loads the office clock with a value. -/
  | clockSet (port : PortId) (body : List Byte)
  /-- OFFICE_RESET (R172): Is answered OK and schedules a device reset for the end of its response. -/
  | officeReset (port : PortId) (body : List Byte)
  /-- UNKNOWN_COMMAND (R161): A good-CRC command frame whose code is not in the catalogue is answered UNKNOWN_COMMAND. -/
  | unknownCommand (port : PortId) (code : Byte) (body : List Byte)
  /-- COMMAND_FRAME_BAD_CRC (R160): A command frame whose CRC fails is discarded with no response. -/
  | commandFrameBadCrc (port : PortId) (frame : List Byte)
  /-- FRAME_ABANDONED (R160): A frame is abandoned on a gap of more than 16 bit times between its bytes, or on a bad stop bit. -/
  | frameAbandoned (port : PortId)
  /-- TURN_AROUND_GAP_EXPIRY (R162): At the end of the turn-around gap the port starts sending the response. -/
  | turnAroundGapExpiry (port : PortId)
  /-- RESPONSE_SENT (R162): After the last stop bit of the response the port returns to LISTENING. -/
  | responseSent (port : PortId)
  /-- BREAK (R163): RXD held at 0 for 20 bit times abandons any frame or response and returns the port to LISTENING. -/
  | lineBreak (port : PortId)
  /-- OFFICE_RESET_TAKES_EFFECT (R172): The device reset of an OFFICE_RESET is taken when its response ends or a break abandons it. -/
  | officeResetTakesEffect (rate1 rate0 : Bool)
  /-- POWER_ON (R172): The supply rising to its working level takes a device reset. -/
  | powerOn (rate1 rate0 : Bool)
  /-- RESET_N_LOW (R172): RESET_N going low takes a device reset and holds the part in reset. -/
  | resetNLow (rate1 rate0 : Bool)
  /-- RESET_N_HIGH (R172): RESET_N returning high starts the initialisation pass. -/
  | resetNHigh
  /-- INITIALISATION_PASS_END (R173): At the end of the pass commands are taken again, the dividers start and the batch timers start from 50 ticks. -/
  | initialisationPassEnd
  /-- TICK (R170): The tick divider expires every 1,000,000 REFCLK cycles and the tick-counting blocks take their tick. -/
  | tick
  /-- ONE_SECOND_STEP (R170): Every tenth tick the office clock advances and the life remaining of every open slot falls by 1. -/
  | oneSecondStep
  /-- LIFE_EXPIRY (R82): A slot whose life remaining reaches 0 closes EXPIRED or SENT. -/
  | lifeExpiry (slot : SlotId)
  /-- BATCH_TIMER_EXPIRY (R98): A zone's batch timer reaches 0; a formation is attempted and the timer is reloaded. -/
  | batchTimerExpiry (zone : ZoneId)
  /-- ACCEPT_DEADLINE_EXPIRY (R106): A batch's accept deadline reaches 0; the link fails with cause NO_ACCEPT. -/
  | acceptDeadlineExpiry (zone : ZoneId)
  /-- HUNT_TIMER_EXPIRY (R117): In HUNT the link sends another CAP_BASE and reloads the hunt timer. -/
  | huntTimerExpiry (zone : ZoneId)
  /-- EXCHANGE_TIMER_EXPIRY (R118): In EXCHANGE the link enters FAILED with cause TIMEOUT. -/
  | exchangeTimerExpiry (zone : ZoneId)
  /-- SILENCE_TIMER_EXPIRY (R123): In UP the link leaves UP with cause SILENCE. -/
  | silenceTimerExpiry (zone : ZoneId)
  /-- IDLE_TIMER_EXPIRY (R123): In UP the link sends an IDLE block. -/
  | idleTimerExpiry (zone : ZoneId)
  /-- HOLD_OFF_TIMER_EXPIRY (R125): In FAILED the link enters HUNT. -/
  | holdOffTimerExpiry (zone : ZoneId)
  /-- RETRY_EXPIRY (R136): A two-way slot's retry timer reaches 0; the next attempt is formed or the message closes MISSED. -/
  | retryExpiry (slot : SlotId)
  /-- REPEAT_EXPIRY (R137): A one-way slot's retry timer reaches 0; the next repeat is formed. -/
  | repeatExpiry (slot : SlotId)
  /-- CAP_BASE (R118): A valid site CAP_BASE starts or re-evaluates the exchange, or in UP forces renegotiation. -/
  | capBase (zone : ZoneId) (body : List Byte)
  /-- CAP_NEXT (R119): A valid site CAP_NEXT in EXCHANGE checks the site identity and enters UP or FAILED. -/
  | capNext (zone : ZoneId) (body : List Byte)
  /-- IDLE (R121): A valid inbound IDLE block reloads the silence timer in UP and is otherwise ignored or discarded. -/
  | idle (zone : ZoneId) (body : List Byte)
  /-- BATCH_ACCEPT (R103): The site's acceptance of the batch in flight credits its entries to the sent sets. -/
  | batchAccept (zone : ZoneId) (body : List Byte)
  /-- BATCH_REFUSE (R105): The site's refusal of the batch in flight returns its entries to the queue. -/
  | batchRefuse (zone : ZoneId) (body : List Byte)
  /-- PAGER_ACK (R129): A pager acknowledgement updates last-seen and is matched against the slot named in its tag. -/
  | pagerAck (zone : ZoneId) (body : List Byte)
  /-- PAGER_LOCATE (R8): A location report updates the last-seen value of the mapped entry. -/
  | pagerLocate (zone : ZoneId) (body : List Byte)
  /-- SITE_STATUS (R121): The site's status replaces the remote fault, or OFFLINE fails the link with cause REMOTE. -/
  | siteStatus (zone : ZoneId) (body : List Byte)
  /-- BAD_BLOCK (R114): An inbound block with a bad CRC or length is discarded and the receive error count rises. -/
  | badBlock (zone : ZoneId) (block : List Byte)
  /-- LINK_BLOCK_SENT (R122): An outbound block leaves the line; the next queued block begins and the idle timer is reloaded. -/
  | linkBlockSent (zone : ZoneId)
  deriving DecidableEq, Repr

end Sys2Proof
end

