-- ==== Sys2Proof/Machine/State.lean ====
section
/-! DEFINITION. The state of the CT4, piece by piece as the spec's record tables give it, and the machine right after a device reset. -/

namespace Sys2Proof.Machine

/-! ## Station ports (Chapter 10) -/

/-- The status codes of Table 10-5. -/
inductive Status where
  | ok | accepted | unknownCommand | role | format | range | starting
  | noMessage | alreadyClosed | inUse | addressInUse | balanceNotZero | noSubscriber | lastSupervisor | journalFull
  | classified | forwardInvalid | barred | suspended | outstanding | storeFull | congested | credit
  deriving DecidableEq, Repr

/-- A port's permission class (R164). -/
inductive Role where
  | supervisor | intake | dispatch | accounts
  deriving DecidableEq, Repr

/-- Where a port stands in the exchange of one frame pair (R160). -/
inductive Receiver where
  | listening | receiving | gap | sending
  deriving DecidableEq, Repr

/-- The event kinds of Table 10-7. -/
inductive EventKind where
  | linkUp | linkDown | zoneCongested | zoneClear
  | creditLow | creditExhausted | accountSuspended | accountResumed | sweepPassDone | journalHigh | lateAck
  deriving DecidableEq, Repr

/-- One record of an event queue (Table 10-4). -/
structure EventRecord where
  kind : EventKind
  subject : Nat
  detail : Int
  time : Clock
  deriving DecidableEq, Repr

/-- STATUS and BODY of a response frame (Table 10-3). -/
structure Response where
  status : Status
  body : List Byte
  deriving DecidableEq, Repr

/-- A response fixed at the taking of its command, and the turn-around gap it waits (R161, R162). -/
structure Answer where
  response : Response
  gap : Nat
  deriving DecidableEq, Repr

/-- Station port state (Table 10-1), with the bytes of the frame being received from LENGTH on (R160; empty outside
RECEIVING), the response in progress, the bits that TXD has still to drive (R159, R162, R163; empty while the line is
idle) and whether that response is an OFFICE_RESET's (R172). -/
structure Port where
  receiver : Receiver
  frame : List Byte
  role : Role
  gap : Nat
  events : List EventRecord
  lost : Bool
  outcomes : List SlotId
  answer : Option Answer
  unsent : List Bool
  resetAfter : Bool
  deriving DecidableEq, Repr

/-! ## Subscriber directory (Chapter 1) -/

/-- Why an entry is SUSPENDED (R3). -/
inductive SuspendCause where
  | accounts | sweep
  deriving DecidableEq, Repr

/-- The state of an entry that is not UNUSED; the suspend cause is present exactly while SUSPENDED (R3). -/
inductive EntryState where
  | active
  | suspended (cause : SuspendCause)
  | barred
  deriving DecidableEq, Repr

inductive PagerKind where
  | oneWay | twoWay
  deriving DecidableEq, Repr

/-- The zone a pager was last heard in, and the office clock then (R9). -/
structure LastSeen where
  zone : ZoneId
  time : Clock
  deriving DecidableEq, Repr

/-- A directory entry that is not UNUSED (Table 1-1). An UNUSED entry is an index the directory does not list. -/
structure Entry where
  state : EntryState
  address : PagerAddress
  kind : PagerKind
  plan : PlanIndex
  home : ZoneSet
  region : ZoneSet
  lastSeen : Option LastSeen
  outstandingLimit : Nat
  balance : Int
  creditLimit : Nat
  held : Nat
  openCount : Nat
  low : Bool
  exhausted : Bool
  deriving DecidableEq, Repr

/-! ## Tariff plans (Chapter 2) -/

/-- A tariff plan (Table 2-1). -/
structure Plan where
  baseTone : Nat
  baseNumeric : Nat
  baseText : Nat
  wordRate : Nat
  zoneRate : Nat
  m0 : Nat
  m1 : Nat
  m2 : Nat
  m3 : Nat
  retryFee : Nat
  failFee : Nat
  cap : Nat
  retries : Nat
  repeats : Nat
  retryBase : Nat
  retryCeiling : Nat
  defaultLife : Nat
  focusAge : Nat
  lowWater : Nat
  emergencyOverride : Bool
  deriving DecidableEq, Repr

/-- The plan values a slot keeps (Table 2-2). -/
structure TariffSnapshot where
  classBase : Nat
  wordRate : Nat
  zoneRate : Nat
  multiplier : Nat
  retryFee : Nat
  failFee : Nat
  cap : Nat
  retryCount : Nat
  retryBase : Nat
  retryCeiling : Nat
  focusAge : Nat
  deriving DecidableEq, Repr

/-! ## Intake classifier (Chapter 3) -/

inductive Disposition where
  | pass | refuse | forward
  deriving DecidableEq, Repr

/-- A classifier action (Table 3-6); reason and target are stored for every disposition (Table 3-8). -/
structure Action where
  disposition : Disposition
  reason : BitVec 4
  target : AccountIndex
  priority : Option Priority
  coverage : Option ZoneSet
  noFocus : Bool
  life : Option Nat
  retries : Option Nat
  plan : Option PlanIndex
  chain : BitVec 6
  deriving DecidableEq, Repr

/-- A classifier entry (Table 3-5): the key's twelve fields in their order make 51 bits, LOOKUP highest (Table 10-8). -/
structure ClassifierEntry where
  valid : Bool
  value : BitVec 51
  mask : BitVec 51
  action : Action
  deriving DecidableEq, Repr

inductive RangeSource where
  | none | length | hour | line
  deriving DecidableEq, Repr

/-- A range checker (Table 3-4). -/
structure RangeChecker where
  source : RangeSource
  low : Nat
  high : Nat
  deriving DecidableEq, Repr

/-! ## Message store (Chapter 5) and retry unit (Chapter 8) -/

inductive MsgClass where
  | tone | numeric | text
  deriving DecidableEq, Repr

/-- How a message closed (Table 5-1). -/
inductive MsgOutcome where
  | delivered | sent | missed | expired | cancelled | purged
  deriving DecidableEq, Repr

/-- The state of a slot, FREE included; it follows from the slot and the batches in flight (R80). -/
inductive SlotState where
  | free | queued | onAir | wait | stalled | closed
  deriving DecidableEq, Repr

/-- An attempt record (Table 5-2). -/
structure Attempt where
  number : Nat
  requested : ZoneSet
  pending : ZoneSet
  sent : ZoneSet
  transmitted : Option Clock
  deriving DecidableEq, Repr

/-- What a closed slot holds beside its frozen attempt list: outcome and settled amount (R83). -/
structure Closing where
  outcome : MsgOutcome
  settled : Nat
  deriving DecidableEq, Repr

/-- A message slot in use (Table 5-1), with the retry unit's timer and frozen flag of the slot (Table 8-1).
A FREE slot is one the message table does not list. `retryTimer = some 0` is an expiry that is due. -/
structure Message where
  port : PortId
  line : Nat
  billed : AccountIndex
  delivery : AccountIndex
  address : PagerAddress
  kind : PagerKind
  cls : MsgClass
  priority : Priority
  length : Nat
  text : List Byte
  words : Nat
  life : Nat
  home : ZoneSet
  reach : ZoneSet
  tariff : TariffSnapshot
  hold : Nat
  truncated : Bool
  substituted : Bool
  forwarded : Bool
  override : Bool
  noFocus : Bool
  attempts : List Attempt
  closing : Option Closing
  retryTimer : Option Nat
  frozen : Bool
  deriving DecidableEq, Repr

/-! ## Zone dispatcher (Chapter 6) -/

/-- Link rates (Table 6-3): 1,600, 3,200 and 6,400 bit/s. -/
inductive Rate where
  | slow | mid | fast
  deriving DecidableEq, Repr

/-- A zone queue entry (R94). -/
structure QueueEntry where
  slot : SlotId
  epoch : Epoch
  attempt : Nat
  words : Nat
  priority : Priority
  seq : BitVec 32
  deriving DecidableEq, Repr

/-- An entry of a batch in flight, which a close may void (R84). -/
structure BatchEntry where
  entry : QueueEntry
  void : Bool
  deriving DecidableEq, Repr

/-- A batch in flight (Table 6-2). -/
structure Batch where
  number : BitVec 8
  capacity : Nat
  rate : Rate
  entries : List BatchEntry
  totalWords : Nat
  deadline : Nat
  deriving DecidableEq, Repr

/-- The settings copied at a formation: batch period in seconds, T, hysteresis, accept margin (R97). -/
structure DispatchSettings where
  period : Nat
  threshold : Nat
  hysteresis : Nat
  margin : Nat
  deriving DecidableEq, Repr

/-- The settings ZONE_CONFIG writes (Table 6-3). In `rates`, bit 0 is SLOW, bit 1 MID, bit 2 FAST. -/
structure ZoneSettings where
  dispatch : DispatchSettings
  rates : BitVec 3
  capacity : Nat
  identity : Nat
  deriving DecidableEq, Repr

/-- Zone dispatcher state of one zone (Table 6-1). `batchTimer = 0` is an expiry that is due. -/
structure Zone where
  queue : List QueueEntry
  congested : Bool
  nextSeq : BitVec 32
  nextBatch : BitVec 8
  inFlight : Option Batch
  batchTimer : Nat
  written : ZoneSettings
  force : DispatchSettings
  deriving DecidableEq, Repr

/-! ## Zone links (Chapter 7) -/

inductive LinkState where
  | off | hunt | exchange | up | failed
  deriving DecidableEq, Repr

/-- A site's condition as a link record holds it (Table 7-1). -/
inductive RemoteFault where
  | ok | degraded
  deriving DecidableEq, Repr

inductive DownCause where
  | remote | mismatch | wrongSite | timeout | silence | noAccept | restart | renegotiate
  deriving DecidableEq, Repr

/-- The terms agreed at the last entry to UP (Table 7-1). -/
structure Profile where
  rate : Rate
  capacity : Nat
  identity : Nat
  fault : RemoteFault
  deriving DecidableEq, Repr

/-- The site's CAP_BASE while its next page is awaited, with the rate and capacity already evaluated (R118, R119). -/
structure BasePage where
  rates : BitVec 3
  capacity : Nat
  fault : RemoteFault
  nextPage : Bool
  agreedRate : Rate
  agreedCapacity : Nat
  deriving DecidableEq, Repr

/-- The outbound blocks of Table 7-3. The part's CAP_BASE always carries remote fault OK (R117). -/
inductive OutBlock where
  | capBase (rates : BitVec 3) (capacity : Nat) (nextPage : Bool)
  | capNext (identity : Nat)
  | idle
  | batchOpen (number : BitVec 8) (words : Nat)
  | batchWords (words : List AirWord)
  | batchClose (number : BitVec 8)
  deriving DecidableEq, Repr

/-- A link record (Table 7-1). A timer is `none` when stopped; `some 0` is an expiry that is due.
`lineRate` is the rate now in use, and `slowBlocks` counts the blocks that must still leave before the line takes
the negotiated rate (R112). -/
structure Link where
  state : LinkState
  profile : Option Profile
  downCause : Option DownCause
  rxErrors : Nat
  huntTimer : Option Nat
  exchangeTimer : Option Nat
  silenceTimer : Option Nat
  idleTimer : Option Nat
  holdOffTimer : Option Nat
  basePage : Option BasePage
  txQueue : List OutBlock
  onLine : Option OutBlock
  received : Option (List Byte)
  lineRate : Rate
  slowBlocks : Option Nat
  deriving DecidableEq, Repr

/-! ## Journal and credit sweep (Chapter 9) -/

/-- The fields of a SETTLE record (Table 9-2). -/
structure SettleRecord where
  account : AccountIndex
  slot : SlotId
  epoch : Epoch
  outcome : MsgOutcome
  cls : MsgClass
  payloadWords : Nat
  zonesSent : Nat
  attempt : Nat
  amount : Nat
  balanceAfter : Int
  time : Clock
  deriving DecidableEq, Repr

/-- The fields of an ADJUST record (Table 9-2). -/
structure AdjustRecord where
  account : AccountIndex
  amount : Int
  reason : Nat
  balanceAfter : Int
  time : Clock
  deriving DecidableEq, Repr

inductive JournalRecord where
  | settle (r : SettleRecord)
  | adjust (r : AdjustRecord)
  deriving DecidableEq, Repr

/-- The charge journal (Table 9-1). -/
structure Journal where
  records : List JournalRecord
  highWater : Nat
  armed : Bool
  deriving DecidableEq, Repr

inductive SweepMode where
  | stop | continuous | onePass | single
  deriving DecidableEq, Repr

/-- The credit sweep (Table 9-3). -/
structure Sweep where
  mode : SweepMode
  rate : Nat
  single : AccountIndex
  autoSuspend : Bool
  autoResume : Bool
  lowWater : Vector Nat 16
  position : AccountIndex
  passCount : BitVec 16
  deriving DecidableEq, Repr

/-! ## The part -/

/-- Held in reset by RESET_N, running the initialisation pass, or working (R172, R173). -/
inductive Phase where
  | held | starting | working
  deriving DecidableEq, Repr

/-- The strap pins RATE1 and RATE0 as sampled at the last device reset (R159). -/
structure Straps where
  rate1 : Bool
  rate0 : Bool
  deriving DecidableEq, Repr

/-- The state of the CT4. `pending` is the model's own queue of waiting commands; every other field is the spec's. -/
structure State where
  pending : List Instr
  phase : Phase
  straps : Straps
  resetDue : Bool
  tickDivider : Nat
  secondDivider : Nat
  clock : Clock
  ports : Vector Port 4
  directory : Tbl AccountIndex Entry
  addressMap : Tbl PagerAddress AccountIndex
  plans : Vector Plan 16
  classifier : Vector ClassifierEntry 64
  firstDefault : Action
  secondDefault : Action
  checkers : Vector RangeChecker 4
  epochs : Tbl SlotId Epoch
  messages : Tbl SlotId Message
  stalls : List SlotId
  zones : Vector Zone 8
  links : Vector Link 8
  airHold : Bool
  journal : Journal
  sweep : Sweep
  deriving DecidableEq, Repr

/-- No event of the spec stops the part, so the machine has no fault: every command ends in a next state. -/
inductive Fault where
  deriving DecidableEq, Repr

/-- Reasons for having no meaning. -/
inductive Refusal where
  /-- Raised by exec's arm of a command whose meaning is not modelled yet (safe). No arm raises it now. -/
  | notModelled (mnemonic : String)
  deriving DecidableEq, Repr

/-! ## Right after a device reset -/

/-- Table 2-1, column After reset. -/
def Plan.reset : Plan where
  baseTone := 0
  baseNumeric := 0
  baseText := 0
  wordRate := 0
  zoneRate := 0
  m0 := 16
  m1 := 16
  m2 := 16
  m3 := 16
  retryFee := 0
  failFee := 0
  cap := 16777215
  retries := 0
  repeats := 0
  retryBase := 10
  retryCeiling := 600
  defaultLife := 3600
  focusAge := 0
  lowWater := 0
  emergencyOverride := false

/-- R45, R48: PASS, every optional field absent, no-focus clear, chain 0. The stored reason and target, which Table 3-5 and
R48 do not give, are 0 (DESIGN CHOICE, log entry 19). -/
def Action.reset : Action where
  disposition := .pass
  reason := 0
  target := 0
  priority := none
  coverage := none
  noFocus := false
  life := none
  retries := none
  plan := none
  chain := 0

/-- Table 3-5, column After reset. -/
def ClassifierEntry.reset : ClassifierEntry where
  valid := false
  value := 0
  mask := 0
  action := Action.reset

/-- Table 10-1, column After reset, for a port of the given role. -/
def Port.reset (role : Role) : Port where
  receiver := .listening
  frame := []
  role := role
  gap := 4
  events := []
  lost := false
  outcomes := []
  answer := none
  unsent := []
  resetAfter := false

/-- Table 6-1, settings in force after reset. -/
def DispatchSettings.reset : DispatchSettings where
  period := 5
  threshold := 0
  hysteresis := 256
  margin := 50

/-- Table 6-3, column After reset. -/
def ZoneSettings.reset : ZoneSettings where
  dispatch := DispatchSettings.reset
  rates := 7
  capacity := 2048
  identity := 0

/-- Table 6-1, column After reset. -/
def Zone.reset : Zone where
  queue := []
  congested := false
  nextSeq := 0
  nextBatch := 0
  inFlight := none
  batchTimer := 50
  written := ZoneSettings.reset
  force := DispatchSettings.reset

/-- Table 7-1, column After reset; the line stands at SLOW (log entry 7). -/
def Link.reset : Link where
  state := .off
  profile := none
  downCause := none
  rxErrors := 0
  huntTimer := none
  exchangeTimer := none
  silenceTimer := none
  idleTimer := none
  holdOffTimer := none
  basePage := none
  txQueue := []
  onLine := none
  received := none
  lineRate := .slow
  slowBlocks := none

/-- Table 9-3, column After reset. -/
def Sweep.reset : Sweep where
  mode := .stop
  rate := 1
  single := 0
  autoSuspend := false
  autoResume := false
  lowWater := Vector.replicate 16 0
  position := 0
  passCount := 0

/-- The machine right after a device reset with RESET_N high: every record at its After reset value and the
initialisation pass running (R172, R173). The strap levels are the model's choice (log entry 1). -/
def State.reset : State where
  pending := []
  phase := .starting
  straps := ⟨false, false⟩
  resetDue := false
  tickDivider := 0
  secondDivider := 0
  clock := 0
  ports := #v[Port.reset .supervisor, Port.reset .intake, Port.reset .dispatch, Port.reset .accounts]
  directory := []
  addressMap := []
  plans := Vector.replicate 16 Plan.reset
  classifier := Vector.replicate 64 ClassifierEntry.reset
  firstDefault := Action.reset
  secondDefault := Action.reset
  checkers := Vector.replicate 4 ⟨.none, 0, 0⟩
  epochs := []
  messages := []
  stalls := []
  zones := Vector.replicate 8 Zone.reset
  links := Vector.replicate 8 Link.reset
  airHold := false
  journal := ⟨[], 768, true⟩
  sweep := Sweep.reset

end Sys2Proof.Machine
end

