-- ==== Sys2Proof/Machine/Table.lean ====
section
/-! DEFINITION. Reading and writing the tables by key and the fixed banks of State, and the operations on zone sets. -/

namespace Sys2Proof.Machine

/-! ## Tables by key -/

section
variable {κ α β : Type} [LT κ] [DecidableLT κ] [DecidableEq κ]

/-- The value a table holds at a key, when it lists one. -/
def tblGet (k : κ) : Tbl κ α → Option α
  | [] => none
  | (j, v) :: rest => if j = k then some v else tblGet k rest

/-- The table with the value at a key replaced, or inserted at the key's place. -/
def tblSet (k : κ) (v : α) : Tbl κ α → Tbl κ α
  | [] => [(k, v)]
  | (j, w) :: rest =>
    if j = k then (k, v) :: rest
    else if k < j then (k, v) :: (j, w) :: rest
    else (j, w) :: tblSet k v rest

/-- The table without a key. -/
def tblErase (k : κ) (t : Tbl κ α) : Tbl κ α :=
  t.filter fun p => decide (p.1 ≠ k)

/-- The table with every value changed by `f`. -/
def tblMap (f : κ → α → β) (t : Tbl κ α) : Tbl κ β :=
  t.map fun p => (p.1, f p.1 p.2)

/-- The canonical form: keys strictly rising. -/
def tblSorted (t : Tbl κ α) : Prop :=
  List.Pairwise (fun p q : κ × α => p.1 < q.1) t

end

/-! ## Fixed banks -/

section
variable {α β : Type} {n : Nat}

/-- The record with a given number. -/
def bankGet (v : Vector α n) (i : Fin n) : α := v.get i

/-- The bank with one record replaced. -/
def bankSet (v : Vector α n) (i : Fin n) (x : α) : Vector α n := v.set i.val x i.isLt

/-- The bank with every record changed by `f`. -/
def bankMap (f : α → β) (v : Vector α n) : Vector β n :=
  ⟨⟨v.toArray.toList.map f⟩, by simp⟩

end

/-! ## Zone sets -/

/-- Zones 0 to 7 in order. -/
def allZones : List ZoneId := [0, 1, 2, 3, 4, 5, 6, 7]

/-- Ports 0 to 3 in order. -/
def allPorts : List PortId := [0, 1, 2, 3]

/-- Whether a zone is in the set. -/
def zoneIn (z : ZoneId) (zs : ZoneSet) : Bool := zs.getLsbD z.val

/-- The set of one zone. -/
def zoneSingle (z : ZoneId) : ZoneSet := BitVec.twoPow 8 z.val

/-- The set with a zone joined. -/
def zoneInsert (z : ZoneId) (zs : ZoneSet) : ZoneSet := zs ||| zoneSingle z

/-- The set without a zone. -/
def zoneRemove (z : ZoneId) (zs : ZoneSet) : ZoneSet := zs &&& ~~~ zoneSingle z

/-- |S|, the number of zones in the set. -/
def zoneCount (zs : ZoneSet) : Nat := (allZones.filter fun z => zoneIn z zs).length

/-- The set of the zones for which `p` holds. -/
def zonesWhere (p : ZoneId → Bool) : ZoneSet :=
  allZones.foldl (fun zs z => if p z then zoneInsert z zs else zs) 0

end Sys2Proof.Machine
end

