-- ==== Sys2Proof/Machine/Bytes.lean ====
section
/-! DEFINITION. Byte order, the CRC shared by station frames and link blocks, and the codes of Tables 10-5 to 10-8. -/

namespace Sys2Proof.Machine

/-! ## Byte order: multi-byte fields are sent most significant byte first (R169) -/

/-- The number that bytes give, most significant first. -/
def natOfBytes (bs : List Byte) : Nat := bs.foldl (fun n b => n * 256 + b.toNat) 0

/-- The `len` low bytes of a number, most significant first. -/
def bytesOf : (len : Nat) → (n : Nat) → List Byte
  | 0, _ => []
  | len + 1, n => BitVec.ofNat 8 (n / 256 ^ len) :: bytesOf len n

/-- The field of `len` bytes at an offset of a body. -/
def fieldAt (body : List Byte) (off len : Nat) : Nat := natOfBytes ((body.drop off).take len)

/-- A signed field of four bytes, two's complement (Table 10-8). -/
def signedAt (body : List Byte) (off : Nat) : Int := (BitVec.ofNat 32 (fieldAt body off 4)).toInt

/-- Four bytes of two's complement (Table 10-8). -/
def bytesOfInt (x : Int) : List Byte := bytesOf 4 (BitVec.ofInt 32 x).toNat

/-- A flag as sent: 1 set or on, 0 clear or off. -/
def flagByte (b : Bool) : Byte := if b then 1 else 0

/-- A flag in a command body: any value other than 0 is set or on (Table 10-8). -/
def flagAt (body : List Byte) (off : Nat) : Bool := decide (fieldAt body off 1 ≠ 0)

/-! ## Bits on the lines (R112, R159) -/

/-- R112: the bits of a byte on a zone link, most significant bit first. -/
def bitsMsbFirst (b : Byte) : List Bool := (List.range 8).map fun i => b.getLsbD (7 - i)

/-- The byte of eight bits taken most significant first (R112). -/
def byteOfBits (bits : List Bool) : Byte := BitVec.ofNat 8 (bits.foldl (fun n b => 2 * n + b.toNat) 0)

/-- R159: a byte on a station line: one start bit at 0, eight data bits with the least significant bit first, no parity bit,
one stop bit at 1. -/
def characterBits (b : Byte) : List Bool := false :: (bitsMsbFirst b).reverse ++ [true]

/-- R159, R160: the byte of the ten bits from a start bit on; nothing when the stop bit is read as 0. -/
def byteOfCharacter (bits : List Bool) : Option Byte :=
  if bits.length = 10 ∧ bits.head? = some false ∧ bits.getLast? = some true then
    some (byteOfBits ((bits.drop 1).take 8).reverse)
  else none

/-! ## CRC (R113, R159): x^16 + x^12 + x^5 + 1, register starting at all ones, most significant bit first, no inversion -/

/-- One bit of the register's shift. -/
def crcShift (r : BitVec 16) : BitVec 16 :=
  if r.msb then (r <<< 1) ^^^ 0x1021#16 else r <<< 1

/-- The register updated with one byte. -/
def crcByte (r : BitVec 16) (b : Byte) : BitVec 16 :=
  crcShift (crcShift (crcShift (crcShift (crcShift (crcShift (crcShift (crcShift (r ^^^ (b.setWidth 16 <<< 8)))))))))

/-- The CRC over bytes. -/
def crc16 (bs : List Byte) : BitVec 16 := bs.foldl crcByte 0xFFFF#16

/-- The CRC as the two bytes sent, high byte first. -/
def crcBytes (bs : List Byte) : List Byte := bytesOf 2 (crc16 bs).toNat

/-- Whether bytes end with the CRC of the bytes before it. -/
def crcGood (bs : List Byte) : Bool :=
  decide (2 ≤ bs.length ∧ bs.drop (bs.length - 2) = crcBytes (bs.take (bs.length - 2)))

/-! ## Codes -/

/-- Table 10-5. -/
def statusCode : Status → Byte
  | .ok => 0x00
  | .accepted => 0x01
  | .unknownCommand => 0x10
  | .role => 0x11
  | .format => 0x12
  | .range => 0x13
  | .starting => 0x14
  | .noMessage => 0x20
  | .alreadyClosed => 0x21
  | .inUse => 0x22
  | .addressInUse => 0x23
  | .balanceNotZero => 0x24
  | .noSubscriber => 0x25
  | .lastSupervisor => 0x26
  | .journalFull => 0x27
  | .classified => 0x30
  | .forwardInvalid => 0x31
  | .barred => 0x32
  | .suspended => 0x33
  | .outstanding => 0x34
  | .storeFull => 0x35
  | .congested => 0x36
  | .credit => 0x37

/-- Table 10-7, column Code. -/
def eventCode : EventKind → Byte
  | .linkUp => 0x01
  | .linkDown => 0x02
  | .zoneCongested => 0x03
  | .zoneClear => 0x04
  | .creditLow => 0x10
  | .creditExhausted => 0x11
  | .accountSuspended => 0x12
  | .accountResumed => 0x13
  | .sweepPassDone => 0x14
  | .journalHigh => 0x15
  | .lateAck => 0x16

/-- Table 10-7, column Roles. -/
def eventRoles : EventKind → List Role
  | .linkUp | .linkDown => [.dispatch, .supervisor]
  | .zoneCongested | .zoneClear => [.dispatch, .intake, .supervisor]
  | .creditLow | .creditExhausted | .accountSuspended | .accountResumed
  | .sweepPassDone | .journalHigh | .lateAck => [.accounts, .supervisor]

def roleCode : Role → Byte
  | .supervisor => 0
  | .intake => 1
  | .dispatch => 2
  | .accounts => 3

/-- The entry state code; 0 is UNUSED. -/
def entryStateCode : EntryState → Byte
  | .active => 1
  | .suspended _ => 2
  | .barred => 3

/-- The suspend cause code of an entry's state; 0 is absent. -/
def suspendCauseCode : EntryState → Byte
  | .suspended .accounts => 1
  | .suspended .sweep => 2
  | .active | .barred => 0

def pagerKindCode : PagerKind → Byte
  | .oneWay => 0
  | .twoWay => 1

def classCode : MsgClass → Byte
  | .tone => 0
  | .numeric => 1
  | .text => 2

def slotStateCode : SlotState → Byte
  | .free => 0
  | .queued => 1
  | .onAir => 2
  | .wait => 3
  | .stalled => 4
  | .closed => 5

def outcomeCode : MsgOutcome → Byte
  | .delivered => 1
  | .sent => 2
  | .missed => 3
  | .expired => 4
  | .cancelled => 5
  | .purged => 6

def dispositionCode : Disposition → Byte
  | .pass => 0
  | .refuse => 1
  | .forward => 2

def rangeSourceCode : RangeSource → Byte
  | .none => 0
  | .length => 1
  | .hour => 2
  | .line => 3

def linkStateCode : LinkState → Byte
  | .off => 0
  | .hunt => 1
  | .exchange => 2
  | .up => 3
  | .failed => 4

/-- Table 10-8, down cause; 0 is absent. -/
def downCauseCode : DownCause → Byte
  | .remote => 1
  | .mismatch => 2
  | .wrongSite => 3
  | .timeout => 4
  | .silence => 5
  | .noAccept => 6
  | .restart => 7
  | .renegotiate => 8

def remoteFaultCode : RemoteFault → Byte
  | .ok => 0
  | .degraded => 1

/-- Table 0-3 and Table 6-3: the rate in bit/s. -/
def rateBits : Rate → Nat
  | .slow => 1600
  | .mid => 3200
  | .fast => 6400

def sweepModeCode : SweepMode → Byte
  | .stop => 0
  | .continuous => 1
  | .onePass => 2
  | .single => 3

/-- Credit flags byte: bit 0 LOW, bit 1 EXHAUSTED. -/
def creditFlagsByte (low exhausted : Bool) : Byte :=
  (if low then 1 else 0) ||| (if exhausted then 2 else 0)

/-- Admission flags byte: bit 0 TRUNCATED, bit 1 SUBSTITUTED, bit 2 FORWARDED, bit 3 OVERRIDE. -/
def admissionFlagsByte (m : Message) : Byte :=
  (if m.truncated then 1 else 0) ||| (if m.substituted then 2 else 0)
    ||| (if m.forwarded then 4 else 0) ||| (if m.override then 8 else 0)

/-- Admission flags with bit 4 no-focus, as QUERY_MESSAGE names it. -/
def admissionFlagsFocusByte (m : Message) : Byte :=
  admissionFlagsByte m ||| (if m.noFocus then 16 else 0)

/-! ## Coded values of a command body; a code outside the list is out of range (R169) -/

def roleOfCode : Nat → Option Role
  | 0 => some .supervisor
  | 1 => some .intake
  | 2 => some .dispatch
  | 3 => some .accounts
  | _ => none

def pagerKindOfCode : Nat → Option PagerKind
  | 0 => some .oneWay
  | 1 => some .twoWay
  | _ => none

def classOfCode : Nat → Option MsgClass
  | 0 => some .tone
  | 1 => some .numeric
  | 2 => some .text
  | _ => none

def dispositionOfCode : Nat → Option Disposition
  | 0 => some .pass
  | 1 => some .refuse
  | 2 => some .forward
  | _ => none

def rangeSourceOfCode : Nat → Option RangeSource
  | 0 => some .none
  | 1 => some .length
  | 2 => some .hour
  | 3 => some .line
  | _ => none

def sweepModeOfCode : Nat → Option SweepMode
  | 0 => some .stop
  | 1 => some .continuous
  | 2 => some .onePass
  | 3 => some .single
  | _ => none

/-- A number below a bound, and nothing for a number out of range. -/
def finBelow (n v : Nat) : Option (Fin n) := if h : v < n then some ⟨v, h⟩ else none

/-- A number within low..high, and nothing for a number out of range. -/
def within (low high v : Nat) : Option Nat := if low ≤ v ∧ v ≤ high then some v else none

end Sys2Proof.Machine
end

