-- ==== Sys2Proof/Machine/Operands.lean ====
section
/-! DEFINITION. The command bodies of Table 10-9 read field by field, each read answering nothing where the owner's RANGE check fails, and the composite fields of Table 10-8 written into responses. -/

namespace Sys2Proof.Machine

/-! ## Composite fields -/

/-- A presence field: an absent field's value is not checked (Table 10-8). -/
def optionalField {α : Type} (isPresent : Bool) (value : Option α) : Option (Option α) :=
  if isPresent then value.map some else some none

/-- The 16 bytes of an action (Table 10-8) under the ranges of Table 3-8. A coverage given as the empty set is stored
as absent (R47). -/
def readAction (body : List Byte) (off : Nat) : Option Action := do
  let disposition ← dispositionOfCode (fieldAt body off 1)
  let reason ← finBelow 16 (fieldAt body (off + 1) 1)
  let target ← finBelow 8192 (fieldAt body (off + 2) 2)
  let priority ← optionalField (flagAt body (off + 4)) (finBelow 4 (fieldAt body (off + 5) 1))
  let coverage : ZoneSet := BitVec.ofNat 8 (fieldAt body (off + 6) 1)
  let life ← optionalField (flagAt body (off + 8)) (within 1 65535 (fieldAt body (off + 9) 2))
  let retries ← optionalField (flagAt body (off + 11)) (within 0 7 (fieldAt body (off + 12) 1))
  let plan ← optionalField (flagAt body (off + 13)) (finBelow 16 (fieldAt body (off + 14) 1))
  let chain ← finBelow 64 (fieldAt body (off + 15) 1)
  return {
    disposition := disposition
    reason := BitVec.ofNat 4 reason.val
    target := target
    priority := priority
    coverage := if coverage = 0 then none else some coverage
    noFocus := flagAt body (off + 7)
    life := life
    retries := retries
    plan := plan
    chain := BitVec.ofNat 6 chain.val }

/-- A presence field with a value of `len` bytes; an absent field's value is sent as 0 (Table 10-8). -/
def presenceBytes (len : Nat) : Option Nat → List Byte
  | none => 0 :: bytesOf len 0
  | some v => 1 :: bytesOf len v

/-- The 14 bytes of an action from priority to chain. -/
def actionTailBytes (priority : Option Priority) (coverage : Option ZoneSet) (noFocus : Bool) (life retries : Option Nat)
    (plan : Option PlanIndex) (chain : Nat) : List Byte :=
  presenceBytes 1 (priority.map fun p => p.val) ++ [coverage.getD 0, flagByte noFocus] ++ presenceBytes 2 life
    ++ presenceBytes 1 retries ++ presenceBytes 1 (plan.map fun p => p.val) ++ bytesOf 1 chain

/-- The 16 bytes of an action (Table 10-8). -/
def actionBytes (a : Action) : List Byte :=
  [dispositionCode a.disposition] ++ bytesOf 1 a.reason.toNat ++ bytesOf 2 a.target.val
    ++ actionTailBytes a.priority a.coverage a.noFocus a.life a.retries a.plan a.chain.toNat

/-- A classifier key: bits 55..51 are ignored (Table 10-8). -/
def readKey (body : List Byte) (off : Nat) : BitVec 51 := BitVec.ofNat 51 (fieldAt body off 7)

/-- A message id: slot in 2 bytes, epoch in 1 (Table 10-8). -/
def messageIdBytes (slot : SlotId) (e : Epoch) : List Byte := bytesOf 2 slot.val ++ bytesOf 1 e.toNat

/-- A message id in range: slot 0..511 and epoch 0..15 (R77). -/
def readMessageId (body : List Byte) : Option (SlotId × Epoch) := do
  let slot ← finBelow 512 (fieldAt body 0 2)
  let e ← finBelow 16 (fieldAt body 2 1)
  return (slot, BitVec.ofNat 4 e.val)

/-- A directory index at the start of a body. -/
def readIndex (body : List Byte) : Option AccountIndex := finBelow 8192 (fieldAt body 0 2)

/-- A zone number at the start of a body. -/
def readZoneNumber (body : List Byte) : Option ZoneId := finBelow 8 (fieldAt body 0 1)

/-! ## Directory and plans -/

/-- The fields of Table 1-3. -/
structure SubscriberWriteReq where
  index : AccountIndex
  initial : EntryState
  address : PagerAddress
  kind : PagerKind
  plan : PlanIndex
  home : ZoneSet
  region : ZoneSet
  limit : Nat
  deriving DecidableEq, Repr

/-- The initial state of a created entry: ACTIVE, or SUSPENDED, whose cause is then ACCOUNTS (R10, R12). -/
def initialStateOfCode : Nat → Option EntryState
  | 1 => some .active
  | 2 => some (.suspended .accounts)
  | _ => none

/-- The SUBSCRIBER_WRITE body under the ranges of Table 1-3 (R10). -/
def readSubscriberWrite (body : List Byte) : Option SubscriberWriteReq := do
  let index ← readIndex body
  let initial ← initialStateOfCode (fieldAt body 2 1)
  let address ← finBelow 4194304 (fieldAt body 3 3)
  let kind ← pagerKindOfCode (fieldAt body 6 1)
  let plan ← finBelow 16 (fieldAt body 7 1)
  let home : ZoneSet := BitVec.ofNat 8 (fieldAt body 8 1)
  let limit ← within 1 15 (fieldAt body 10 1)
  if home = 0 then none
  else return {
    index := index
    initial := initial
    address := BitVec.ofNat 22 address.val
    kind := kind
    plan := plan
    home := home
    region := BitVec.ofNat 8 (fieldAt body 9 1)
    limit := limit }

/-- The PLAN_WRITE body under the ranges of Table 2-1 (R20). -/
def readPlanWrite (body : List Byte) : Option (PlanIndex × Plan) := do
  let index ← finBelow 16 (fieldAt body 0 1)
  let wordRate ← within 0 4095 (fieldAt body 7 2)
  let zoneRate ← within 0 4095 (fieldAt body 9 2)
  let m0 ← within 16 255 (fieldAt body 11 1)
  let m1 ← within 16 255 (fieldAt body 12 1)
  let m2 ← within 16 255 (fieldAt body 13 1)
  let m3 ← within 16 255 (fieldAt body 14 1)
  let retryFee ← within 0 4095 (fieldAt body 15 2)
  let cap ← within 1 16777215 (fieldAt body 19 3)
  let retries ← within 0 7 (fieldAt body 22 1)
  let repeats ← within 0 3 (fieldAt body 23 1)
  let retryBase ← within 1 255 (fieldAt body 24 1)
  let retryCeiling ← within 1 65534 (fieldAt body 25 2)
  let defaultLife ← within 1 65535 (fieldAt body 27 2)
  return (index, {
    baseTone := fieldAt body 1 2
    baseNumeric := fieldAt body 3 2
    baseText := fieldAt body 5 2
    wordRate := wordRate
    zoneRate := zoneRate
    m0 := m0
    m1 := m1
    m2 := m2
    m3 := m3
    retryFee := retryFee
    failFee := fieldAt body 17 2
    cap := cap
    retries := retries
    repeats := repeats
    retryBase := retryBase
    retryCeiling := retryCeiling
    defaultLife := defaultLife
    focusAge := fieldAt body 29 2
    lowWater := fieldAt body 31 3
    emergencyOverride := flagAt body 34 })

/-- The PLAN_READ response body: 35 bytes as the PLAN_WRITE body (Table 10-9). -/
def planBytes (i : PlanIndex) (p : Plan) : List Byte :=
  bytesOf 1 i.val ++ bytesOf 2 p.baseTone ++ bytesOf 2 p.baseNumeric ++ bytesOf 2 p.baseText ++ bytesOf 2 p.wordRate
    ++ bytesOf 2 p.zoneRate ++ bytesOf 1 p.m0 ++ bytesOf 1 p.m1 ++ bytesOf 1 p.m2 ++ bytesOf 1 p.m3
    ++ bytesOf 2 p.retryFee ++ bytesOf 2 p.failFee ++ bytesOf 3 p.cap ++ bytesOf 1 p.retries ++ bytesOf 1 p.repeats
    ++ bytesOf 1 p.retryBase ++ bytesOf 2 p.retryCeiling ++ bytesOf 2 p.defaultLife ++ bytesOf 2 p.focusAge
    ++ bytesOf 3 p.lowWater ++ [flagByte p.emergencyOverride]

/-! ## Classifier -/

/-- The CLASSIFIER_WRITE body under the ranges of Table 3-8 (R54). -/
def readClassifierWrite (body : List Byte) : Option (Fin 64 × ClassifierEntry) := do
  let index ← finBelow 64 (fieldAt body 0 1)
  let action ← readAction body 16
  return (index, {
    valid := flagAt body 1
    value := readKey body 2
    mask := readKey body 9
    action := action })

/-- Which default a CLASSIFIER_DEFAULT names: `false` FIRST, `true` SECOND (R55). -/
def lookupOfCode : Nat → Option Bool
  | 0 => some false
  | 1 => some true
  | _ => none

/-- The CLASSIFIER_DEFAULT body (R55). -/
def readClassifierDefault (body : List Byte) : Option (Bool × Action) := do
  let second ← lookupOfCode (fieldAt body 0 1)
  let action ← readAction body 1
  return (second, action)

/-- The RANGE_WRITE body (R44): bounds 0..255, and 0..23 for HOUR. -/
def readRangeWrite (body : List Byte) : Option (Fin 4 × RangeChecker) := do
  let index ← finBelow 4 (fieldAt body 0 1)
  let source ← rangeSourceOfCode (fieldAt body 1 1)
  let low := fieldAt body 2 1
  let high := fieldAt body 3 1
  if source = .hour ∧ (23 < low ∨ 23 < high) then none
  else return (index, ⟨source, low, high⟩)

/-! ## Messages -/

/-- The fields of a SUBMIT body (Table 4-2). -/
structure SubmitReq where
  billed : AccountIndex
  cls : MsgClass
  priority : Priority
  life : Nat
  line : Nat
  text : List Byte
  deriving DecidableEq, Repr

/-- R60: at least 8 bytes, and exactly 8 plus the value of the length byte. -/
def submitWellFormed (body : List Byte) : Bool :=
  decide (8 ≤ body.length ∧ body.length = 8 + fieldAt body 7 1)

/-- The SUBMIT body under the ranges of R60. -/
def readSubmit (body : List Byte) : Option SubmitReq := do
  let billed ← readIndex body
  let cls ← classOfCode (fieldAt body 2 1)
  let priority ← finBelow 4 (fieldAt body 3 1)
  return {
    billed := billed
    cls := cls
    priority := priority
    life := fieldAt body 4 2
    line := fieldAt body 6 1
    text := body.drop 8 }

/-- R58, R169: at least 7 bytes, exactly 7 plus the length byte, and a port number 0..3. -/
def probeWellFormed (body : List Byte) : Bool :=
  decide (7 ≤ body.length ∧ body.length = 7 + fieldAt body 6 1 ∧ fieldAt body 0 1 ≤ 3)

/-- The fields of a CLASSIFY_PROBE body (R58). -/
structure ProbeReq where
  port : PortId
  billed : AccountIndex
  cls : MsgClass
  priority : Priority
  line : Nat
  text : List Byte
  deriving DecidableEq, Repr

/-- The CLASSIFY_PROBE body under the ranges of R58. -/
def readProbe (body : List Byte) : Option ProbeReq := do
  let port ← finBelow 4 (fieldAt body 0 1)
  let billed ← finBelow 8192 (fieldAt body 1 2)
  let cls ← classOfCode (fieldAt body 3 1)
  let priority ← finBelow 4 (fieldAt body 4 1)
  return {
    port := port
    billed := billed
    cls := cls
    priority := priority
    line := fieldAt body 5 1
    text := body.drop 7 }

/-! ## Zones and links -/

/-- A rate set byte: bit 0 SLOW, bit 1 MID, bit 2 FAST, other bits ignored (Table 10-8). -/
def rateSetAt (body : List Byte) (off : Nat) : BitVec 3 := BitVec.ofNat 3 (fieldAt body off 1)

/-- The ZONE_CONFIG body under the ranges of Table 6-3 (R97). -/
def readZoneConfig (body : List Byte) : Option (ZoneId × ZoneSettings) := do
  let zone ← readZoneNumber body
  let period ← within 1 60 (fieldAt body 1 1)
  let margin ← within 10 600 (fieldAt body 6 2)
  let capacity ← within 96 2048 (fieldAt body 9 2)
  if rateSetAt body 8 = 0 then none
  else return (zone, {
    dispatch := ⟨period, fieldAt body 2 2, fieldAt body 4 2, margin⟩
    rates := rateSetAt body 8
    capacity := capacity
    identity := fieldAt body 11 2 })

/-- The LINK_ENABLE body: zone, and on (1) or off (0) (R116). -/
def readLinkEnable (body : List Byte) : Option (ZoneId × Bool) := do
  let zone ← readZoneNumber body
  let setting ← finBelow 2 (fieldAt body 1 1)
  return (zone, decide (setting.val = 1))

/-! ## Accounts, journal and sweep -/

/-- The ACCOUNT_ADJUST body: index, amount −16,777,215..+16,777,215, reason (R150). -/
def readAccountAdjust (body : List Byte) : Option (AccountIndex × Int × Nat) := do
  let index ← readIndex body
  let amount := signedAt body 2
  if amount < -16777215 ∨ 16777215 < amount then none
  else return (index, amount, fieldAt body 6 1)

/-- The ACCOUNT_LIMIT body (R151). -/
def readAccountLimit (body : List Byte) : Option (AccountIndex × Nat) := do
  let index ← readIndex body
  let limit ← within 0 16777215 (fieldAt body 2 4)
  return (index, limit)

/-- The state an ACCOUNT_STATE writes; SUSPENDED has cause ACCOUNTS (R152). -/
def accountStateOfCode : Nat → Option EntryState
  | 1 => some .active
  | 2 => some (.suspended .accounts)
  | 3 => some .barred
  | _ => none

/-- The ACCOUNT_STATE body; a purge with ACTIVE is out of range (R152). -/
def readAccountState (body : List Byte) : Option (AccountIndex × EntryState × Bool) := do
  let index ← readIndex body
  let state ← accountStateOfCode (fieldAt body 2 1)
  if state = .active ∧ flagAt body 3 then none
  else return (index, state, flagAt body 3)

/-- What a SWEEP_START carries (R153). -/
structure SweepReq where
  mode : SweepMode
  rate : Nat
  single : AccountIndex
  autoSuspend : Bool
  autoResume : Bool
  deriving DecidableEq, Repr

/-- The SWEEP_START body (R153). -/
def readSweepStart (body : List Byte) : Option SweepReq := do
  let mode ← sweepModeOfCode (fieldAt body 0 1)
  let rate ← within 1 64 (fieldAt body 1 1)
  let single ← finBelow 8192 (fieldAt body 2 2)
  return {
    mode := mode
    rate := rate
    single := single
    autoSuspend := flagAt body 4
    autoResume := flagAt body 5 }

/-! ## Ports -/

/-- The SET_ROLE body (R164). -/
def readSetRole (body : List Byte) : Option (PortId × Role) := do
  let port ← finBelow 4 (fieldAt body 0 1)
  let role ← roleOfCode (fieldAt body 1 1)
  return (port, role)

/-- The PORT_CONFIG body (R165). -/
def readPortConfig (body : List Byte) : Option (PortId × Nat) := do
  let port ← finBelow 4 (fieldAt body 0 1)
  let gap ← within 2 15 (fieldAt body 1 1)
  return (port, gap)

/-! ## Inbound link blocks (Table 7-3); a field out of its range makes the block one of bad length (R113) -/

/-- Remote fault as a site sends it: OK, DEGRADED, or `none` for OFFLINE. -/
def siteFaultOfCode : Nat → Option (Option RemoteFault)
  | 0 => some (some .ok)
  | 1 => some (some .degraded)
  | 2 => some none
  | _ => none

/-- A site's CAP_BASE page; a fault of `none` is OFFLINE. -/
structure SitePage where
  rates : BitVec 3
  capacity : Nat
  fault : Option RemoteFault
  nextPage : Bool
  deriving DecidableEq, Repr

/-- A CAP_BASE body: rate set 1, capacity 2, remote fault 1, next-page flag 1. -/
def readCapBase (body : List Byte) : Option SitePage :=
  if body.length ≠ 5 then none
  else do
    let capacity ← within 96 2048 (fieldAt body 1 2)
    let fault ← siteFaultOfCode (fieldAt body 3 1)
    return ⟨rateSetAt body 0, capacity, fault, flagAt body 4⟩

/-- A CAP_NEXT body: identity 2. -/
def readCapNext (body : List Byte) : Option Nat :=
  if body.length ≠ 2 then none else some (fieldAt body 0 2)

/-- An IDLE body: none. -/
def readIdle (body : List Byte) : Option Unit :=
  if body.length ≠ 0 then none else some ()

/-- A BATCH_ACCEPT or BATCH_REFUSE body: batch number 1. -/
def readBatchAnswer (body : List Byte) : Option (BitVec 8) :=
  if body.length ≠ 1 then none else some (BitVec.ofNat 8 (fieldAt body 0 1))

/-- What a PAGER_ACK carries: the address, and slot, epoch and attempt of the tag word (Table 7-4). -/
structure AckTag where
  address : PagerAddress
  slot : SlotId
  epoch : Epoch
  attempt : Nat
  deriving DecidableEq, Repr

/-- A PAGER_ACK body: pager address 3 (low 22 bits), tag word 4. Bits 8..0 of the tag word, which Table 7-4 shows zero, are
not looked at (DESIGN CHOICE, log entry 20). -/
def readPagerAck (body : List Byte) : Option AckTag :=
  if body.length ≠ 7 then none
  else
    let tag : BitVec 32 := BitVec.ofNat 32 (fieldAt body 3 4)
    some {
      address := BitVec.ofNat 22 (fieldAt body 0 3)
      slot := (tag.extractLsb' 23 9).toFin
      epoch := tag.extractLsb' 19 4
      attempt := (tag.extractLsb' 16 3).toNat }

/-- A PAGER_LOCATE body: pager address 3. -/
def readPagerLocate (body : List Byte) : Option PagerAddress :=
  if body.length ≠ 3 then none else some (BitVec.ofNat 22 (fieldAt body 0 3))

/-- A SITE_STATUS body: remote fault 1. -/
def readSiteStatus (body : List Byte) : Option (Option RemoteFault) :=
  if body.length ≠ 1 then none else siteFaultOfCode (fieldAt body 0 1)

/-- Whether the kind of a block is an inbound one and its body is well formed for it (R113, Table 7-3). -/
def inboundBodyGood (kind : Nat) (body : List Byte) : Bool :=
  match kind with
  | 0x01 => (readCapBase body).isSome
  | 0x02 => (readCapNext body).isSome
  | 0x03 => (readIdle body).isSome
  | 0x20 | 0x21 => (readBatchAnswer body).isSome
  | 0x22 => (readPagerAck body).isSome
  | 0x23 => (readPagerLocate body).isSome
  | 0x24 => (readSiteStatus body).isSome
  | _ => false

/-- Whether the bytes of a block from kind to CRC are judged valid (R114): the length byte is at most 128 and gives the
body that is there, the CRC is good, and the kind is an inbound one whose body is well formed. -/
def blockGood (block : List Byte) : Bool :=
  decide (4 ≤ block.length ∧ block.length = 4 + fieldAt block 1 1 ∧ fieldAt block 1 1 ≤ 128) && crcGood block
    && inboundBodyGood (fieldAt block 0 1) ((block.drop 2).take (fieldAt block 1 1))

/-- Whether the bytes of a command frame from LENGTH to CRC carry a good CRC (R160). -/
def frameGood (frame : List Byte) : Bool :=
  decide (4 ≤ frame.length ∧ frame.length = 4 + fieldAt frame 0 1) && crcGood frame

/-- The command codes of Table 10-6. -/
def catalogueCodes : List Byte :=
  [0x10, 0x11, 0x12, 0x18, 0x19, 0x20, 0x21, 0x22, 0x23, 0x24, 0x25, 0x30, 0x31, 0x32, 0x33, 0x40, 0x41, 0x42, 0x43,
   0x48, 0x49, 0x4A, 0x50, 0x58, 0x59, 0x5A, 0x5B, 0x5C, 0x5D, 0x5E, 0x5F, 0x60, 0x61, 0x62, 0x63, 0x68, 0x69, 0x6A]

end Sys2Proof.Machine
end

