-- ==== Sys2Proof/WellFormed.lean ====
section
/-! DEFINITION. Which terms of Instr are commands that the part can be given: bodies that a frame or a block can carry, and events that are what their name says. -/

namespace Sys2Proof

/-- Table 10-3: LENGTH is one byte, so a frame carries 0 to 255 body bytes. -/
def frameBody (body : List Byte) : Bool := decide (body.length ≤ 255)

/-- R113: the length byte of a block is at most 128. -/
def blockBody (body : List Byte) : Bool := decide (body.length ≤ 128)

/-- A command that can be given. -/
def Instr.wellFormed : Instr → Bool
  | .subscriberWrite _ body | .subscriberRead _ body | .subscriberDelete _ body | .planWrite _ body | .planRead _ body
  | .classifierWrite _ body | .classifierDefault _ body | .classifierRead _ body | .rangeWrite _ body | .rangeRead _ body
  | .classifyProbe _ body | .submit _ body | .cancel _ body | .queryMessage _ body | .fetchOutcomes _ body
  | .zoneConfig _ body | .readZone _ body | .airHold _ body | .airRelease _ body | .linkEnable _ body
  | .linkRestart _ body | .readLink _ body | .retryStatus _ body | .accountRead _ body | .accountAdjust _ body
  | .accountLimit _ body | .accountState _ body | .journalFetch _ body | .journalConfig _ body | .sweepStart _ body
  | .sweepStatus _ body | .fetchEvents _ body | .setRole _ body | .portConfig _ body | .portRead _ body
  | .readClock _ body | .clockSet _ body | .officeReset _ body => frameBody body
  | .unknownCommand _ code body => frameBody body && decide (code ∉ Machine.catalogueCodes)
  | .commandFrameBadCrc _ frame =>
    decide (4 ≤ frame.length ∧ frame.length = 4 + Machine.fieldAt frame 0 1) && !Machine.frameGood frame
  | .capBase _ body | .capNext _ body | .idle _ body | .batchAccept _ body | .batchRefuse _ body | .pagerAck _ body
  | .pagerLocate _ body | .siteStatus _ body => blockBody body
  | .badBlock _ block => !Machine.blockGood block
  | .frameAbandoned _ | .turnAroundGapExpiry _ | .responseSent _ | .lineBreak _ | .officeResetTakesEffect _ _
  | .powerOn _ _ | .resetNLow _ _ | .resetNHigh | .initialisationPassEnd | .tick | .oneSecondStep | .lifeExpiry _
  | .batchTimerExpiry _ | .acceptDeadlineExpiry _ | .huntTimerExpiry _ | .exchangeTimerExpiry _ | .silenceTimerExpiry _
  | .idleTimerExpiry _ | .holdOffTimerExpiry _ | .retryExpiry _ | .repeatExpiry _ | .linkBlockSent _ => true

end Sys2Proof
end

