-- ==== Sys2Proof/Decode.lean ====
section
/-! DEFINITION. What a word of the table, a station frame and a link block spell, and the frames and blocks that spell a command. -/

namespace Sys2Proof

/-- The command a table word spells: no row of spec/opcode_table.json gives bits, so no word spells one. -/
def decodeTableWord (_nbits _w : Nat) : Option Instr := none

/-! ## Station frames (R160, R161) -/

/-- Table 10-6: the command of a code. -/
def stationCommand (p : PortId) (code : Byte) (body : List Byte) : Instr :=
  match code.toNat with
  | 0x10 => .subscriberWrite p body
  | 0x11 => .subscriberRead p body
  | 0x12 => .subscriberDelete p body
  | 0x18 => .planWrite p body
  | 0x19 => .planRead p body
  | 0x20 => .classifierWrite p body
  | 0x21 => .classifierDefault p body
  | 0x22 => .classifierRead p body
  | 0x23 => .rangeWrite p body
  | 0x24 => .rangeRead p body
  | 0x25 => .classifyProbe p body
  | 0x30 => .submit p body
  | 0x31 => .cancel p body
  | 0x32 => .queryMessage p body
  | 0x33 => .fetchOutcomes p body
  | 0x40 => .zoneConfig p body
  | 0x41 => .readZone p body
  | 0x42 => .airHold p body
  | 0x43 => .airRelease p body
  | 0x48 => .linkEnable p body
  | 0x49 => .linkRestart p body
  | 0x4A => .readLink p body
  | 0x50 => .retryStatus p body
  | 0x58 => .accountRead p body
  | 0x59 => .accountAdjust p body
  | 0x5A => .accountLimit p body
  | 0x5B => .accountState p body
  | 0x5C => .journalFetch p body
  | 0x5D => .journalConfig p body
  | 0x5E => .sweepStart p body
  | 0x5F => .sweepStatus p body
  | 0x60 => .fetchEvents p body
  | 0x61 => .setRole p body
  | 0x62 => .portConfig p body
  | 0x63 => .portRead p body
  | 0x68 => .readClock p body
  | 0x69 => .clockSet p body
  | 0x6A => .officeReset p body
  | _ => .unknownCommand p code body

/-- R160: the bytes of a whole command frame from LENGTH to CRC, judged. -/
def takeStationFrame (p : PortId) (frame : List Byte) : Instr :=
  if Machine.frameGood frame then
    match frame with
    | _ :: code :: rest => stationCommand p code (rest.take (rest.length - 2))
    | _ => .commandFrameBadCrc p frame
  else .commandFrameBadCrc p frame

/-- The port, code and body of a frame that carries a command. -/
def stationFields : Instr → Option (PortId × Byte × List Byte)
  | .subscriberWrite p body => some (p, 0x10, body)
  | .subscriberRead p body => some (p, 0x11, body)
  | .subscriberDelete p body => some (p, 0x12, body)
  | .planWrite p body => some (p, 0x18, body)
  | .planRead p body => some (p, 0x19, body)
  | .classifierWrite p body => some (p, 0x20, body)
  | .classifierDefault p body => some (p, 0x21, body)
  | .classifierRead p body => some (p, 0x22, body)
  | .rangeWrite p body => some (p, 0x23, body)
  | .rangeRead p body => some (p, 0x24, body)
  | .classifyProbe p body => some (p, 0x25, body)
  | .submit p body => some (p, 0x30, body)
  | .cancel p body => some (p, 0x31, body)
  | .queryMessage p body => some (p, 0x32, body)
  | .fetchOutcomes p body => some (p, 0x33, body)
  | .zoneConfig p body => some (p, 0x40, body)
  | .readZone p body => some (p, 0x41, body)
  | .airHold p body => some (p, 0x42, body)
  | .airRelease p body => some (p, 0x43, body)
  | .linkEnable p body => some (p, 0x48, body)
  | .linkRestart p body => some (p, 0x49, body)
  | .readLink p body => some (p, 0x4A, body)
  | .retryStatus p body => some (p, 0x50, body)
  | .accountRead p body => some (p, 0x58, body)
  | .accountAdjust p body => some (p, 0x59, body)
  | .accountLimit p body => some (p, 0x5A, body)
  | .accountState p body => some (p, 0x5B, body)
  | .journalFetch p body => some (p, 0x5C, body)
  | .journalConfig p body => some (p, 0x5D, body)
  | .sweepStart p body => some (p, 0x5E, body)
  | .sweepStatus p body => some (p, 0x5F, body)
  | .fetchEvents p body => some (p, 0x60, body)
  | .setRole p body => some (p, 0x61, body)
  | .portConfig p body => some (p, 0x62, body)
  | .portRead p body => some (p, 0x63, body)
  | .readClock p body => some (p, 0x68, body)
  | .clockSet p body => some (p, 0x69, body)
  | .officeReset p body => some (p, 0x6A, body)
  | .unknownCommand p code body => some (p, code, body)
  | .commandFrameBadCrc _ _ | .frameAbandoned _ | .turnAroundGapExpiry _ | .responseSent _ | .lineBreak _
  | .officeResetTakesEffect _ _ | .powerOn _ _ | .resetNLow _ _ | .resetNHigh | .initialisationPassEnd | .tick
  | .oneSecondStep | .lifeExpiry _ | .batchTimerExpiry _ | .acceptDeadlineExpiry _ | .huntTimerExpiry _
  | .exchangeTimerExpiry _ | .silenceTimerExpiry _ | .idleTimerExpiry _ | .holdOffTimerExpiry _ | .retryExpiry _
  | .repeatExpiry _ | .capBase _ _ | .capNext _ _ | .idle _ _ | .batchAccept _ _ | .batchRefuse _ _
  | .pagerAck _ _ | .pagerLocate _ _ | .siteStatus _ _ | .badBlock _ _ | .linkBlockSent _ => none

/-- Table 10-3: a command frame from LENGTH to CRC; START, 0xC3, comes before it. -/
def stationFrame (code : Byte) (body : List Byte) : List Byte :=
  let covered := Machine.bytesOf 1 body.length ++ code :: body
  covered ++ Machine.crcBytes covered

/-! ## Link blocks (R113, R114) -/

/-- Table 7-3: the block of an inbound kind. -/
def linkBlockOf (z : ZoneId) (kind : Nat) (body : List Byte) : Option Instr :=
  match kind with
  | 0x01 => some (.capBase z body)
  | 0x02 => some (.capNext z body)
  | 0x03 => some (.idle z body)
  | 0x20 => some (.batchAccept z body)
  | 0x21 => some (.batchRefuse z body)
  | 0x22 => some (.pagerAck z body)
  | 0x23 => some (.pagerLocate z body)
  | 0x24 => some (.siteStatus z body)
  | _ => none

/-- R114: the bytes of a block from kind to CRC, judged. -/
def takeLinkBlock (z : ZoneId) (block : List Byte) : Instr :=
  if Machine.blockGood block then
    (linkBlockOf z (Machine.fieldAt block 0 1) ((block.drop 2).take (Machine.fieldAt block 1 1))).getD (.badBlock z block)
  else .badBlock z block

/-- The zone, kind and body of an inbound block. -/
def linkFields : Instr → Option (ZoneId × Byte × List Byte)
  | .capBase z body => some (z, 0x01, body)
  | .capNext z body => some (z, 0x02, body)
  | .idle z body => some (z, 0x03, body)
  | .batchAccept z body => some (z, 0x20, body)
  | .batchRefuse z body => some (z, 0x21, body)
  | .pagerAck z body => some (z, 0x22, body)
  | .pagerLocate z body => some (z, 0x23, body)
  | .siteStatus z body => some (z, 0x24, body)
  | .subscriberWrite _ _ | .subscriberRead _ _ | .subscriberDelete _ _ | .planWrite _ _ | .planRead _ _
  | .classifierWrite _ _ | .classifierDefault _ _ | .classifierRead _ _ | .rangeWrite _ _ | .rangeRead _ _
  | .classifyProbe _ _ | .submit _ _ | .cancel _ _ | .queryMessage _ _ | .fetchOutcomes _ _ | .zoneConfig _ _
  | .readZone _ _ | .airHold _ _ | .airRelease _ _ | .linkEnable _ _ | .linkRestart _ _ | .readLink _ _
  | .retryStatus _ _ | .accountRead _ _ | .accountAdjust _ _ | .accountLimit _ _ | .accountState _ _
  | .journalFetch _ _ | .journalConfig _ _ | .sweepStart _ _ | .sweepStatus _ _ | .fetchEvents _ _
  | .setRole _ _ | .portConfig _ _ | .portRead _ _ | .readClock _ _ | .clockSet _ _ | .officeReset _ _
  | .unknownCommand _ _ _ | .commandFrameBadCrc _ _ | .frameAbandoned _ | .turnAroundGapExpiry _
  | .responseSent _ | .lineBreak _ | .officeResetTakesEffect _ _ | .powerOn _ _ | .resetNLow _ _ | .resetNHigh
  | .initialisationPassEnd | .tick | .oneSecondStep | .lifeExpiry _ | .batchTimerExpiry _
  | .acceptDeadlineExpiry _ | .huntTimerExpiry _ | .exchangeTimerExpiry _ | .silenceTimerExpiry _
  | .idleTimerExpiry _ | .holdOffTimerExpiry _ | .retryExpiry _ | .repeatExpiry _ | .badBlock _ _
  | .linkBlockSent _ => none

/-- Table 7-2: a block from kind to CRC; the sync byte, 0xA6, comes before it. -/
def linkBlock (kind : Byte) (body : List Byte) : List Byte :=
  let covered := kind :: Machine.bytesOf 1 body.length ++ body
  covered ++ Machine.crcBytes covered

end Sys2Proof
end

