-- ==== Sys2Proof/Machine/Ops.lean ====
section
/-! DEFINITION. The named operations over State that every meaning is written with: the accessors of its records, posting an event, taking a command on a port and answering it, and the device reset. -/

namespace Sys2Proof.Machine

/-! ## Accessors -/

def State.port (s : State) (p : PortId) : Port := bankGet s.ports p
def State.setPort (s : State) (p : PortId) (x : Port) : State := { s with ports := bankSet s.ports p x }

def State.zone (s : State) (z : ZoneId) : Zone := bankGet s.zones z
def State.setZone (s : State) (z : ZoneId) (x : Zone) : State := { s with zones := bankSet s.zones z x }

def State.link (s : State) (z : ZoneId) : Link := bankGet s.links z
def State.setLink (s : State) (z : ZoneId) (x : Link) : State := { s with links := bankSet s.links z x }

def State.plan (s : State) (i : PlanIndex) : Plan := bankGet s.plans i

/-- R7: the lookup by index; `none` is UNUSED. -/
def State.entry (s : State) (i : AccountIndex) : Option Entry := tblGet i s.directory
def State.setEntry (s : State) (i : AccountIndex) (e : Entry) : State := { s with directory := tblSet i e s.directory }

/-- R7: the lookup by pager address; `none` is "not mapped". -/
def State.mapped (s : State) (a : PagerAddress) : Option AccountIndex := tblGet a s.addressMap

/-- The message in a slot; `none` is FREE. -/
def State.message (s : State) (slot : SlotId) : Option Message := tblGet slot s.messages
def State.setMessage (s : State) (slot : SlotId) (m : Message) : State :=
  { s with messages := tblSet slot m s.messages }

/-- The epoch of a slot (R77). -/
def State.epoch (s : State) (slot : SlotId) : Epoch := (tblGet slot s.epochs).getD 0

/-- Writes a slot's epoch; an epoch of 0 is not listed. -/
def State.setEpoch (s : State) (slot : SlotId) (e : Epoch) : State :=
  { s with epochs := if e = 0 then tblErase slot s.epochs else tblSet slot e s.epochs }

/-- A message is open while it has no outcome (R80). -/
def Message.isOpen (m : Message) : Bool := m.closing.isNone

/-- The open message in a slot. -/
def State.openMessage (s : State) (slot : SlotId) : Option Message :=
  (s.message slot).filter Message.isOpen

/-- R68: the number of open messages of the whole store. -/
def State.openMessages (s : State) : Nat := (s.messages.filter fun p => p.2.isOpen).length

/-- The last attempt record of a message (R78). -/
def Message.lastAttempt (m : Message) : Option Attempt := m.attempts.getLast?

/-- The attempt list with its last record changed. -/
def changeLast (f : Attempt → Attempt) : List Attempt → List Attempt
  | [] => []
  | [a] => [f a]
  | a :: b :: rest => a :: changeLast f (b :: rest)

/-- The zones whose link is UP. -/
def State.upZones (s : State) : ZoneSet := zonesWhere fun z => decide ((s.link z).state = .up)

/-! ## Events (R166) -/

/-- A copy of an event offered to a port: stored when the queue holds fewer than 32 records, else the lost flag is set. -/
def Port.offer (r : EventRecord) (x : Port) : Port :=
  if x.events.length < Config.eventQueueSize then { x with events := x.events ++ [r] } else { x with lost := true }

/-- R166: the record takes the office clock as its time and is offered to every port of the kind's roles. -/
def State.post (kind : EventKind) (subject : Nat) (detail : Int) (s : State) : State :=
  { s with ports :=
      bankMap (fun x => if x.role ∈ eventRoles kind then x.offer ⟨kind, subject, detail, s.clock⟩ else x) s.ports }

/-! ## Taking a command and answering it (R160 to R162) -/

/-- What the owner of a command returns: STATUS, BODY and the state as the command left it. -/
structure Reply where
  status : Status
  body : List Byte
  state : State

/-- A refusal: the response has an empty body and nothing changes (R161). -/
def refuse (st : Status) (s : State) : Reply := ⟨st, [], s⟩

/-- The port enters GAP with its response fixed and TXD held at 1; `gap` is the turn-around gap as it stood at the taking
(R162). -/
def State.respond (s : State) (p : PortId) (gap : Nat) (st : Status) (body : List Byte) : State :=
  s.setPort p { s.port p with receiver := .gap, frame := [], answer := some ⟨⟨st, body⟩, gap⟩, unsent := [] }

/-- Whether a port can take a frame: not in GAP or SENDING, where every byte received is ignored (R160), and not
while RESET_N holds the part in reset (R172). -/
def State.listens (s : State) (p : PortId) : Bool :=
  decide (s.phase ≠ .held ∧ ((s.port p).receiver = .listening ∨ (s.port p).receiver = .receiving))

/-- R161: the checks common to all commands of the catalogue, in their order (STARTING, ROLE), then the owner. -/
def takeCommand (p : PortId) (roles : List Role) (owner : State → Reply) (s : State) : State :=
  if s.listens p then
    if s.phase = .starting then s.respond p (s.port p).gap .starting []
    else if (s.port p).role ∈ roles then
      (owner s).state.respond p (s.port p).gap (owner s).status (owner s).body
    else s.respond p (s.port p).gap .role []
  else s

/-- Table 10-6: "any". -/
def anyRole : List Role := [.supervisor, .intake, .dispatch, .accounts]

/-- The FORMAT check of a command of fixed body length (R169) before its owner's other checks. -/
def withLength (n : Nat) (body : List Byte) (owner : State → Reply) (s : State) : Reply :=
  if body.length = n then owner s else refuse .format s

/-- The RANGE check: the body's fields as read, or RANGE when one is outside its range. -/
def withRange {α : Type} (fields : Option α) (owner : α → State → Reply) (s : State) : Reply :=
  match fields with
  | some r => owner r s
  | none => refuse .range s

/-! ## Device reset (R172, R173) -/

/-- Every record at its After reset value, the straps sampled, and the part in the given phase. The queue of waiting
commands is the model's own and stays. -/
def State.deviceReset (s : State) (rate1 rate0 : Bool) (ph : Phase) : State :=
  { State.reset with pending := s.pending, straps := ⟨rate1, rate0⟩, phase := ph }

end Sys2Proof.Machine
end

