-- ==== Sys2Proof/Machine/Charge.lean ====
section
/-! DEFINITION. Tariff snapshot and the charge arithmetic of Chapter 2: words, attempt charge, hold, settlement amount, available amount. -/

namespace Sys2Proof.Machine

/-- Table 2-1: the base of a class. -/
def Plan.base (p : Plan) : MsgClass → Nat
  | .tone => p.baseTone
  | .numeric => p.baseNumeric
  | .text => p.baseText

/-- Table 2-1: the multiplier m[p] of a priority. -/
def Plan.multiplier (p : Plan) (prio : Priority) : Nat :=
  match prio with
  | 0 => p.m0
  | 1 => p.m1
  | 2 => p.m2
  | 3 => p.m3

/-- R23: the snapshot of a plan for a message's class and merged priority. Its retry count is the merged retries or
the plan's retries for a two-way pager, and the plan's repeats for a one-way pager. -/
def Plan.snapshot (p : Plan) (cls : MsgClass) (prio : Priority) (kind : PagerKind) (retries : Option Nat) :
    TariffSnapshot where
  classBase := p.base cls
  wordRate := p.wordRate
  zoneRate := p.zoneRate
  multiplier := p.multiplier prio
  retryFee := p.retryFee
  failFee := p.failFee
  cap := p.cap
  retryCount :=
    match kind with
    | .twoWay => retries.getD p.retries
    | .oneWay => p.repeats
  retryBase := p.retryBase
  retryCeiling := p.retryCeiling
  focusAge := p.focusAge

/-- R26: the air word count W of a class and a normalised length. -/
def wordCount (cls : MsgClass) (length : Nat) : Nat :=
  match cls with
  | .tone => 2
  | .numeric => 2 + (length + 5) / 6
  | .text => 2 + (length + 2) / 3

/-- R27: the raw charge of Z zones and P payload words. -/
def rawCharge (t : TariffSnapshot) (payload zs : Nat) : Nat :=
  t.classBase + t.wordRate * payload + t.zoneRate * (zs - 1)

/-- R28: priority scaling, the only stage that rounds. -/
def scaledCharge (t : TariffSnapshot) (payload zs : Nat) : Nat :=
  (rawCharge t payload zs * t.multiplier + 8) / 16

/-- R29: the attempt charge A(Z, n). -/
def attemptCharge (t : TariffSnapshot) (payload zs n : Nat) : Nat :=
  min (scaledCharge t payload zs + t.retryFee * n) t.cap

/-- R30: R_eff is the snapshot retry count for a two-way pager and 0 for a one-way pager. -/
def effectiveRetries (t : TariffSnapshot) (kind : PagerKind) : Nat :=
  match kind with
  | .twoWay => t.retryCount
  | .oneWay => 0

/-- R30: the hold H = A(Z_hold, R_eff). -/
def holdAmount (t : TariffSnapshot) (kind : PagerKind) (payload : Nat) (reach : ZoneSet) : Nat :=
  attemptCharge t payload (zoneCount reach) (effectiveRetries t kind)

/-- The payload word count P = W − 2 of a message (R26). -/
def Message.payload (m : Message) : Nat := m.words - 2

/-- The sent zones of an attempt number; the empty set when the message has no such attempt. -/
def Message.sentOf (m : Message) (n : Nat) : ZoneSet :=
  match m.attempts.find? fun a => a.number = n with
  | some a => a.sent
  | none => 0

/-- R79: a message is transmitted when any of its attempts has a transmitted time. -/
def Message.transmitted (m : Message) : Bool := m.attempts.any fun a => a.transmitted.isSome

/-- R31: Z_k, the zones of the acknowledged attempt's sent set, or 1 when that set is empty. -/
def Message.deliveredZones (m : Message) (k : Nat) : Nat :=
  if m.sentOf k = 0 then 1 else zoneCount (m.sentOf k)

/-- R31, Table 2-5: the settlement amount S; `k` is the acknowledged attempt of a DELIVERED message. -/
def Message.settlementAmount (m : Message) (o : MsgOutcome) (k : Nat) : Nat :=
  match o with
  | .delivered => attemptCharge m.tariff m.payload (m.deliveredZones k) k
  | .sent => attemptCharge m.tariff m.payload (zoneCount (m.sentOf 0)) 0
  | .missed => min m.tariff.failFee m.hold
  | .expired | .cancelled => if m.transmitted then min m.tariff.failFee m.hold else 0
  | .purged => 0

/-- The union of all attempts' sent sets (Table 9-2). -/
def Message.sentUnion (m : Message) : ZoneSet := m.attempts.foldl (fun zs a => zs ||| a.sent) 0

/-- Table 9-2: the zones sent count of a SETTLE record. -/
def Message.zonesSentCount (m : Message) (o : MsgOutcome) (k : Nat) : Nat :=
  match o with
  | .delivered => m.deliveredZones k
  | .sent => zoneCount (m.sentOf 0)
  | .missed | .expired | .cancelled | .purged => zoneCount m.sentUnion

/-- The number of the last attempt record. -/
def Message.currentAttempt (m : Message) : Nat :=
  match m.lastAttempt with
  | some a => a.number
  | none => 0

/-- Table 9-2: the attempt of a SETTLE record. -/
def Message.recordAttempt (m : Message) (o : MsgOutcome) (k : Nat) : Nat :=
  match o with
  | .delivered => k
  | .sent | .missed | .expired | .cancelled | .purged => m.currentAttempt

/-- R33: available = balance + credit limit − held, exactly. -/
def Entry.available (e : Entry) : Int := e.balance + e.creditLimit - e.held

/-- The 32-bit signed range, whose nearer end a value beyond it takes (R34, R35). -/
def clampSigned (x : Int) : Int := max (-2147483648) (min 2147483647 x)

end Sys2Proof.Machine
end

