-- ==== Sys2Proof/Machine/Flags.lean ====
section
/-! DEFINITION. Every flag the part computes: congestion, high-water armed, the credit flags, slot state, attention outputs. -/

namespace Sys2Proof.Machine

/-! ## Congestion (R95, R96) -/

/-- R95: the sum of W over the queue. -/
def queuedWords (q : List QueueEntry) : Nat := (q.map QueueEntry.words).sum

/-- R96: the congestion test of a zone against its queued words and the threshold and hysteresis in force. -/
def State.congestionTest (z : ZoneId) (s : State) : State :=
  let x := s.zone z
  let words := queuedWords x.queue
  if x.force.threshold ≠ 0 ∧ x.congested = false ∧ x.force.threshold < words then
    (s.setZone z { x with congested := true }).post .zoneCongested z.val words
  else if x.congested = true ∧ (x.force.threshold = 0 ∨ words ≤ x.force.threshold - x.force.hysteresis) then
    (s.setZone z { x with congested := false }).post .zoneClear z.val words
  else s

/-! ## Journal high water (R148) -/

/-- R148: JOURNAL_HIGH is posted once when the fill reaches the high water, and armed again below it. -/
def State.highWaterTest (s : State) : State :=
  let fill := s.journal.records.length
  if s.journal.highWater ≤ fill then
    if s.journal.armed then
      ({ s with journal := { s.journal with armed := false } }).post .journalHigh 0 fill
    else s
  else { s with journal := { s.journal with armed := true } }

/-- R145: a record joins the end of the journal, and the high-water test follows. -/
def State.appendRecord (r : JournalRecord) (s : State) : State :=
  ({ s with journal := { s.journal with records := s.journal.records ++ [r] } }).highWaterTest

/-- Free journal records (R144). -/
def State.freeRecords (s : State) : Nat := Config.journalSize - s.journal.records.length

/-- R68, R146: fewer free records than the open messages of the store plus 1. -/
def State.journalFull (s : State) : Bool := decide (s.freeRecords < s.openMessages + 1)

/-! ## Slot state (R80) -/

/-- Whether a zone's batch in flight holds an entry, not void, of the given slot. -/
def State.inFlightAt (s : State) (slot : SlotId) (z : ZoneId) : Bool :=
  match (s.zone z).inFlight with
  | some b => b.entries.any fun e => !e.void && decide (e.entry.slot = slot ∧ e.entry.epoch = s.epoch slot)
  | none => false

/-- Table 5-3, R80: the state of a slot in use follows from its attempt list and its outcome. -/
def State.slotStateOf (s : State) (slot : SlotId) (m : Message) : SlotState :=
  if m.closing.isSome then .closed
  else
    match m.lastAttempt with
    | none => .stalled
    | some a =>
      if a.pending ≠ 0 then
        if allZones.any fun z => zoneIn z a.pending && s.inFlightAt slot z then .onAir else .queued
      else if a.sent ≠ 0 then .wait
      else .stalled

/-- The state of a slot, FREE included. -/
def State.slotState (s : State) (slot : SlotId) : SlotState :=
  match s.message slot with
  | some m => s.slotStateOf slot m
  | none => .free

/-- Whether a slot is in WAIT (R80): open, with its last attempt complete. -/
def Message.inWait (m : Message) : Bool :=
  m.isOpen &&
    match m.lastAttempt with
    | some a => decide (a.pending = 0 ∧ a.sent ≠ 0)
    | none => false

/-! ## Outputs -/

/-- R168: ATTNn is asserted while port n's event queue or outcome list is not empty. -/
def State.attention (s : State) (p : PortId) : Bool :=
  !(s.port p).events.isEmpty || !(s.port p).outcomes.isEmpty

end Sys2Proof.Machine
end

