-- ==== Sys2Proof/Machine/Closing.lean ====
section
/-! DEFINITION. An event in progress, the settlement of a message (R143) and the closing event (R83, R84). -/

namespace Sys2Proof.Machine

/-- An event in progress: the state it has made so far, the zones whose queue it has changed (each is tested for
congestion once at its end, R96), and the zones in which a formation is to be attempted (R99). -/
structure Work where
  state : State
  touched : ZoneSet
  calls : ZoneSet

/-- The beginning of an event. -/
def State.begin (s : State) : Work := ⟨s, 0, 0⟩

/-- Changes the state of an event in progress. -/
def Work.map (f : State → State) (w : Work) : Work := { w with state := f w.state }

/-- R143: balance, held and open count of the billed entry, and the SETTLE record of Table 9-2. -/
def State.settle (slot : SlotId) (m : Message) (o : MsgOutcome) (k : Nat) (s : State) : State :=
  match s.entry m.billed with
  | none => s
  | some e =>
    let amount := m.settlementAmount o k
    let after := clampSigned (e.balance - amount)
    (s.setEntry m.billed
        { e with balance := after, held := e.held - m.hold, openCount := e.openCount - 1 }).appendRecord
      (.settle {
        account := m.billed
        slot := slot
        epoch := s.epoch slot
        outcome := o
        cls := m.cls
        payloadWords := m.payload
        zonesSent := m.zonesSentCount o k
        attempt := m.recordAttempt o k
        amount := amount
        balanceAfter := after
        time := s.clock })

/-- Whether a queue entry is one of the given slot and epoch. -/
def QueueEntry.isOf (slot : SlotId) (e : Epoch) (q : QueueEntry) : Bool := decide (q.slot = slot ∧ q.epoch = e)

/-- R83 steps 2 and 3 in one zone: the slot's entries leave the queue, and those in the batch in flight are voided. -/
def Zone.withdraw (slot : SlotId) (e : Epoch) (x : Zone) : Zone :=
  { x with
    queue := x.queue.filter fun q => !q.isOf slot e
    inFlight := x.inFlight.map fun b =>
      { b with entries := b.entries.map fun be => if be.entry.isOf slot e then { be with void := true } else be } }

/-- The zones whose queue holds an entry of the given slot and epoch. -/
def State.zonesQueuing (s : State) (slot : SlotId) (e : Epoch) : ZoneSet :=
  zonesWhere fun z => (s.zone z).queue.any fun q => q.isOf slot e

/-- R88: the slot joins the end of its submitting port's outcome list. -/
def State.listOutcome (p : PortId) (slot : SlotId) (s : State) : State :=
  s.setPort p { s.port p with outcomes := (s.port p).outcomes ++ [slot] }

/-- R83: the closing event of an open message: outcome and settled amount set, its entries withdrawn, its retry timer
stopped and its frozen flag cleared, its place in the stall list given up (R140), the message settled (R143), the slot
listed (R88). A slot that is not open is left as it stands. -/
def Work.close (slot : SlotId) (o : MsgOutcome) (k : Nat) (w : Work) : Work :=
  match w.state.openMessage slot with
  | none => w
  | some m =>
    let s := w.state
    let e := s.epoch slot
    let closed := { m with closing := some ⟨o, m.settlementAmount o k⟩, retryTimer := none, frozen := false }
    { w with
      touched := w.touched ||| s.zonesQueuing slot e
      state :=
        ((({ s with
              zones := bankMap (Zone.withdraw slot e) s.zones
              stalls := s.stalls.filter fun x => decide (x ≠ slot) }).setMessage slot closed).settle slot m o k).listOutcome
          m.port slot }

end Sys2Proof.Machine
end

