-- ==== Sys2Proof/Machine/Dispatching.lean ====
section
/-! DEFINITION. The shared operations of the zone dispatcher and the retry unit: queue order, joins, placing and completing an attempt, forming a batch, the air words, the end of an event, and the loss of a link. -/

namespace Sys2Proof.Machine

/-! ## Air words (R115, Table 7-4) -/

/-- The digit code of a NUMERIC character (Table 3-3); every other character has the code of a space. -/
def digitCode (c : Byte) : BitVec 4 :=
  if 48 ≤ c.toNat ∧ c.toNat ≤ 57 then BitVec.ofNat 4 (c.toNat - 48)
  else if c.toNat = 45 then 11
  else if c.toNat = 46 then 12
  else if c.toNat = 42 then 13
  else if c.toNat = 35 then 14
  else 10

/-- The digit code of a position, 15 beyond the text. -/
def digitAt (text : List Byte) (i : Nat) : BitVec 4 :=
  match text[i]? with
  | some c => digitCode c
  | none => 15

/-- The 7-bit code of a position, 0 beyond the text. -/
def charAt (text : List Byte) (i : Nat) : BitVec 7 :=
  match text[i]? with
  | some c => c.setWidth 7
  | none => 0

/-- The address word: pager address 31..10, class 9..8, priority 7..6, zeros. -/
def addressWord (m : Message) : AirWord :=
  m.address ++ BitVec.ofNat 2 (classCode m.cls).toNat ++ BitVec.ofNat 2 m.priority.val ++ (0 : BitVec 6)

/-- The tag word: slot 31..23, epoch 22..19, attempt 18..16, P 15..9, zeros. -/
def tagWord (slot : SlotId) (e : Epoch) (attempt payload : Nat) : AirWord :=
  BitVec.ofNat 9 slot.val ++ e ++ BitVec.ofNat 3 attempt ++ BitVec.ofNat 7 payload ++ (0 : BitVec 9)

/-- Payload word i of a NUMERIC page: characters 6i + 1 to 6i + 6 as digit codes. -/
def numericWord (text : List Byte) (i : Nat) : AirWord :=
  (0 : BitVec 8) ++ digitAt text (6 * i) ++ digitAt text (6 * i + 1) ++ digitAt text (6 * i + 2)
    ++ digitAt text (6 * i + 3) ++ digitAt text (6 * i + 4) ++ digitAt text (6 * i + 5)

/-- Payload word i of a TEXT page: characters 3i + 1 to 3i + 3 as 7-bit codes. -/
def textWord (text : List Byte) (i : Nat) : AirWord :=
  (0 : BitVec 11) ++ charAt text (3 * i) ++ charAt text (3 * i + 1) ++ charAt text (3 * i + 2)

/-- The payload words of a message. -/
def payloadWords (m : Message) : List AirWord :=
  match m.cls with
  | .tone => []
  | .numeric => (List.range m.payload).map (numericWord m.text)
  | .text => (List.range m.payload).map (textWord m.text)

/-- R115: the W air words of one entry, from the slot as it stands when the batch is formed. -/
def State.airWords (s : State) (q : QueueEntry) : List AirWord :=
  match s.message q.slot with
  | none => []
  | some m => addressWord m :: tagWord q.slot q.epoch q.attempt m.payload :: payloadWords m

/-- Words in bodies of 32, the last holding the remainder (R122); `fuel` bounds the number of bodies. -/
def wordBodies : (fuel : Nat) → List AirWord → List (List AirWord)
  | 0, _ => []
  | fuel + 1, ws => if ws = [] then [] else ws.take 32 :: wordBodies fuel (ws.drop 32)

/-- R122: the stream of a batch: BATCH_OPEN, its words in BATCH_WORDS blocks, BATCH_CLOSE. -/
def batchStream (number : BitVec 8) (total : Nat) (ws : List AirWord) : List OutBlock :=
  .batchOpen number total :: (wordBodies ws.length ws).map OutBlock.batchWords ++ [.batchClose number]

/-- A block of a batch stream. -/
def OutBlock.isStream : OutBlock → Bool
  | .batchOpen _ _ | .batchWords _ | .batchClose _ => true
  | .capBase _ _ _ | .capNext _ | .idle => false

/-! ## Outbound blocks of a link (R112) -/

/-- A block queued: it begins at once when nothing is on the line. -/
def Link.send (b : OutBlock) (x : Link) : Link :=
  match x.onLine with
  | none => { x with onLine := some b }
  | some _ => { x with txQueue := x.txQueue ++ [b] }

/-- Blocks queued one after another. -/
def Link.sendAll (bs : List OutBlock) (x : Link) : Link := bs.foldl (fun y b => y.send b) x

/-- R122: when its batch leaves flight by an answer, the blocks of a stream not yet begun are dropped. -/
def Link.dropStream (x : Link) : Link := { x with txQueue := x.txQueue.filter fun b => !b.isStream }

/-! ## Zone queues (R94) -/

/-- Queue order: higher priority, then lower ready sequence, then lower slot number. -/
def QueueEntry.before (a b : QueueEntry) : Bool :=
  decide (b.priority < a.priority ∨ (a.priority = b.priority ∧
    (a.seq < b.seq ∨ (a.seq = b.seq ∧ a.slot < b.slot))))

/-- An entry takes its place in queue order. -/
def queueInsert (e : QueueEntry) : List QueueEntry → List QueueEntry
  | [] => [e]
  | q :: rest => if q.before e then q :: queueInsert e rest else e :: q :: rest

/-- R94: a join for a new attempt takes the zone's next ready sequence. -/
def Work.join (z : ZoneId) (slot : SlotId) (m : Message) (attempt : Nat) (w : Work) : Work :=
  let x := w.state.zone z
  { w with
    touched := zoneInsert z w.touched
    state := w.state.setZone z
      { x with
        queue := queueInsert ⟨slot, w.state.epoch slot, attempt, m.words, m.priority, x.nextSeq⟩ x.queue
        nextSeq := x.nextSeq + 1 } }

/-! ## Placing an attempt (R140) -/

/-- R140: the last attempt's pending set becomes its requested coverage ∩ the zones that are UP; one entry joins each
pending zone in zone order, a priority-3 message calling for a formation there; with none the slot joins the stall list. -/
def Work.place (slot : SlotId) (w : Work) : Work :=
  match w.state.openMessage slot with
  | none => w
  | some m =>
    match m.lastAttempt with
    | none => w
    | some a =>
      let pending := a.requested &&& w.state.upZones
      let w1 := w.map fun s =>
        s.setMessage slot { m with attempts := changeLast (fun r => { r with pending := pending }) m.attempts }
      if pending = 0 then w1.map fun s => { s with stalls := s.stalls ++ [slot] }
      else
        let w2 := (allZones.filter fun z => zoneIn z pending).foldl (fun v z => v.join z slot m a.number) w1
        if m.priority = 3 then { w2 with calls := w2.calls ||| pending } else w2

/-- R141: every STALLED slot whose last attempt's requested coverage holds the zone is placed again, oldest first. -/
def Work.resume (z : ZoneId) (w : Work) : Work :=
  let resumed := w.state.stalls.filter fun slot =>
    match (w.state.openMessage slot).bind Message.lastAttempt with
    | some a => zoneIn z a.requested
    | none => false
  resumed.foldl (fun v slot => v.place slot)
    (w.map fun s => { s with stalls := s.stalls.filter fun slot => decide (slot ∉ resumed) })

/-! ## Completion of an attempt (R104, R133, R134) -/

/-- R134: the wait after attempt n of a two-way pager, and the repeat interval of a one-way pager. -/
def retryWait (t : TariffSnapshot) (kind : PagerKind) (n : Nat) : Nat :=
  match kind with
  | .twoWay => min (t.retryBase * 2 ^ n) t.retryCeiling
  | .oneWay => min t.retryBase t.retryCeiling

/-- R133: a completed attempt goes to WAIT with its timer loaded, frozen while the air hold is in force; a one-way
pager's last repeat closes SENT. -/
def Work.complete (slot : SlotId) (w : Work) : Work :=
  match w.state.openMessage slot with
  | none => w
  | some m =>
    if m.kind = .twoWay ∨ m.currentAttempt < m.tariff.retryCount then
      w.map fun s => s.setMessage slot
        { m with retryTimer := some (retryWait m.tariff m.kind m.currentAttempt), frozen := s.airHold }
    else w.close slot .sent 0

/-! ## Batch formation (R98 to R102) -/

/-- R100: the walk: entries that fit the remainder are taken, others passed over, until the remainder is below 2. -/
def walk : (room : Nat) → List QueueEntry → List QueueEntry × List QueueEntry
  | _, [] => ([], [])
  | room, q :: rest =>
    if room < 2 then ([], q :: rest)
    else if q.words ≤ room then
      let r := walk (room - q.words) rest
      (q :: r.1, r.2)
    else
      let r := walk room rest
      (r.1, q :: r.2)

/-- R102: ⌈total words × 320 ÷ rate⌉ ticks and the accept margin. -/
def acceptDeadline (total : Nat) (rate : Rate) (margin : Nat) : Nat :=
  (total * 320 + (rateBits rate - 1)) / rateBits rate + margin

/-- R99: an attempt forms a batch when the link is UP, no air hold is in force, no batch is in flight and the queue is
not empty. The profile is that of the link, which an UP link always has. -/
def State.formable (s : State) (z : ZoneId) : Option Profile :=
  if (s.link z).state = .up ∧ s.airHold = false ∧ (s.zone z).inFlight = none ∧ (s.zone z).queue ≠ [] then
    (s.link z).profile
  else none

/-- R100, R101: a formation for a zone with the given profile. -/
def State.formWith (z : ZoneId) (p : Profile) (s : State) : State :=
  let x := s.zone z
  let r := walk p.capacity x.queue
  let total := queuedWords r.1
  let b : Batch := {
    number := x.nextBatch
    capacity := p.capacity
    rate := p.rate
    entries := r.1.map fun q => ⟨q, false⟩
    totalWords := total
    deadline := acceptDeadline total p.rate x.written.dispatch.margin }
  (s.setZone z
      { x with queue := r.2, nextBatch := x.nextBatch + 1, inFlight := some b, force := x.written.dispatch }).setLink z
    ((s.link z).sendAll (batchStream x.nextBatch total (r.1.flatMap s.airWords)))

/-- R99: a formation is attempted. -/
def Work.form (z : ZoneId) (w : Work) : Work :=
  match w.state.formable z with
  | some p => { w with state := w.state.formWith z p, touched := zoneInsert z w.touched }
  | none => w

/-- Whether the first entry of a queue is of priority 3 (R99). -/
def urgentFirst (q : List QueueEntry) : Bool :=
  match q with
  | e :: _ => decide (e.priority = 3)
  | [] => false

/-- The end of an event: the formations it calls for, in zone order (R99, R141), then the congestion test of each zone
whose queue it changed, in zone order (R96). -/
def Work.finish (w : Work) : State :=
  let w1 := (allZones.filter fun z => zoneIn z w.calls).foldl (fun v z => v.form z) w
  (allZones.filter fun z => zoneIn z w1.touched).foldl (fun s z => s.congestionTest z) w1.state

/-! ## The site's answer and the loss of a link (R103, R105, R107) -/

/-- The open message of a batch or queue entry whose epoch and last attempt are the entry's, with that attempt. -/
def State.liveEntry (s : State) (q : QueueEntry) : Option (Message × Attempt) :=
  match s.openMessage q.slot with
  | none => none
  | some m =>
    match m.lastAttempt with
    | none => none
    | some a => if s.epoch q.slot = q.epoch ∧ a.number = q.attempt then some (m, a) else none

/-- R103: one entry of an accepted batch: credited, and its attempt completed when no pending zone is left (R104);
or ignored. -/
def Work.credit (z : ZoneId) (be : BatchEntry) (w : Work) : Work :=
  match w.state.liveEntry be.entry with
  | none => w
  | some (m, a) =>
    if be.void = false ∧ zoneIn z a.pending then
      let credited := { a with
        pending := zoneRemove z a.pending
        sent := zoneInsert z a.sent
        transmitted := if a.sent = 0 then some w.state.clock else a.transmitted }
      let w1 := w.map fun s =>
        s.setMessage be.entry.slot { m with attempts := changeLast (fun _ => credited) m.attempts }
      if credited.pending = 0 then w1.complete be.entry.slot else w1
    else w

/-- R103: the batch leaves flight, its entries are handled in walk order, and a formation is called for when the
queue's first entry is then of priority 3. -/
def Work.accepted (z : ZoneId) (b : Batch) (w : Work) : Work :=
  let w1 := w.map fun s =>
    (s.setZone z { s.zone z with inFlight := none }).setLink z ((s.link z).dropStream)
  let w2 := b.entries.foldl (fun v be => v.credit z be) w1
  if urgentFirst (w2.state.zone z).queue then { w2 with calls := zoneInsert z w2.calls } else w2

/-- R105: one entry of a refused batch returns to the queue with the ready sequence it had, or is discarded. -/
def Work.giveBack (z : ZoneId) (be : BatchEntry) (w : Work) : Work :=
  if be.void = false ∧ (w.state.liveEntry be.entry).isSome then
    { w with
      touched := zoneInsert z w.touched
      state := w.state.setZone z { w.state.zone z with queue := queueInsert be.entry (w.state.zone z).queue } }
  else w

/-- R105: the batch leaves flight and its entries are handled in walk order. -/
def Work.refused (z : ZoneId) (b : Batch) (w : Work) : Work :=
  let w1 := w.map fun s =>
    (s.setZone z { s.zone z with inFlight := none }).setLink z ((s.link z).dropStream)
  b.entries.foldl (fun v be => v.giveBack z be) w1

/-- R107: one slot of a lost zone: the zone leaves the pending set without joining the sent set; then the attempt is
complete, or the slot stalls, or other pending zones remain. -/
def Work.lose (z : ZoneId) (q : QueueEntry) (w : Work) : Work :=
  match w.state.liveEntry q with
  | none => w
  | some (m, a) =>
    if zoneIn z a.pending then
      let left := zoneRemove z a.pending
      let w1 := w.map fun s =>
        s.setMessage q.slot { m with attempts := changeLast (fun r => { r with pending := left }) m.attempts }
      if left ≠ 0 then w1
      else if a.sent ≠ 0 then w1.complete q.slot
      else w1.map fun s => { s with stalls := s.stalls ++ [q.slot] }
    else w

/-- The non-void entries of a batch in flight, in walk order. -/
def Zone.inFlightEntries (x : Zone) : List QueueEntry :=
  match x.inFlight with
  | some b => (b.entries.filter fun be => !be.void).map BatchEntry.entry
  | none => []

/-- R107: a zone's link leaves UP: the batch and the queue are discarded, and the slots concerned are handled, those of
the batch in walk order and then those of the queue in queue order. -/
def Work.loseZone (z : ZoneId) (w : Work) : Work :=
  let x := w.state.zone z
  let w1 : Work := { w with
    touched := if x.queue = [] then w.touched else zoneInsert z w.touched
    state := w.state.setZone z { x with queue := [], inFlight := none } }
  (x.inFlightEntries ++ x.queue).foldl (fun v q => v.lose z q) w1

end Sys2Proof.Machine
end

