-- ==== Sys2Proof/Machine/Linking.lean ====
section
/-! DEFINITION. The shared operations of the zone links: the bytes of a block, the handling of the line, and the entries to HUNT, FAILED, OFF, EXCHANGE and UP. -/

namespace Sys2Proof.Machine

/-! ## The line (R112, R113) -/

/-- Bytes of an air word, most significant first. -/
def airWordBytes (w : AirWord) : List Byte := bytesOf 4 w.toNat

/-- Kind and body of an outbound block (Table 7-3). -/
def outBlockKindBody : OutBlock → Byte × List Byte
  | .capBase rates capacity next => (0x01, bytesOf 1 rates.toNat ++ bytesOf 2 capacity ++ [0, flagByte next])
  | .capNext identity => (0x02, bytesOf 2 identity)
  | .idle => (0x03, [])
  | .batchOpen number words => (0x10, bytesOf 1 number.toNat ++ bytesOf 2 words)
  | .batchWords ws => (0x11, ws.flatMap airWordBytes)
  | .batchClose number => (0x12, bytesOf 1 number.toNat)

/-- A block on the line: sync 0xA6, kind, length, body, CRC over kind to body (Table 7-2). -/
def linkBlockBytes (kind : Byte) (body : List Byte) : List Byte :=
  0xA6 :: (kind :: bytesOf 1 body.length ++ body) ++ crcBytes (kind :: bytesOf 1 body.length ++ body)

/-- What a link's line carries: nothing with its clock stopped (OFF), the fill byte, or the bytes of a block. -/
inductive LinkLine where
  | stopped
  | fill
  | block (bytes : List Byte)
  deriving DecidableEq, Repr

/-- R112: the byte sent between blocks. -/
def fillByte : Byte := 0xFF

/-- R112: the bits on TXDn: held at 1 with the clock stopped, and else each byte most significant bit first. -/
def LinkLine.txd : LinkLine → List Bool
  | .stopped => [true]
  | .fill => bitsMsbFirst fillByte
  | .block bytes => bytes.flatMap bitsMsbFirst

/-- R112: the output of a link. -/
def Link.line (x : Link) : LinkLine :=
  if x.state = .off then .stopped
  else
    match x.onLine with
    | some b => .block (linkBlockBytes (outBlockKindBody b).1 (outBlockKindBody b).2)
    | none => .fill

/-- R112: the clock that the part drives on CLKn, in bit/s; `none` with the clock stopped. -/
def Link.clockRate (x : Link) : Option Nat := if x.state = .off then none else some (rateBits x.lineRate)

/-- R112: the block on the line stops, the transmit queue is dropped and the line returns to SLOW (log entry 7: the byte
boundary lies within the event). -/
def Link.cut (x : Link) : Link :=
  { x with txQueue := [], onLine := none, lineRate := .slow, slowBlocks := none }

/-- Every timer of the link stopped (R111). -/
def Link.stopTimers (x : Link) : Link :=
  { x with huntTimer := none, exchangeTimer := none, silenceTimer := none, idleTimer := none, holdOffTimer := none }

/-- R112: at entry to UP the line takes the negotiated rate once every block queued before has left. -/
def Link.changeRate (rate : Rate) (x : Link) : Link :=
  let waiting := (if x.onLine.isSome then 1 else 0) + x.txQueue.length
  if waiting = 0 then { x with lineRate := rate, slowBlocks := none } else { x with slowBlocks := some waiting }

/-- R117: the part's own CAP_BASE, from the zone's settings written as they stand. -/
def Zone.capPage (x : Zone) : OutBlock :=
  .capBase x.written.rates x.written.capacity (decide (x.written.identity ≠ 0))

/-! ## Entries to states -/

/-- R117: the link enters HUNT, sends one CAP_BASE and loads the hunt timer with 5 ticks. -/
def State.enterHunt (z : ZoneId) (s : State) : State :=
  s.setLink z
    (({ (s.link z).stopTimers with state := .hunt, huntTimer := some 5 } : Link).send (s.zone z).capPage)

/-- R125: the link enters FAILED: cause recorded, hold-off timer loaded with 20 ticks, base page absent, the line cut. -/
def State.enterFailed (z : ZoneId) (cause : DownCause) (s : State) : State :=
  s.setLink z
    { (s.link z).stopTimers.cut with
      state := .failed, downCause := some cause, holdOffTimer := some 20, basePage := none }

/-- R116: the link enters OFF: every timer stops, the base page is absent, the line is cut and a block part received is
discarded (R112). The last down cause and the profile stay. -/
def State.enterOff (z : ZoneId) (s : State) : State :=
  s.setLink z { (s.link z).stopTimers.cut with state := .off, basePage := none, received := none }

/-- R124: what every departure from UP does: the cause recorded, LINK_DOWN posted, the timers stopped, the line cut, and
the zone handled by the dispatcher (R107). The link is left in FAILED; the caller enters the next state. -/
def Work.leaveUp (z : ZoneId) (cause : DownCause) (w : Work) : Work :=
  (w.map fun s =>
    (s.setLink z { (s.link z).stopTimers.cut with state := .failed, downCause := some cause }).post
      .linkDown z.val (downCauseCode cause).toNat).loseZone z

/-- R124, R125: the link leaves UP into FAILED. -/
def Work.failUp (z : ZoneId) (cause : DownCause) (w : Work) : Work :=
  (w.leaveUp z cause).map fun s => s.enterFailed z cause

/-- R120: the link enters UP with the profile given: timers, line rate, LINK_UP, and the stalled messages resumed. -/
def Work.enterUp (z : ZoneId) (p : Profile) (w : Work) : Work :=
  (w.map fun s =>
    (s.setLink z
      (({ (s.link z).stopTimers with
          state := .up, profile := some p, basePage := none, silenceTimer := some 40, idleTimer := some 10 }
        : Link).changeRate p.rate)).post
      .linkUp z.val (rateBits p.rate)).resume z

/-- The highest of the rates in a rate set, FAST above MID above SLOW. -/
def highestRate (rates : BitVec 3) : Option Rate :=
  if rates.getLsbD 2 then some .fast
  else if rates.getLsbD 1 then some .mid
  else if rates.getLsbD 0 then some .slow
  else none

/-- R118: the site's CAP_BASE is evaluated in EXCHANGE against the settings written as they stand. -/
def Work.evaluate (z : ZoneId) (page : SitePage) (w : Work) : Work :=
  let local' := (w.state.zone z).written
  match page.fault with
  | none => w.map fun s => s.enterFailed z .remote
  | some fault =>
    match highestRate (local'.rates &&& page.rates) with
    | none => w.map fun s => s.enterFailed z .mismatch
    | some rate =>
      let capacity := min local'.capacity page.capacity
      let w1 := w.map fun s => s.setLink z ((s.link z).send (s.zone z).capPage)
      if local'.identity ≠ 0 ∨ page.nextPage then
        w1.map fun s =>
          s.setLink z
            { (s.link z).send (.capNext local'.identity) with
              basePage := some ⟨page.rates, page.capacity, fault, page.nextPage, rate, capacity⟩ }
      else w1.enterUp z ⟨rate, capacity, 0, fault⟩

/-- R117, R124: the link enters EXCHANGE with the exchange timer loaded with 30 ticks, and the page is evaluated. -/
def Work.enterExchange (z : ZoneId) (page : SitePage) (w : Work) : Work :=
  (w.map fun s =>
    s.setLink z
      { (s.link z).stopTimers with state := .exchange, exchangeTimer := some 30, basePage := none }).evaluate z page

/-! ## Inbound blocks (R113, R114, R121) -/

/-- R114: a bad block is discarded and the receive error count rises, staying at 255; in OFF nothing is received. -/
def State.countBad (z : ZoneId) (s : State) : State :=
  if (s.link z).state = .off then s
  else s.setLink z { s.link z with rxErrors := min 255 ((s.link z).rxErrors + 1), received := none }

/-- R121: a valid block has been taken; in UP it reloads the silence timer with 40 ticks. -/
def State.takeValid (z : ZoneId) (s : State) : State :=
  let x := s.link z
  s.setLink z
    { x with received := none, silenceTimer := if x.state = .up then some 40 else x.silenceTimer }

/-- A received block whose kind is known: in OFF not received; with a body out of its kind's form a bad block (R113);
else handled by the link's state as it stood (R121). -/
def receive {α : Type} (z : ZoneId) (fields : Option α) (handle : LinkState → α → State → State) (s : State) : State :=
  if (s.link z).state = .off then s
  else
    match fields with
    | none => s.countBad z
    | some x => handle (s.link z).state x (s.takeValid z)

/-- A timer's tick (R111): a running timer counts down one; `some 0` waits for its expiry to be taken. -/
def timerTick (t : Option Nat) : Option Nat := t.map fun n => n - 1

/-- Whether a batch stream is being sent (R122). -/
def Link.streaming (x : Link) : Bool :=
  (x.onLine.toList ++ x.txQueue).any OutBlock.isStream

/-- R111, R122: a link's timers at a tick; the idle timer does not expire while a stream is being sent. -/
def Link.tick (x : Link) : Link :=
  { x with
    huntTimer := timerTick x.huntTimer
    exchangeTimer := timerTick x.exchangeTimer
    silenceTimer := timerTick x.silenceTimer
    idleTimer := if x.streaming ∧ x.idleTimer = some 1 then some 1 else timerTick x.idleTimer
    holdOffTimer := timerTick x.holdOffTimer }

end Sys2Proof.Machine
end

