-- ==== Sys2Proof/Machine/Classify.lean ====
section
/-! DEFINITION. Normalisation of a message (R62, R63) and its classification (Chapter 3): the key, the range checkers, the two lookups and the merge. -/

namespace Sys2Proof.Machine

/-! ## Normalisation (R62, R63) -/

/-- What normalisation makes of a submitted text. -/
structure Content where
  text : List Byte
  truncated : Bool
  substituted : Bool
  deriving DecidableEq, Repr

/-- R62: the most characters a class carries. -/
def maxLength : MsgClass → Nat
  | .tone => 0
  | .numeric => 96
  | .text => 240

/-- R63: whether a class can carry a character code. -/
def carries (cls : MsgClass) (c : Byte) : Bool :=
  match cls with
  | .tone => true
  | .numeric => decide ((48 ≤ c.toNat ∧ c.toNat ≤ 57) ∨ c.toNat = 32 ∨ c.toNat = 45 ∨ c.toNat = 46 ∨ c.toNat = 42 ∨ c.toNat = 35)
  | .text => decide (c.toNat < 128)

/-- R62, R63: the text is clamped to its class's length, and every character the class cannot carry becomes a space. -/
def normalise (cls : MsgClass) (submitted : List Byte) : Content :=
  let kept := submitted.take (maxLength cls)
  { text := kept.map fun c => if carries cls c then c else 32
    truncated := decide (maxLength cls < submitted.length)
    substituted := kept.any fun c => !carries cls c }

/-! ## The key (R38 to R42) -/

/-- R39: the thermometer code of a submitted priority. -/
def priorityCode (p : Priority) : BitVec 3 :=
  match p with
  | 0 => 0b000
  | 1 => 0b001
  | 2 => 0b011
  | 3 => 0b111

/-- A TEXT position of LEAD: the 7-bit code with the eighth bit 0, and 128 beyond the text. -/
def leadChar (text : List Byte) (i : Nat) : BitVec 8 :=
  match text[i]? with
  | some c => (c.setWidth 7).setWidth 8
  | none => 128

/-- R40: LEAD by class. -/
def leadField (cls : MsgClass) (text : List Byte) : BitVec 16 :=
  match cls with
  | .tone => 0
  | .numeric => digitAt text 0 ++ digitAt text 1 ++ digitAt text 2 ++ digitAt text 3
  | .text => leadChar text 0 ++ leadChar text 1

/-- R43: the office hour. -/
def officeHour (clock : Clock) : Nat := clock.toNat / 3600 % 24

/-- R42, R43: whether a range checker hits. -/
def RangeChecker.hits (c : RangeChecker) (length line hour : Nat) : Bool :=
  match c.source with
  | .none => false
  | .length => decide (c.low ≤ length ∧ length ≤ c.high)
  | .line => decide (c.low ≤ line ∧ line ≤ c.high)
  | .hour =>
    if c.low ≤ c.high then decide (c.low ≤ hour ∧ hour ≤ c.high) else decide (c.low ≤ hour ∨ hour ≤ c.high)

/-- What a classification is asked about: the port, the submitted fields, the billed entry and the normalised text. -/
structure ClassifyRequest where
  port : PortId
  line : Nat
  cls : MsgClass
  priority : Priority
  entry : Entry
  text : List Byte

/-- R42: the four hit bits, checker i giving bit i. -/
def State.rangeHits (s : State) (r : ClassifyRequest) : BitVec 4 :=
  let hit := fun i => (bankGet s.checkers i).hits r.text.length r.line (officeHour s.clock)
  (if hit 3 then 8 else 0) ||| (if hit 2 then 4 else 0) ||| (if hit 1 then 2 else 0) ||| (if hit 0 then 1 else 0)

/-- The SUBSTATE code of an entry's state (Table 3-1). -/
def substateCode (e : Entry) : BitVec 2 := BitVec.ofNat 2 (entryStateCode e.state).toNat

/-- Table 3-1, Table 10-8: the 51-bit key, LOOKUP in bit 50 down to LEAD in bits 15..0. -/
def State.keyFor (s : State) (r : ClassifyRequest) (lookup : BitVec 1) (chain : BitVec 6) : BitVec 51 :=
  lookup ++ chain ++ BitVec.ofNat 2 r.port.val ++ BitVec.ofNat 8 r.line ++ BitVec.ofNat 4 r.entry.plan.val
    ++ BitVec.ofNat 2 (classCode r.cls).toNat ++ priorityCode r.priority
    ++ BitVec.ofNat 1 (pagerKindCode r.entry.kind).toNat ++ substateCode r.entry
    ++ (BitVec.ofBool r.entry.low ++ BitVec.ofBool r.entry.exhausted) ++ s.rangeHits r ++ leadField r.cls r.text

/-! ## Lookups (R46, R49, R50) -/

/-- R46: a valid entry matches when every cared bit equals the key's. -/
def ClassifierEntry.matchesKey (c : ClassifierEntry) (key : BitVec 51) : Bool :=
  c.valid && decide ((c.value ^^^ key) &&& c.mask = 0)

/-- The lowest-indexed match among entries whose indexes begin at `i`. -/
def firstMatch (key : BitVec 51) : (i : Nat) → List ClassifierEntry → Option (Nat × Action)
  | _, [] => none
  | i, c :: rest => if c.matchesKey key then some (i, c.action) else firstMatch key (i + 1) rest

/-- The winner of a lookup: an entry index and its action, or the default's item number and the default (R49, R50). -/
def State.lookup (s : State) (key : BitVec 51) (item : Nat) (default : Action) : Nat × Action :=
  match firstMatch key 0 s.classifier.toArray.toList with
  | some w => w
  | none => (item, default)

/-! ## The merge (R51) -/

/-- A merged disposition (Table 3-7). -/
inductive MergedDisposition where
  | pass
  | refuse (reason : BitVec 4)
  | forward (target : AccountIndex)
  deriving DecidableEq, Repr

/-- The merged action; it carries no chain (R51). -/
structure Merged where
  disposition : MergedDisposition
  priority : Option Priority
  coverage : Option ZoneSet
  noFocus : Bool
  life : Option Nat
  retries : Option Nat
  plan : Option PlanIndex
  deriving DecidableEq, Repr

/-- A classification: the range hits, the winners (SECOND absent when not looked up), and the merged action. -/
structure Classification where
  hits : BitVec 4
  first : Nat × Action
  second : Option (Nat × Action)
  merged : Merged

/-- Table 3-7, for a FIRST action that does not refuse. -/
def mergeDisposition (a b : Action) : MergedDisposition :=
  if b.disposition = .refuse then .refuse b.reason
  else if a.disposition = .forward then .forward a.target
  else .pass

/-- R51: each field of the SECOND action overrides; no-focus is set by either. -/
def mergeActions (a b : Action) : Merged where
  disposition := mergeDisposition a b
  priority := b.priority <|> a.priority
  coverage := b.coverage <|> a.coverage
  noFocus := a.noFocus || b.noFocus
  life := b.life <|> a.life
  retries := b.retries <|> a.retries
  plan := b.plan <|> a.plan

/-- R49: the result of a FIRST action that refuses; its optional fields are not used. -/
def refusedByFirst (a : Action) : Merged where
  disposition := .refuse a.reason
  priority := none
  coverage := none
  noFocus := false
  life := none
  retries := none
  plan := none

/-- R37: the FIRST lookup, and the SECOND unless the FIRST action refuses. -/
def State.classify (s : State) (r : ClassifyRequest) : Classification :=
  let first := s.lookup (s.keyFor r 0 0) 64 s.firstDefault
  if first.2.disposition = .refuse then
    { hits := s.rangeHits r, first := first, second := none, merged := refusedByFirst first.2 }
  else
    let second := s.lookup (s.keyFor r 1 first.2.chain) 65 s.secondDefault
    { hits := s.rangeHits r, first := first, second := some second, merged := mergeActions first.2 second.2 }

end Sys2Proof.Machine
end

