-- ==== Sys2Proof/Machine/Admission.lean ====
section
/-! DEFINITION. Chapter 4: SUBMIT, its checks in the order of Table 4-1, and acceptance. -/

namespace Sys2Proof.Machine

/-- R64: the life given, from the SUBMIT life, the merged classifier life and the default life. -/
def lifeGiven (submitted : Nat) (classifier : Option Nat) (default : Nat) : Nat :=
  match classifier with
  | none => if submitted = 0 then default else submitted
  | some c => if submitted = 0 then c else min submitted c

/-- R139: the focus test for attempt 0 of a two-way pager; the zone of the focus step when it passes. -/
def State.focusZone (s : State) (address : PagerAddress) (focusAge : Nat) (noFocus : Bool) : Option ZoneId :=
  match (s.mapped address).bind s.entry with
  | none => none
  | some e =>
    match e.lastSeen with
    | none => none
    | some l =>
      if l.time.toNat ≤ s.clock.toNat ∧ s.clock.toNat - l.time.toNat ≤ focusAge ∧ focusAge ≠ 0 ∧ noFocus = false
          ∧ (s.link l.zone).state = .up then some l.zone
      else none

/-- R70, R138: attempt 0's requested coverage: the focus step of a two-way pager, else the home step. -/
def State.firstCoverage (s : State) (kind : PagerKind) (address : PagerAddress) (focusAge : Nat) (noFocus : Bool)
    (home : ZoneSet) : ZoneSet :=
  match kind with
  | .oneWay => home
  | .twoWay =>
    match s.focusZone address focusAge noFocus with
    | some z => zoneSingle z
    | none => home

/-- R72: the lowest-numbered FREE slot among those from `i` on; `fuel` counts the slots left to look at. -/
def lowestFree (t : Tbl SlotId Message) : (fuel i : Nat) → Option SlotId
  | 0, _ => none
  | fuel + 1, i =>
    if h : i < 512 then
      match tblGet ⟨i, h⟩ t with
      | none => some ⟨i, h⟩
      | some _ => lowestFree t fuel (i + 1)
    else none

/-- The lowest-numbered FREE slot; none when the store is full (R68). -/
def State.freeSlot (s : State) : Option SlotId := lowestFree s.messages Config.slotCount 0

/-- What an admission has worked out once the forward target is settled (R65, R69, R70): the delivery entry, the
merged priority, the effective plan, the snapshots, the hold and attempt 0's coverage. -/
structure Admission where
  req : SubmitReq
  billed : Entry
  content : Content
  delivery : AccountIndex
  target : Entry
  forwarded : Bool
  merged : Merged
  priority : Priority
  plan : Plan
  home : ZoneSet
  reach : ZoneSet
  tariff : TariffSnapshot
  words : Nat
  hold : Nat
  coverage : ZoneSet

/-- R66: the emergency override applies at merged priority 3 with the effective plan's override on. -/
def Admission.override (a : Admission) : Bool := decide (a.priority = 3) && a.plan.emergencyOverride

/-- R22, R65, R69, R70: what the admission uses, from the classifier's accepting result and the delivery entry. -/
def State.deriveAdmission (s : State) (req : SubmitReq) (billed : Entry) (content : Content) (merged : Merged)
    (delivery : AccountIndex) (target : Entry) (forwarded : Bool) : Admission :=
  let priority := merged.priority.getD req.priority
  let plan := s.plan (merged.plan.getD billed.plan)
  let home := merged.coverage.getD target.home
  let reach := merged.coverage.getD (target.home ||| target.region)
  let tariff := plan.snapshot req.cls priority target.kind merged.retries
  let words := wordCount req.cls content.text.length
  { req := req
    billed := billed
    content := content
    delivery := delivery
    target := target
    forwarded := forwarded
    merged := merged
    priority := priority
    plan := plan
    home := home
    reach := reach
    tariff := tariff
    words := words
    hold := holdAmount tariff target.kind (words - 2) reach
    coverage := s.firstCoverage target.kind target.address tariff.focusAge merged.noFocus home }

/-- R70: some zone of attempt 0's pending set is congested. -/
def State.congestedFor (s : State) (a : Admission) : Bool :=
  allZones.any fun z => zoneIn z (a.coverage &&& s.upZones) && (s.zone z).congested

/-- Table 4-1, checks 6 to 11: the first that fails gives the refusal. -/
def State.admissionRefusal (s : State) (a : Admission) : Option Status :=
  if a.billed.state = .barred then some .barred
  else if a.billed.state ≠ .active ∧ a.override = false then some .suspended
  else if a.billed.outstandingLimit ≤ a.billed.openCount then some .outstanding
  else if s.freeSlot = none then some .storeFull
  else if s.journalFull then some .journalFull
  else if a.priority = 0 ∧ s.congestedFor a then some .congested
  else if a.override = false ∧ 0 < a.hold ∧ a.billed.available < a.hold then some .credit
  else none

/-- R72, Table 4-3: the slot as written at acceptance, with attempt 0 not yet placed. -/
def Admission.message (a : Admission) (port : PortId) : Message where
  port := port
  line := a.req.line
  billed := a.req.billed
  delivery := a.delivery
  address := a.target.address
  kind := a.target.kind
  cls := a.req.cls
  priority := a.priority
  length := a.content.text.length
  text := a.content.text
  words := a.words
  life := lifeGiven a.req.life a.merged.life a.plan.defaultLife
  home := a.home
  reach := a.reach
  tariff := a.tariff
  hold := a.hold
  truncated := a.content.truncated
  substituted := a.content.substituted
  forwarded := a.forwarded
  override := a.override
  noFocus := a.merged.noFocus
  attempts := [⟨0, a.coverage, 0, 0, none⟩]
  closing := none
  retryTimer := none
  frozen := false

/-- R73: the ten bytes of an ACCEPTED response. -/
def acceptedBytes (slot : SlotId) (e : Epoch) (m : Message) : List Byte :=
  messageIdBytes slot e ++ bytesOf 3 m.hold ++ bytesOf 1 m.words ++ bytesOf 2 m.life ++ [admissionFlagsByte m]

/-- R72 to R74: the slot written, the hold placed on the billed account, and attempt 0 placed. -/
def State.admitted (s : State) (a : Admission) (port : PortId) (slot : SlotId) : State :=
  (((s.setMessage slot (a.message port)).setEntry a.req.billed
      { a.billed with held := a.billed.held + a.hold, openCount := a.billed.openCount + 1 }).begin.place slot).finish

/-- Checks 6 to 11 of Table 4-1, then acceptance. -/
def decideAdmission (port : PortId) (a : Admission) (s : State) : Reply :=
  match s.admissionRefusal a with
  | some st => refuse st s
  | none =>
    match s.freeSlot with
    | none => refuse .storeFull s
    | some slot => ⟨.accepted, acceptedBytes slot (s.epoch slot) (a.message port), s.admitted a port slot⟩

/-- Table 4-1 from check 3 on: billed entry, normalisation, classification, forward target. -/
def submit (port : PortId) (req : SubmitReq) (s : State) : Reply :=
  match s.entry req.billed with
  | none => refuse .noSubscriber s
  | some billed =>
    let content := normalise req.cls req.text
    let merged := (s.classify {
      port := port
      line := req.line
      cls := req.cls
      priority := req.priority
      entry := billed
      text := content.text }).merged
    match merged.disposition with
    | .refuse reason => ⟨.classified, bytesOf 1 reason.toNat, s⟩
    | .pass => decideAdmission port (s.deriveAdmission req billed content merged req.billed billed false) s
    | .forward t =>
      match s.entry t with
      | none => refuse .forwardInvalid s
      | some target =>
        if target.state = .barred then refuse .forwardInvalid s
        else decideAdmission port (s.deriveAdmission req billed content merged t target true) s

/-- SUBMIT (R59). -/
def execSubmit (port : PortId) (body : List Byte) (s : State) : Host.Outcome State Fault Refusal :=
  .next (takeCommand port [.intake, .supervisor]
    (fun u => if submitWellFormed body then withRange (readSubmit body) (submit port) u else refuse .format u) s)

end Sys2Proof.Machine
end

