-- ==== Sys2Proof/Machine/Classifier.lean ====
section
/-! DEFINITION. Chapter 3: the commands of the classifier tables, the range checkers and CLASSIFY_PROBE. -/

namespace Sys2Proof.Machine

/-- R54: the whole entry is replaced. -/
def classifierWrite (r : Fin 64 × ClassifierEntry) (s : State) : Reply :=
  ⟨.ok, bytesOf 1 r.1.val, { s with classifier := bankSet s.classifier r.1 r.2 }⟩

/-- CLASSIFIER_WRITE (R54). -/
def execClassifierWrite (port : PortId) (body : List Byte) (s : State) : Host.Outcome State Fault Refusal :=
  .next (takeCommand port [.supervisor] (withLength 32 body (withRange (readClassifierWrite body) classifierWrite)) s)

/-- R55: the named default action is replaced; `r.1` says SECOND. -/
def classifierDefault (r : Bool × Action) (s : State) : Reply :=
  ⟨.ok, [flagByte r.1], if r.1 then { s with secondDefault := r.2 } else { s with firstDefault := r.2 }⟩

/-- CLASSIFIER_DEFAULT (R55). -/
def execClassifierDefault (port : PortId) (body : List Byte) (s : State) : Host.Outcome State Fault Refusal :=
  .next (takeCommand port [.supervisor] (withLength 17 body (withRange (readClassifierDefault body) classifierDefault)) s)

/-- The 32 bytes of a classifier entry, as the CLASSIFIER_WRITE body (Table 10-9). -/
def classifierEntryBytes (i : Nat) (c : ClassifierEntry) : List Byte :=
  bytesOf 1 i ++ [flagByte c.valid] ++ bytesOf 7 c.value.toNat ++ bytesOf 7 c.mask.toNat ++ actionBytes c.action

/-- R56: items 0 to 63 are the entries, 64 the FIRST default, 65 the SECOND default. -/
def classifierRead (item : Fin 66) (s : State) : Reply :=
  if h : item.val < 64 then ⟨.ok, classifierEntryBytes item.val (bankGet s.classifier ⟨item.val, h⟩), s⟩
  else ⟨.ok, bytesOf 1 item.val ++ actionBytes (if item.val = 64 then s.firstDefault else s.secondDefault), s⟩

/-- CLASSIFIER_READ (R56). -/
def execClassifierRead (port : PortId) (body : List Byte) (s : State) : Host.Outcome State Fault Refusal :=
  .next (takeCommand port anyRole (withLength 1 body (withRange (finBelow 66 (fieldAt body 0 1)) classifierRead)) s)

/-- R44: source and bounds of a checker are replaced. -/
def rangeWrite (r : Fin 4 × RangeChecker) (s : State) : Reply :=
  ⟨.ok, bytesOf 1 r.1.val, { s with checkers := bankSet s.checkers r.1 r.2 }⟩

/-- RANGE_WRITE (R44). -/
def execRangeWrite (port : PortId) (body : List Byte) (s : State) : Host.Outcome State Fault Refusal :=
  .next (takeCommand port [.supervisor] (withLength 4 body (withRange (readRangeWrite body) rangeWrite)) s)

/-- The three bytes of a range checker (Table 10-9). -/
def checkerBytes (c : RangeChecker) : List Byte := [rangeSourceCode c.source] ++ bytesOf 1 c.low ++ bytesOf 1 c.high

/-- R44: the four checkers. -/
def rangeRead (s : State) : Reply := ⟨.ok, s.checkers.toArray.toList.flatMap checkerBytes, s⟩

/-- RANGE_READ (R44). -/
def execRangeRead (port : PortId) (body : List Byte) (s : State) : Host.Outcome State Fault Refusal :=
  .next (takeCommand port anyRole (withLength 0 body rangeRead) s)

/-- The disposition code, reason and target of a merged action in a probe response. A reason or target that the merged
disposition does not have is a free value (log entry 2). -/
def mergedHeadBytes (c : Classification) : List Byte :=
  let b := (c.second.getD c.first).2
  let noReason := Config.probeUnusedReason c.first.2.reason b.reason
  let noTarget := bytesOf 2 (Config.probeUnusedTarget c.first.2.target b.target).toNat
  match c.merged.disposition with
  | .pass => [0, noReason] ++ noTarget
  | .refuse reason => [1] ++ bytesOf 1 reason.toNat ++ noTarget
  | .forward t => [2, noReason] ++ bytesOf 2 t.val

/-- The 19 bytes of a CLASSIFY_PROBE response (Table 10-9). -/
def probeBytes (c : Classification) : List Byte :=
  bytesOf 1 c.hits.toNat ++ bytesOf 1 c.first.1
    ++ bytesOf 1 (match c.second with | some w => w.1 | none => 255)
    ++ mergedHeadBytes c
    ++ actionTailBytes c.merged.priority c.merged.coverage c.merged.noFocus c.merged.life c.merged.retries c.merged.plan 0

/-- R58: NO_SUBSCRIBER, then the classification that an admission on the body's port would make. -/
def classifyProbe (r : ProbeReq) (s : State) : Reply :=
  match s.entry r.billed with
  | none => refuse .noSubscriber s
  | some e =>
    ⟨.ok,
      probeBytes (s.classify {
        port := r.port
        line := r.line
        cls := r.cls
        priority := r.priority
        entry := e
        text := (normalise r.cls r.text).text }),
      s⟩

/-- CLASSIFY_PROBE (R58). -/
def execClassifyProbe (port : PortId) (body : List Byte) (s : State) : Host.Outcome State Fault Refusal :=
  .next (takeCommand port [.intake, .supervisor]
    (fun u => if probeWellFormed body then withRange (readProbe body) classifyProbe u else refuse .format u) s)

end Sys2Proof.Machine
end

