-- ==== Sys2Proof/Machine/Directory.lean ====
section
/-! DEFINITION. Chapter 1: SUBSCRIBER_WRITE, SUBSCRIBER_READ and SUBSCRIBER_DELETE. -/

namespace Sys2Proof.Machine

/-- R12: the entry a SUBSCRIBER_WRITE creates. -/
def createdEntry (r : SubscriberWriteReq) : Entry where
  state := r.initial
  address := r.address
  kind := r.kind
  plan := r.plan
  home := r.home
  region := r.region
  lastSeen := none
  outstandingLimit := r.limit
  balance := 0
  creditLimit := 0
  held := 0
  openCount := 0
  low := false
  exhausted := false

/-- R13, R14: the entry a SUBSCRIBER_WRITE changes; a change of address makes last-seen absent. -/
def changedEntry (r : SubscriberWriteReq) (e : Entry) : Entry :=
  { e with
    address := r.address
    kind := r.kind
    plan := r.plan
    home := r.home
    region := r.region
    outstandingLimit := r.limit
    lastSeen := if e.address = r.address then e.lastSeen else none }

/-- The response body of an OK SUBSCRIBER_WRITE: index and entry state (R10). -/
def writtenBytes (i : AccountIndex) (st : EntryState) : List Byte := bytesOf 2 i.val ++ [entryStateCode st]

/-- R10 to R14: the uniqueness check, the in-use check, and the write. -/
def subscriberWrite (r : SubscriberWriteReq) (s : State) : Reply :=
  if (s.mapped r.address).any fun i => decide (i ≠ r.index) then refuse .addressInUse s
  else
    match s.entry r.index with
    | none =>
      ⟨.ok, writtenBytes r.index r.initial,
        { s.setEntry r.index (createdEntry r) with addressMap := tblSet r.address r.index s.addressMap }⟩
    | some e =>
      if e.address ≠ r.address ∧ 0 < e.openCount then refuse .inUse s
      else
        ⟨.ok, writtenBytes r.index e.state,
          { s.setEntry r.index (changedEntry r e) with
            addressMap := tblSet r.address r.index (tblErase e.address s.addressMap) }⟩

/-- SUBSCRIBER_WRITE (R10). -/
def execSubscriberWrite (port : PortId) (body : List Byte) (s : State) : Host.Outcome State Fault Refusal :=
  .next (takeCommand port [.supervisor] (withLength 11 body (withRange (readSubscriberWrite body) subscriberWrite)) s)

/-- The 32 bytes of a live entry (Table 10-9). -/
def entryBytes (i : AccountIndex) (e : Entry) : List Byte :=
  bytesOf 2 i.val ++ [entryStateCode e.state, suspendCauseCode e.state] ++ bytesOf 3 e.address.toNat
    ++ [pagerKindCode e.kind] ++ bytesOf 1 e.plan.val ++ [e.home, e.region]
    ++ (match e.lastSeen with
        | some l => 1 :: bytesOf 1 l.zone.val ++ bytesOf 4 l.time.toNat
        | none => 0 :: bytesOf 5 0)
    ++ bytesOf 1 e.outstandingLimit ++ bytesOfInt e.balance ++ bytesOf 4 e.creditLimit ++ bytesOf 4 e.held
    ++ bytesOf 1 e.openCount ++ [creditFlagsByte e.low e.exhausted]

/-- R15: every field of the entry, or the index and UNUSED. -/
def subscriberRead (i : AccountIndex) (s : State) : Reply :=
  match s.entry i with
  | some e => ⟨.ok, entryBytes i e, s⟩
  | none => ⟨.ok, bytesOf 2 i.val ++ [0], s⟩

/-- SUBSCRIBER_READ (R15). -/
def execSubscriberRead (port : PortId) (body : List Byte) (s : State) : Host.Outcome State Fault Refusal :=
  .next (takeCommand port anyRole (withLength 2 body (withRange (readIndex body) subscriberRead)) s)

/-- R16, R17: the checks after RANGE, and the delete. -/
def subscriberDelete (i : AccountIndex) (s : State) : Reply :=
  match s.entry i with
  | none => refuse .noSubscriber s
  | some e =>
    if 0 < e.openCount then refuse .inUse s
    else if e.balance ≠ 0 then refuse .balanceNotZero s
    else
      ⟨.ok, bytesOf 2 i.val,
        { s with directory := tblErase i s.directory, addressMap := tblErase e.address s.addressMap }⟩

/-- SUBSCRIBER_DELETE (R16). -/
def execSubscriberDelete (port : PortId) (body : List Byte) (s : State) : Host.Outcome State Fault Refusal :=
  .next (takeCommand port [.supervisor] (withLength 2 body (withRange (readIndex body) subscriberDelete)) s)

end Sys2Proof.Machine
end

