-- ==== Sys2Proof/Machine/Links.lean ====
section
/-! DEFINITION. Chapter 7: the link commands, the inbound blocks of the exchange and the site's status, the link timers and the blocks leaving the line. -/

namespace Sys2Proof.Machine

/-- Zone and link state after a command (R116, R126). -/
def State.linkStateBytes (s : State) (z : ZoneId) : List Byte := bytesOf 1 z.val ++ [linkStateCode (s.link z).state]

/-- R116: on in OFF enters HUNT; off in UP leaves UP with cause RESTART; off in any other state enters OFF. -/
def State.linkEnable (z : ZoneId) (on : Bool) (s : State) : State :=
  match on, (s.link z).state with
  | true, .off => s.enterHunt z
  | true, _ => s
  | false, .off => s
  | false, .up => ((s.begin.leaveUp z .restart).map fun t => t.enterOff z).finish
  | false, _ => s.enterOff z

/-- R116. -/
def linkEnable (r : ZoneId × Bool) (s : State) : Reply :=
  ⟨.ok, (s.linkEnable r.1 r.2).linkStateBytes r.1, s.linkEnable r.1 r.2⟩

/-- LINK_ENABLE (R116). -/
def execLinkEnable (port : PortId) (body : List Byte) (s : State) : Host.Outcome State Fault Refusal :=
  .next (takeCommand port [.dispatch, .supervisor] (withLength 2 body (withRange (readLinkEnable body) linkEnable)) s)

/-- R126: by the link's state. -/
def State.linkRestart (z : ZoneId) (s : State) : State :=
  match (s.link z).state with
  | .up => (s.begin.failUp z .restart).finish
  | .hunt | .exchange => s.enterFailed z .restart
  | .failed => s.setLink z { s.link z with downCause := some .restart, holdOffTimer := some 20 }
  | .off => s

/-- R126. -/
def linkRestart (z : ZoneId) (s : State) : Reply := ⟨.ok, (s.linkRestart z).linkStateBytes z, s.linkRestart z⟩

/-- LINK_RESTART (R126). -/
def execLinkRestart (port : PortId) (body : List Byte) (s : State) : Host.Outcome State Fault Refusal :=
  .next (takeCommand port [.dispatch, .supervisor] (withLength 1 body (withRange (readZoneNumber body) linkRestart)) s)

/-- The remaining ticks of a timer, 255 when stopped (Table 10-9). -/
def timerByte (t : Option Nat) : List Byte := bytesOf 1 (t.getD 255)

/-- The 19 bytes of a READ_LINK response (R127, Table 10-9). -/
def linkBytes (x : Link) : List Byte :=
  [linkStateCode x.state, flagByte (decide (x.state ≠ .off))]
    ++ (match x.profile with
        | some p => 1 :: bytesOf 2 (rateBits p.rate) ++ bytesOf 2 p.capacity ++ bytesOf 2 p.identity
            ++ [remoteFaultCode p.fault]
        | none => bytesOf 8 0)
    ++ bytesOf 2 (rateBits x.lineRate)
    ++ [(match x.downCause with | some c => downCauseCode c | none => 0)]
    ++ bytesOf 1 x.rxErrors ++ timerByte x.huntTimer ++ timerByte x.exchangeTimer ++ timerByte x.silenceTimer
    ++ timerByte x.idleTimer ++ timerByte x.holdOffTimer

/-- R127: the link as it stands, and the receive error count set to 0. -/
def readLink (z : ZoneId) (s : State) : Reply :=
  ⟨.ok, linkBytes (s.link z), s.setLink z { s.link z with rxErrors := 0 }⟩

/-- READ_LINK (R127). -/
def execReadLink (port : PortId) (body : List Byte) (s : State) : Host.Outcome State Fault Refusal :=
  .next (takeCommand port [.dispatch, .supervisor] (withLength 1 body (withRange (readZoneNumber body) readLink)) s)

/-- HUNT_TIMER_EXPIRY (R117): another CAP_BASE is sent and the timer is loaded again. -/
def execHuntTimerExpiry (zone : ZoneId) (s : State) : Host.Outcome State Fault Refusal :=
  .next (
    if s.phase = .working ∧ (s.link zone).state = .hunt ∧ (s.link zone).huntTimer = some 0 then
      s.setLink zone { (s.link zone).send (s.zone zone).capPage with huntTimer := some 5 }
    else s)

/-- EXCHANGE_TIMER_EXPIRY (R118): the link enters FAILED with cause TIMEOUT. -/
def execExchangeTimerExpiry (zone : ZoneId) (s : State) : Host.Outcome State Fault Refusal :=
  .next (
    if s.phase = .working ∧ (s.link zone).state = .exchange ∧ (s.link zone).exchangeTimer = some 0 then
      s.enterFailed zone .timeout
    else s)

/-- SILENCE_TIMER_EXPIRY (R123): the link leaves UP with cause SILENCE and enters FAILED. -/
def execSilenceTimerExpiry (zone : ZoneId) (s : State) : Host.Outcome State Fault Refusal :=
  .next (
    if s.phase = .working ∧ (s.link zone).state = .up ∧ (s.link zone).silenceTimer = some 0 then
      (s.begin.failUp zone .silence).finish
    else s)

/-- Whether an IDLE is queued or on the line. -/
def Link.idleWaiting (x : Link) : Bool := (x.onLine.toList ++ x.txQueue).any fun b => decide (b = .idle)

/-- IDLE_TIMER_EXPIRY (R123): the link sends IDLE; the timer is loaded again when the IDLE has been sent. -/
def execIdleTimerExpiry (zone : ZoneId) (s : State) : Host.Outcome State Fault Refusal :=
  .next (
    if s.phase = .working ∧ (s.link zone).state = .up ∧ (s.link zone).idleTimer = some 0
        ∧ (s.link zone).idleWaiting = false ∧ (s.link zone).streaming = false then
      s.setLink zone ((s.link zone).send .idle)
    else s)

/-- HOLD_OFF_TIMER_EXPIRY (R125): the link enters HUNT. -/
def execHoldOffTimerExpiry (zone : ZoneId) (s : State) : Host.Outcome State Fault Refusal :=
  .next (
    if s.phase = .working ∧ (s.link zone).state = .failed ∧ (s.link zone).holdOffTimer = some 0 then s.enterHunt zone
    else s)

/-- CAP_BASE (R117, R118, R121, R124): by the link's state. -/
def execCapBase (zone : ZoneId) (body : List Byte) (s : State) : Host.Outcome State Fault Refusal :=
  .next (receive zone (readCapBase body)
    (fun st page u =>
      match st with
      | .hunt => (u.begin.enterExchange zone page).finish
      | .exchange => (u.begin.evaluate zone page).finish
      | .up => ((u.begin.leaveUp zone .renegotiate).enterExchange zone page).finish
      | .off | .failed => u) s)

/-- R119: the site's identity is tested against the expected one, and the link enters UP or FAILED. -/
def State.capNext (z : ZoneId) (identity : Nat) (s : State) : State :=
  match (s.link z).basePage with
  | none => s
  | some page =>
    let expected := (s.zone z).written.identity
    if expected ≠ 0 ∧ expected ≠ identity then s.enterFailed z .wrongSite
    else (s.begin.enterUp z ⟨page.agreedRate, page.agreedCapacity, identity, page.fault⟩).finish

/-- CAP_NEXT (R119, R121). -/
def execCapNext (zone : ZoneId) (body : List Byte) (s : State) : Host.Outcome State Fault Refusal :=
  .next (receive zone (readCapNext body)
    (fun st identity u => if st = .exchange then u.capNext zone identity else u) s)

/-- IDLE (R121): reloads the silence timer in UP, and is otherwise ignored or discarded. -/
def execIdle (zone : ZoneId) (body : List Byte) (s : State) : Host.Outcome State Fault Refusal :=
  .next (receive zone (readIdle body) (fun _ _ u => u) s)

/-- R121: SITE_STATUS by the link's state; a fault of `none` is OFFLINE. -/
def State.siteStatus (z : ZoneId) (st : LinkState) (fault : Option RemoteFault) (s : State) : State :=
  match st, fault with
  | .exchange, none => s.enterFailed z .remote
  | .up, none => (s.begin.failUp z .remote).finish
  | .exchange, some f =>
    s.setLink z { s.link z with basePage := (s.link z).basePage.map fun b => { b with fault := f } }
  | .up, some f =>
    s.setLink z { s.link z with profile := (s.link z).profile.map fun p => { p with fault := f } }
  | .off, _ | .hunt, _ | .failed, _ => s

/-- SITE_STATUS (R121). -/
def execSiteStatus (zone : ZoneId) (body : List Byte) (s : State) : Host.Outcome State Fault Refusal :=
  .next (receive zone (readSiteStatus body) (fun st fault u => u.siteStatus zone st fault) s)

/-- BAD_BLOCK (R114): a block judged bad is counted; a block that the judgement finds valid is no such event. -/
def execBadBlock (zone : ZoneId) (block : List Byte) (s : State) : Host.Outcome State Fault Refusal :=
  .next (if blockGood block then s else s.countBad zone)

/-- R112, R122, R123: the block on the line has left it, the next queued block begins, the idle timer is reloaded in UP,
and the line takes the negotiated rate after the last block queued before the change. -/
def Link.blockSent (x : Link) : Link :=
  let y := { x with
    onLine := x.txQueue.head?
    txQueue := x.txQueue.tail
    idleTimer := if x.state = .up then some 10 else x.idleTimer }
  match x.slowBlocks, x.profile with
  | some n, some p => if n ≤ 1 then { y with slowBlocks := none, lineRate := p.rate } else { y with slowBlocks := some (n - 1) }
  | _, _ => y

/-- LINK_BLOCK_SENT (R122): taken while a block is on the line. -/
def execLinkBlockSent (zone : ZoneId) (s : State) : Host.Outcome State Fault Refusal :=
  .next (if (s.link zone).onLine = none then s else s.setLink zone (s.link zone).blockSent)

end Sys2Proof.Machine
end

