-- ==== Sys2Proof/Machine/Accounts.lean ====
section
/-! DEFINITION. Chapter 9: the account commands, the charge journal and the credit sweep. -/

namespace Sys2Proof.Machine

/-! ## Accounts -/

/-- R34: the reported available amount. -/
def Entry.reported (e : Entry) : Int := clampSigned e.available

/-- The 20 bytes of an ACCOUNT_READ response (Table 10-9). -/
def accountBytes (e : Entry) : List Byte :=
  [entryStateCode e.state, suspendCauseCode e.state] ++ bytesOfInt e.balance ++ bytesOf 4 e.creditLimit ++ bytesOf 4 e.held
    ++ bytesOf 1 e.openCount ++ [creditFlagsByte e.low e.exhausted] ++ bytesOfInt e.reported

/-- R149. -/
def accountRead (i : AccountIndex) (s : State) : Reply :=
  match s.entry i with
  | none => refuse .noSubscriber s
  | some e => ⟨.ok, accountBytes e, s⟩

/-- ACCOUNT_READ (R149). -/
def execAccountRead (port : PortId) (body : List Byte) (s : State) : Host.Outcome State Fault Refusal :=
  .next (takeCommand port anyRole (withLength 2 body (withRange (readIndex body) accountRead)) s)

/-- R150: NO_SUBSCRIBER, JOURNAL_FULL, then the change of balance (R35) and the ADJUST record. -/
def accountAdjust (r : AccountIndex × Int × Nat) (s : State) : Reply :=
  match s.entry r.1 with
  | none => refuse .noSubscriber s
  | some e =>
    if s.journalFull then refuse .journalFull s
    else
      let after : Entry := { e with balance := clampSigned (e.balance + r.2.1) }
      ⟨.ok, bytesOf 2 r.1.val ++ bytesOfInt after.balance ++ bytesOfInt after.reported,
        (s.setEntry r.1 after).appendRecord (.adjust ⟨r.1, r.2.1, r.2.2, after.balance, s.clock⟩)⟩

/-- ACCOUNT_ADJUST (R150). -/
def execAccountAdjust (port : PortId) (body : List Byte) (s : State) : Host.Outcome State Fault Refusal :=
  .next (takeCommand port [.accounts, .supervisor]
    (withLength 7 body (withRange (readAccountAdjust body) accountAdjust)) s)

/-- R151. -/
def accountLimit (r : AccountIndex × Nat) (s : State) : Reply :=
  match s.entry r.1 with
  | none => refuse .noSubscriber s
  | some e =>
    let after : Entry := { e with creditLimit := r.2 }
    ⟨.ok, bytesOf 2 r.1.val ++ bytesOfInt after.reported, s.setEntry r.1 after⟩

/-- ACCOUNT_LIMIT (R151). -/
def execAccountLimit (port : PortId) (body : List Byte) (s : State) : Host.Outcome State Fault Refusal :=
  .next (takeCommand port [.accounts, .supervisor]
    (withLength 6 body (withRange (readAccountLimit body) accountLimit)) s)

/-- R87: the open messages billed to an entry, in ascending slot order. -/
def State.openBilledTo (s : State) (i : AccountIndex) : List SlotId :=
  (s.messages.filter fun p => p.2.isOpen && decide (p.2.billed = i)).map Prod.fst

/-- R87: every open message billed to the entry closes PURGED, in ascending slot order, in one event. -/
def State.purge (i : AccountIndex) (s : State) : State :=
  ((s.openBilledTo i).foldl (fun w slot => w.close slot .purged 0) s.begin).finish

/-- R152: the state is written, and then the purge is made. -/
def accountState (r : AccountIndex × EntryState × Bool) (s : State) : Reply :=
  match s.entry r.1 with
  | none => refuse .noSubscriber s
  | some e =>
    let written := s.setEntry r.1 { e with state := r.2.1 }
    if r.2.2 then
      ⟨.ok, bytesOf 2 r.1.val ++ [entryStateCode r.2.1] ++ bytesOf 1 (s.openBilledTo r.1).length, written.purge r.1⟩
    else ⟨.ok, bytesOf 2 r.1.val ++ [entryStateCode r.2.1] ++ bytesOf 1 0, written⟩

/-- ACCOUNT_STATE (R152). -/
def execAccountState (port : PortId) (body : List Byte) (s : State) : Host.Outcome State Fault Refusal :=
  .next (takeCommand port [.accounts, .supervisor]
    (withLength 4 body (withRange (readAccountState body) accountState)) s)

/-! ## Journal -/

/-- The 24 bytes of a journal record (Table 10-9); fields the kind does not have are sent as 0. -/
def journalBytes : JournalRecord → List Byte
  | .settle r =>
    [0] ++ bytesOf 2 r.account.val ++ messageIdBytes r.slot r.epoch ++ [outcomeCode r.outcome, classCode r.cls]
      ++ bytesOf 1 r.payloadWords ++ bytesOf 1 r.zonesSent ++ bytesOf 1 r.attempt ++ bytesOfInt r.amount ++ [0]
      ++ bytesOfInt r.balanceAfter ++ bytesOf 4 r.time.toNat
  | .adjust r =>
    [1] ++ bytesOf 2 r.account.val ++ bytesOf 8 0 ++ bytesOfInt r.amount ++ bytesOf 1 r.reason
      ++ bytesOfInt r.balanceAfter ++ bytesOf 4 r.time.toNat

/-- R147: up to four records leave the front of the journal, and the high-water test is made. -/
def journalFetch (s : State) : Reply :=
  let taken := s.journal.records.take 4
  let left := s.journal.records.drop 4
  ⟨.ok, bytesOf 1 taken.length ++ bytesOf 2 left.length ++ taken.flatMap journalBytes,
    ({ s with journal := { s.journal with records := left } }).highWaterTest⟩

/-- JOURNAL_FETCH (R147). -/
def execJournalFetch (port : PortId) (body : List Byte) (s : State) : Host.Outcome State Fault Refusal :=
  .next (takeCommand port [.accounts, .supervisor] (withLength 0 body journalFetch) s)

/-- R148: the high water is replaced and the test made. -/
def journalConfig (highWater : Nat) (s : State) : Reply :=
  let after := ({ s with journal := { s.journal with highWater := highWater } }).highWaterTest
  ⟨.ok, bytesOf 2 after.journal.records.length ++ [flagByte after.journal.armed], after⟩

/-- JOURNAL_CONFIG (R148). -/
def execJournalConfig (port : PortId) (body : List Byte) (s : State) : Host.Outcome State Fault Refusal :=
  .next (takeCommand port [.accounts, .supervisor]
    (withLength 2 body (withRange (within 1 1024 (fieldAt body 0 2)) journalConfig)) s)

/-! ## Credit sweep -/

/-- R153: every field is written, the 16 low waters are copied, and the pass count starts from 0. -/
def sweepStart (r : SweepReq) (s : State) : Reply :=
  ⟨.ok, [],
    { s with sweep := {
        mode := r.mode
        rate := r.rate
        single := r.single
        autoSuspend := r.autoSuspend
        autoResume := r.autoResume
        lowWater := bankMap Plan.lowWater s.plans
        position := if r.mode = .single then r.single else 0
        passCount := 0 } }⟩

/-- SWEEP_START (R153). -/
def execSweepStart (port : PortId) (body : List Byte) (s : State) : Host.Outcome State Fault Refusal :=
  .next (takeCommand port [.accounts, .supervisor]
    (withLength 6 body (withRange (readSweepStart body) sweepStart)) s)

/-- The 10 bytes of a SWEEP_STATUS response (Table 10-9). -/
def sweepBytes (w : Sweep) : List Byte :=
  [sweepModeCode w.mode] ++ bytesOf 2 w.position.val ++ bytesOf 2 w.passCount.toNat ++ bytesOf 1 w.rate
    ++ bytesOf 2 w.single.val ++ [flagByte w.autoSuspend, flagByte w.autoResume]

/-- R156. -/
def sweepStatus (s : State) : Reply := ⟨.ok, sweepBytes s.sweep, s⟩

/-- SWEEP_STATUS (R156). -/
def execSweepStatus (port : PortId) (body : List Byte) (s : State) : Host.Outcome State Fault Refusal :=
  .next (takeCommand port anyRole (withLength 0 body sweepStatus) s)

/-- R155: the entry as a visit leaves it, for the low water w. -/
def Entry.visited (e : Entry) (w : Sweep) (low : Nat) : Entry :=
  let exhausted := decide (e.available ≤ 0)
  { e with
    low := decide (e.available < low)
    exhausted := exhausted
    state :=
      if w.autoSuspend ∧ exhausted ∧ ¬ e.exhausted ∧ e.state = .active then .suspended .sweep
      else if w.autoResume ∧ e.state = .suspended .sweep ∧ low ≤ e.available then .active
      else e.state }

/-- R155: the event records of a visit from the entry before and after it, in their order. -/
def visitEvents (before after : Entry) : List (EventKind × Int) :=
  (if after.low ∧ ¬ before.low then [(.creditLow, before.reported)] else [])
    ++ (if after.exhausted ∧ ¬ before.exhausted then [(.creditExhausted, before.reported)] else [])
    ++ (if before.state = .active ∧ after.state = .suspended .sweep then
          [(.accountSuspended, ((suspendCauseCode after.state).toNat : Int))] else [])
    ++ (if before.state = .suspended .sweep ∧ after.state = .active then [(.accountResumed, 0)] else [])

/-- R155: a visit to an index; an UNUSED entry is skipped. -/
def State.visit (i : AccountIndex) (s : State) : State :=
  match s.entry i with
  | none => s
  | some e =>
    let after := e.visited s.sweep (bankGet s.sweep.lowWater e.plan)
    (visitEvents e after).foldl (fun t ev => t.post ev.1 i.val ev.2) (s.setEntry i after)

/-- R154: the visit of index 8,191 ends the pass: the pass count rises, the position returns to 0, SWEEP_PASS_DONE is
posted, and in ONE_PASS the mode becomes STOP. -/
def State.endPass (s : State) : State :=
  let count := s.sweep.passCount + 1
  ({ s with sweep := { s.sweep with
      mode := if s.sweep.mode = SweepMode.onePass then SweepMode.stop else s.sweep.mode
      position := 0
      passCount := count } }).post .sweepPassDone 0 count.toNat

/-- R154: one visit of a running sweep and the advance of its position. -/
def State.sweepVisit (s : State) : State :=
  let t := s.visit s.sweep.position
  if s.sweep.position = 8191 then t.endPass
  else { t with sweep := { t.sweep with position := t.sweep.position + 1 } }

/-- R154: the visits of a tick, at most `n` of them; a pass that ends in ONE_PASS ends the tick's visits. -/
def State.sweepVisits : (n : Nat) → State → State
  | 0, s => s
  | n + 1, s =>
    match s.sweep.mode with
    | .continuous | .onePass => State.sweepVisits n s.sweepVisit
    | .stop | .single => s

/-- R154: the sweep's visits for a tick, according to its mode. -/
def State.sweepTick (s : State) : State :=
  match s.sweep.mode with
  | .stop => s
  | .continuous | .onePass => s.sweepVisits s.sweep.rate
  | .single => s.visit s.sweep.single

end Sys2Proof.Machine
end

