-- ==== Sys2Proof/Machine/Dispatcher.lean ====
section
/-! DEFINITION. Chapter 6: ZONE_CONFIG, READ_ZONE, AIR_HOLD, AIR_RELEASE, the batch timer and the accept deadline, and the site's answers. -/

namespace Sys2Proof.Machine

/-- R97: every setting of the zone's settings written is replaced. -/
def zoneConfig (r : ZoneId × ZoneSettings) (s : State) : Reply :=
  ⟨.ok, bytesOf 1 r.1.val, s.setZone r.1 { s.zone r.1 with written := r.2 }⟩

/-- ZONE_CONFIG (R97). -/
def execZoneConfig (port : PortId) (body : List Byte) (s : State) : Host.Outcome State Fault Refusal :=
  .next (takeCommand port [.dispatch, .supervisor] (withLength 13 body (withRange (readZoneConfig body) zoneConfig)) s)

/-- The 7 bytes of dispatch settings (Table 10-9). -/
def dispatchBytes (d : DispatchSettings) : List Byte :=
  bytesOf 1 d.period ++ bytesOf 2 d.threshold ++ bytesOf 2 d.hysteresis ++ bytesOf 2 d.margin

/-- Presence and the 13 bytes of a batch in flight, all 0 when absent (Table 10-9). -/
def batchBytes : Option Batch → List Byte
  | none => bytesOf 14 0
  | some b =>
    1 :: bytesOf 1 b.number.toNat ++ bytesOf 2 b.capacity ++ bytesOf 2 (rateBits b.rate) ++ bytesOf 2 b.entries.length
      ++ bytesOf 2 (b.entries.filter BatchEntry.void).length ++ bytesOf 2 b.totalWords ++ bytesOf 2 b.deadline

/-- The 51 bytes of a READ_ZONE response (R110, Table 10-9). -/
def State.zoneBytes (s : State) (z : ZoneId) : List Byte :=
  let x := s.zone z
  bytesOf 2 x.queue.length ++ bytesOf 2 (queuedWords x.queue) ++ [flagByte x.congested]
    ++ (match x.queue with
        | q :: _ => bytesOf 1 q.priority.val ++ bytesOf 4 q.seq.toNat
        | [] => bytesOf 5 0)
    ++ bytesOf 4 x.nextSeq.toNat ++ bytesOf 1 x.nextBatch.toNat ++ batchBytes x.inFlight ++ bytesOf 2 x.batchTimer
    ++ dispatchBytes x.written.dispatch ++ bytesOf 1 x.written.rates.toNat ++ bytesOf 2 x.written.capacity
    ++ bytesOf 2 x.written.identity ++ dispatchBytes x.force ++ [flagByte s.airHold]

/-- R110. -/
def readZone (z : ZoneId) (s : State) : Reply := ⟨.ok, s.zoneBytes z, s⟩

/-- READ_ZONE (R110). -/
def execReadZone (port : PortId) (body : List Byte) (s : State) : Host.Outcome State Fault Refusal :=
  .next (takeCommand port anyRole (withLength 1 body (withRange (readZoneNumber body) readZone)) s)

/-- R109, R135: the air hold comes into force and the retry timers of every slot in WAIT freeze. -/
def airHold (s : State) : Reply :=
  ⟨.ok, [flagByte s.airHold],
    if s.airHold then s
    else
      { s with
        airHold := true
        messages := tblMap (fun _ (m : Message) => if m.inWait then ({ m with frozen := true } : Message) else m) s.messages }⟩

/-- AIR_HOLD (R109). -/
def execAirHold (port : PortId) (body : List Byte) (s : State) : Host.Outcome State Fault Refusal :=
  .next (takeCommand port [.dispatch, .supervisor] (withLength 0 body airHold) s)

/-- R109, R135: the air hold is released, every frozen flag clears, and a formation is attempted for each zone whose
queue has a priority-3 entry first. -/
def airRelease (s : State) : Reply :=
  ⟨.ok, [flagByte s.airHold],
    if s.airHold then
      let s1 := { s with airHold := false, messages := tblMap (fun _ (m : Message) => ({ m with frozen := false } : Message)) s.messages }
      ({ s1.begin with calls := zonesWhere fun z => urgentFirst (s1.zone z).queue } : Work).finish
    else s⟩

/-- AIR_RELEASE (R109). -/
def execAirRelease (port : PortId) (body : List Byte) (s : State) : Host.Outcome State Fault Refusal :=
  .next (takeCommand port [.dispatch, .supervisor] (withLength 0 body airRelease) s)

/-- R98: a formation is attempted, and the timer is loaded with the period then in force, 10 ticks per second. -/
def State.batchTimerExpiry (z : ZoneId) (s : State) : State :=
  ((s.begin.form z).map fun t => t.setZone z { t.zone z with batchTimer := 10 * (t.zone z).force.period }).finish

/-- BATCH_TIMER_EXPIRY (R98): taken when the zone's batch timer is at 0. -/
def execBatchTimerExpiry (zone : ZoneId) (s : State) : Host.Outcome State Fault Refusal :=
  .next (if s.phase = .working ∧ (s.zone zone).batchTimer = 0 then s.batchTimerExpiry zone else s)

/-- Whether the accept deadline of the zone's batch in flight is at 0. -/
def State.deadlineDue (s : State) (z : ZoneId) : Bool :=
  match (s.zone z).inFlight with
  | some b => decide (b.deadline = 0)
  | none => false

/-- ACCEPT_DEADLINE_EXPIRY (R106): the link leaves UP with cause NO_ACCEPT and enters FAILED. -/
def execAcceptDeadlineExpiry (zone : ZoneId) (s : State) : Host.Outcome State Fault Refusal :=
  .next (if s.phase = .working ∧ s.deadlineDue zone then (s.begin.failUp zone .noAccept).finish else s)

/-- The batch in flight that an answer with this number ends (R103, R105). -/
def State.answeredBatch (s : State) (z : ZoneId) (number : BitVec 8) : Option Batch :=
  (s.zone z).inFlight.filter fun b => decide (b.number = number)

/-- BATCH_ACCEPT (R103, R121): passed to the dispatcher in UP and in EXCHANGE. -/
def execBatchAccept (zone : ZoneId) (body : List Byte) (s : State) : Host.Outcome State Fault Refusal :=
  .next (receive zone (readBatchAnswer body)
    (fun st number u =>
      if st = .up ∨ st = .exchange then
        match u.answeredBatch zone number with
        | some b => (u.begin.accepted zone b).finish
        | none => u
      else u) s)

/-- BATCH_REFUSE (R105, R121): passed to the dispatcher in UP and in EXCHANGE. -/
def execBatchRefuse (zone : ZoneId) (body : List Byte) (s : State) : Host.Outcome State Fault Refusal :=
  .next (receive zone (readBatchAnswer body)
    (fun st number u =>
      if st = .up ∨ st = .exchange then
        match u.answeredBatch zone number with
        | some b => (u.begin.refused zone b).finish
        | none => u
      else u) s)

end Sys2Proof.Machine
end

