-- ==== Sys2Proof/Machine/Store.lean ====
section
/-! DEFINITION. Chapter 5: CANCEL, QUERY_MESSAGE, FETCH_OUTCOMES and LIFE_EXPIRY. -/

namespace Sys2Proof.Machine

/-- R77: an id is live when its slot is not FREE and holds the id's epoch; the message it then names. -/
def State.liveMessage (s : State) (id : SlotId × Epoch) : Option Message :=
  if s.epoch id.1 = id.2 then s.message id.1 else none

/-- R83: a closing event taken as a whole event. -/
def State.closeMessage (slot : SlotId) (o : MsgOutcome) (k : Nat) (s : State) : State := (s.begin.close slot o k).finish

/-- R85: NO_MESSAGE, ROLE (ownership), ALREADY_CLOSED, then the close. -/
def cancel (port : PortId) (id : SlotId × Epoch) (s : State) : Reply :=
  match s.liveMessage id with
  | none => refuse .noMessage s
  | some m =>
    if m.port ≠ port ∧ (s.port port).role ≠ .supervisor then refuse .role s
    else
      match m.closing with
      | some c => ⟨.alreadyClosed, messageIdBytes id.1 id.2 ++ [outcomeCode c.outcome], s⟩
      | none =>
        ⟨.ok,
          messageIdBytes id.1 id.2 ++ [outcomeCode .cancelled] ++ bytesOf 3 m.hold
            ++ bytesOf 3 (m.settlementAmount .cancelled 0),
          s.closeMessage id.1 .cancelled 0⟩

/-- CANCEL (R85). -/
def execCancel (port : PortId) (body : List Byte) (s : State) : Host.Outcome State Fault Refusal :=
  .next (takeCommand port anyRole (withLength 3 body (withRange (readMessageId body) (cancel port))) s)

/-- The 20 bytes of a tariff snapshot (Table 10-9). -/
def tariffBytes (t : TariffSnapshot) : List Byte :=
  bytesOf 2 t.classBase ++ bytesOf 2 t.wordRate ++ bytesOf 2 t.zoneRate ++ bytesOf 1 t.multiplier ++ bytesOf 2 t.retryFee
    ++ bytesOf 2 t.failFee ++ bytesOf 3 t.cap ++ bytesOf 1 t.retryCount ++ bytesOf 1 t.retryBase
    ++ bytesOf 2 t.retryCeiling ++ bytesOf 2 t.focusAge

/-- The 9 bytes of an attempt record (Table 10-9). -/
def attemptBytes (a : Attempt) : List Byte :=
  bytesOf 1 a.number ++ [a.requested, a.pending, a.sent] ++ presenceBytes 4 (a.transmitted.map fun t => t.toNat)

/-- The QUERY_MESSAGE response body: 48 bytes and 9 for each attempt record (R91). -/
def State.queryBytes (s : State) (slot : SlotId) (m : Message) : List Byte :=
  [slotStateCode (s.slotStateOf slot m)]
    ++ (match m.closing with
        | some c => outcomeCode c.outcome :: bytesOf 3 c.settled
        | none => 0 :: bytesOf 3 0)
    ++ bytesOf 1 m.port.val ++ bytesOf 1 m.line ++ bytesOf 2 m.billed.val ++ bytesOf 2 m.delivery.val
    ++ bytesOf 3 m.address.toNat ++ [pagerKindCode m.kind, classCode m.cls] ++ bytesOf 1 m.priority.val
    ++ bytesOf 1 m.length ++ bytesOf 1 m.words ++ bytesOf 2 m.life ++ [m.home, m.reach] ++ tariffBytes m.tariff
    ++ bytesOf 3 m.hold ++ [admissionFlagsFocusByte m] ++ bytesOf 1 m.attempts.length
    ++ m.attempts.flatMap attemptBytes

/-- R91. -/
def queryMessage (id : SlotId × Epoch) (s : State) : Reply :=
  match s.liveMessage id with
  | none => refuse .noMessage s
  | some m => ⟨.ok, s.queryBytes id.1 m, s⟩

/-- QUERY_MESSAGE (R91). -/
def execQueryMessage (port : PortId) (body : List Byte) (s : State) : Host.Outcome State Fault Refusal :=
  .next (takeCommand port anyRole (withLength 3 body (withRange (readMessageId body) queryMessage)) s)

/-- The 16 bytes of an outcome record (R89, Table 10-9). -/
def outcomeRecordBytes (slot : SlotId) (e : Epoch) (m : Message) : List Byte :=
  messageIdBytes slot e
    ++ (match m.closing with | some c => [outcomeCode c.outcome] | none => [0])
    ++ bytesOf 2 m.billed.val ++ bytesOf 1 m.line ++ bytesOf 3 m.hold
    ++ (match m.closing with | some c => bytesOf 3 c.settled | none => bytesOf 3 0)
    ++ bytesOf 1 m.attempts.length
    ++ [(match m.lastAttempt with | some a => a.sent | none => 0), admissionFlagsByte m]

/-- The outcome record of a listed slot. -/
def State.outcomeRecord (s : State) (slot : SlotId) : List Byte :=
  match s.message slot with
  | some m => outcomeRecordBytes slot (s.epoch slot) m
  | none => []

/-- R90: the slot becomes FREE and its epoch advances, 15 followed by 0. -/
def State.freeSlotOf (s : State) (slot : SlotId) : State :=
  { s with messages := tblErase slot s.messages }.setEpoch slot (s.epoch slot + 1)

/-- R89: up to six slots from the front of the asking port's own list are reported and freed. -/
def fetchOutcomes (port : PortId) (s : State) : Reply :=
  let taken := (s.port port).outcomes.take 6
  let left := (s.port port).outcomes.drop 6
  ⟨.ok,
    bytesOf 1 taken.length ++ bytesOf 2 left.length ++ taken.flatMap s.outcomeRecord,
    taken.foldl State.freeSlotOf (s.setPort port { s.port port with outcomes := left })⟩

/-- FETCH_OUTCOMES (R89). -/
def execFetchOutcomes (port : PortId) (body : List Byte) (s : State) : Host.Outcome State Fault Refusal :=
  .next (takeCommand port [.intake, .supervisor] (withLength 0 body (fetchOutcomes port)) s)

/-- R81: whether an open message's life reaches 0 at the next one-second step. -/
def Message.lastSecond (m : Message) : Bool := m.isOpen && decide (m.life ≤ 1)

/-- R81: the slots whose life reaches 0 at the next one-second step, in ascending order. -/
def State.lastSeconds (s : State) : List SlotId := (s.messages.filter fun p => p.2.lastSecond).map Prod.fst

/-- R81, R170: while a one-second step is due, the slot whose life expiry comes first in it. -/
def State.dueLife (s : State) : Option SlotId := if 10 ≤ s.secondDivider then s.lastSeconds.head? else none

/-- R82: EXPIRED, or SENT for a one-way message whose attempt 0 has a transmitted time. -/
def Message.lifeOutcome (m : Message) : MsgOutcome :=
  match m.kind with
  | .twoWay => .expired
  | .oneWay => if m.attempts.any fun a => decide (a.number = 0) && a.transmitted.isSome then .sent else .expired

/-- R81, R82: the life of an open slot reaches 0 and its expiry is taken in the same step. -/
def State.expireLife (s : State) (slot : SlotId) : State :=
  match s.openMessage slot with
  | some m => (s.setMessage slot { m with life := 0 }).closeMessage slot m.lifeOutcome 0
  | none => s

/-- LIFE_EXPIRY (R81, R82): the share of a due one-second step in which the slot's life reaches 0, with its expiry; an
expiry that is not due does not occur (log entry 4). -/
def execLifeExpiry (slot : SlotId) (s : State) : Host.Outcome State Fault Refusal :=
  .next (if s.phase = .working ∧ s.dueLife = some slot then s.expireLife slot else s)

end Sys2Proof.Machine
end

