-- ==== Sys2Proof/Machine/Retry.lean ====
section
/-! DEFINITION. Chapter 8: RETRY_STATUS, the expiry of a retry wait, and the blocks a site sends about a pager (with the last-seen update of Chapter 1). -/

namespace Sys2Proof.Machine

/-! ## The escalation ladder (R138) -/

/-- Table 8-5, its HOME and REACH steps: the requested coverage of an attempt that is not focused. -/
def Message.ladder (m : Message) (n : Nat) : ZoneSet :=
  match m.kind with
  | .twoWay => if n ≤ 1 then m.home else m.reach
  | .oneWay => if n = 0 then m.home else m.reach

/-- R142: the coverage of attempt current + 1, and the empty set when no next attempt can be formed. -/
def Message.nextCoverage (m : Message) : ZoneSet :=
  if m.isOpen ∧ m.currentAttempt < m.tariff.retryCount then m.ladder (m.currentAttempt + 1) else 0

/-! ## RETRY_STATUS -/

/-- R142: the ticks remaining in WAIT, and 65,535 in every other state. -/
def State.remainingTicks (s : State) (slot : SlotId) (m : Message) : Nat :=
  if s.slotStateOf slot m = .wait then m.retryTimer.getD 65535 else 65535

/-- The 7 bytes of a RETRY_STATUS response (Table 10-9). -/
def State.retryBytes (s : State) (slot : SlotId) (m : Message) : List Byte :=
  [slotStateCode (s.slotStateOf slot m)] ++ bytesOf 1 m.currentAttempt ++ bytesOf 2 (s.remainingTicks slot m)
    ++ [flagByte m.frozen, (match m.lastAttempt with | some a => a.sent | none => 0), m.nextCoverage]

/-- R142. -/
def retryStatus (id : SlotId × Epoch) (s : State) : Reply :=
  match s.liveMessage id with
  | none => refuse .noMessage s
  | some m => ⟨.ok, s.retryBytes id.1 m, s⟩

/-- RETRY_STATUS (R142). -/
def execRetryStatus (port : PortId) (body : List Byte) (s : State) : Host.Outcome State Fault Refusal :=
  .next (takeCommand port [.intake, .dispatch, .supervisor]
    (withLength 3 body (withRange (readMessageId body) retryStatus)) s)

/-! ## Expiry of the wait (R135 to R137) -/

/-- R135: whether the retry timer of a slot in WAIT counts and reaches 0 at the next tick. -/
def Message.lastTick (m : Message) : Bool :=
  m.inWait && !m.frozen &&
    match m.retryTimer with
    | some n => decide (n ≤ 1)
    | none => false

/-- R135: the slots whose retry timer reaches 0 at the next tick, in ascending order. -/
def State.lastTicks (s : State) : List SlotId := (s.messages.filter fun p => p.2.lastTick).map Prod.fst

/-- R135: the slot whose retry expiry comes first in the next tick. -/
def State.dueRetry (s : State) : Option SlotId := s.lastTicks.head?

/-- R136, R137: attempt n + 1 is formed with the ladder's coverage, joins the attempt list and is placed. -/
def State.formAttempt (slot : SlotId) (m : Message) (s : State) : State :=
  let n := m.currentAttempt + 1
  ((s.setMessage slot
      { m with
        retryTimer := none
        attempts := m.attempts ++ [⟨n, m.ladder n, 0, 0, none⟩] }).begin.place slot).finish

/-- R136, R137: the expiry of the wait of an open slot: the next attempt is formed, or a two-way message whose last
permitted attempt has waited closes MISSED. -/
def State.expireRetry (s : State) (slot : SlotId) : State :=
  match s.openMessage slot with
  | some m =>
    if m.kind = .oneWay ∨ m.currentAttempt < m.tariff.retryCount then s.formAttempt slot m
    else s.closeMessage slot .missed 0
  | none => s

/-- Whether the share of the next tick that is due first is the expiry of this slot's wait, with a pager of this kind. -/
def State.retryReady (s : State) (slot : SlotId) (kind : PagerKind) : Bool :=
  decide (s.phase = .working ∧ s.dueRetry = some slot ∧ (s.openMessage slot).map Message.kind = some kind)

/-- RETRY_EXPIRY (R135, R136): the share of a tick in which a two-way slot's wait expires; an expiry that is not due does
not occur (log entry 4). -/
def execRetryExpiry (slot : SlotId) (s : State) : Host.Outcome State Fault Refusal :=
  .next (if s.retryReady slot .twoWay then s.expireRetry slot else s)

/-- REPEAT_EXPIRY (R135, R137): the share of a tick in which a one-way slot's wait expires; an expiry that is not due does
not occur (log entry 4). -/
def execRepeatExpiry (slot : SlotId) (s : State) : Host.Outcome State Fault Refusal :=
  .next (if s.retryReady slot .oneWay then s.expireRetry slot else s)

/-! ## Blocks about a pager -/

/-- R8: the entry the address is mapped to takes last-seen = (zone, office clock). -/
def State.seen (z : ZoneId) (a : PagerAddress) (s : State) : State :=
  match s.mapped a with
  | none => s
  | some i =>
    match s.entry i with
    | none => s
    | some e => s.setEntry i { e with lastSeen := some ⟨z, s.clock⟩ }

/-- R131: a LATE acknowledgement posts one LATE_ACK. -/
def State.lateAck (slot : SlotId) (e : Epoch) (m : Message) (s : State) : State :=
  s.post .lateAck m.billed.val ((slot.val * 16 + e.toNat : Nat) : Int)

/-- R129, Table 8-2: the tests in their order. -/
def State.matchAck (t : AckTag) (s : State) : State :=
  match s.message t.slot with
  | none => s
  | some m =>
    if s.epoch t.slot ≠ t.epoch then s
    else if m.kind = .oneWay then s
    else if m.address ≠ t.address ∨ m.currentAttempt < t.attempt then s
    else
      match m.closing with
      | none => s.closeMessage t.slot .delivered t.attempt
      | some c => if c.outcome = .delivered then s else s.lateAck t.slot t.epoch m

/-- PAGER_ACK (R8, R121, R129). -/
def execPagerAck (zone : ZoneId) (body : List Byte) (s : State) : Host.Outcome State Fault Refusal :=
  .next (receive zone (readPagerAck body)
    (fun st tag u =>
      if st = .up ∨ st = .exchange then (u.seen zone tag.address).matchAck tag else u) s)

/-- PAGER_LOCATE (R8, R121). -/
def execPagerLocate (zone : ZoneId) (body : List Byte) (s : State) : Host.Outcome State Fault Refusal :=
  .next (receive zone (readPagerLocate body)
    (fun st address u => if st = .up ∨ st = .exchange then u.seen zone address else u) s)

end Sys2Proof.Machine
end

