-- ==== Sys2Proof/Machine/Office.lean ====
section
/-! DEFINITION. Chapter 11: the office clock, the sources of a device reset, the initialisation pass, the tick and the one-second step. -/

namespace Sys2Proof.Machine

/-! ## The office clock (R171) -/

/-- R171. -/
def readClock (s : State) : Reply := ⟨.ok, bytesOf 4 s.clock.toNat, s⟩

/-- READ_CLOCK (R171). -/
def execReadClock (port : PortId) (body : List Byte) (s : State) : Host.Outcome State Fault Refusal :=
  .next (takeCommand port anyRole (withLength 0 body readClock) s)

/-- R171: the clock before and as loaded. -/
def clockSet (value : Clock) (s : State) : Reply :=
  ⟨.ok, bytesOf 4 s.clock.toNat ++ bytesOf 4 value.toNat, { s with clock := value }⟩

/-- CLOCK_SET (R171). -/
def execClockSet (port : PortId) (body : List Byte) (s : State) : Host.Outcome State Fault Refusal :=
  .next (takeCommand port [.supervisor] (withLength 4 body (clockSet (BitVec.ofNat 32 (fieldAt body 0 4)))) s)

/-! ## Device reset (R172, R173) -/

/-- R172: the response just fixed on the port is that of an OFFICE_RESET. -/
def officeReset (port : PortId) (s : State) : Reply := ⟨.ok, [], s.setPort port { s.port port with resetAfter := true }⟩

/-- OFFICE_RESET (R172). -/
def execOfficeReset (port : PortId) (body : List Byte) (s : State) : Host.Outcome State Fault Refusal :=
  .next (takeCommand port [.supervisor] (withLength 0 body (officeReset port)) s)

/-- Whether an OFFICE_RESET's reset can take effect: its response has ended or been abandoned, or is being sent and
ends with this event. -/
def State.officeResetReady (s : State) : Bool :=
  s.resetDue || allPorts.any fun p => (s.port p).resetAfter && decide ((s.port p).receiver = .sending)

/-- OFFICE_RESET_TAKES_EFFECT (R172): the device reset is taken and the pass starts. -/
def execOfficeResetTakesEffect (rate1 rate0 : Bool) (s : State) : Host.Outcome State Fault Refusal :=
  .next (if s.phase ≠ .held ∧ s.officeResetReady then s.deviceReset rate1 rate0 .starting else s)

/-- POWER_ON (R172): a device reset; with RESET_N low the part stays held. -/
def execPowerOn (rate1 rate0 : Bool) (s : State) : Host.Outcome State Fault Refusal :=
  .next (s.deviceReset rate1 rate0 (if s.phase = .held then .held else .starting))

/-- RESET_N_LOW (R172): a device reset, and the part is held. -/
def execResetNLow (rate1 rate0 : Bool) (s : State) : Host.Outcome State Fault Refusal :=
  .next (s.deviceReset rate1 rate0 .held)

/-- RESET_N_HIGH (R172): the pass of a held part starts. -/
def execResetNHigh (s : State) : Host.Outcome State Fault Refusal :=
  .next (if s.phase = .held then { s with phase := .starting } else s)

/-- INITIALISATION_PASS_END (R173): commands are taken again, the dividers start from 0 and each zone's batch timer from
50 ticks. -/
def execInitialisationPassEnd (s : State) : Host.Outcome State Fault Refusal :=
  .next (
    if s.phase = .starting then
      { s with
        phase := .working
        tickDivider := 0
        secondDivider := 0
        zones := bankMap (fun (x : Zone) => ({ x with batchTimer := 50 } : Zone)) s.zones }
    else s)

/-! ## Ticks and seconds (R170) -/

/-- R98, R102: a zone's batch timer and the accept deadline of its batch in flight count down one tick. -/
def Zone.tick (x : Zone) : Zone :=
  { x with
    batchTimer := x.batchTimer - 1
    inFlight := x.inFlight.map fun b => { b with deadline := b.deadline - 1 } }

/-- R135: the retry timer of a slot in WAIT whose frozen flag is clear counts down one tick. -/
def Message.tick (m : Message) : Message :=
  if m.inWait ∧ ¬ m.frozen then { m with retryTimer := timerTick m.retryTimer } else m

/-- R170: every timer that counts in ticks counts one tick. -/
def State.count (s : State) : State :=
  { s with
    tickDivider := 0
    secondDivider := s.secondDivider + 1
    zones := bankMap Zone.tick s.zones
    links := bankMap Link.tick s.links
    messages := tblMap (fun _ (m : Message) => m.tick) s.messages }

/-- R170: the blocks that count in ticks take their tick. The retry expiry of each slot whose timer reaches 0 is taken in the
same tick, in ascending slot order (R135), and then the sweep's visits (R154). R170 gives the blocks no order: this one is a
DESIGN CHOICE (log entry 8), and so is that all of it comes before the one-second step of a tenth tick (log entry 22). -/
def State.tick (s : State) : State := (s.lastTicks.foldl State.expireRetry s.count).sweepTick

/-- TICK (R170): while the part works; no tick is counted during a reset or the pass. -/
def execTick (s : State) : Host.Outcome State Fault Refusal :=
  .next (if s.phase = .working then s.tick else s)

/-- R81: the life remaining of an open message falls by 1. -/
def Message.second (m : Message) : Message := if m.isOpen then { m with life := m.life - 1 } else m

/-- R170, R171, R81: the second divider's expiry. The clock advances, every open life falls by 1, and the expiry of each
slot whose life reaches 0 is taken in the same step, in ascending slot order. -/
def State.second (s : State) : State :=
  s.lastSeconds.foldl State.expireLife
    { s with
      secondDivider := s.secondDivider - 10
      clock := s.clock + 1
      messages := tblMap (fun _ (m : Message) => m.second) s.messages }

/-- ONE_SECOND_STEP (R170): every tenth tick. DESIGN CHOICE: it comes after the acts of that tick, to which R170 gives no
order against it (log entry 22). -/
def execOneSecondStep (s : State) : Host.Outcome State Fault Refusal :=
  .next (if s.phase = .working ∧ 10 ≤ s.secondDivider then s.second else s)

end Sys2Proof.Machine
end

