-- ==== Sys2Proof/Machine/Plans.lean ====
section
/-! DEFINITION. Chapter 2: PLAN_WRITE and PLAN_READ. -/

namespace Sys2Proof.Machine

/-- R20: every field of the plan is replaced. -/
def planWrite (r : PlanIndex × Plan) (s : State) : Reply :=
  ⟨.ok, bytesOf 1 r.1.val, { s with plans := bankSet s.plans r.1 r.2 }⟩

/-- PLAN_WRITE (R20). -/
def execPlanWrite (port : PortId) (body : List Byte) (s : State) : Host.Outcome State Fault Refusal :=
  .next (takeCommand port [.accounts, .supervisor] (withLength 35 body (withRange (readPlanWrite body) planWrite)) s)

/-- R21. -/
def planRead (i : PlanIndex) (s : State) : Reply := ⟨.ok, planBytes i (s.plan i), s⟩

/-- PLAN_READ (R21). -/
def execPlanRead (port : PortId) (body : List Byte) (s : State) : Host.Outcome State Fault Refusal :=
  .next (takeCommand port anyRole (withLength 1 body (withRange (finBelow 16 (fieldAt body 0 1)) planRead)) s)

end Sys2Proof.Machine
end

