-- ==== Sys2Proof/Machine/Ports.lean ====
section
/-! DEFINITION. Chapter 10: FETCH_EVENTS, the port commands, and the events of a port's line. -/

namespace Sys2Proof.Machine

/-! ## Outputs -/

/-- Table 10-3: a response frame as it is sent: START 0x3C, LENGTH, STATUS, BODY, CRC. -/
def responseFrame (r : Response) : List Byte :=
  let covered := bytesOf 1 r.body.length ++ statusCode r.status :: r.body
  0x3C :: covered ++ crcBytes covered

/-- R162: the bytes a port is sending; TXD is held at 1 in every other receiver state. -/
def Port.sending (x : Port) : Option (List Byte) :=
  match x.receiver, x.answer with
  | .sending, some a => some (responseFrame a.response)
  | _, _ => none

/-- R162: the port enters SENDING with the characters of its response frame to drive, with no idle time between them. -/
def Port.startSending (x : Port) : Port :=
  let y := { x with receiver := .sending }
  { y with unsent := (y.sending.getD []).flatMap characterBits }

/-- R163: the byte on the line is finished and no further byte is sent. The first of the bits to drive is on the line, and a
character is ten bits with no idle time before the next (R162), so one to ten bits are left of the byte on the line. -/
def finishByte (bits : List Bool) : List Bool := bits.take ((bits.length - 1) % 10 + 1)

/-- R159: what the part drives on TXD from now on: the bits it has still to send, and then a line idle at 1. -/
def Port.txd (x : Port) : List Bool := if x.unsent = [] then [true] else x.unsent

/-- Table 10-2: the bit rate of all four ports, in bit/s. -/
def Straps.bitRate (s : Straps) : Nat :=
  match s.rate1, s.rate0 with
  | false, false => 115200
  | false, true => 230400
  | true, false => 460800
  | true, true => 921600

/-! ## Events -/

/-- Table 10-4: the 11 bytes of an event record. -/
def eventBytes (r : EventRecord) : List Byte :=
  [eventCode r.kind] ++ bytesOf 2 r.subject ++ bytesOfInt r.detail ++ bytesOf 4 r.time.toNat

/-- R167: up to eight records leave the front of the asking port's own queue; the lost flag is read and cleared. -/
def fetchEvents (port : PortId) (s : State) : Reply :=
  let x := s.port port
  let taken := x.events.take 8
  let left := x.events.drop 8
  ⟨.ok, bytesOf 1 taken.length ++ bytesOf 1 left.length ++ [flagByte x.lost] ++ taken.flatMap eventBytes,
    s.setPort port { x with events := left, lost := false }⟩

/-- FETCH_EVENTS (R167). -/
def execFetchEvents (port : PortId) (body : List Byte) (s : State) : Host.Outcome State Fault Refusal :=
  .next (takeCommand port anyRole (withLength 0 body (fetchEvents port)) s)

/-! ## Port commands -/

/-- Whether a port is the only one with the SUPERVISOR role (R164). -/
def State.onlySupervisor (s : State) (p : PortId) : Bool :=
  decide ((s.port p).role = .supervisor) && allPorts.all fun q => decide (q = p ∨ (s.port q).role ≠ .supervisor)

/-- R164: LAST_SUPERVISOR, then the write. -/
def setRole (r : PortId × Role) (s : State) : Reply :=
  if s.onlySupervisor r.1 ∧ r.2 ≠ .supervisor then refuse .lastSupervisor s
  else
    let after := s.setPort r.1 { s.port r.1 with role := r.2 }
    ⟨.ok, allPorts.map fun p => roleCode (after.port p).role, after⟩

/-- SET_ROLE (R164). -/
def execSetRole (port : PortId) (body : List Byte) (s : State) : Host.Outcome State Fault Refusal :=
  .next (takeCommand port [.supervisor] (withLength 2 body (withRange (readSetRole body) setRole)) s)

/-- R165. -/
def portConfig (r : PortId × Nat) (s : State) : Reply :=
  ⟨.ok, bytesOf 1 r.1.val ++ bytesOf 1 r.2, s.setPort r.1 { s.port r.1 with gap := r.2 }⟩

/-- PORT_CONFIG (R165). -/
def execPortConfig (port : PortId) (body : List Byte) (s : State) : Host.Outcome State Fault Refusal :=
  .next (takeCommand port [.supervisor] (withLength 2 body (withRange (readPortConfig body) portConfig)) s)

/-- The 6 bytes of one port in a PORT_READ response (Table 10-9). -/
def portBytes (x : Port) : List Byte :=
  [roleCode x.role] ++ bytesOf 1 x.gap ++ bytesOf 1 x.events.length ++ [flagByte x.lost] ++ bytesOf 2 x.outcomes.length

/-- R165. -/
def portRead (s : State) : Reply := ⟨.ok, allPorts.flatMap fun p => portBytes (s.port p), s⟩

/-- PORT_READ (R165). -/
def execPortRead (port : PortId) (body : List Byte) (s : State) : Host.Outcome State Fault Refusal :=
  .next (takeCommand port anyRole (withLength 0 body portRead) s)

/-! ## The line of a port -/

/-- UNKNOWN_COMMAND (R161): a good frame whose code is not in the catalogue; STARTING is checked first. A frame with a
code of the catalogue is no such event. -/
def execUnknownCommand (port : PortId) (code : Byte) (_body : List Byte) (s : State) : Host.Outcome State Fault Refusal :=
  .next (
    if code ∉ catalogueCodes ∧ s.listens port then
      s.respond port (s.port port).gap (if s.phase = .starting then .starting else .unknownCommand) []
    else s)

/-- R160: a port that takes a frame and keeps nothing of it returns to LISTENING. -/
def State.frameDropped (s : State) (p : PortId) : State :=
  if s.listens p then s.setPort p { s.port p with receiver := .listening, frame := [] } else s

/-- COMMAND_FRAME_BAD_CRC (R160): discarded with no response. A frame whose CRC is good is no such event. -/
def execCommandFrameBadCrc (port : PortId) (frame : List Byte) (s : State) : Host.Outcome State Fault Refusal :=
  .next (if frameGood frame then s else s.frameDropped port)

/-- FRAME_ABANDONED (R160). -/
def execFrameAbandoned (port : PortId) (s : State) : Host.Outcome State Fault Refusal :=
  .next (s.frameDropped port)

/-- TURN_AROUND_GAP_EXPIRY (R162): in GAP the port enters SENDING. -/
def execTurnAroundGapExpiry (port : PortId) (s : State) : Host.Outcome State Fault Refusal :=
  .next (
    if s.phase ≠ .held ∧ (s.port port).receiver = .gap then
      s.setPort port (s.port port).startSending
    else s)

/-- The port returns to LISTENING and its response is done with, `bits` of it being still to drive; that of an OFFICE_RESET
makes the reset due (R172). -/
def State.answerEnded (s : State) (p : PortId) (bits : List Bool) : State :=
  { s.setPort p { s.port p with
      receiver := .listening, frame := [], answer := none, unsent := bits, resetAfter := false } with
    resetDue := s.resetDue || (s.port p).resetAfter }

/-- RESPONSE_SENT (R162): in SENDING the port returns to LISTENING. -/
def execResponseSent (port : PortId) (s : State) : Host.Outcome State Fault Refusal :=
  .next (if s.phase ≠ .held ∧ (s.port port).receiver = .sending then s.answerEnded port [] else s)

/-- BREAK (R163): any frame or response is abandoned, the byte on the line is finished, and the port enters LISTENING. -/
def execLineBreak (port : PortId) (s : State) : Host.Outcome State Fault Refusal :=
  .next (if s.phase ≠ .held then s.answerEnded port (finishByte (s.port port).unsent) else s)

end Sys2Proof.Machine
end

