-- ==== Sys2Proof/Machine/Dispatch.lean ====
section
/-! DEFINITION. The meaning of every command: one arm for each constructor of Instr. -/

namespace Sys2Proof.Machine

def exec (i : Instr) (s : State) : Host.Outcome State Fault Refusal :=
  match i with
  | .subscriberWrite port body => Sys2Proof.Machine.execSubscriberWrite port body s
  | .subscriberRead port body => Sys2Proof.Machine.execSubscriberRead port body s
  | .subscriberDelete port body => Sys2Proof.Machine.execSubscriberDelete port body s
  | .planWrite port body => Sys2Proof.Machine.execPlanWrite port body s
  | .planRead port body => Sys2Proof.Machine.execPlanRead port body s
  | .classifierWrite port body => Sys2Proof.Machine.execClassifierWrite port body s
  | .classifierDefault port body => Sys2Proof.Machine.execClassifierDefault port body s
  | .classifierRead port body => Sys2Proof.Machine.execClassifierRead port body s
  | .rangeWrite port body => Sys2Proof.Machine.execRangeWrite port body s
  | .rangeRead port body => Sys2Proof.Machine.execRangeRead port body s
  | .classifyProbe port body => Sys2Proof.Machine.execClassifyProbe port body s
  | .submit port body => Sys2Proof.Machine.execSubmit port body s
  | .cancel port body => Sys2Proof.Machine.execCancel port body s
  | .queryMessage port body => Sys2Proof.Machine.execQueryMessage port body s
  | .fetchOutcomes port body => Sys2Proof.Machine.execFetchOutcomes port body s
  | .zoneConfig port body => Sys2Proof.Machine.execZoneConfig port body s
  | .readZone port body => Sys2Proof.Machine.execReadZone port body s
  | .airHold port body => Sys2Proof.Machine.execAirHold port body s
  | .airRelease port body => Sys2Proof.Machine.execAirRelease port body s
  | .linkEnable port body => Sys2Proof.Machine.execLinkEnable port body s
  | .linkRestart port body => Sys2Proof.Machine.execLinkRestart port body s
  | .readLink port body => Sys2Proof.Machine.execReadLink port body s
  | .retryStatus port body => Sys2Proof.Machine.execRetryStatus port body s
  | .accountRead port body => Sys2Proof.Machine.execAccountRead port body s
  | .accountAdjust port body => Sys2Proof.Machine.execAccountAdjust port body s
  | .accountLimit port body => Sys2Proof.Machine.execAccountLimit port body s
  | .accountState port body => Sys2Proof.Machine.execAccountState port body s
  | .journalFetch port body => Sys2Proof.Machine.execJournalFetch port body s
  | .journalConfig port body => Sys2Proof.Machine.execJournalConfig port body s
  | .sweepStart port body => Sys2Proof.Machine.execSweepStart port body s
  | .sweepStatus port body => Sys2Proof.Machine.execSweepStatus port body s
  | .fetchEvents port body => Sys2Proof.Machine.execFetchEvents port body s
  | .setRole port body => Sys2Proof.Machine.execSetRole port body s
  | .portConfig port body => Sys2Proof.Machine.execPortConfig port body s
  | .portRead port body => Sys2Proof.Machine.execPortRead port body s
  | .readClock port body => Sys2Proof.Machine.execReadClock port body s
  | .clockSet port body => Sys2Proof.Machine.execClockSet port body s
  | .officeReset port body => Sys2Proof.Machine.execOfficeReset port body s
  | .unknownCommand port code body => Sys2Proof.Machine.execUnknownCommand port code body s
  | .commandFrameBadCrc port frame => Sys2Proof.Machine.execCommandFrameBadCrc port frame s
  | .frameAbandoned port => Sys2Proof.Machine.execFrameAbandoned port s
  | .turnAroundGapExpiry port => Sys2Proof.Machine.execTurnAroundGapExpiry port s
  | .responseSent port => Sys2Proof.Machine.execResponseSent port s
  | .lineBreak port => Sys2Proof.Machine.execLineBreak port s
  | .officeResetTakesEffect rate1 rate0 => Sys2Proof.Machine.execOfficeResetTakesEffect rate1 rate0 s
  | .powerOn rate1 rate0 => Sys2Proof.Machine.execPowerOn rate1 rate0 s
  | .resetNLow rate1 rate0 => Sys2Proof.Machine.execResetNLow rate1 rate0 s
  | .resetNHigh => Sys2Proof.Machine.execResetNHigh s
  | .initialisationPassEnd => Sys2Proof.Machine.execInitialisationPassEnd s
  | .tick => Sys2Proof.Machine.execTick s
  | .oneSecondStep => Sys2Proof.Machine.execOneSecondStep s
  | .lifeExpiry slot => Sys2Proof.Machine.execLifeExpiry slot s
  | .batchTimerExpiry zone => Sys2Proof.Machine.execBatchTimerExpiry zone s
  | .acceptDeadlineExpiry zone => Sys2Proof.Machine.execAcceptDeadlineExpiry zone s
  | .huntTimerExpiry zone => Sys2Proof.Machine.execHuntTimerExpiry zone s
  | .exchangeTimerExpiry zone => Sys2Proof.Machine.execExchangeTimerExpiry zone s
  | .silenceTimerExpiry zone => Sys2Proof.Machine.execSilenceTimerExpiry zone s
  | .idleTimerExpiry zone => Sys2Proof.Machine.execIdleTimerExpiry zone s
  | .holdOffTimerExpiry zone => Sys2Proof.Machine.execHoldOffTimerExpiry zone s
  | .retryExpiry slot => Sys2Proof.Machine.execRetryExpiry slot s
  | .repeatExpiry slot => Sys2Proof.Machine.execRepeatExpiry slot s
  | .capBase zone body => Sys2Proof.Machine.execCapBase zone body s
  | .capNext zone body => Sys2Proof.Machine.execCapNext zone body s
  | .idle zone body => Sys2Proof.Machine.execIdle zone body s
  | .batchAccept zone body => Sys2Proof.Machine.execBatchAccept zone body s
  | .batchRefuse zone body => Sys2Proof.Machine.execBatchRefuse zone body s
  | .pagerAck zone body => Sys2Proof.Machine.execPagerAck zone body s
  | .pagerLocate zone body => Sys2Proof.Machine.execPagerLocate zone body s
  | .siteStatus zone body => Sys2Proof.Machine.execSiteStatus zone body s
  | .badBlock zone block => Sys2Proof.Machine.execBadBlock zone block s
  | .linkBlockSent zone => Sys2Proof.Machine.execLinkBlockSent zone s

end Sys2Proof.Machine
end

