-- ==== Sys2Proof/Machine/Receivers.lean ====
section
/-! DEFINITION. The receivers of the station ports and of the zone links, byte by byte, and the transmitter of a port, bit by bit: where a frame or a block starts, what is discarded, and the event that its last byte makes (R112, R114, R159, R160, R162). -/

namespace Sys2Proof.Machine

/-- The state that a command leaves. -/
def State.after (i : Instr) (s : State) : State :=
  match exec i s with
  | .next t => t
  | .fault _ | .refused _ => s

/-! ## Station ports (R159, R160) -/

/-- R160: whether the bytes of a frame taken from LENGTH on are the whole frame: LENGTH, CODE, BODY and the CRC. -/
def frameWhole (taken : List Byte) : Bool := decide (taken ≠ [] ∧ taken.length = 4 + fieldAt taken 0 1)

/-- R160: a byte received on a port. LISTENING discards every byte but START, which leads to RECEIVING; RECEIVING takes
bytes until the frame is whole, and the frame is then judged and its command taken; in GAP and SENDING, and while the part
is held in reset, every byte is ignored. -/
def State.portByte (p : PortId) (s : State) (b : Byte) : State :=
  if s.phase = .held then s
  else
    match (s.port p).receiver with
    | .gap | .sending => s
    | .listening => if b = 0xC3 then s.setPort p { s.port p with receiver := .receiving, frame := [] } else s
    | .receiving =>
      let taken := (s.port p).frame ++ [b]
      let t := s.setPort p { s.port p with frame := taken }
      if frameWhole taken then t.after (takeStationFrame p taken) else t

/-- R159, R160: the ten bits of a received character. A stop bit read as 0 abandons the frame being received. -/
def State.portCharacter (p : PortId) (s : State) (bits : List Bool) : State :=
  match byteOfCharacter bits with
  | some b => s.portByte p b
  | none => if (s.port p).receiver = .receiving then s.after (.frameAbandoned p) else s

/-- R159, R162: one bit time of TXD. A bit that was still to be driven has been sent; the last bit of a response in SENDING
is the stop bit of its last CRC byte, with which the port returns to LISTENING. -/
def State.txdBit (p : PortId) (s : State) : State :=
  match (s.port p).unsent with
  | [] => s
  | _ :: rest =>
    let t := s.setPort p { s.port p with unsent := rest }
    if rest = [] then t.after (.responseSent p) else t

/-! ## Zone links (R112, R114) -/

/-- R114: whether the bytes of a block taken from kind on are the whole block: kind, length, body and the CRC. -/
def blockWhole (taken : List Byte) : Bool := decide (2 ≤ taken.length ∧ taken.length = 4 + fieldAt taken 1 1)

/-- R114: a byte received on a link. Between blocks every byte but the sync byte is discarded without being counted; a
length byte above 128 ends the block at once as a bad one; and else the block is judged when it is whole. In OFF the
receiver takes nothing. -/
def State.linkByte (z : ZoneId) (s : State) (b : Byte) : State :=
  if (s.link z).state = .off then s
  else
    match (s.link z).received with
    | none => if b = 0xA6 then s.setLink z { s.link z with received := some [] } else s
    | some before =>
      let taken := before ++ [b]
      let t := s.setLink z { s.link z with received := some taken }
      if taken.length = 2 ∧ 128 < b.toNat then t.after (.badBlock z taken)
      else if blockWhole taken then t.after (takeLinkBlock z taken)
      else t

/-- R112: the eight bits of a received byte, most significant bit first. -/
def State.linkBits (z : ZoneId) (s : State) (bits : List Bool) : State := s.linkByte z (byteOfBits bits)

end Sys2Proof.Machine
end

