-- ==== Sys2Proof/Safety.lean ====
section
/-! DEFINITION. What the statements are made of: the invariants of the part, the frame of an event that moves pages, and the catalogue of Tables 10-6 and 10-9 as data. -/

namespace Sys2Proof.Machine

/-! ## The catalogue (Tables 10-6 and 10-9) -/

/-- Table 10-6, column Roles, by code; `none` for a code that the table does not list. -/
def rolesOfCode (code : Byte) : Option (List Role) :=
  if code ∈ [0x10, 0x12, 0x20, 0x21, 0x23, 0x61, 0x62, 0x69, 0x6A] then some [.supervisor]
  else if code ∈ [0x18, 0x59, 0x5A, 0x5B, 0x5C, 0x5D, 0x5E] then some [.accounts, .supervisor]
  else if code ∈ [0x25, 0x30, 0x33] then some [.intake, .supervisor]
  else if code ∈ [0x40, 0x42, 0x43, 0x48, 0x49, 0x4A] then some [.dispatch, .supervisor]
  else if code = 0x50 then some [.intake, .dispatch, .supervisor]
  else if code ∈ [0x11, 0x19, 0x22, 0x24, 0x31, 0x32, 0x41, 0x58, 0x5F, 0x60, 0x63, 0x68] then
    some [.supervisor, .intake, .dispatch, .accounts]
  else none

/-- Table 10-9: the fixed body lengths by code; SUBMIT and CLASSIFY_PROBE are not among them. -/
def fixedBodyLength (code : Byte) : Option Nat :=
  if code ∈ [0x24, 0x33, 0x42, 0x43, 0x5C, 0x5F, 0x60, 0x63, 0x68, 0x6A] then some 0
  else if code ∈ [0x19, 0x22, 0x41, 0x49, 0x4A] then some 1
  else if code ∈ [0x11, 0x12, 0x48, 0x58, 0x5D, 0x61, 0x62] then some 2
  else if code ∈ [0x31, 0x32, 0x50] then some 3
  else if code ∈ [0x23, 0x5B, 0x69] then some 4
  else if code ∈ [0x5A, 0x5E] then some 6
  else if code = 0x59 then some 7
  else if code = 0x10 then some 11
  else if code = 0x40 then some 13
  else if code = 0x21 then some 17
  else if code = 0x20 then some 32
  else if code = 0x18 then some 35
  else none

/-- R60, R58, R169: whether a body has the form its command asks for; the length byte of a SUBMIT stands at offset 7,
that of a CLASSIFY_PROBE at offset 6. -/
def bodyFormOf (code : Byte) (body : List Byte) : Prop :=
  if code = 0x30 then 8 ≤ body.length ∧ body.length = 8 + fieldAt body 7 1
  else if code = 0x25 then 7 ≤ body.length ∧ body.length = 7 + fieldAt body 6 1 ∧ fieldAt body 0 1 ≤ 3
  else fixedBodyLength code = some body.length

/-- The part works and the port takes a frame of a command that the port's role may give (R160, R161). -/
def State.serves (s : State) (p : PortId) (roles : List Role) : Prop :=
  s.phase = .working ∧ ((s.port p).receiver = .listening ∨ (s.port p).receiver = .receiving) ∧ (s.port p).role ∈ roles

/-- The response is fixed with the turn-around gap as it stood at the taking, and nothing but the answering port's
receiver changes (R161, R162). -/
def State.answers (s : State) (p : PortId) (st : Status) (body : List Byte) : State :=
  s.setPort p { s.port p with receiver := .gap, frame := [], answer := some ⟨⟨st, body⟩, (s.port p).gap⟩, unsent := [] }

/-! ## The frame of an event that moves pages -/

/-- What of a port no paging event changes: all but its event queue, its lost flag and its outcome list. -/
def Port.line (x : Port) : Port := { x with events := [], lost := false, outcomes := [] }

/-- What of an entry no settlement changes: all but balance, held and open count. -/
def Entry.terms (e : Entry) : Entry := { e with balance := 0, held := 0, openCount := 0 }

/-- What of a link no paging event changes: all but the blocks it sends. -/
def Link.still (x : Link) : Link := { x with txQueue := [], onLine := none }

/-- What of a zone no paging event changes: its batch timer and its settings written. -/
def Zone.schedule (x : Zone) : Nat × ZoneSettings := (x.batchTimer, x.written)

/-- What of a message does not change while it is open: all but attempts, retry timer, frozen flag and outcome. -/
def Message.terms (m : Message) : Message :=
  { m with attempts := [], closing := none, retryTimer := none, frozen := false }

/-- An event that moves pages: it places, forms, credits, returns, discards, closes and settles messages, and changes
nothing else of the part; event queues, outcome lists and the journal only grow at their ends. -/
structure State.pages (s t : State) : Prop where
  /-- Every field but the seven named ones is unchanged. -/
  rest : t = { s with
    ports := t.ports, directory := t.directory, messages := t.messages, stalls := t.stalls, zones := t.zones,
    links := t.links, journal := t.journal }
  line : ∀ p, (t.port p).line = (s.port p).line
  terms : ∀ i, (t.entry i).map Entry.terms = (s.entry i).map Entry.terms
  still : ∀ z, (t.link z).still = (s.link z).still
  schedule : ∀ z, (t.zone z).schedule = (s.zone z).schedule
  highWater : t.journal.highWater = s.journal.highWater
  events : ∀ p, (s.port p).events <+: (t.port p).events
  outcomes : ∀ p, (s.port p).outcomes <+: (t.port p).outcomes
  records : s.journal.records <+: t.journal.records
  messages : ∀ slot, (t.message slot).map Message.terms = (s.message slot).map Message.terms
  closed : ∀ slot m, s.message slot = some m → m.closing.isSome → t.message slot = some m

/-- R166: every port of the kind's roles takes the record into its queue, or sets its lost flag when the queue is full;
`s` is the state before the posting and no other event is posted. -/
def State.posted (s t : State) (kind : EventKind) (subject : Nat) (detail : Int) : Prop :=
  ∀ q, t.port q =
    if (s.port q).role ∈ eventRoles kind then
      if (s.port q).events.length < 32 then
        { s.port q with events := (s.port q).events ++ [⟨kind, subject, detail, s.clock⟩] }
      else { s.port q with lost := true }
    else s.port q

/-! ## Congestion, joins, coverage and the high water (R94, R96, R139, R148) -/

/-- R96: the congested flag that a test leaves, from the settings in force, the flag before it and the queued words. -/
def DispatchSettings.congests (d : DispatchSettings) (before : Bool) (words : Nat) : Bool :=
  if d.threshold = 0 then false
  else if before then decide (d.threshold - d.hysteresis < words)
  else decide (d.threshold < words)

/-- R166: a port after records are posted in their order: each is stored when the port's role takes its kind and the queue
holds fewer than 32 records, and sets the lost flag when the queue is full. -/
def Port.takes (records : List EventRecord) (x : Port) : Port :=
  records.foldl (fun y r =>
    if y.role ∈ eventRoles r.kind then
      if y.events.length < 32 then { y with events := y.events ++ [r] } else { y with lost := true }
    else y) x

/-- R96: the records of the tests between two states: one for each zone whose flag has changed, in zone order. -/
def State.congestionRecords (s t : State) : List EventRecord :=
  allZones.filterMap fun z =>
    if (t.zone z).congested = (s.zone z).congested then none
    else some ⟨if (t.zone z).congested then .zoneCongested else .zoneClear, z.val,
      ((queuedWords (t.zone z).queue : Nat) : Int), s.clock⟩

/-- R96: an event that changes the queues of the zones of `changed` has tested each of them once, and has posted the
records `first` before the records of its tests. -/
structure State.tests (s t : State) (changed : ZoneSet) (first : List EventRecord) : Prop where
  flags : ∀ z, (t.zone z).congested =
    if zoneIn z changed then
      (t.zone z).force.congests (s.zone z).congested (queuedWords (t.zone z).queue)
    else (s.zone z).congested
  records : ∀ q, t.port q = (s.port q).takes (first ++ s.congestionRecords t)

/-! ## Closing a message (R83, R84, R88, R143, R145, R148) -/

/-- Actions of one event taken one by one: each acts on the state that the one before it has left. -/
def oneByOne {α : Type} (R : α → State → State → Prop) : List α → State → State → Prop
  | [], s, t => t = s
  | x :: rest, s, t => ∃ u, R x s u ∧ oneByOne R rest u t

/-- R83, R84, R88, R143, R145, R148: everything the closing of the open message of a slot does but the congestion test at
the end of its event; `k` is the acknowledged attempt of a DELIVERED message. An account that is not there, which no open
message has (R5), is not settled. -/
structure State.shuts (s t : State) (slot : SlotId) (m : Message) (o : MsgOutcome) (k : Nat) : Prop where
  message : t.message slot
    = some { m with closing := some ⟨o, m.settlementAmount o k⟩, retryTimer := none, frozen := false }
  others : ∀ j, j ≠ slot → t.message j = s.message j
  queues : ∀ z, (t.zone z).queue
    = (s.zone z).queue.filter fun q => decide (¬ (q.slot = slot ∧ q.epoch = s.epoch slot))
  inFlight : ∀ z, (t.zone z).inFlight
    = (s.zone z).inFlight.map fun b => { b with entries := b.entries.map fun be =>
        if be.entry.slot = slot ∧ be.entry.epoch = s.epoch slot then { be with void := true } else be }
  zones : ∀ z, t.zone z = { s.zone z with queue := (t.zone z).queue, inFlight := (t.zone z).inFlight }
  stalls : t.stalls = s.stalls.filter fun j => decide (j ≠ slot)
  account : ∀ e, s.entry m.billed = some e → t.entry m.billed
    = some { e with
        balance := max (-2147483648) (min 2147483647 (e.balance - m.settlementAmount o k))
        held := e.held - m.hold
        openCount := e.openCount - 1 }
  accounts : ∀ j, j ≠ m.billed → t.entry j = s.entry j
  record : ∀ e, s.entry m.billed = some e → t.journal.records
    = s.journal.records ++ [.settle {
        account := m.billed
        slot := slot
        epoch := s.epoch slot
        outcome := o
        cls := m.cls
        payloadWords := m.words - 2
        zonesSent := m.zonesSentCount o k
        attempt := if o = .delivered then k else m.currentAttempt
        amount := m.settlementAmount o k
        balanceAfter := max (-2147483648) (min 2147483647 (e.balance - m.settlementAmount o k))
        time := s.clock }]
  unbilled : s.entry m.billed = none → t.entry m.billed = none ∧ t.journal = s.journal
  highWater : t.journal.highWater = s.journal.highWater
  armed : (s.entry m.billed).isSome → t.journal.armed = decide (t.journal.records.length < t.journal.highWater)
  ports : ∀ q, t.port q = Port.takes
    (if (s.entry m.billed).isSome ∧ s.journal.armed = true ∧ t.journal.highWater ≤ t.journal.records.length then
      [⟨.journalHigh, 0, ((t.journal.records.length : Nat) : Int), s.clock⟩] else [])
    { s.port q with outcomes := if q = m.port then (s.port q).outcomes ++ [slot] else (s.port q).outcomes }
  rest : t = { s with
    ports := t.ports, directory := t.directory, messages := t.messages, stalls := t.stalls, zones := t.zones,
    journal := t.journal }

/-- R96: the end of an event: each zone of `changed` is tested for congestion once, and nothing else changes. -/
structure State.tested (s t : State) (changed : ZoneSet) : Prop where
  tests : s.tests t changed []
  zones : ∀ z, t.zone z = { s.zone z with congested := (t.zone z).congested }
  rest : t = { s with ports := t.ports, zones := t.zones }

/-- R83: the whole closing event of the open message of a slot: it shuts the message, and each zone whose queue held an entry
of the slot is tested for congestion. -/
def State.closes (s t : State) (slot : SlotId) (m : Message) (o : MsgOutcome) (k : Nat) : Prop :=
  ∃ u changed, s.shuts u slot m o k ∧ u.tested t changed
    ∧ ∀ z, zoneIn z changed = true ↔ ∃ q ∈ (s.zone z).queue, q.slot = slot ∧ q.epoch = s.epoch slot

/-! ## Completing, crediting and losing (R103, R104, R107, R133, R134) -/

/-- R104, R133, R134: what completes attempt `n` of the message that stands in a slot: it waits, frozen while the air hold is
in force, or, after the last repeat of a one-way pager, closes SENT. -/
def State.completes (s t : State) (slot : SlotId) (m : Message) (n : Nat) : Prop :=
  if m.kind = .twoWay ∨ n < m.tariff.retryCount then
    t = s.setMessage slot { m with
      retryTimer := some (match m.kind with
        | .twoWay => min (m.tariff.retryBase * 2 ^ n) m.tariff.retryCeiling
        | .oneWay => min m.tariff.retryBase m.tariff.retryCeiling)
      frozen := s.airHold }
  else s.shuts t slot m .sent 0

/-- R103, R104: what an entry of an accepted batch of zone `z` does: live, not void and with the zone pending, its attempt is
credited, and completed when no pending zone is left; every other entry does nothing. -/
def State.credits (z : ZoneId) (be : BatchEntry) (s t : State) : Prop :=
  match s.liveEntry be.entry with
  | none => t = s
  | some (m, a) =>
    if be.void = false ∧ zoneIn z a.pending = true then
      ∀ credited s1,
        credited = { m with attempts := changeLast (fun _ => { a with
          pending := zoneRemove z a.pending, sent := zoneInsert z a.sent
          transmitted := if a.sent = 0 then some s.clock else a.transmitted }) m.attempts } →
        s1 = s.setMessage be.entry.slot credited →
        if zoneRemove z a.pending = 0 then s1.completes t be.entry.slot credited a.number else t = s1
    else t = s

/-- R107: what the loss of zone `z` does to the slot of an entry: live and with the zone pending, the zone leaves the pending
set; with no other pending zone the attempt is then complete, or the slot STALLED when nothing was sent. -/
def State.loses (z : ZoneId) (q : QueueEntry) (s t : State) : Prop :=
  match s.liveEntry q with
  | none => t = s
  | some (m, a) =>
    if zoneIn z a.pending = true then
      ∀ left s1,
        left = { m with attempts := changeLast (fun r => { r with pending := zoneRemove z a.pending }) m.attempts } →
        s1 = s.setMessage q.slot left →
        if zoneRemove z a.pending ≠ 0 then t = s1
        else if a.sent ≠ 0 then s1.completes t q.slot left a.number
        else t = { s1 with stalls := s1.stalls ++ [q.slot] }
    else t = s

/-- R100 to R102: a zone in which a batch has been formed for a profile: the batch in flight, what the walk has left of the
queue, and the settings in force. -/
def Zone.formed (p : Profile) (x : Zone) : Zone :=
  { x with
    queue := (walk p.capacity x.queue).2
    nextBatch := x.nextBatch + 1
    force := x.written.dispatch
    inFlight := some {
      number := x.nextBatch
      capacity := p.capacity
      rate := p.rate
      entries := (walk p.capacity x.queue).1.map fun q => ⟨q, false⟩
      totalWords := ((walk p.capacity x.queue).1.map QueueEntry.words).sum
      deadline := (((walk p.capacity x.queue).1.map QueueEntry.words).sum * 320 + (rateBits p.rate - 1))
        / rateBits p.rate + x.written.dispatch.margin } }

/-- R101, R122: the stream of the batch that is formed in a zone for a profile, with the air words of its entries. -/
def Zone.stream (p : Profile) (words : QueueEntry → List AirWord) (x : Zone) : List OutBlock :=
  batchStream x.nextBatch ((walk p.capacity x.queue).1.map QueueEntry.words).sum ((walk p.capacity x.queue).1.flatMap words)

/-- R100 to R102: a formation for a zone with the profile of its link: the zone as formed, and the batch's stream on the
link. -/
structure State.forms (s t : State) (z : ZoneId) (p : Profile) : Prop where
  zone : t.zone z = (s.zone z).formed p
  link : t.link z = (s.link z).sendAll ((s.zone z).stream p s.airWords)
  others : ∀ y, y ≠ z → t.zone y = s.zone y ∧ t.link y = s.link y
  rest : t = { s with zones := t.zones, links := t.links }

/-- The profile that a formation called for in a zone is made with: none when no batch is formed (R99). -/
def State.formsWith (s : State) (z : ZoneId) : Option Profile :=
  if (s.link z).state = .up ∧ s.airHold = false ∧ (s.zone z).inFlight = none then (s.link z).profile else none

/-- R94: queue order between two entries: higher priority first, then lower ready sequence, then lower slot. -/
def QueueEntry.inOrder (a b : QueueEntry) : Prop :=
  b.priority < a.priority ∨ a.priority = b.priority ∧ (a.seq < b.seq ∨ a.seq = b.seq ∧ a.slot ≤ b.slot)

/-- R94: a zone whose queue stands in queue order. -/
def Zone.ordered (x : Zone) : Prop := x.queue.Pairwise QueueEntry.inOrder

/-- An entry stands for its slot in a zone: in the queue, or in the batch in flight and not void. -/
def Zone.holds (x : Zone) (q : QueueEntry) : Prop :=
  q ∈ x.queue ∨ ∃ b, x.inFlight = some b ∧ ⟨q, false⟩ ∈ b.entries

/-- R74, R94, R96, R99, R101, R140: attempt `n` of the message of a slot has been placed in the zones of its requested
coverage that are UP, or has stalled. In each of those zones one entry with the zone's next ready sequence has joined the
queue, in its place, and every entry that stood there still stands; a message of priority 3 has a batch formed from that queue
where one can be formed; nothing else of the zone, and without a batch nothing of its link, has changed, but for its
congestion test. The other zones and links stand. -/
structure State.places (s t : State) (slot : SlotId) (n words : Nat) (priority : Priority) (coverage : ZoneSet) : Prop where
  stalls : t.stalls = if coverage &&& s.upZones = 0 then s.stalls ++ [slot] else s.stalls
  elsewhere : ∀ z, zoneIn z (coverage &&& s.upZones) = false → t.zone z = s.zone z ∧ t.link z = s.link z
  joins : ∀ z, zoneIn z (coverage &&& s.upZones) = true → ∃ x : Zone,
    List.Perm x.queue (⟨slot, s.epoch slot, n, words, priority, (s.zone z).nextSeq⟩ :: (s.zone z).queue)
    ∧ ((s.zone z).ordered → x.ordered)
    ∧ x = { s.zone z with queue := x.queue, nextSeq := (s.zone z).nextSeq + 1 }
    ∧ match if priority = 3 then s.formsWith z else none with
      | none => t.zone z = { x with congested := (t.zone z).congested } ∧ t.link z = s.link z
      | some p => t.zone z = { x.formed p with congested := (t.zone z).congested }
          ∧ t.link z = (s.link z).sendAll (x.stream p t.airWords)
  holds : ∀ z, zoneIn z (coverage &&& s.upZones) = true →
    (t.zone z).holds ⟨slot, s.epoch slot, n, words, priority, (s.zone z).nextSeq⟩
      ∧ ∀ q, (s.zone z).holds q → (t.zone z).holds q
  tests : s.tests t (coverage &&& s.upZones) []

/-- R136 to R138: the next attempt of the open message of a slot, with its requested coverage, joins the attempt list and is
placed; the retry timer is stopped. -/
structure State.formsAttempt (s t : State) (slot : SlotId) (m : Message) (n : Nat) (coverage : ZoneSet) : Prop where
  message : t.message slot = some { m with
    retryTimer := none, attempts := m.attempts ++ [⟨n, coverage, coverage &&& s.upZones, 0, none⟩] }
  others : ∀ j, j ≠ slot → t.message j = s.message j
  places : s.places t slot n m.words m.priority coverage
  rest : t = { s with
    ports := t.ports, messages := t.messages, stalls := t.stalls, zones := t.zones, links := t.links }

/-- R136 to R138: the expiry of the wait of a slot. A two-way message below its retry count forms the next attempt, over the
home zones for attempt 1 and over the reach from attempt 2 on, and at its retry count closes MISSED; a one-way message forms
the next repeat, over the reach. -/
def State.waitEnds (slot : SlotId) (s t : State) : Prop :=
  ∃ m a, s.message slot = some m ∧ m.closing = none ∧ m.lastAttempt = some a ∧
    match m.kind with
    | .oneWay => s.formsAttempt t slot m (a.number + 1) m.reach
    | .twoWay =>
      if a.number < m.tariff.retryCount then
        s.formsAttempt t slot m (a.number + 1) (if a.number = 0 then m.home else m.reach)
      else s.closes t slot m .missed 0

/-- R139: the focus test passes for the zone. -/
def State.focuses (s : State) (address : PagerAddress) (age : Nat) (noFocus : Bool) (z : ZoneId) : Prop :=
  age ≠ 0 ∧ noFocus = false ∧ (s.link z).state = .up ∧
    ∃ i e l, s.mapped address = some i ∧ s.entry i = some e ∧ e.lastSeen = some l ∧ l.zone = z
      ∧ l.time.toNat ≤ s.clock.toNat ∧ s.clock.toNat - l.time.toNat ≤ age

/-- R22, R23, R30, R53, R66, R69, R70, R139: what an admission uses, from the fields that the rules name: the merged fields
and else the submitted, billed and delivery ones. -/
structure Admission.follows (a : Admission) (s : State) : Prop where
  priority : a.priority = a.merged.priority.getD a.req.priority
  plan : a.plan = s.plan (a.merged.plan.getD a.billed.plan)
  home : a.home = a.merged.coverage.getD a.target.home
  reach : a.reach = a.merged.coverage.getD (a.target.home ||| a.target.region)
  words : a.words = wordCount a.req.cls a.content.text.length
  tariff : a.tariff = {
    classBase := match a.req.cls with
      | .tone => a.plan.baseTone
      | .numeric => a.plan.baseNumeric
      | .text => a.plan.baseText
    wordRate := a.plan.wordRate
    zoneRate := a.plan.zoneRate
    multiplier := match a.priority with
      | 0 => a.plan.m0
      | 1 => a.plan.m1
      | 2 => a.plan.m2
      | 3 => a.plan.m3
    retryFee := a.plan.retryFee
    failFee := a.plan.failFee
    cap := a.plan.cap
    retryCount := match a.target.kind with
      | .twoWay => a.merged.retries.getD a.plan.retries
      | .oneWay => a.plan.repeats
    retryBase := a.plan.retryBase
    retryCeiling := a.plan.retryCeiling
    focusAge := a.plan.focusAge }
  hold : a.hold = attemptCharge a.tariff (a.words - 2) (zoneCount a.reach)
    (match a.target.kind with | .twoWay => a.tariff.retryCount | .oneWay => 0)
  override : a.override = true ↔ a.priority = 3 ∧ a.plan.emergencyOverride = true
  focused : ∀ z, a.target.kind = .twoWay → s.focuses a.target.address a.plan.focusAge a.merged.noFocus z →
    a.coverage = zoneSingle z
  unfocused : (a.target.kind = .oneWay ∨ ∀ z, ¬ s.focuses a.target.address a.plan.focusAge a.merged.noFocus z) →
    a.coverage = a.home

/-- R141: whether a slot is resumed when the zone enters UP and is then pending in zone `y`. -/
def State.resumesIn (s : State) (z y : ZoneId) (slot : SlotId) : Bool :=
  match (s.openMessage slot).bind Message.lastAttempt with
  | some a => zoneIn z a.requested && zoneIn y (a.requested &&& zoneInsert z s.upZones)
  | none => false

/-- R141: the STALLED slots whose last attempt's requested coverage holds the zone are resumed, oldest stall first: each
leaves the stall list, its pending set is its requested coverage in the zones that are UP, and one entry joins each of
those zones with the zone's next ready sequence. -/
structure State.resumes (s t : State) (z : ZoneId) : Prop where
  stalls : t.stalls = s.stalls.filter fun slot => !s.resumesIn z z slot
  messages : ∀ slot m a, slot ∈ s.stalls → s.openMessage slot = some m → m.lastAttempt = some a →
    zoneIn z a.requested = true →
    t.message slot = some { m with
      attempts := changeLast (fun r => { r with pending := a.requested &&& zoneInsert z s.upZones }) m.attempts }
  others : ∀ slot, (slot ∉ s.stalls ∨ s.resumesIn z z slot = false) → t.message slot = s.message slot
  entries : s.stalls.Nodup → ∀ (y : ZoneId) (i : Nat) (slot : SlotId) (m : Message) (a : Attempt),
    (s.stalls.filter (s.resumesIn z y))[i]? = some slot → s.openMessage slot = some m → m.lastAttempt = some a →
    (t.zone y).holds ⟨slot, s.epoch slot, a.number, m.words, m.priority, (s.zone y).nextSeq + BitVec.ofNat 32 i⟩
  sequences : s.stalls.Nodup → ∀ y,
    (t.zone y).nextSeq = (s.zone y).nextSeq + BitVec.ofNat 32 (s.stalls.filter (s.resumesIn z y)).length
  kept : ∀ y q, q ∈ (s.zone y).queue → (t.zone y).holds q

/-- R140, R141: whether a slot of priority 3 is resumed into zone `y` when zone `z` enters UP, which calls for a formation in
zone `y`. -/
def State.resumesUrgent (s : State) (z y : ZoneId) : Bool :=
  s.stalls.any fun slot => s.resumesIn z y slot && (s.openMessage slot).any fun m => decide (m.priority = 3)

/-- R96, R99, R101, R120, R140, R141: zone `z` has entered UP at a rate with its link as `line`: LINK_UP is posted and the
STALLED slots are resumed. In every zone the resumed entries have joined the queue with ready sequences in resumption order,
each in its place; where one of them is of priority 3, a batch has then been formed from that queue, where one can be formed,
and its stream follows what the link sends; nothing else of a zone or a link has changed, but for the congestion tests. -/
structure State.entersUp (s t : State) (z : ZoneId) (line : Link) (rate : Rate) : Prop where
  resumes : s.resumes t z
  zones : ∀ y, ∃ (x : Zone) (joined : List QueueEntry),
    joined.length = (s.stalls.filter (s.resumesIn z y)).length
    ∧ (∀ (i : Nat) (slot : SlotId) (m : Message) (a : Attempt), (s.stalls.filter (s.resumesIn z y))[i]? = some slot →
        s.openMessage slot = some m → m.lastAttempt = some a → joined[i]?
          = some ⟨slot, s.epoch slot, a.number, m.words, m.priority, (s.zone y).nextSeq + BitVec.ofNat 32 i⟩)
    ∧ List.Perm x.queue ((s.zone y).queue ++ joined)
    ∧ ((s.zone y).ordered → x.ordered)
    ∧ x = { s.zone y with queue := x.queue, nextSeq := (s.zone y).nextSeq + BitVec.ofNat 32 joined.length }
    ∧ match if s.resumesUrgent z y = true then (s.setLink z line).formsWith y else none with
      | none => t.zone y = { x with congested := (t.zone y).congested } ∧ t.link y = (s.setLink z line).link y
      | some p => t.zone y = { x.formed p with congested := (t.zone y).congested }
          ∧ t.link y = ((s.setLink z line).link y).sendAll (x.stream p t.airWords)
  tests : ∃ changed, s.tests t changed [⟨.linkUp, z.val, (rateBits rate : Int), s.clock⟩]
    ∧ ∀ y, zoneIn y changed = false → (t.zone y).queue = (s.zone y).queue
  rest : t = { s with
    ports := t.ports, messages := t.messages, stalls := t.stalls, zones := t.zones, links := t.links }

/-- R148: the high-water test after an event that changes the fill or the high water: the armed flag is set exactly below the
high water, and a set flag that clears posts one JOURNAL_HIGH with the fill. -/
structure State.testsWater (s t : State) : Prop where
  armed : t.journal.armed = decide (t.journal.records.length < t.journal.highWater)
  records : ∀ q, t.port q = (s.port q).takes
    (if s.journal.armed = true ∧ t.journal.highWater ≤ t.journal.records.length then
      [⟨.journalHigh, 0, ((t.journal.records.length : Nat) : Int), s.clock⟩] else [])

/-- Every timer of the link stopped and nothing being sent or queued, the line at SLOW (R111, R112). -/
def Link.quiet (x : Link) : Link :=
  { x with
    huntTimer := none, exchangeTimer := none, silenceTimer := none, idleTimer := none, holdOffTimer := none,
    txQueue := [], onLine := none, lineRate := .slow, slowBlocks := none }

/-- R107: the pending set that a lost zone's slot keeps. -/
def Attempt.without (a : Attempt) (z : ZoneId) : ZoneSet := zoneRemove z a.pending

/-- R107: whether the slot of an entry of a lost zone becomes STALLED: the entry is live, and its attempt has no other
pending zone and no sent zone. -/
def State.stallsOnLoss (s : State) (z : ZoneId) (q : QueueEntry) : Bool :=
  match s.liveEntry q with
  | some (_, a) => zoneIn z a.pending && decide (a.without z = 0 ∧ a.sent = 0)
  | none => false

/-- R107, R104, R133: what becomes of the message of a live entry of a lost zone: with other pending zones only the
pending set changes; with none and a sent zone the attempt is complete, and the slot waits or closes SENT; with neither
the slot is STALLED. -/
def State.lostTo (s t : State) (z : ZoneId) (q : QueueEntry) (m : Message) (a : Attempt) : Prop :=
  ∀ left, left = { m with attempts := changeLast (fun r => { r with pending := a.without z }) m.attempts } →
    if a.without z ≠ 0 ∨ a.sent = 0 then t.message q.slot = some left
    else if m.kind = .twoWay ∨ a.number < m.tariff.retryCount then
      t.message q.slot = some { left with
        retryTimer := some (match m.kind with
          | .twoWay => min (m.tariff.retryBase * 2 ^ a.number) m.tariff.retryCeiling
          | .oneWay => min m.tariff.retryBase m.tariff.retryCeiling)
        frozen := s.airHold }
    else
      t.message q.slot = some { left with
        closing := some ⟨.sent, left.settlementAmount .sent 0⟩, retryTimer := none, frozen := false }

/-- The entries of a zone that a loss handles, in its order: those of the batch in flight that are not void, in walk
order, and then those of the queue (R107). -/
def Zone.standing (x : Zone) : List QueueEntry := x.inFlightEntries ++ x.queue

/-- R107, R124: a zone's link has left UP with the cause: the zone's queue is empty and it has no batch in flight, each of
its live slots has been handled and has given the zone up, the STALLED ones have joined the stall list in their order, the
LINK_DOWN record stands in the queue of every DISPATCH and SUPERVISOR port that had room, no entry of another zone's
queue was added, and the other links stand. `handled` says it one entry after another, with the accounts, the journal and
the outcome lists of the messages that close SENT. -/
structure State.leftUp (s t : State) (z : ZoneId) (cause : DownCause) : Prop where
  queue : (t.zone z).queue = []
  inFlight : (t.zone z).inFlight = none
  notPending : ∀ q ∈ (s.zone z).standing, ∀ m a, s.liveEntry q = some (m, a) →
    ∃ m' a', t.message q.slot = some m' ∧ m'.lastAttempt = some a' ∧ a'.number = a.number ∧ zoneIn z a'.pending = false
      ∧ a'.sent = a.sent
  slots : ((s.zone z).standing.map QueueEntry.slot).Nodup → ∀ q ∈ (s.zone z).standing, ∀ m a,
    s.liveEntry q = some (m, a) → zoneIn z a.pending = true → s.lostTo t z q m a
  others : ∀ slot, (∀ q ∈ (s.zone z).standing, q.slot ≠ slot) → t.message slot = s.message slot
  stalls : ((s.zone z).standing.map QueueEntry.slot).Nodup → (∀ q ∈ (s.zone z).standing, q.slot ∉ s.stalls) →
    t.stalls = s.stalls ++ ((s.zone z).standing.filter (s.stallsOnLoss z)).map QueueEntry.slot
  posted : ∀ q, (s.port q).role = .dispatch ∨ (s.port q).role = .supervisor → (s.port q).events.length < 32 →
    ⟨.linkDown, z.val, ((downCauseCode cause).toNat : Int), s.clock⟩ ∈ (t.port q).events
  otherQueues : ∀ y, ∀ q ∈ (t.zone y).queue, q ∈ (s.zone y).queue
  otherLinks : ∀ y, y ≠ z → t.link y = s.link y
  handled : ∃ u v, (∀ q, u.port q = (s.port q).takes
      [⟨.linkDown, z.val, ((downCauseCode cause).toNat : Int), s.clock⟩])
    ∧ u = { s.setZone z { s.zone z with queue := [], inFlight := none } with ports := u.ports, links := u.links }
    ∧ oneByOne (State.loses z) (s.zone z).standing u v
    ∧ t.messages = v.messages ∧ t.stalls = v.stalls ∧ t.directory = v.directory ∧ t.journal = v.journal
    ∧ (∀ q, (t.port q).outcomes = (v.port q).outcomes)
    ∧ ∀ y, y ≠ z → (t.zone y).queue = (v.zone y).queue ∧ (t.zone y).inFlight = (v.zone y).inFlight
  schedule : ∀ y, (t.zone y).schedule = (s.zone y).schedule ∧ (t.zone y).force = (s.zone y).force
    ∧ (t.zone y).nextBatch = (s.zone y).nextBatch ∧ (t.zone y).nextSeq = (s.zone y).nextSeq
  rest : t = { s with
    ports := t.ports, directory := t.directory, messages := t.messages, stalls := t.stalls, zones := t.zones,
    links := t.links, journal := t.journal }

/-- R96, R107: the congested flag of a lost zone whose queue was not empty is clear, and a flag that was set has posted
ZONE_CLEAR with 0 queued words to every port of its roles that had room. -/
def State.clearedOnLoss (s t : State) (z : ZoneId) : Prop :=
  (s.zone z).queue ≠ [] →
    (t.zone z).congested = false ∧ ((s.zone z).congested = true →
      ∀ q, (s.port q).role ∈ eventRoles .zoneClear →
        ⟨.zoneClear, z.val, 0, s.clock⟩ ∈ (t.port q).events ∨ (t.port q).lost = true)

/-- Table 2-1, column Range. -/
def Plan.legal (x : Plan) : Prop :=
  x.baseTone ≤ 65535 ∧ x.baseNumeric ≤ 65535 ∧ x.baseText ≤ 65535 ∧ x.wordRate ≤ 4095 ∧ x.zoneRate ≤ 4095
    ∧ (16 ≤ x.m0 ∧ x.m0 ≤ 255) ∧ (16 ≤ x.m1 ∧ x.m1 ≤ 255) ∧ (16 ≤ x.m2 ∧ x.m2 ≤ 255) ∧ (16 ≤ x.m3 ∧ x.m3 ≤ 255)
    ∧ x.retryFee ≤ 4095 ∧ x.failFee ≤ 65535 ∧ (1 ≤ x.cap ∧ x.cap ≤ 16777215) ∧ x.retries ≤ 7 ∧ x.repeats ≤ 3
    ∧ (1 ≤ x.retryBase ∧ x.retryBase ≤ 255) ∧ (1 ≤ x.retryCeiling ∧ x.retryCeiling ≤ 65534)
    ∧ (1 ≤ x.defaultLife ∧ x.defaultLife ≤ 65535) ∧ x.focusAge ≤ 65535 ∧ x.lowWater ≤ 16777215

/-- Table 3-6, column Range; a coverage is a non-empty zone set (R47). -/
def Action.legal (a : Action) : Prop :=
  a.coverage ≠ some 0 ∧ (∀ l, a.life = some l → 1 ≤ l ∧ l ≤ 65535) ∧ (∀ r, a.retries = some r → r ≤ 7)

/-- Table 3-5, R48: PASS, every optional field absent, no-focus clear, chain 0. -/
def Action.blank (a : Action) : Prop :=
  a.disposition = .pass ∧ a.priority = none ∧ a.coverage = none ∧ a.noFocus = false ∧ a.life = none ∧ a.retries = none
    ∧ a.plan = none ∧ a.chain = 0

/-! ## The bytes of a body (Tables 10-8 and 10-9) -/

/-- Table 10-9: the plan that a PLAN_WRITE body or a PLAN_READ response carries, field by field in the order of the table. -/
def planAt (body : List Byte) : Plan where
  baseTone := fieldAt body 1 2
  baseNumeric := fieldAt body 3 2
  baseText := fieldAt body 5 2
  wordRate := fieldAt body 7 2
  zoneRate := fieldAt body 9 2
  m0 := fieldAt body 11 1
  m1 := fieldAt body 12 1
  m2 := fieldAt body 13 1
  m3 := fieldAt body 14 1
  retryFee := fieldAt body 15 2
  failFee := fieldAt body 17 2
  cap := fieldAt body 19 3
  retries := fieldAt body 22 1
  repeats := fieldAt body 23 1
  retryBase := fieldAt body 24 1
  retryCeiling := fieldAt body 25 2
  defaultLife := fieldAt body 27 2
  focusAge := fieldAt body 29 2
  lowWater := fieldAt body 31 3
  emergencyOverride := decide (fieldAt body 34 1 ≠ 0)

/-- Table 3-8 and Table 10-8: whether the 16 bytes of an action are in range; the value of an absent field is not checked. -/
def actionInRange (body : List Byte) (off : Nat) : Prop :=
  fieldAt body off 1 ≤ 2 ∧ fieldAt body (off + 1) 1 ≤ 15 ∧ fieldAt body (off + 2) 2 ≤ 8191
    ∧ (fieldAt body (off + 4) 1 ≠ 0 → fieldAt body (off + 5) 1 ≤ 3)
    ∧ (fieldAt body (off + 8) 1 ≠ 0 → 1 ≤ fieldAt body (off + 9) 2)
    ∧ (fieldAt body (off + 11) 1 ≠ 0 → fieldAt body (off + 12) 1 ≤ 7)
    ∧ (fieldAt body (off + 13) 1 ≠ 0 → fieldAt body (off + 14) 1 ≤ 15)
    ∧ fieldAt body (off + 15) 1 ≤ 63

/-- Table 10-8: the 16 bytes from an offset on carry the action, field by field in the order of the table. -/
structure Action.carriedBy (a : Action) (body : List Byte) (off : Nat) : Prop where
  disposition : fieldAt body off 1 = match a.disposition with | .pass => 0 | .refuse => 1 | .forward => 2
  reason : fieldAt body (off + 1) 1 = a.reason.toNat
  target : fieldAt body (off + 2) 2 = a.target.val
  priority : a.priority.map Fin.val
    = if fieldAt body (off + 4) 1 = 0 then none else some (fieldAt body (off + 5) 1)
  coverage : a.coverage
    = if fieldAt body (off + 6) 1 = 0 then none else some (BitVec.ofNat 8 (fieldAt body (off + 6) 1))
  noFocus : a.noFocus = decide (fieldAt body (off + 7) 1 ≠ 0)
  life : a.life = if fieldAt body (off + 8) 1 = 0 then none else some (fieldAt body (off + 9) 2)
  retries : a.retries = if fieldAt body (off + 11) 1 = 0 then none else some (fieldAt body (off + 12) 1)
  plan : a.plan.map Fin.val = if fieldAt body (off + 13) 1 = 0 then none else some (fieldAt body (off + 14) 1)
  chain : fieldAt body (off + 15) 1 = a.chain.toNat

/-- Table 10-9: the 32 bytes carry the index and the classifier entry. -/
def ClassifierEntry.carriedBy (c : ClassifierEntry) (body : List Byte) : Prop :=
  c.valid = decide (fieldAt body 1 1 ≠ 0) ∧ c.value = BitVec.ofNat 51 (fieldAt body 2 7)
    ∧ c.mask = BitVec.ofNat 51 (fieldAt body 9 7) ∧ c.action.carriedBy body 16

/-- Table 2-2, column Range. -/
def TariffSnapshot.legal (t : TariffSnapshot) : Prop :=
  t.classBase ≤ 65535 ∧ t.wordRate ≤ 4095 ∧ t.zoneRate ≤ 4095 ∧ 16 ≤ t.multiplier ∧ t.multiplier ≤ 255
    ∧ t.retryFee ≤ 4095 ∧ t.failFee ≤ 65535 ∧ 1 ≤ t.cap ∧ t.cap ≤ 16777215 ∧ t.retryCount ≤ 7
    ∧ 1 ≤ t.retryBase ∧ t.retryBase ≤ 255 ∧ 1 ≤ t.retryCeiling ∧ t.retryCeiling ≤ 65534 ∧ t.focusAge ≤ 65535

/-! ## Invariants -/

/-- The tables are in canonical form: keys strictly rising, and no epoch of 0 listed. -/
structure State.canonical (s : State) : Prop where
  directory : tblSorted s.directory
  addressMap : tblSorted s.addressMap
  epochs : tblSorted s.epochs
  messages : tblSorted s.messages
  noZero : ∀ p ∈ s.epochs, p.2 ≠ 0

/-- R6: the map pairs an address with an index exactly when that index's entry, not UNUSED, holds the address. -/
def State.mapAgrees (s : State) : Prop :=
  ∀ a i, s.mapped a = some i ↔ ∃ e, s.entry i = some e ∧ e.address = a

/-- R164: at least one port holds the SUPERVISOR role. -/
def State.supervised (s : State) : Prop := ∃ p, (s.port p).role = .supervisor

/-- R166, R167: a queue holds at most 32 records, and a set lost flag stands beside a full queue only. -/
def State.eventsBounded (s : State) : Prop :=
  ∀ p, (s.port p).events.length ≤ 32 ∧ ((s.port p).lost = true → (s.port p).events.length = 32)

/-- R146: a free journal record is in reserve for every open message. -/
def State.reserved (s : State) : Prop :=
  tblSorted s.messages ∧ s.journal.records.length + s.openMessages ≤ 1024

/-- R88: a slot is on a port's outcome list, once, exactly while it is CLOSED and that port submitted its message. -/
def State.outcomesListed (s : State) : Prop :=
  ∀ p, (s.port p).outcomes.Nodup ∧
    ∀ slot, slot ∈ (s.port p).outcomes ↔ ∃ m, s.message slot = some m ∧ m.closing.isSome ∧ m.port = p

/-- The open messages billed to an entry. -/
def State.openBilled (s : State) (i : AccountIndex) : List Message :=
  (s.messages.map Prod.snd).filter fun m => m.closing.isNone && decide (m.billed = i)

/-- R5: held is the sum of the holds of the open messages billed to the entry, and open count is their number; no open
message is billed to an UNUSED entry. -/
def State.accountLaw (s : State) : Prop :=
  ∀ i, match s.entry i with
    | some e => e.held = ((s.openBilled i).map Message.hold).sum ∧ e.openCount = (s.openBilled i).length
    | none => s.openBilled i = []

/-- R107, R120: the queue of a zone whose link is not UP is empty and it has no batch in flight, and a link in UP has a
profile. -/
def State.downZonesEmpty (s : State) : Prop :=
  ∀ z, ((s.link z).state ≠ .up → (s.zone z).queue = [] ∧ (s.zone z).inFlight = none)
    ∧ ((s.link z).state = .up → (s.link z).profile.isSome)

/-- R94: every zone queue stands in queue order. -/
def State.queuesOrdered (s : State) : Prop := ∀ z, (s.zone z).ordered

/-- R96: a zone's congested flag is set when its queued words are above the threshold in force, and it is set only with
congestion on and with queued words above the threshold less the hysteresis. -/
def State.congestionAgrees (s : State) : Prop :=
  ∀ z, ((s.zone z).force.threshold ≠ 0 → (s.zone z).force.threshold < queuedWords (s.zone z).queue →
      (s.zone z).congested = true)
    ∧ ((s.zone z).congested = true → (s.zone z).force.threshold ≠ 0
      ∧ (s.zone z).force.threshold - (s.zone z).force.hysteresis < queuedWords (s.zone z).queue)

/-! ## Right after a device reset -/

/-- R172, R173: what every record holds after a device reset, by the column After reset of its table. Table 3-5 and R48
give PASS, every optional field absent, no-focus clear and chain 0; they give no stored reason and target. -/
structure State.afterReset (t : State) : Prop where
  roles : (t.port 0).role = .supervisor ∧ (t.port 1).role = .intake ∧ (t.port 2).role = .dispatch
    ∧ (t.port 3).role = .accounts
  ports : ∀ p, (t.port p).receiver = .listening ∧ (t.port p).gap = 4 ∧ (t.port p).events = [] ∧ (t.port p).lost = false
    ∧ (t.port p).outcomes = [] ∧ (t.port p).answer = none ∧ (t.port p).unsent = []
  clock : t.clock = 0
  directory : (∀ i, t.entry i = none) ∧ ∀ a, t.mapped a = none
  plans : ∀ i, t.plan i = ⟨0, 0, 0, 0, 0, 16, 16, 16, 16, 0, 0, 16777215, 0, 0, 10, 600, 3600, 0, 0, false⟩
  classifier : ∀ i, (bankGet t.classifier i).valid = false ∧ (bankGet t.classifier i).value = 0
    ∧ (bankGet t.classifier i).mask = 0 ∧ (bankGet t.classifier i).action.blank
  defaults : t.firstDefault.blank ∧ t.secondDefault.blank
  checkers : ∀ i, bankGet t.checkers i = ⟨.none, 0, 0⟩
  store : (∀ slot, t.message slot = none ∧ t.epoch slot = 0) ∧ t.stalls = []
  zones : ∀ z, t.zone z = ⟨[], false, 0, 0, none, 50, ⟨⟨5, 0, 256, 50⟩, 7, 2048, 0⟩, ⟨5, 0, 256, 50⟩⟩
  airHold : t.airHold = false
  links : ∀ z, (t.link z).state = .off ∧ (t.link z).profile = none ∧ (t.link z).downCause = none
    ∧ (t.link z).rxErrors = 0 ∧ (t.link z).huntTimer = none ∧ (t.link z).exchangeTimer = none
    ∧ (t.link z).silenceTimer = none ∧ (t.link z).idleTimer = none ∧ (t.link z).holdOffTimer = none
    ∧ (t.link z).basePage = none ∧ (t.link z).txQueue = [] ∧ (t.link z).onLine = none ∧ (t.link z).received = none
  journal : t.journal = ⟨[], 768, true⟩
  sweep : t.sweep = ⟨.stop, 1, 0, false, false, Vector.replicate 16 0, 0, 0⟩

end Sys2Proof.Machine
end

