-- ==== Sys2Proof/Certificates/Slice0/Obligations.lean ====
section
/-! DEFINITION. The statements for the provers: the step, the checks of a port, what every command does, the charge arithmetic, and the invariants that every step keeps. -/

open Sys2Proof Sys2Proof.Machine

/-! ## The step and the ports -/

/-- A step runs the command at the front of the queue with the queue's rest. -/
def Obligations.StepRunsTheFrontCommand : Prop :=
  ∀ (c : Instr) (rest : List Instr) (s : State), step { s with pending := c :: rest } = exec c { s with pending := rest }

/-- R160, R161, R169, R60, R58, R172, Tables 10-6 and 10-9: the checks common to all commands. A port in GAP or SENDING
takes no frame (R160), nor does a part that RESET_N holds in reset (Section 11.3, R172: it answers nothing; that such a
frame leaves the state unchanged is read from the rule, log entry 14, DEDUCED); a taken command is checked for STARTING,
UNKNOWN_COMMAND and ROLE in that order, and then for the FORMAT of its body; a failing check changes nothing but the
answering port. -/
def Obligations.CommonChecksComeFirst : Prop :=
  ∀ (i : Instr) (p : PortId) (code : Byte) (body : List Byte) (s : State),
    stationFields i = some (p, code, body) → i.wellFormed = true →
    if s.phase = .held ∨ (s.port p).receiver = .gap ∨ (s.port p).receiver = .sending then exec i s = .next s
    else if s.phase = .starting then exec i s = .next (s.answers p .starting [])
    else
      match rolesOfCode code with
      | none => exec i s = .next (s.answers p .unknownCommand [])
      | some roles =>
        if (s.port p).role ∉ roles then exec i s = .next (s.answers p .role [])
        else ¬ bodyFormOf code body → exec i s = .next (s.answers p .format [])

/-- R113, R114, R159 to R161, Tables 7-2, 7-3 and 10-3: a whole command frame with a good CRC is the command of its code with
its body, for every code and every body that a frame can carry, and a block with a good CRC and a body in its kind's ranges is
the event of its kind. The CRC: a register that starts at all ones, updated with each byte most significant bit first with the
generator x¹⁶ + x¹² + x⁵ + 1, with no zero bits appended, and sent without inversion, high byte first; the bytes 0x31 to 0x39
give 0x29B1; a frame is judged good exactly when its CRC is that of its bytes from LENGTH to the end of its body. -/
def Obligations.FramesAndBlocksSpellTheirEvents : Prop :=
  (crc16 [] = 0xFFFF
    ∧ (∀ (bytes : List Byte) (b : Byte), crc16 (bytes ++ [b])
      = Nat.iterate (fun r : BitVec 16 => if r.getLsbD 15 then (r <<< 1) ^^^ 0x1021 else r <<< 1) 8
          (crc16 bytes ^^^ (b.setWidth 16 <<< 8)))
    ∧ crc16 [0x31, 0x32, 0x33, 0x34, 0x35, 0x36, 0x37, 0x38, 0x39] = 0x29B1
    ∧ ∀ bytes : List Byte, crcBytes bytes = [(crc16 bytes).extractLsb' 8 8, (crc16 bytes).extractLsb' 0 8])
  ∧ (∀ (code : Byte) (body : List Byte), stationFrame code body
      = bytesOf 1 body.length ++ code :: body ++ crcBytes (bytesOf 1 body.length ++ code :: body)
    ∧ linkBlock code body
      = code :: bytesOf 1 body.length ++ body ++ crcBytes (code :: bytesOf 1 body.length ++ body))
  ∧ (∀ (length code : Byte) (body crc : List Byte), length.toNat = body.length → crc.length = 2 →
    (frameGood (length :: code :: body ++ crc) = true ↔ crc = crcBytes (length :: code :: body)))
  ∧ (∀ (i : Instr) (p : PortId) (code : Byte) (body : List Byte),
    stationFields i = some (p, code, body) → i.wellFormed = true → takeStationFrame p (stationFrame code body) = i)
  ∧ ∀ (i : Instr) (z : ZoneId) (kind : Byte) (body : List Byte),
    linkFields i = some (z, kind, body) → body.length ≤ 128 → inboundBodyGood kind.toNat body = true →
    takeLinkBlock z (linkBlock kind body) = i

/-- R159, R160, R162, R163, R168, Tables 10-2, 10-3 and 10-5: the events of a port's line, byte by byte and bit by bit. A frame
with a bad CRC and an abandoned frame leave a receiving port LISTENING with no response; GAP leads to SENDING, with the
characters of the response frame to drive on TXD one after another; the last of their bits leads to LISTENING; a break leads
to LISTENING from every receiver state, and of what was still to be driven only the one to ten bits of the byte on the line
are left, those before a whole number of ten-bit characters. LISTENING discards every byte but START, which leads to RECEIVING; the
bytes of a whole frame after it are judged and their command is taken; GAP and SENDING ignore every byte; a bad stop bit
abandons a frame. A byte on the line is a start bit 0, eight data bits with the least significant first, and a stop bit 1; a
port with nothing to drive holds TXD at 1; ATTN follows the port's two collections; the straps give the bit rate of Table
10-2, and the status codes are those of Table 10-5. A response that ends, or that a break abandons, makes the reset of an
OFFICE_RESET due (R172; that a flag holds it until its own row takes it is the model's choice, log entry 11). That the rows
carry no bit time, and that a break finishes the byte that the bits driven so far have reached, is the model's choice (log
entry 21). -/
def Obligations.LineEventsMoveTheReceiver : Prop :=
  (∀ (p : PortId) (frame : List Byte) (s : State), s.phase ≠ .held →
    ((s.port p).receiver = .listening ∨ (s.port p).receiver = .receiving →
      (frameGood frame = false → exec (.commandFrameBadCrc p frame) s
        = .next (s.setPort p { s.port p with receiver := .listening, frame := [] }))
      ∧ exec (.frameAbandoned p) s = .next (s.setPort p { s.port p with receiver := .listening, frame := [] }))
    ∧ ((s.port p).receiver = .gap ∨ (s.port p).receiver = .sending →
      exec (.commandFrameBadCrc p frame) s = .next s ∧ exec (.frameAbandoned p) s = .next s)
    ∧ ((s.port p).receiver = .gap →
      ∃ bits, exec (.turnAroundGapExpiry p) s
          = .next (s.setPort p { s.port p with receiver := .sending, unsent := bits })
        ∧ ∀ a covered, (s.port p).answer = some a →
          covered = bytesOf 1 a.response.body.length ++ statusCode a.response.status :: a.response.body →
          bits = (0x3C :: covered ++ crcBytes covered).flatMap characterBits)
    ∧ ∀ (part rest : List Bool) (k : Nat) (t : State), t = { s.setPort p { s.port p with
          receiver := .listening, frame := [], answer := none, unsent := part, resetAfter := false } with
          resetDue := s.resetDue || (s.port p).resetAfter } →
      ((s.port p).receiver = .sending → part = [] → exec (.responseSent p) s = .next t)
      ∧ ((s.port p).unsent = part ++ rest → part.length ≤ 10 → (part = [] → rest = []) → rest.length = 10 * k →
        exec (.lineBreak p) s = .next t))
  ∧ (∀ (p : PortId) (s : State) (b : Byte), s.phase ≠ .held →
    ((s.port p).receiver = .listening → s.portByte p b
      = if b = 0xC3 then s.setPort p { s.port p with receiver := .receiving, frame := [] } else s)
    ∧ ((s.port p).receiver = .listening → ∀ frame : List Byte, 4 ≤ frame.length → frame.length = 4 + fieldAt frame 0 1 →
      exec (takeStationFrame p frame) (s.setPort p { s.port p with receiver := .receiving, frame := frame })
        = .next ((0xC3 :: frame).foldl (State.portByte p) s))
    ∧ ((s.port p).receiver = .gap ∨ (s.port p).receiver = .sending → s.portByte p b = s)
    ∧ s.portCharacter p (characterBits b) = s.portByte p b
    ∧ s.portCharacter p ((characterBits b).dropLast ++ [false])
      = if (s.port p).receiver = .receiving then
          s.setPort p { s.port p with receiver := .listening, frame := [] }
        else s)
  ∧ (∀ b : Byte, characterBits b = [false, b.getLsbD 0, b.getLsbD 1, b.getLsbD 2, b.getLsbD 3, b.getLsbD 4, b.getLsbD 5,
      b.getLsbD 6, b.getLsbD 7, true])
  ∧ (∀ (s : State) (p : PortId),
    ((s.port p).txd = if (s.port p).unsent = [] then [true] else (s.port p).unsent)
    ∧ (∀ k, k < (s.port p).unsent.length ∨ (s.port p).receiver ≠ .sending →
      Nat.iterate (State.txdBit p) k s = s.setPort p { s.port p with unsent := (s.port p).unsent.drop k })
    ∧ (s.phase ≠ .held → (s.port p).receiver = .sending → (s.port p).unsent ≠ [] →
      exec (.responseSent p) s = .next (Nat.iterate (State.txdBit p) (s.port p).unsent.length s))
    ∧ (s.attention p = true ↔ (s.port p).events ≠ [] ∨ (s.port p).outcomes ≠ []))
  ∧ (List.map statusCode [.ok, .accepted, .unknownCommand, .role, .format, .range, .starting]
      = [0x00, 0x01, 0x10, 0x11, 0x12, 0x13, 0x14]
    ∧ List.map statusCode [.noMessage, .alreadyClosed, .inUse, .addressInUse, .balanceNotZero, .noSubscriber, .lastSupervisor,
        .journalFull] = [0x20, 0x21, 0x22, 0x23, 0x24, 0x25, 0x26, 0x27]
    ∧ List.map statusCode [.classified, .forwardInvalid, .barred, .suspended, .outstanding, .storeFull, .congested, .credit]
      = [0x30, 0x31, 0x32, 0x33, 0x34, 0x35, 0x36, 0x37])
  ∧ Straps.bitRate ⟨false, false⟩ = 115200 ∧ Straps.bitRate ⟨false, true⟩ = 230400
  ∧ Straps.bitRate ⟨true, false⟩ = 460800 ∧ Straps.bitRate ⟨true, true⟩ = 921600

/-- R167 with Tables 10-4 and 10-7: what FETCH_EVENTS removes, clears and answers, with the codes of the kinds; and the roles
that each kind is offered to (R166). -/
def Obligations.FetchEventsTakesEight : Prop :=
  List.map eventCode [.linkUp, .linkDown, .zoneCongested, .zoneClear, .creditLow, .creditExhausted, .accountSuspended, .accountResumed,
      .sweepPassDone, .journalHigh, .lateAck]
    = [0x01, 0x02, 0x03, 0x04, 0x10, 0x11, 0x12, 0x13, 0x14, 0x15, 0x16]
  ∧ (∀ (k : EventKind) (r : Role), r ∈ eventRoles k ↔ r = .supervisor
    ∨ (match k with
        | .linkUp | .linkDown => r = .dispatch
        | .zoneCongested | .zoneClear => r = .dispatch ∨ r = .intake
        | .creditLow | .creditExhausted | .accountSuspended | .accountResumed | .sweepPassDone | .journalHigh
        | .lateAck => r = .accounts))
  ∧ ∀ (s : State) (p : PortId), s.serves p anyRole →
    ∃ rest, exec (.fetchEvents p []) s = .next
        ((s.setPort p { s.port p with events := (s.port p).events.drop 8, lost := false }).answers p .ok
          (bytesOf 1 (min 8 (s.port p).events.length) ++ bytesOf 1 ((s.port p).events.length - 8)
            ++ [if (s.port p).lost then 1 else 0] ++ rest))
      ∧ rest.length = 11 * min 8 (s.port p).events.length
      ∧ ∀ (i : Nat) (r : EventRecord), i < 8 → (s.port p).events[i]? = some r →
          fieldAt rest (11 * i) 1 = (eventCode r.kind).toNat ∧ fieldAt rest (11 * i + 1) 2 = r.subject % 65536
            ∧ fieldAt rest (11 * i + 3) 4 = (BitVec.ofInt 32 r.detail).toNat
            ∧ fieldAt rest (11 * i + 7) 4 = r.time.toNat

/-- R164, R165: SET_ROLE keeps a SUPERVISOR port and else writes one role; PORT_CONFIG replaces one gap, and its own answer
waits the old one (R162); PORT_READ shows every port and changes no state; with the role codes of Table 10-8. -/
def Obligations.PortCommands : Prop :=
  (roleCode .supervisor = 0 ∧ roleCode .intake = 1 ∧ roleCode .dispatch = 2 ∧ roleCode .accounts = 3)
  ∧ ∀ (s : State) (p : PortId),
    (∀ body : List Byte, s.serves p [.supervisor] → body.length = 2 →
      (3 < fieldAt body 0 1 ∨ 3 < fieldAt body 1 1 → exec (.setRole p body) s = .next (s.answers p .range []))
      ∧ ∀ (q : PortId) (r : Role), fieldAt body 0 1 = q.val → fieldAt body 1 1 = (roleCode r).toNat →
        if (s.port q).role = .supervisor ∧ (∀ u, u ≠ q → (s.port u).role ≠ .supervisor) ∧ r ≠ .supervisor then
          exec (.setRole p body) s = .next (s.answers p .lastSupervisor [])
        else
          ∃ t, exec (.setRole p body) s = .next (t.answers p .ok (allPorts.map fun u => roleCode (t.port u).role))
            ∧ t = s.setPort q { s.port q with role := r })
    ∧ (∀ body : List Byte, s.serves p [.supervisor] → body.length = 2 →
      (3 < fieldAt body 0 1 ∨ fieldAt body 1 1 < 2 ∨ 15 < fieldAt body 1 1 →
        exec (.portConfig p body) s = .next (s.answers p .range []))
      ∧ ∀ q : PortId, fieldAt body 0 1 = q.val → 2 ≤ fieldAt body 1 1 → fieldAt body 1 1 ≤ 15 →
        ∃ t, exec (.portConfig p body) s = .next t
          ∧ (∀ u, (t.port u).gap = if u = q then fieldAt body 1 1 else (s.port u).gap)
          ∧ (t.port p).answer = some ⟨⟨.ok, body⟩, (s.port p).gap⟩ ∧ (t.port p).receiver = .gap
          ∧ (∀ u, u ≠ p → t.port u = { s.port u with gap := (t.port u).gap })
          ∧ t.port p = { s.port p with
              gap := (t.port p).gap, receiver := .gap, frame := [], answer := (t.port p).answer, unsent := [] }
          ∧ t = { s with ports := t.ports })
    ∧ (s.serves p anyRole → ∃ b, exec (.portRead p []) s = .next (s.answers p .ok b) ∧ b.length = 24
      ∧ ∀ q : PortId, fieldAt b (6 * q.val) 1 = (roleCode (s.port q).role).toNat
        ∧ fieldAt b (6 * q.val + 1) 1 = (s.port q).gap % 256
        ∧ fieldAt b (6 * q.val + 2) 1 = (s.port q).events.length % 256
        ∧ fieldAt b (6 * q.val + 3) 1 = (if (s.port q).lost then 1 else 0)
        ∧ fieldAt b (6 * q.val + 4) 2 = (s.port q).outcomes.length % 65536)

/-! ## Subscriber directory -/

/-- R10, R12, R13, R14: a SUBSCRIBER_WRITE body in range is read field by field in the layout of Table 10-9; one that passes
the checks creates the entry of an UNUSED index with its pair of the map; on an existing entry it changes the written fields,
keeps account portion and state, and moves the pair of the map when the address changes. -/
def Obligations.SubscriberWriteWritesTheEntry : Prop :=
  (∀ body : List Byte, fieldAt body 0 2 ≤ 8191 → fieldAt body 2 1 = 1 ∨ fieldAt body 2 1 = 2 → fieldAt body 3 3 ≤ 4194303 →
    fieldAt body 6 1 ≤ 1 → fieldAt body 7 1 ≤ 15 → fieldAt body 8 1 ≠ 0 → 1 ≤ fieldAt body 10 1 → fieldAt body 10 1 ≤ 15 →
    ∃ r, readSubscriberWrite body = some r ∧ r.index.val = fieldAt body 0 2
      ∧ r.initial = (if fieldAt body 2 1 = 1 then .active else .suspended .accounts)
      ∧ r.address.toNat = fieldAt body 3 3 ∧ r.kind = (if fieldAt body 6 1 = 0 then .oneWay else .twoWay)
      ∧ r.plan.val = fieldAt body 7 1 ∧ r.home.toNat = fieldAt body 8 1 ∧ r.region.toNat = fieldAt body 9 1
      ∧ r.limit = fieldAt body 10 1)
  ∧ ∀ (s : State) (p : PortId) (body : List Byte) (r : SubscriberWriteReq),
    s.serves p [.supervisor] → body.length = 11 → readSubscriberWrite body = some r →
    (∀ i, s.mapped r.address = some i → i = r.index) →
    (∀ e, s.entry r.index = some e → e.address = r.address ∨ e.openCount = 0) →
    ∃ t, exec (.subscriberWrite p body) s = .next t
      ∧ (match s.entry r.index with
        | none =>
          t.entry r.index
              = some ⟨r.initial, r.address, r.kind, r.plan, r.home, r.region, none, r.limit, 0, 0, 0, 0, false, false⟩
            ∧ (∀ a, t.mapped a = if a = r.address then some r.index else s.mapped a)
            ∧ t.ports = (s.answers p .ok (bytesOf 2 r.index.val ++ [entryStateCode r.initial])).ports
        | some e =>
          t.entry r.index = some { e with
              address := r.address, kind := r.kind, plan := r.plan, home := r.home, region := r.region
              outstandingLimit := r.limit, lastSeen := if e.address = r.address then e.lastSeen else none }
            ∧ (∀ a, t.mapped a = if a = r.address then some r.index else if a = e.address then none else s.mapped a)
            ∧ t.ports = (s.answers p .ok (bytesOf 2 r.index.val ++ [entryStateCode e.state])).ports)
      ∧ (∀ j, j ≠ r.index → t.entry j = s.entry j)
      ∧ t = { s with directory := t.directory, addressMap := t.addressMap, ports := t.ports }

/-- R10, R11, R14: the refusals of a SUBSCRIBER_WRITE after FORMAT, in their order. -/
def Obligations.SubscriberWriteRefusals : Prop :=
  ∀ (s : State) (p : PortId) (body : List Byte), s.serves p [.supervisor] → body.length = 11 →
    (fieldAt body 0 2 > 8191 ∨ (fieldAt body 2 1 ≠ 1 ∧ fieldAt body 2 1 ≠ 2) ∨ fieldAt body 3 3 > 4194303
        ∨ fieldAt body 6 1 > 1 ∨ fieldAt body 7 1 > 15 ∨ fieldAt body 8 1 = 0 ∨ fieldAt body 10 1 = 0
        ∨ fieldAt body 10 1 > 15 →
      exec (.subscriberWrite p body) s = .next (s.answers p .range []))
    ∧ ∀ r, readSubscriberWrite body = some r →
      ((∃ i, s.mapped r.address = some i ∧ i ≠ r.index) →
        exec (.subscriberWrite p body) s = .next (s.answers p .addressInUse []))
      ∧ ∀ e, s.entry r.index = some e → (∀ i, s.mapped r.address = some i → i = r.index) → e.address ≠ r.address →
        0 < e.openCount → exec (.subscriberWrite p body) s = .next (s.answers p .inUse [])

/-- R16, R17: SUBSCRIBER_DELETE, its checks in their order and the delete. -/
def Obligations.SubscriberDeleteFreesTheAddress : Prop :=
  ∀ (s : State) (p : PortId) (body : List Byte), s.serves p [.supervisor] → body.length = 2 →
    (8191 < fieldAt body 0 2 → exec (.subscriberDelete p body) s = .next (s.answers p .range []))
    ∧ ∀ i : AccountIndex, fieldAt body 0 2 = i.val →
      match s.entry i with
      | none => exec (.subscriberDelete p body) s = .next (s.answers p .noSubscriber [])
      | some e =>
        if 0 < e.openCount then exec (.subscriberDelete p body) s = .next (s.answers p .inUse [])
        else if e.balance ≠ 0 then exec (.subscriberDelete p body) s = .next (s.answers p .balanceNotZero [])
        else
          ∃ t, exec (.subscriberDelete p body) s = .next t
            ∧ (∀ j, t.entry j = if j = i then none else s.entry j)
            ∧ (∀ a, t.mapped a = if a = e.address then none else s.mapped a)
            ∧ t.ports = (s.answers p .ok body).ports
            ∧ t = { s with directory := t.directory, addressMap := t.addressMap, ports := t.ports }

/-- R15, Tables 10-8 and 10-9: SUBSCRIBER_READ answers RANGE to an index above 8,191, and else shows the entry field by field
and changes no state; with the codes of entry state, suspend cause and pager kind. -/
def Obligations.SubscriberReadShowsTheEntry : Prop :=
  (∀ st : EntryState,
    entryStateCode st = (match st with | .active => 1 | .suspended _ => 2 | .barred => 3)
    ∧ suspendCauseCode st = (match st with | .suspended .accounts => 1 | .suspended .sweep => 2 | _ => 0))
  ∧ pagerKindCode .oneWay = 0 ∧ pagerKindCode .twoWay = 1
  ∧ ∀ (s : State) (p : PortId) (body : List Byte), s.serves p anyRole → body.length = 2 →
    (8191 < fieldAt body 0 2 → exec (.subscriberRead p body) s = .next (s.answers p .range []))
    ∧ ∀ i : AccountIndex, fieldAt body 0 2 = i.val →
    match s.entry i with
    | none => exec (.subscriberRead p body) s = .next (s.answers p .ok (body ++ [0]))
    | some e =>
      ∃ b, exec (.subscriberRead p body) s = .next (s.answers p .ok b) ∧ b.length = 32
        ∧ fieldAt b 0 2 = i.val ∧ fieldAt b 2 1 = (entryStateCode e.state).toNat
        ∧ fieldAt b 3 1 = (suspendCauseCode e.state).toNat ∧ fieldAt b 4 3 = e.address.toNat
        ∧ fieldAt b 7 1 = (pagerKindCode e.kind).toNat ∧ fieldAt b 8 1 = e.plan.val ∧ fieldAt b 9 1 = e.home.toNat
        ∧ fieldAt b 10 1 = e.region.toNat
        ∧ (match e.lastSeen with
            | some l => fieldAt b 11 1 = 1 ∧ fieldAt b 12 1 = l.zone.val ∧ fieldAt b 13 4 = l.time.toNat
            | none => fieldAt b 11 6 = 0)
        ∧ fieldAt b 17 1 = e.outstandingLimit % 256 ∧ fieldAt b 18 4 = (BitVec.ofInt 32 e.balance).toNat
        ∧ fieldAt b 22 4 = e.creditLimit % 4294967296 ∧ fieldAt b 26 4 = e.held % 4294967296
        ∧ fieldAt b 30 1 = e.openCount % 256
        ∧ fieldAt b 31 1 = (if e.low then 1 else 0) + (if e.exhausted then 2 else 0)

/-! ## Tariff plans and charges -/

/-- R20, R21, Tables 2-1 and 10-9: PLAN_WRITE, its body read field by field, replaces every field of one plan, or is answered
RANGE and writes nothing; PLAN_READ answers the 35 bytes that a PLAN_WRITE of the same plan would carry. -/
def Obligations.PlanWriteAndPlanRead : Prop :=
  ∀ (s : State) (p : PortId) (body : List Byte),
    (s.serves p [.accounts, .supervisor] → body.length = 35 →
      (15 < fieldAt body 0 1 ∨ ¬ (planAt body).legal → exec (.planWrite p body) s = .next (s.answers p .range []))
      ∧ ∀ i : PlanIndex, fieldAt body 0 1 = i.val → (planAt body).legal →
        ∃ t, exec (.planWrite p body) s = .next t
          ∧ (∀ j, t.plan j = if j = i then planAt body else s.plan j)
          ∧ t.ports = (s.answers p .ok (bytesOf 1 i.val)).ports
          ∧ t = { s with plans := t.plans, ports := t.ports })
    ∧ (s.serves p anyRole → body.length = 1 →
      (15 < fieldAt body 0 1 → exec (.planRead p body) s = .next (s.answers p .range []))
      ∧ ∀ i : PlanIndex, fieldAt body 0 1 = i.val →
        ∃ b, exec (.planRead p body) s = .next (s.answers p .ok b) ∧ b.length = 35 ∧ fieldAt b 0 1 = i.val
          ∧ ((s.plan i).legal → planAt b = s.plan i))

/-- R26, Table 2-3: the air word count, and where it lies for each class. -/
def Obligations.WordCountByClass : Prop :=
  ∀ (cls : MsgClass) (l : Nat), l ≤ maxLength cls →
    (match cls with
      | .tone => l = 0 ∧ wordCount cls l = 2
      | .numeric => 6 * (wordCount cls l - 2) < l + 6 ∧ l ≤ 6 * (wordCount cls l - 2) ∧ wordCount cls l - 2 ≤ 16
      | .text => 3 * (wordCount cls l - 2) < l + 3 ∧ l ≤ 3 * (wordCount cls l - 2) ∧ wordCount cls l - 2 ≤ 80)
    ∧ 2 ≤ wordCount cls l ∧ wordCount cls l ≤ 82

/-- R28, R29: the scaled charge is the raw charge times the multiplier over 16, to the nearest whole unit with an exact half
rounded up; the attempt charge adds one retry fee for each attempt number and then takes the cap; both with the bounds
that the rules state, and the attempt charge never decreases in either input. -/
def Obligations.AttemptChargeByItsStages : Prop :=
  (∀ (t : TariffSnapshot) (payload zs : Nat), t.legal → payload ≤ 80 → 1 ≤ zs → zs ≤ 8 →
    rawCharge t payload zs = t.classBase + t.wordRate * payload + t.zoneRate * (zs - 1)
    ∧ scaledCharge t payload zs = (rawCharge t payload zs * t.multiplier + 8) / 16
    ∧ 16 * scaledCharge t payload zs ≤ rawCharge t payload zs * t.multiplier + 8
    ∧ rawCharge t payload zs * t.multiplier < 16 * scaledCharge t payload zs + 8
    ∧ (t.multiplier = 16 → scaledCharge t payload zs = rawCharge t payload zs)
    ∧ rawCharge t payload zs ≤ 421800
    ∧ rawCharge t payload zs * t.multiplier ≤ 107559000
    ∧ scaledCharge t payload zs ≤ 6722438)
  ∧ (∀ (t : TariffSnapshot) (payload zs zs' n n' : Nat),
    t.legal → payload ≤ 80 → 1 ≤ zs → zs ≤ zs' → zs' ≤ 8 → n ≤ n' → n' ≤ 7 →
    attemptCharge t payload zs n = min (scaledCharge t payload zs + t.retryFee * n) t.cap
    ∧ attemptCharge t payload zs n ≤ attemptCharge t payload zs' n'
    ∧ scaledCharge t payload zs + t.retryFee * n ≤ 6751103
    ∧ attemptCharge t payload zs n ≤ 16777215
    ∧ (t.cap ≤ scaledCharge t payload zs → attemptCharge t payload zs n = t.cap))
  ∧ ∃ t : TariffSnapshot, t.legal ∧ attemptCharge t 80 8 7 = 6751103

/-- R30, R31, Tables 2-5 and 9-2: the settlement amount of each outcome. DELIVERED pays for the acknowledged attempt over its
sent zones, or over one zone when its sent set is empty; SENT pays for attempt 0 over its sent zones; MISSED pays the fail fee
up to the hold; EXPIRED and CANCELLED pay the same when an attempt has a transmitted time and else 0; PURGED pays 0. The zones
sent count of the SETTLE record is the count that DELIVERED and SENT are charged for, and else the number of zones in the union
of all sent sets. Every amount lies between 0 and the hold, for a message whose hold is that of R30 and whose sent zones are
what Chapter 6 lets them be. -/
def Obligations.SettlementNeverExceedsTheHold : Prop :=
  (∀ zs : ZoneSet, zoneCount zs = (List.finRange 8).countP fun z => zs.getLsbD z.val)
  ∧ (∀ (t : TariffSnapshot) (kind : PagerKind) (payload : Nat) (reach : ZoneSet),
    holdAmount t kind payload reach = attemptCharge t payload (zoneCount reach)
      (match kind with | .twoWay => t.retryCount | .oneWay => 0))
  ∧ (∀ m : Message, m.payload = m.words - 2
    ∧ (∀ (before after : List Attempt) (a : Attempt), m.attempts = before ++ a :: after →
      (∀ b ∈ before, b.number ≠ a.number) →
      (∀ paid, paid = (if a.sent = 0 then 1 else zoneCount a.sent) →
        m.settlementAmount .delivered a.number = attemptCharge m.tariff (m.words - 2) paid a.number
          ∧ m.zonesSentCount .delivered a.number = paid)
      ∧ (a.number = 0 → ∀ k, m.settlementAmount .sent k = attemptCharge m.tariff (m.words - 2) (zoneCount a.sent) 0
          ∧ m.zonesSentCount .sent k = zoneCount a.sent))
    ∧ ∀ k, m.settlementAmount .missed k = min m.tariff.failFee m.hold
      ∧ ((∃ a ∈ m.attempts, a.transmitted.isSome) → m.settlementAmount .expired k = min m.tariff.failFee m.hold
          ∧ m.settlementAmount .cancelled k = min m.tariff.failFee m.hold)
      ∧ ((∀ a ∈ m.attempts, a.transmitted = none) →
          m.settlementAmount .expired k = 0 ∧ m.settlementAmount .cancelled k = 0)
      ∧ m.settlementAmount .purged k = 0
      ∧ ∃ union : ZoneSet, (∀ z, zoneIn z union = true ↔ ∃ a ∈ m.attempts, zoneIn z a.sent = true)
        ∧ ∀ o, o ≠ .delivered → o ≠ .sent → m.zonesSentCount o k = zoneCount union)
  ∧ ∀ (m : Message) (o : MsgOutcome) (k : Nat), m.tariff.legal →
    m.hold = holdAmount m.tariff m.kind m.payload m.reach → 1 ≤ zoneCount m.reach →
    (∀ a ∈ m.attempts, zoneCount a.sent ≤ zoneCount m.reach) → k ≤ effectiveRetries m.tariff m.kind →
    m.settlementAmount o k ≤ m.hold

/-! ## Classifier -/

/-- R47, R54, R55, R44, Tables 3-8, 10-8 and 10-9: CLASSIFIER_WRITE, CLASSIFIER_DEFAULT and RANGE_WRITE each replace one item
whole by what their body carries field by field, or are answered RANGE and write nothing. -/
def Obligations.ClassifierWritesReplaceOneItem : Prop :=
  ∀ (s : State) (p : PortId) (body : List Byte), s.serves p [.supervisor] →
    (body.length = 32 →
      (63 < fieldAt body 0 1 ∨ ¬ actionInRange body 16 →
        exec (.classifierWrite p body) s = .next (s.answers p .range []))
      ∧ ∀ i : Fin 64, fieldAt body 0 1 = i.val → actionInRange body 16 →
        ∃ (c : ClassifierEntry) (t : State), c.carriedBy body ∧ exec (.classifierWrite p body) s = .next t
          ∧ (∀ j, bankGet t.classifier j = if j = i then c else bankGet s.classifier j)
          ∧ t.ports = (s.answers p .ok (bytesOf 1 i.val)).ports
          ∧ t = { s with classifier := t.classifier, ports := t.ports })
    ∧ (body.length = 17 →
      (1 < fieldAt body 0 1 ∨ ¬ actionInRange body 1 →
        exec (.classifierDefault p body) s = .next (s.answers p .range []))
      ∧ (fieldAt body 0 1 ≤ 1 → actionInRange body 1 →
        ∃ a : Action, a.carriedBy body 1 ∧ exec (.classifierDefault p body) s = .next
          (State.answers
            { s with
              firstDefault := if fieldAt body 0 1 = 0 then a else s.firstDefault
              secondDefault := if fieldAt body 0 1 = 0 then s.secondDefault else a }
            p .ok (bytesOf 1 (fieldAt body 0 1)))))
    ∧ (body.length = 4 →
      (3 < fieldAt body 0 1 ∨ 3 < fieldAt body 1 1 ∨ fieldAt body 1 1 = 2 ∧ (23 < fieldAt body 2 1 ∨ 23 < fieldAt body 3 1) →
        exec (.rangeWrite p body) s = .next (s.answers p .range []))
      ∧ ∀ (i : Fin 4) (source : RangeSource), fieldAt body 0 1 = i.val →
        fieldAt body 1 1 = (match source with | .none => 0 | .length => 1 | .hour => 2 | .line => 3) →
        (source = .hour → fieldAt body 2 1 ≤ 23 ∧ fieldAt body 3 1 ≤ 23) →
        ∃ t, exec (.rangeWrite p body) s = .next t
          ∧ (∀ j, bankGet t.checkers j
              = if j = i then ⟨source, fieldAt body 2 1, fieldAt body 3 1⟩ else bankGet s.checkers j)
          ∧ t.ports = (s.answers p .ok (bytesOf 1 i.val)).ports
          ∧ t = { s with checkers := t.checkers, ports := t.ports })

/-- R56, R44, Tables 10-8 and 10-9: CLASSIFIER_READ answers the bytes that a write of the same item would carry, and
RANGE_READ the four checkers; neither changes state. -/
def Obligations.ClassifierReadsGiveBackTheItem : Prop :=
  ∀ (s : State) (p : PortId), s.serves p anyRole →
    (∀ body : List Byte, body.length = 1 →
      (65 < fieldAt body 0 1 → exec (.classifierRead p body) s = .next (s.answers p .range []))
      ∧ (∀ i : Fin 64, fieldAt body 0 1 = i.val → (bankGet s.classifier i).action.legal →
          ∃ b, exec (.classifierRead p body) s = .next (s.answers p .ok b) ∧ b.length = 32 ∧ fieldAt b 0 1 = i.val
            ∧ fieldAt b 2 1 < 8 ∧ fieldAt b 9 1 < 8 ∧ (bankGet s.classifier i).carriedBy b ∧ actionInRange b 16)
      ∧ (fieldAt body 0 1 = 64 → s.firstDefault.legal →
          ∃ b, exec (.classifierRead p body) s = .next (s.answers p .ok b) ∧ b.length = 17 ∧ fieldAt b 0 1 = 64
            ∧ s.firstDefault.carriedBy b 1 ∧ actionInRange b 1)
      ∧ (fieldAt body 0 1 = 65 → s.secondDefault.legal →
          ∃ b, exec (.classifierRead p body) s = .next (s.answers p .ok b) ∧ b.length = 17 ∧ fieldAt b 0 1 = 65
            ∧ s.secondDefault.carriedBy b 1 ∧ actionInRange b 1))
    ∧ ∃ b, exec (.rangeRead p []) s = .next (s.answers p .ok b) ∧ b.length = 12
      ∧ ∀ i : Fin 4, fieldAt b (3 * i.val) 1
          = (match (bankGet s.checkers i).source with | .none => 0 | .length => 1 | .hour => 2 | .line => 3)
        ∧ fieldAt b (3 * i.val + 1) 1 = (bankGet s.checkers i).low % 256
        ∧ fieldAt b (3 * i.val + 2) 1 = (bankGet s.checkers i).high % 256

/-- R38 to R43, R46, R49 to R51, R62, R63, Tables 3-1, 3-3, 3-4, 3-7 and 10-8: classification. The text as normalised; the
hits of the range checkers; the twelve fields of the key in their places; an entry matches when every cared bit equals the
key's, the lowest-indexed match wins, and without a match the default's item is the winner; the SECOND lookup with the
FIRST action's chain, unless that action refuses; and the merge field by field. -/
def Obligations.LowestMatchingEntryWins : Prop :=
  (∀ (s : State) (key : BitVec 51) (item : Nat) (default : Action),
    (∀ c : ClassifierEntry, c.matchesKey key = true ↔
      c.valid = true ∧ ∀ b, c.mask.getLsbD b = true → c.value.getLsbD b = key.getLsbD b)
    ∧ ((∀ i, (bankGet s.classifier i).matchesKey key = false) → s.lookup key item default = (item, default))
    ∧ ∀ i : Fin 64, (bankGet s.classifier i).matchesKey key = true →
      (∀ j, j < i → (bankGet s.classifier j).matchesKey key = false) →
      s.lookup key item default = (i.val, (bankGet s.classifier i).action))
  ∧ (∀ (cls : MsgClass) (text : List Byte) (most : Nat) (c : Content),
    most = (match cls with | .tone => 0 | .numeric => 96 | .text => 240) → c = normalise cls text →
    c.text.length = min text.length most ∧ (c.truncated = true ↔ most < text.length)
      ∧ (∀ (i : Nat) (x : Byte), i < most → text[i]? = some x → c.text[i]? = some (if carries cls x then x else 32))
      ∧ (c.substituted = true ↔ ∃ (i : Nat) (x : Byte), i < most ∧ text[i]? = some x ∧ carries cls x = false)
      ∧ ∀ x : Byte, (carries .text x = true ↔ x.toNat < 128)
        ∧ (carries .numeric x = true ↔ 48 ≤ x.toNat ∧ x.toNat ≤ 57 ∨ x.toNat ∈ [32, 45, 46, 42, 35]))
  ∧ (∀ (c : RangeChecker) (length line : Nat) (clock : Clock) (hour : Nat), hour = clock.toNat / 3600 % 24 →
    (c.hits length line (officeHour clock) = true ↔
      match c.source with
      | .none => False
      | .length => c.low ≤ length ∧ length ≤ c.high
      | .line => c.low ≤ line ∧ line ≤ c.high
      | .hour => if c.low ≤ c.high then c.low ≤ hour ∧ hour ≤ c.high else c.low ≤ hour ∨ hour ≤ c.high))
  ∧ (∀ (s : State) (r : ClassifyRequest) (lookup : BitVec 1) (chain : BitVec 6) (k : BitVec 51),
    k = s.keyFor r lookup chain →
    k.extractLsb' 50 1 = lookup ∧ k.extractLsb' 44 6 = chain ∧ (k.extractLsb' 42 2).toNat = r.port.val
      ∧ (k.extractLsb' 34 8).toNat = r.line % 256 ∧ (k.extractLsb' 30 4).toNat = r.entry.plan.val
      ∧ k.extractLsb' 28 2 = (match r.cls with | .tone => 0 | .numeric => 1 | .text => 2)
      ∧ k.extractLsb' 25 3 = (match r.priority with | 0 => 0b000 | 1 => 0b001 | 2 => 0b011 | 3 => 0b111)
      ∧ k.extractLsb' 24 1 = (match r.entry.kind with | .oneWay => 0 | .twoWay => 1)
      ∧ k.extractLsb' 22 2 = (match r.entry.state with | .active => 1 | .suspended _ => 2 | .barred => 3)
      ∧ k.getLsbD 21 = r.entry.low ∧ k.getLsbD 20 = r.entry.exhausted
      ∧ (∀ i : Fin 4,
          k.getLsbD (16 + i.val) = (bankGet s.checkers i).hits r.text.length r.line (officeHour s.clock))
      ∧ k.extractLsb' 0 16 = (match r.cls with
          | .tone => 0
          | .numeric => digitAt r.text 0 ++ digitAt r.text 1 ++ digitAt r.text 2 ++ digitAt r.text 3
          | .text => leadChar r.text 0 ++ leadChar r.text 1)
      ∧ (∀ i, digitAt r.text i = (match r.text[i]? with | some x => digitCode x | none => 15)
          ∧ leadChar r.text i = (match r.text[i]? with | some x => (x.setWidth 7).setWidth 8 | none => 128)))
  ∧ (digitCode 32 = 10 ∧ digitCode 45 = 11 ∧ digitCode 46 = 12 ∧ digitCode 42 = 13 ∧ digitCode 35 = 14
    ∧ ∀ d : Fin 10, digitCode (BitVec.ofNat 8 (48 + d.val)) = BitVec.ofNat 4 d.val)
  ∧ ∀ (s : State) (r : ClassifyRequest) (c : Classification) (a : Action), c = s.classify r → a = c.first.2 →
    c.first = s.lookup (s.keyFor r 0 0) 64 s.firstDefault
      ∧ (∀ i : Fin 4,
          c.hits.getLsbD i.val = (bankGet s.checkers i).hits r.text.length r.line (officeHour s.clock))
      ∧ if a.disposition = .refuse then c.second = none ∧ c.merged.disposition = .refuse a.reason
        else ∃ w b, c.second = some w ∧ w = s.lookup (s.keyFor r 1 a.chain) 65 s.secondDefault ∧ b = w.2
          ∧ c.merged.disposition = (if b.disposition = .refuse then .refuse b.reason
              else if a.disposition = .forward then .forward a.target else .pass)
          ∧ c.merged.priority = (if b.priority.isSome then b.priority else a.priority)
          ∧ c.merged.coverage = (if b.coverage.isSome then b.coverage else a.coverage)
          ∧ c.merged.noFocus = (a.noFocus || b.noFocus)
          ∧ c.merged.life = (if b.life.isSome then b.life else a.life)
          ∧ c.merged.retries = (if b.retries.isSome then b.retries else a.retries)
          ∧ c.merged.plan = (if b.plan.isSome then b.plan else a.plan)

/-- R58: CLASSIFY_PROBE after FORMAT: RANGE, NO_SUBSCRIBER, and the report of the classification that an admission on the
body's port would get, byte by byte; no state changes. The reason and target bytes that the merged disposition does not
have are the model's free values, and that the coverage, the no-focus and the optional fields are sent absent or clear
after a FIRST refusal is read from R49 (log entry 2: DESIGN CHOICE and DEDUCED). -/
def Obligations.ProbeReportsTheClassification : Prop :=
  ∀ (s : State) (p : PortId) (body : List Byte), s.serves p [.intake, .supervisor] →
    7 ≤ body.length → body.length = 7 + fieldAt body 6 1 → fieldAt body 0 1 ≤ 3 →
    (8191 < fieldAt body 1 2 ∨ 2 < fieldAt body 3 1 ∨ 3 < fieldAt body 4 1 →
      exec (.classifyProbe p body) s = .next (s.answers p .range []))
    ∧ (fieldAt body 1 2 ≤ 8191 → fieldAt body 3 1 ≤ 2 → fieldAt body 4 1 ≤ 3 → ∃ r : ProbeReq,
      (r.port.val = fieldAt body 0 1 ∧ r.billed.val = fieldAt body 1 2
        ∧ fieldAt body 3 1 = (match r.cls with | .tone => 0 | .numeric => 1 | .text => 2)
        ∧ r.priority.val = fieldAt body 4 1 ∧ r.line = fieldAt body 5 1 ∧ r.text = body.drop 7)
      ∧ match s.entry r.billed with
        | none => exec (.classifyProbe p body) s = .next (s.answers p .noSubscriber [])
        | some e =>
          ∃ b c, c = s.classify ⟨r.port, r.line, r.cls, r.priority, e, (normalise r.cls r.text).text⟩
            ∧ exec (.classifyProbe p body) s = .next (s.answers p .ok b) ∧ b.length = 19
            ∧ fieldAt b 0 1 = c.hits.toNat ∧ fieldAt b 1 1 = c.first.1
            ∧ fieldAt b 2 1 = (match c.second with | some w => w.1 | none => 255)
            ∧ (match c.merged.disposition with
                | .pass => fieldAt b 3 1 = 0
                | .refuse reason => fieldAt b 3 1 = 1 ∧ fieldAt b 4 1 = reason.toNat
                | .forward t => fieldAt b 3 1 = 2 ∧ fieldAt b 5 2 = t.val)
            ∧ (match c.merged.priority with
                | none => fieldAt b 7 2 = 0
                | some x => fieldAt b 7 1 = 1 ∧ fieldAt b 8 1 = x.val)
            ∧ fieldAt b 9 1 = (c.merged.coverage.getD 0).toNat ∧ fieldAt b 10 1 = (if c.merged.noFocus then 1 else 0)
            ∧ (match c.merged.life with
                | none => fieldAt b 11 3 = 0
                | some x => fieldAt b 11 1 = 1 ∧ fieldAt b 12 2 = x % 65536)
            ∧ (match c.merged.retries with
                | none => fieldAt b 14 2 = 0
                | some x => fieldAt b 14 1 = 1 ∧ fieldAt b 15 1 = x % 256)
            ∧ (match c.merged.plan with
                | none => fieldAt b 16 2 = 0
                | some x => fieldAt b 16 1 = 1 ∧ fieldAt b 17 1 = x.val)
            ∧ fieldAt b 18 1 = 0)

/-! ## Admission -/

/-- R59, R60, R61, R65 to R71, Table 4-1: a SUBMIT is either answered ACCEPTED, or answered with a refusal that changes no
state but the answering port; the body of a refusal is empty but for the reason of CLASSIFIED. Each check of Table 4-1
gives its refusal, in the table's order: FORMAT, RANGE, NO_SUBSCRIBER, CLASSIFIED, FORWARD_INVALID, BARRED, SUSPENDED,
OUTSTANDING, STORE_FULL, JOURNAL_FULL, CONGESTED and CREDIT; a SUBMIT that passes them all is that of
AcceptedSubmitTakesTheSlot. -/
def Obligations.RefusedSubmitChangesNothing : Prop :=
  ∀ (s : State) (p : PortId) (body : List Byte), s.serves p [.intake, .supervisor] →
    (∃ st b t, exec (.submit p body) s = .next t ∧ (t.port p).answer = some ⟨⟨st, b⟩, (s.port p).gap⟩
      ∧ (st ≠ .accepted → t = s.answers p st b ∧ (st ≠ .classified → b = []) ∧ (st = .classified → b.length = 1)))
    ∧ (¬ bodyFormOf 0x30 body → exec (.submit p body) s = .next (s.answers p .format []))
    ∧ (bodyFormOf 0x30 body → 8191 < fieldAt body 0 2 ∨ 2 < fieldAt body 2 1 ∨ 3 < fieldAt body 3 1 →
      exec (.submit p body) s = .next (s.answers p .range []))
    ∧ (bodyFormOf 0x30 body → fieldAt body 0 2 ≤ 8191 → fieldAt body 2 1 ≤ 2 → fieldAt body 3 1 ≤ 3 → ∃ req,
      readSubmit body = some req
      ∧ (req.billed.val = fieldAt body 0 2
        ∧ fieldAt body 2 1 = (match req.cls with | .tone => 0 | .numeric => 1 | .text => 2)
        ∧ req.priority.val = fieldAt body 3 1 ∧ req.life = fieldAt body 4 2 ∧ req.line = fieldAt body 6 1
        ∧ req.text = body.drop 8)
      ∧ (s.entry req.billed = none → exec (.submit p body) s = .next (s.answers p .noSubscriber []))
      ∧ ∀ (billed : Entry) (content : Content) (merged : Merged), s.entry req.billed = some billed →
        content = normalise req.cls req.text →
        merged = (s.classify ⟨p, req.line, req.cls, req.priority, billed, content.text⟩).merged →
        (∀ reason, merged.disposition = .refuse reason →
          exec (.submit p body) s = .next (s.answers p .classified [BitVec.ofNat 8 reason.toNat]))
        ∧ (∀ i, merged.disposition = .forward i → (∀ e, s.entry i = some e → e.state = .barred) →
          exec (.submit p body) s = .next (s.answers p .forwardInvalid []))
        ∧ ∀ (delivery : AccountIndex) (target : Entry) (forwarded : Bool) (a : Admission),
          (merged.disposition = .pass ∧ delivery = req.billed ∧ target = billed ∧ forwarded = false
            ∨ merged.disposition = .forward delivery ∧ s.entry delivery = some target ∧ target.state ≠ .barred
              ∧ forwarded = true) →
          a = s.deriveAdmission req billed content merged delivery target forwarded →
          a.follows s
          ∧ if billed.state = .barred then exec (.submit p body) s = .next (s.answers p .barred [])
            else if billed.state ≠ .active ∧ ¬ (a.priority = 3 ∧ a.plan.emergencyOverride = true) then
              exec (.submit p body) s = .next (s.answers p .suspended [])
            else if billed.outstandingLimit ≤ billed.openCount then
              exec (.submit p body) s = .next (s.answers p .outstanding [])
            else if ∀ slot : SlotId, s.message slot ≠ none then
              exec (.submit p body) s = .next (s.answers p .storeFull [])
            else if 1024 - s.journal.records.length < s.openMessages + 1 then
              exec (.submit p body) s = .next (s.answers p .journalFull [])
            else if a.priority = 0
                ∧ ∃ z : ZoneId, zoneIn z (a.coverage &&& s.upZones) = true ∧ (s.zone z).congested = true then
              exec (.submit p body) s = .next (s.answers p .congested [])
            else if ¬ (a.priority = 3 ∧ a.plan.emergencyOverride = true) ∧ 0 < a.hold
                ∧ billed.balance + billed.creditLimit - billed.held < a.hold then
              exec (.submit p body) s = .next (s.answers p .credit [])
            else s.admissionRefusal a = none)

/-- R64, R65, R70, R72 to R74, R94, R96, R99, Table 4-3: a SUBMIT that passes every check writes the lowest FREE slot field
by field, places the hold on the billed account, places attempt 0, and is answered ACCEPTED; every other message, entry
and account stands. In each zone of attempt 0's coverage that is UP, an entry with the zone's next ready sequence joins the
queue, in which every entry still stands, or stands in the batch that a message of priority 3 has formed there at once; nothing
else of such a zone and, without a batch, of its link changes, but for its congestion test; the other zones stand. -/
def Obligations.AcceptedSubmitTakesTheSlot : Prop :=
  ∀ (s : State) (p : PortId) (body : List Byte) (req : SubmitReq) (billed target : Entry) (content : Content)
    (merged : Merged) (delivery : AccountIndex) (forwarded : Bool) (a : Admission) (slot : SlotId),
    s.serves p [.intake, .supervisor] → bodyFormOf 0x30 body → readSubmit body = some req →
    s.entry req.billed = some billed → content = normalise req.cls req.text →
    merged = (s.classify ⟨p, req.line, req.cls, req.priority, billed, content.text⟩).merged →
    (merged.disposition = .pass ∧ delivery = req.billed ∧ target = billed ∧ forwarded = false
      ∨ merged.disposition = .forward delivery ∧ s.entry delivery = some target ∧ target.state ≠ .barred ∧ forwarded = true) →
    a = s.deriveAdmission req billed content merged delivery target forwarded → s.admissionRefusal a = none →
    s.message slot = none → (∀ j, j < slot → s.message j ≠ none) →
    a.follows s ∧ ∃ t m u, exec (.submit p body) s = .next t ∧ t.message slot = some m
      ∧ m = {
          port := p, line := req.line, billed := req.billed, delivery := delivery, address := target.address
          kind := target.kind, cls := req.cls, priority := a.priority, length := content.text.length
          text := content.text, words := a.words
          life := (match merged.life with
            | none => if req.life = 0 then a.plan.defaultLife else req.life
            | some c => if req.life = 0 then c else min req.life c)
          home := a.home, reach := a.reach, tariff := a.tariff, hold := a.hold, truncated := content.truncated
          substituted := content.substituted, forwarded := forwarded, override := a.override
          noFocus := merged.noFocus, attempts := [⟨0, a.coverage, a.coverage &&& s.upZones, 0, none⟩], closing := none
          retryTimer := none, frozen := false }
      ∧ (∀ j, j ≠ slot → t.message j = s.message j)
      ∧ t.entry req.billed = some { billed with held := billed.held + a.hold, openCount := billed.openCount + 1 }
      ∧ (∀ j, j ≠ req.billed → t.entry j = s.entry j)
      ∧ t = u.answers p .accepted (bytesOf 2 slot.val ++ bytesOf 1 (s.epoch slot).toNat ++ bytesOf 3 a.hold
          ++ bytesOf 1 a.words ++ bytesOf 2 m.life ++ [admissionFlagsByte m])
      ∧ s.places u slot 0 a.words a.priority a.coverage
      ∧ t = { s with
          ports := t.ports, directory := t.directory, messages := t.messages, stalls := t.stalls, zones := t.zones
          links := t.links }

/-! ## Message store -/

/-- R85, R83, R84, R88, R96, R143, R145, R148: CANCEL, its checks after FORMAT in their order, and the whole closing event of
R83 at its end: the entries withdrawn and voided, the settlement with its record and its high-water test, and one congestion
test of each zone whose queue has lost an entry. -/
def Obligations.CancelClosesTheMessage : Prop :=
  ∀ (s : State) (p : PortId) (body : List Byte), s.serves p anyRole → body.length = 3 →
    (511 < fieldAt body 0 2 ∨ 15 < fieldAt body 2 1 → exec (.cancel p body) s = .next (s.answers p .range []))
    ∧ ∀ (slot : SlotId) (e : Epoch), fieldAt body 0 2 = slot.val → fieldAt body 2 1 = e.toNat →
      (s.epoch slot ≠ e ∨ s.message slot = none → exec (.cancel p body) s = .next (s.answers p .noMessage []))
      ∧ ∀ m, s.epoch slot = e → s.message slot = some m →
        if p ≠ m.port ∧ (s.port p).role ≠ .supervisor then exec (.cancel p body) s = .next (s.answers p .role [])
        else
          match m.closing with
          | some c =>
            exec (.cancel p body) s = .next (s.answers p .alreadyClosed (body ++ [outcomeCode c.outcome]))
          | none =>
            ∃ u : State, s.closes u slot m .cancelled 0 ∧ exec (.cancel p body) s
              = .next (u.answers p .ok (body ++ [5] ++ bytesOf 3 m.hold
                ++ bytesOf 3 (if m.attempts.any fun a => a.transmitted.isSome then min m.tariff.failFee m.hold else 0)))

/-- R81, R82, R83: a LIFE_EXPIRY that is due takes the slot's life to 0 and closes the message in the same step: EXPIRED, or
SENT when it is a one-way message whose attempt 0 has been transmitted; expiries come in ascending slot order. That the row
is the slot's share of a one-second step which ten ticks have made due, and that it changes nothing when it is not due, is
the model's choice (log entry 4). -/
def Obligations.LifeExpiryClosesTheMessage : Prop :=
  ∀ (s : State) (slot : SlotId),
    (s.canonical → (s.dueLife = some slot ↔ 10 ≤ s.secondDivider
      ∧ (∃ m, s.message slot = some m ∧ m.closing = none ∧ m.life ≤ 1)
      ∧ ∀ j m, j < slot → s.message j = some m → m.closing = none → 1 < m.life))
    ∧ (s.phase ≠ .working ∨ s.dueLife ≠ some slot → exec (.lifeExpiry slot) s = .next s)
    ∧ ∀ (m : Message) (u : State), s.phase = .working → s.dueLife = some slot → s.message slot = some m →
      m.closing = none → u = s.setMessage slot { m with life := 0 } →
      ∃ t, exec (.lifeExpiry slot) s = .next t
        ∧ u.closes t slot { m with life := 0 }
            (if m.kind = .oneWay ∧ ∃ a ∈ m.attempts, a.number = 0 ∧ a.transmitted.isSome then .sent else .expired) 0

/-- R89, R90, Tables 10-8 and 10-9: FETCH_OUTCOMES takes up to six slots from the front of the asking port's own list, reports
each in a record of 16 bytes, frees them and advances their epochs; every other slot stands; with the outcome codes. -/
def Obligations.FetchOutcomesFreesTheSlots : Prop :=
  List.map outcomeCode [.delivered, .sent, .missed, .expired, .cancelled, .purged] = [1, 2, 3, 4, 5, 6]
  ∧ ∀ (s : State) (p : PortId), s.serves p [.intake, .supervisor] → (s.port p).outcomes.Nodup →
    ∃ t records, exec (.fetchOutcomes p []) s = .next t
      ∧ (∀ slot, slot ∈ (s.port p).outcomes.take 6 → t.message slot = none ∧ t.epoch slot = s.epoch slot + 1)
      ∧ (∀ slot, slot ∉ (s.port p).outcomes.take 6 → t.message slot = s.message slot ∧ t.epoch slot = s.epoch slot)
      ∧ t.ports = ((s.setPort p { s.port p with outcomes := (s.port p).outcomes.drop 6 }).answers p .ok
          (bytesOf 1 (min 6 (s.port p).outcomes.length) ++ bytesOf 2 ((s.port p).outcomes.length - 6) ++ records)).ports
      ∧ ((∀ slot ∈ (s.port p).outcomes, (s.message slot).isSome) →
        records.length = 16 * min 6 (s.port p).outcomes.length
        ∧ ∀ (i : Nat) (slot : SlotId) (m : Message) (c : Closing), i < 6 → (s.port p).outcomes[i]? = some slot →
          s.message slot = some m → m.closing = some c →
          fieldAt records (16 * i) 2 = slot.val ∧ fieldAt records (16 * i + 2) 1 = (s.epoch slot).toNat
            ∧ fieldAt records (16 * i + 3) 1 = (outcomeCode c.outcome).toNat
            ∧ fieldAt records (16 * i + 4) 2 = m.billed.val ∧ fieldAt records (16 * i + 6) 1 = m.line % 256
            ∧ fieldAt records (16 * i + 7) 3 = m.hold % 16777216 ∧ fieldAt records (16 * i + 10) 3 = c.settled % 16777216
            ∧ fieldAt records (16 * i + 13) 1 = m.attempts.length % 256
            ∧ fieldAt records (16 * i + 14) 1 = (match m.lastAttempt with | some a => a.sent.toNat | none => 0)
            ∧ fieldAt records (16 * i + 15) 1 = (if m.truncated then 1 else 0) + (if m.substituted then 2 else 0)
                + (if m.forwarded then 4 else 0) + (if m.override then 8 else 0))
      ∧ t = { s with messages := t.messages, epochs := t.epochs, ports := t.ports }

/-- R77, R80, R91, R142, Tables 10-8 and 10-9: QUERY_MESSAGE, given by a port of any role, and RETRY_STATUS show a live message
as it stands, field by field, and change no state; a slot above 511 or an epoch above 15 is answered RANGE, and an id that is
not live NO_MESSAGE; with the codes of slot state and class, and the slot state that follows from the slot and the batches in
flight. -/
def Obligations.MessageReadsShowTheSlot : Prop :=
  List.map slotStateCode [.free, .queued, .onAir, .wait, .stalled, .closed] = [0, 1, 2, 3, 4, 5]
  ∧ List.map classCode [.tone, .numeric, .text] = [0, 1, 2]
  ∧ ∀ (s : State) (p : PortId) (body : List Byte), body.length = 3 →
    (s.serves p anyRole →
      (511 < fieldAt body 0 2 ∨ 15 < fieldAt body 2 1 → exec (.queryMessage p body) s = .next (s.answers p .range []))
      ∧ ∀ (slot : SlotId) (e : Epoch), fieldAt body 0 2 = slot.val → fieldAt body 2 1 = e.toNat →
        (s.epoch slot ≠ e ∨ s.message slot = none → exec (.queryMessage p body) s = .next (s.answers p .noMessage []))
        ∧ ∀ m, s.epoch slot = e → s.message slot = some m →
          ∃ b, exec (.queryMessage p body) s = .next (s.answers p .ok b) ∧ b.length = 48 + 9 * m.attempts.length
          ∧ fieldAt b 0 1 = (slotStateCode (s.slotState slot)).toNat
          ∧ fieldAt b 1 1 = (match m.closing with | some c => (outcomeCode c.outcome).toNat | none => 0)
          ∧ fieldAt b 2 3 = (match m.closing with | some c => c.settled % 16777216 | none => 0)
          ∧ fieldAt b 5 1 = m.port.val ∧ fieldAt b 6 1 = m.line % 256 ∧ fieldAt b 7 2 = m.billed.val
          ∧ fieldAt b 9 2 = m.delivery.val ∧ fieldAt b 11 3 = m.address.toNat
          ∧ fieldAt b 14 1 = (pagerKindCode m.kind).toNat ∧ fieldAt b 15 1 = (classCode m.cls).toNat
          ∧ fieldAt b 16 1 = m.priority.val ∧ fieldAt b 17 1 = m.length % 256 ∧ fieldAt b 18 1 = m.words % 256
          ∧ fieldAt b 19 2 = m.life % 65536 ∧ fieldAt b 21 1 = m.home.toNat ∧ fieldAt b 22 1 = m.reach.toNat
          ∧ fieldAt b 23 2 = m.tariff.classBase % 65536 ∧ fieldAt b 25 2 = m.tariff.wordRate % 65536
          ∧ fieldAt b 27 2 = m.tariff.zoneRate % 65536 ∧ fieldAt b 29 1 = m.tariff.multiplier % 256
          ∧ fieldAt b 30 2 = m.tariff.retryFee % 65536 ∧ fieldAt b 32 2 = m.tariff.failFee % 65536
          ∧ fieldAt b 34 3 = m.tariff.cap % 16777216 ∧ fieldAt b 37 1 = m.tariff.retryCount % 256
          ∧ fieldAt b 38 1 = m.tariff.retryBase % 256 ∧ fieldAt b 39 2 = m.tariff.retryCeiling % 65536
          ∧ fieldAt b 41 2 = m.tariff.focusAge % 65536
          ∧ fieldAt b 43 3 = m.hold % 16777216
          ∧ fieldAt b 46 1 = (if m.truncated then 1 else 0) + (if m.substituted then 2 else 0)
              + (if m.forwarded then 4 else 0) + (if m.override then 8 else 0) + (if m.noFocus then 16 else 0)
          ∧ fieldAt b 47 1 = m.attempts.length % 256
          ∧ ∀ (i : Nat) (a : Attempt), m.attempts[i]? = some a →
            fieldAt b (48 + 9 * i) 1 = a.number % 256 ∧ fieldAt b (49 + 9 * i) 1 = a.requested.toNat
              ∧ fieldAt b (50 + 9 * i) 1 = a.pending.toNat ∧ fieldAt b (51 + 9 * i) 1 = a.sent.toNat
              ∧ fieldAt b (52 + 9 * i) 1 = (if a.transmitted.isSome then 1 else 0)
              ∧ fieldAt b (53 + 9 * i) 4 = (match a.transmitted with | some c => c.toNat | none => 0))
    ∧ (s.serves p [.intake, .dispatch, .supervisor] →
      (511 < fieldAt body 0 2 ∨ 15 < fieldAt body 2 1 → exec (.retryStatus p body) s = .next (s.answers p .range []))
      ∧ ∀ (slot : SlotId) (e : Epoch), fieldAt body 0 2 = slot.val → fieldAt body 2 1 = e.toNat →
        (s.epoch slot ≠ e ∨ s.message slot = none → exec (.retryStatus p body) s = .next (s.answers p .noMessage []))
        ∧ ∀ m, s.epoch slot = e → s.message slot = some m →
          ∃ b, exec (.retryStatus p body) s = .next (s.answers p .ok b) ∧ b.length = 7
          ∧ fieldAt b 0 1 = (slotStateCode (s.slotState slot)).toNat ∧ fieldAt b 1 1 = m.currentAttempt % 256
          ∧ fieldAt b 2 2 = (match m.retryTimer with
              | some n => if s.slotState slot = .wait then n % 65536 else 65535
              | none => 65535)
          ∧ fieldAt b 4 1 = (if m.frozen then 1 else 0)
          ∧ fieldAt b 5 1 = (match m.lastAttempt with | some a => a.sent.toNat | none => 0)
          ∧ fieldAt b 6 1 = (if m.closing = none ∧ m.currentAttempt < m.tariff.retryCount then
                (if m.kind = .twoWay ∧ m.currentAttempt = 0 then m.home.toNat else m.reach.toNat) else 0))
    ∧ (∀ slot, s.message slot = none → s.slotState slot = .free)
    ∧ ∀ (slot : SlotId) (m : Message) (a : Attempt), s.message slot = some m → m.lastAttempt = some a →
      (m.closing.isSome → s.slotState slot = .closed)
      ∧ (m.closing = none → a.pending ≠ 0 →
        (s.slotState slot = .onAir ∨ s.slotState slot = .queued)
        ∧ (s.slotState slot = .onAir ↔ ∃ (z : ZoneId) (b : Batch) (be : BatchEntry), zoneIn z a.pending = true
          ∧ (s.zone z).inFlight = some b ∧ be ∈ b.entries ∧ be.void = false ∧ be.entry.slot = slot
          ∧ be.entry.epoch = s.epoch slot))
      ∧ (m.closing = none → a.pending = 0 → s.slotState slot = if a.sent = 0 then .stalled else .wait)

/-! ## Zone dispatcher -/

/-- R97, R110, Tables 6-3 and 10-9: ZONE_CONFIG replaces the settings written of one zone and nothing else, or is answered
RANGE; READ_ZONE shows a zone field by field and changes no state. -/
def Obligations.ZoneConfigAndReadZone : Prop :=
  ∀ (s : State) (p : PortId) (body : List Byte),
    (s.serves p [.dispatch, .supervisor] → body.length = 13 →
      (7 < fieldAt body 0 1 ∨ fieldAt body 1 1 = 0 ∨ 60 < fieldAt body 1 1 ∨ fieldAt body 6 2 < 10 ∨ 600 < fieldAt body 6 2
          ∨ fieldAt body 8 1 % 8 = 0 ∨ fieldAt body 9 2 < 96 ∨ 2048 < fieldAt body 9 2 →
        exec (.zoneConfig p body) s = .next (s.answers p .range []))
      ∧ ∀ (z : ZoneId) (x : ZoneSettings), fieldAt body 0 1 = z.val → 1 ≤ fieldAt body 1 1 → fieldAt body 1 1 ≤ 60 →
        10 ≤ fieldAt body 6 2 → fieldAt body 6 2 ≤ 600 → fieldAt body 8 1 % 8 ≠ 0 → 96 ≤ fieldAt body 9 2 →
        fieldAt body 9 2 ≤ 2048 →
        x = ⟨⟨fieldAt body 1 1, fieldAt body 2 2, fieldAt body 4 2, fieldAt body 6 2⟩, BitVec.ofNat 3 (fieldAt body 8 1),
          fieldAt body 9 2, fieldAt body 11 2⟩ →
        exec (.zoneConfig p body) s
          = .next ((s.setZone z { s.zone z with written := x }).answers p .ok (bytesOf 1 z.val)))
    ∧ (s.serves p anyRole → body.length = 1 →
      (7 < fieldAt body 0 1 → exec (.readZone p body) s = .next (s.answers p .range []))
      ∧ ∀ z : ZoneId, fieldAt body 0 1 = z.val →
        ∃ b, exec (.readZone p body) s = .next (s.answers p .ok b) ∧ b.length = 51
          ∧ fieldAt b 0 2 = (s.zone z).queue.length % 65536
          ∧ fieldAt b 2 2 = ((s.zone z).queue.map QueueEntry.words).sum % 65536
          ∧ fieldAt b 4 1 = (if (s.zone z).congested then 1 else 0)
          ∧ (match (s.zone z).queue with
              | [] => fieldAt b 5 5 = 0
              | q :: _ => fieldAt b 5 1 = q.priority.val ∧ fieldAt b 6 4 = q.seq.toNat)
          ∧ fieldAt b 10 4 = (s.zone z).nextSeq.toNat ∧ fieldAt b 14 1 = (s.zone z).nextBatch.toNat
          ∧ (match (s.zone z).inFlight with
              | none => fieldAt b 15 14 = 0
              | some x => fieldAt b 15 1 = 1 ∧ fieldAt b 16 1 = x.number.toNat ∧ fieldAt b 17 2 = x.capacity % 65536
                  ∧ fieldAt b 19 2 = rateBits x.rate ∧ fieldAt b 21 2 = x.entries.length % 65536
                  ∧ fieldAt b 23 2 = (x.entries.filter BatchEntry.void).length % 65536
                  ∧ fieldAt b 25 2 = x.totalWords % 65536 ∧ fieldAt b 27 2 = x.deadline % 65536)
          ∧ fieldAt b 29 2 = (s.zone z).batchTimer % 65536
          ∧ fieldAt b 31 1 = (s.zone z).written.dispatch.period % 256
          ∧ fieldAt b 32 2 = (s.zone z).written.dispatch.threshold % 65536
          ∧ fieldAt b 34 2 = (s.zone z).written.dispatch.hysteresis % 65536
          ∧ fieldAt b 36 2 = (s.zone z).written.dispatch.margin % 65536
          ∧ fieldAt b 38 1 = (s.zone z).written.rates.toNat ∧ fieldAt b 39 2 = (s.zone z).written.capacity % 65536
          ∧ fieldAt b 41 2 = (s.zone z).written.identity % 65536
          ∧ fieldAt b 43 1 = (s.zone z).force.period % 256 ∧ fieldAt b 44 2 = (s.zone z).force.threshold % 65536
          ∧ fieldAt b 46 2 = (s.zone z).force.hysteresis % 65536 ∧ fieldAt b 48 2 = (s.zone z).force.margin % 65536
          ∧ fieldAt b 50 1 = (if s.airHold then 1 else 0))

/-- R96, R99, R109, R135: AIR_HOLD puts the hold in force and freezes the timers of the slots in WAIT; AIR_RELEASE releases it,
clears every frozen flag and attempts a formation where a priority-3 entry is first, and each zone in which a batch has been
formed is tested for congestion; a command that finds the hold as it asks for changes nothing. -/
def Obligations.AirHoldAndRelease : Prop :=
  ∀ (s : State) (p : PortId), s.serves p [.dispatch, .supervisor] →
    (s.airHold = true → exec (.airHold p []) s = .next (s.answers p .ok [1]))
    ∧ (s.airHold = false → exec (.airRelease p []) s = .next (s.answers p .ok [0]))
    ∧ (s.airHold = false → ∃ t, exec (.airHold p []) s = .next t ∧ t.airHold = true
      ∧ (∀ slot, t.message slot = (s.message slot).map fun m =>
          if s.slotState slot = .wait then { m with frozen := true } else m)
      ∧ t.ports = (s.answers p .ok [0]).ports
      ∧ t = { s with airHold := t.airHold, messages := t.messages, ports := t.ports })
    ∧ (s.airHold = true → ∃ t, exec (.airRelease p []) s = .next (t.answers p .ok [1]) ∧ t.airHold = false
      ∧ (∀ slot, t.message slot = (s.message slot).map fun m => { m with frozen := false })
      ∧ (∀ z, (∀ q rest, (s.zone z).queue = q :: rest → q.priority ≠ 3) ∨ (s.link z).state ≠ .up ∨ (s.link z).profile = none
          ∨ (s.zone z).inFlight ≠ none → t.zone z = s.zone z ∧ t.link z = s.link z)
      ∧ (∀ z pr q rest, (s.zone z).queue = q :: rest → q.priority = 3 → (s.link z).state = .up →
          (s.link z).profile = some pr → (s.zone z).inFlight = none →
          t.zone z = { (s.zone z).formed pr with congested := (t.zone z).congested }
            ∧ t.link z = (s.link z).sendAll ((s.zone z).stream pr s.airWords))
      ∧ (∃ changed, s.tests t changed [] ∧ ∀ z, zoneIn z changed = true ↔ (t.zone z).inFlight ≠ (s.zone z).inFlight)
      ∧ t = { s with
          airHold := t.airHold, messages := t.messages, ports := t.ports, zones := t.zones, links := t.links })

/-- R100: the walk of a formation: each entry in its turn is taken when the remainder is at least 2 and its W is at most the
remainder, and only then; what is taken fits the room and keeps queue order, what is passed over keeps its place, and
nothing is lost. -/
def Obligations.TheWalkFillsTheBatch : Prop :=
  ∀ (room : Nat) (queue : List QueueEntry),
    ((walk room queue).1.map QueueEntry.words).sum ≤ room
    ∧ (walk room queue).1.Sublist queue ∧ (walk room queue).2.Sublist queue
    ∧ List.Perm ((walk room queue).1 ++ (walk room queue).2) queue
    ∧ (∀ q rest, queue = q :: rest → 2 ≤ room → q.words ≤ room → (walk room queue).1.head? = some q)
    ∧ ∀ (before after : List QueueEntry) (q : QueueEntry) (remainder : Nat), queue = before ++ q :: after →
      remainder = room - ((walk room before).1.map QueueEntry.words).sum →
      if 2 ≤ remainder ∧ q.words ≤ remainder then
        walk room queue = ((walk room before).1 ++ q :: (walk (remainder - q.words) after).1,
          (walk room before).2 ++ (walk (remainder - q.words) after).2)
      else
        walk room queue = ((walk room before).1 ++ (walk remainder after).1,
          (walk room before).2 ++ q :: (walk remainder after).2)

/-- R96, R98, R99, R101, R102, R115, R122, Table 7-4: a due BATCH_TIMER_EXPIRY forms a batch when the link is UP, the air hold
is not in force, no batch is in flight and the queue is not empty, queues the batch's stream on the link, reloads the timer
with the period in force after it, and tests the zone for congestion by the settings then in force; otherwise it only reloads
the timer. The air words of an entry, bit by bit: the address word, the tag word, and the payload words of the class; the
stream of a batch: BATCH_OPEN, its words in bodies of 32, the last holding the remainder, and BATCH_CLOSE; and blocks queued
on a link follow one another, the first on the line when nothing is. That a timer at 0 stands for an expiry that is due is the
model's choice (log entry 4). -/
def Obligations.BatchTimerExpiryFormsABatch : Prop :=
  (∀ (s : State) (q : QueueEntry) (m : Message), s.message q.slot = some m →
    ∃ (address tag : AirWord) (payload : List AirWord), s.airWords q = address :: tag :: payload
      ∧ (address.extractLsb' 10 22 = m.address
        ∧ address.extractLsb' 8 2 = (match m.cls with | .tone => 0 | .numeric => 1 | .text => 2)
        ∧ (address.extractLsb' 6 2).toNat = m.priority.val ∧ address.extractLsb' 0 6 = 0)
      ∧ ((tag.extractLsb' 23 9).toNat = q.slot.val ∧ tag.extractLsb' 19 4 = q.epoch
        ∧ (tag.extractLsb' 16 3).toNat = q.attempt % 8 ∧ (tag.extractLsb' 9 7).toNat = (m.words - 2) % 128
        ∧ tag.extractLsb' 0 9 = 0)
      ∧ payload.length = (if m.cls = .tone then 0 else m.words - 2)
      ∧ ∀ (i : Nat) (w : AirWord), payload[i]? = some w →
        (m.cls = .numeric → w.extractLsb' 24 8 = 0 ∧ ∀ j, j < 6 →
          w.extractLsb' (20 - 4 * j) 4 = (match m.text[6 * i + j]? with | some c => digitCode c | none => 15))
        ∧ (m.cls = .text → w.extractLsb' 21 11 = 0 ∧ ∀ j, j < 3 →
          w.extractLsb' (14 - 7 * j) 7 = (match m.text[3 * i + j]? with | some c => c.setWidth 7 | none => 0)))
  ∧ (∀ (number : BitVec 8) (total : Nat) (words : List AirWord), ∃ bodies : List (List AirWord),
    batchStream number total words = .batchOpen number total :: bodies.map OutBlock.batchWords ++ [.batchClose number]
      ∧ bodies.flatten = words ∧ (∀ b ∈ bodies.dropLast, b.length = 32) ∧ ∀ b ∈ bodies, 1 ≤ b.length ∧ b.length ≤ 32)
  ∧ (∀ b : OutBlock, b.isStream = true ↔
    (∃ n w, b = .batchOpen n w) ∨ (∃ ws, b = .batchWords ws) ∨ ∃ n, b = .batchClose n)
  ∧ (∀ (x : Link) (blocks : List OutBlock),
    (x.onLine.isSome → x.sendAll blocks = { x with txQueue := x.txQueue ++ blocks })
    ∧ ∀ b rest, x.onLine = none → blocks = b :: rest →
      x.sendAll blocks = { x with onLine := some b, txQueue := x.txQueue ++ rest })
  ∧ ∀ (s : State) (z : ZoneId), s.phase = .working → (s.zone z).batchTimer = 0 →
    (((s.link z).state ≠ .up ∨ s.airHold = true ∨ (s.zone z).inFlight ≠ none ∨ (s.zone z).queue = []) →
      exec (.batchTimerExpiry z) s
        = .next (s.setZone z { s.zone z with batchTimer := 10 * (s.zone z).force.period }))
    ∧ ∀ pr, (s.link z).state = .up → s.airHold = false → (s.zone z).inFlight = none → (s.zone z).queue ≠ [] →
      (s.link z).profile = some pr →
      ∃ t b, exec (.batchTimerExpiry z) s = .next t ∧ (t.zone z).inFlight = some b
        ∧ b.number = (s.zone z).nextBatch ∧ b.capacity = pr.capacity ∧ b.rate = pr.rate
        ∧ b.entries = (walk pr.capacity (s.zone z).queue).1.map (fun q => ⟨q, false⟩)
        ∧ b.totalWords = ((walk pr.capacity (s.zone z).queue).1.map QueueEntry.words).sum
        ∧ b.deadline = (b.totalWords * 320 + (rateBits pr.rate - 1)) / rateBits pr.rate + (s.zone z).written.dispatch.margin
        ∧ (t.zone z).queue = (walk pr.capacity (s.zone z).queue).2
        ∧ (t.zone z).nextBatch = (s.zone z).nextBatch + 1 ∧ (t.zone z).nextSeq = (s.zone z).nextSeq
        ∧ (t.zone z).force = (s.zone z).written.dispatch ∧ (t.zone z).written = (s.zone z).written
        ∧ (t.zone z).batchTimer = 10 * (s.zone z).written.dispatch.period
        ∧ t.link z = (s.link z).sendAll
            (batchStream b.number b.totalWords ((walk pr.capacity (s.zone z).queue).1.flatMap s.airWords))
        ∧ s.tests t (zoneSingle z) []
        ∧ (∀ y, y ≠ z → t.zone y = s.zone y ∧ t.link y = s.link y)
        ∧ t = { s with ports := t.ports, zones := t.zones, links := t.links }

/-- R83, R96, R99, R103, R104, R121, R122, R133, R143: a BATCH_ACCEPT of the batch in flight, taken in UP or in EXCHANGE. The
batch leaves flight and the unsent blocks of its stream are dropped; its entries are handled one by one in walk order: each
live entry is credited, the zone leaves the pending set and joins the sent set, the transmitted time is set with the first, and
an attempt whose last pending zone has left is complete: its slot waits, frozen while the air hold is in force, or closes SENT
with its settlement, its record and its place on the outcome list. Then a batch is formed when a priority-3 entry is first in
the queue, and each zone whose queue has changed is tested for congestion. -/
def Obligations.BatchAcceptCreditsTheEntries : Prop :=
  ∀ (s : State) (z : ZoneId) (b : Batch), (s.link z).state = .up ∨ (s.link z).state = .exchange →
    (s.zone z).inFlight = some b →
    ∃ t, exec (.batchAccept z [b.number]) s = .next t
      ∧ (∃ (u v w : State) (changed : ZoneSet),
        u = (s.setZone z { s.zone z with inFlight := none }).setLink z { s.link z with
          received := none, silenceTimer := if (s.link z).state = .up then some 40 else (s.link z).silenceTimer
          txQueue := (s.link z).txQueue.filter fun x => !x.isStream }
        ∧ oneByOne (State.credits z) b.entries u v
        ∧ (∀ pr q rest, (v.zone z).queue = q :: rest → q.priority = 3 → (s.link z).state = .up → s.airHold = false →
            (s.link z).profile = some pr → v.forms w z pr)
        ∧ ((∀ q rest, (v.zone z).queue = q :: rest → q.priority ≠ 3) ∨ (s.link z).state ≠ .up ∨ s.airHold = true → w = v)
        ∧ w.tested t changed
        ∧ ∀ y, zoneIn y changed = true ↔
            (w.zone y).queue ≠ (u.zone y).queue ∨ (w.zone y).inFlight ≠ (v.zone y).inFlight)
      ∧ (∀ slot, (∀ be ∈ b.entries, be.entry.slot ≠ slot) → t.message slot = s.message slot)
      ∧ ((b.entries.map fun be => be.entry.slot).Nodup → ∀ be ∈ b.entries, ∀ m a, be.void = false →
          s.liveEntry be.entry = some (m, a) → zoneIn z a.pending = true →
          ∃ m' a', t.message be.entry.slot = some m' ∧ m'.lastAttempt = some a' ∧ a'.number = a.number
            ∧ a'.pending = zoneRemove z a.pending ∧ a'.sent = zoneInsert z a.sent
            ∧ a'.transmitted = (if a.sent = 0 then some s.clock else a.transmitted)
            ∧ (zoneRemove z a.pending ≠ 0 → m'.closing = none ∧ m'.retryTimer = m.retryTimer)
            ∧ (zoneRemove z a.pending = 0 → m.kind = .twoWay → m'.closing = none ∧ m'.frozen = s.airHold ∧
                m'.retryTimer = some (min (m.tariff.retryBase * 2 ^ a.number) m.tariff.retryCeiling))
            ∧ (zoneRemove z a.pending = 0 → m.kind = .oneWay → a.number < m.tariff.retryCount → m'.closing = none
                ∧ m'.frozen = s.airHold ∧ m'.retryTimer = some (min m.tariff.retryBase m.tariff.retryCeiling))
            ∧ (zoneRemove z a.pending = 0 → m.kind = .oneWay → m.tariff.retryCount ≤ a.number →
                ∃ c, m'.closing = some c ∧ c.outcome = .sent))
      ∧ ((∀ q ∈ (s.zone z).queue, q.priority ≠ 3) → (t.zone z).inFlight = none)
      ∧ t = { s with
          ports := t.ports, directory := t.directory, messages := t.messages, stalls := t.stalls, zones := t.zones
          links := t.links, journal := t.journal }

/-- R94, R96, R105, R103, R121, R122: a BATCH_REFUSE of the batch in flight, taken in UP or in EXCHANGE, returns its live
entries to the queue, in queue order, with the sequence they had, and the zone is tested for congestion when an entry has
returned; the unsent blocks of the batch's stream are dropped and, in UP, the silence timer is reloaded; no message and nothing
else of the zone and its link changes, and no formation is attempted. A batch answer with another number, or with no batch in flight, is ignored; only
the silence timer of a link in UP is reloaded. -/
def Obligations.RefusedAndStrayBatchAnswers : Prop :=
  ∀ (s : State) (z : ZoneId), (s.link z).state = .up ∨ (s.link z).state = .exchange →
    (∀ (b : Batch) (back : List QueueEntry), (s.zone z).inFlight = some b →
      back = (b.entries.filter fun be => !be.void && (s.liveEntry be.entry).isSome).map BatchEntry.entry →
      ∃ t, exec (.batchRefuse z [b.number]) s = .next t ∧ (t.zone z).inFlight = none
        ∧ List.Perm (t.zone z).queue ((s.zone z).queue ++ back) ∧ (s.queuesOrdered → t.queuesOrdered)
        ∧ t.zone z = { s.zone z with
            inFlight := none, queue := (t.zone z).queue, congested := (t.zone z).congested }
        ∧ t.link z = { s.link z with
            received := none, silenceTimer := if (s.link z).state = .up then some 40 else (s.link z).silenceTimer
            txQueue := (s.link z).txQueue.filter fun x => !x.isStream }
        ∧ s.tests t (if back = [] then 0 else zoneSingle z) []
        ∧ (∀ y, y ≠ z → t.zone y = s.zone y ∧ t.link y = s.link y)
        ∧ t = { s with ports := t.ports, zones := t.zones, links := t.links })
    ∧ ∀ n : BitVec 8, (∀ b, (s.zone z).inFlight = some b → b.number ≠ n) →
      ∀ t, t = s.setLink z { s.link z with
          received := none, silenceTimer := if (s.link z).state = .up then some 40 else (s.link z).silenceTimer } →
        exec (.batchAccept z [n]) s = .next t ∧ exec (.batchRefuse z [n]) s = .next t

/-! ## Zone links -/

/-- R116, R117, R126: LINK_ENABLE and LINK_RESTART by the link's state, with their responses; LINK_RESTART and "off" in UP leave
UP with cause RESTART as LeavingUpEmptiesTheZone states (R107, R124). That the block on the line has gone and the line is back
at SLOW right after an entry to OFF or FAILED is read from R112, which names the next byte boundary (log entry 7, DEDUCED). -/
def Obligations.LinkEnableAndRestartByState : Prop :=
  ∀ (s : State) (p : PortId) (body : List Byte), s.serves p [.dispatch, .supervisor] →
    (body.length = 2 →
      (7 < fieldAt body 0 1 ∨ 1 < fieldAt body 1 1 → exec (.linkEnable p body) s = .next (s.answers p .range []))
      ∧ ∀ z : ZoneId, fieldAt body 0 1 = z.val →
        (fieldAt body 1 1 = 1 → (s.link z).state = .off → (s.link z).onLine = none →
          exec (.linkEnable p body) s = .next
            ((s.setLink z { s.link z with
                state := .hunt, huntTimer := some 5, exchangeTimer := none, silenceTimer := none, idleTimer := none
                holdOffTimer := none
                onLine := some (.capBase (s.zone z).written.rates (s.zone z).written.capacity
                  (decide ((s.zone z).written.identity ≠ 0))) }).answers p .ok (bytesOf 1 z.val ++ [1])))
        ∧ (fieldAt body 1 1 = 1 → (s.link z).state ≠ .off →
          exec (.linkEnable p body) s = .next (s.answers p .ok (bytesOf 1 z.val ++ [linkStateCode (s.link z).state])))
        ∧ (fieldAt body 1 1 = 0 → (s.link z).state = .off →
          exec (.linkEnable p body) s = .next (s.answers p .ok (bytesOf 1 z.val ++ [0])))
        ∧ (fieldAt body 1 1 = 0 → (s.link z).state ≠ .off → (s.link z).state ≠ .up →
          exec (.linkEnable p body) s = .next
            ((s.setLink z { (s.link z).quiet with state := .off, basePage := none, received := none }).answers p .ok
              (bytesOf 1 z.val ++ [0])))
        ∧ (fieldAt body 1 1 = 0 → (s.link z).state = .up →
          ∃ u : State, exec (.linkEnable p body) s = .next (u.answers p .ok (bytesOf 1 z.val ++ [0]))
            ∧ s.leftUp u z .restart ∧ s.clearedOnLoss u z
            ∧ u.link z = { (s.link z).quiet with
                state := .off, downCause := some .restart, basePage := none, received := none }))
    ∧ (body.length = 1 →
      (7 < fieldAt body 0 1 → exec (.linkRestart p body) s = .next (s.answers p .range []))
      ∧ ∀ z : ZoneId, fieldAt body 0 1 = z.val →
        ((s.link z).state = .hunt ∨ (s.link z).state = .exchange →
          exec (.linkRestart p body) s = .next
            ((s.setLink z { (s.link z).quiet with
                state := .failed, downCause := some .restart, holdOffTimer := some 20, basePage := none }).answers p .ok
              (bytesOf 1 z.val ++ [4])))
        ∧ ((s.link z).state = .failed →
          exec (.linkRestart p body) s = .next
            ((s.setLink z { s.link z with downCause := some .restart, holdOffTimer := some 20 }).answers p .ok
              (bytesOf 1 z.val ++ [4])))
        ∧ ((s.link z).state = .off →
          exec (.linkRestart p body) s = .next (s.answers p .ok (bytesOf 1 z.val ++ [0])))
        ∧ ((s.link z).state = .up →
          ∃ u : State, exec (.linkRestart p body) s = .next (u.answers p .ok (bytesOf 1 z.val ++ [4]))
            ∧ s.leftUp u z .restart ∧ s.clearedOnLoss u z
            ∧ u.link z = { (s.link z).quiet with
                state := .failed, downCause := some .restart, holdOffTimer := some 20, basePage := none }))

/-- R96, R107, R124, R125: every departure from UP into FAILED or OFF: the cause recorded, LINK_DOWN posted, the line cut, the
zone emptied, each slot of the zone handled by its other pending zones and its sent zones, the congested flag cleared, the
profile and the error count kept; LINK_RESTART and "off" are answered with the zone and the state entered (R116, R126). That a
timer at 0 stands for an expiry that is due is the model's choice (log entry 4); that the line is idle and at SLOW right after
the event is read from R112, which names the next byte boundary (log entry 7, DEDUCED). -/
def Obligations.LeavingUpEmptiesTheZone : Prop :=
  ∀ (s : State) (z : ZoneId) (p : PortId), s.phase = .working → (s.link z).state = .up →
    (s.serves p [.dispatch, .supervisor] →
      ∃ t, exec (.linkRestart p (bytesOf 1 z.val)) s = .next (t.answers p .ok (bytesOf 1 z.val ++ [4]))
        ∧ s.leftUp t z .restart ∧ s.clearedOnLoss t z
        ∧ t.link z = { (s.link z).quiet with
            state := .failed, downCause := some .restart, holdOffTimer := some 20, basePage := none })
    ∧ (s.serves p [.dispatch, .supervisor] →
      ∃ t, exec (.linkEnable p (bytesOf 1 z.val ++ [0])) s = .next (t.answers p .ok (bytesOf 1 z.val ++ [0]))
        ∧ s.leftUp t z .restart ∧ s.clearedOnLoss t z
        ∧ t.link z = { (s.link z).quiet with state := .off, downCause := some .restart, basePage := none, received := none })
    ∧ (∀ b, (s.zone z).inFlight = some b → b.deadline = 0 →
      ∃ t, exec (.acceptDeadlineExpiry z) s = .next t ∧ s.leftUp t z .noAccept ∧ s.clearedOnLoss t z
        ∧ t.link z = { (s.link z).quiet with
            state := .failed, downCause := some .noAccept, holdOffTimer := some 20, basePage := none })
    ∧ ((s.link z).silenceTimer = some 0 →
      ∃ t, exec (.silenceTimerExpiry z) s = .next t ∧ s.leftUp t z .silence ∧ s.clearedOnLoss t z
        ∧ t.link z = { (s.link z).quiet with
            state := .failed, downCause := some .silence, holdOffTimer := some 20, basePage := none })
    ∧ ∃ t, exec (.siteStatus z [2]) s = .next t ∧ s.leftUp t z .remote ∧ s.clearedOnLoss t z
        ∧ t.link z = { (s.link z).quiet with
            state := .failed, downCause := some .remote, holdOffTimer := some 20, basePage := none, received := none }

/-- R112, R113, R117, R118, R122, R123, R125, Tables 7-2 and 7-3: the expiries of the hunt, exchange, idle and hold-off
timers; a block that leaves the line is followed by the next queued one, the idle timer is reloaded in UP, and the line takes
the negotiated rate after the last block queued before the change; and what the line carries: 1 with the clock stopped in
OFF, the fill byte 0xFF between blocks, and a block from its sync byte to its CRC, each byte most significant bit first. That
a timer at 0 stands for an expiry that is due is the model's choice (log entry 4); that the line is idle and at SLOW right
after the exchange expiry is read from R112 (log entry 7, DEDUCED); that the idle timer stays at 0 until the IDLE has left
the line, and that the expiry sends nothing while an IDLE or a stream waits, is read from R122 and R123 (log entry 15,
DEDUCED). -/
def Obligations.LinkTimersAndTheLine : Prop :=
  (∀ (s : State) (z : ZoneId),
    (s.phase = .working →
      ((s.link z).state = .hunt → (s.link z).huntTimer = some 0 →
        exec (.huntTimerExpiry z) s = .next (s.setLink z
          { (s.link z).send (.capBase (s.zone z).written.rates (s.zone z).written.capacity
              (decide ((s.zone z).written.identity ≠ 0))) with huntTimer := some 5 }))
      ∧ ((s.link z).state = .exchange → (s.link z).exchangeTimer = some 0 →
        exec (.exchangeTimerExpiry z) s = .next (s.setLink z { (s.link z).quiet with
          state := .failed, downCause := some .timeout, holdOffTimer := some 20, basePage := none }))
      ∧ ((s.link z).state = .up → (s.link z).idleTimer = some 0 →
        ((∃ b, ((s.link z).onLine = some b ∨ b ∈ (s.link z).txQueue) ∧ (b = .idle ∨ b.isStream = true)) →
          exec (.idleTimerExpiry z) s = .next s)
        ∧ ((∀ b, (s.link z).onLine = some b ∨ b ∈ (s.link z).txQueue → b ≠ .idle ∧ b.isStream = false) →
          exec (.idleTimerExpiry z) s = .next (s.setLink z
            (if (s.link z).onLine = none then { s.link z with onLine := some .idle }
            else { s.link z with txQueue := (s.link z).txQueue ++ [.idle] }))))
      ∧ ((s.link z).state = .failed → (s.link z).holdOffTimer = some 0 → (s.link z).onLine = none →
        exec (.holdOffTimerExpiry z) s = .next (s.setLink z { s.link z with
          state := .hunt, huntTimer := some 5, exchangeTimer := none, silenceTimer := none, idleTimer := none
          holdOffTimer := none
          onLine := some (.capBase (s.zone z).written.rates (s.zone z).written.capacity
            (decide ((s.zone z).written.identity ≠ 0))) })))
    ∧ ∀ b : OutBlock, (s.link z).onLine = some b →
      ∃ t, exec (.linkBlockSent z) s = .next t ∧ t = s.setLink z (t.link z)
        ∧ (t.link z).onLine = (s.link z).txQueue.head? ∧ (t.link z).txQueue = (s.link z).txQueue.tail
        ∧ (t.link z).idleTimer = (if (s.link z).state = .up then some 10 else (s.link z).idleTimer)
        ∧ (∀ x, (s.link z).slowBlocks = some 1 → (s.link z).profile = some x →
            (t.link z).lineRate = x.rate ∧ (t.link z).slowBlocks = none)
        ∧ (∀ x n, (s.link z).slowBlocks = some n → 2 ≤ n → (s.link z).profile = some x →
            (t.link z).lineRate = (s.link z).lineRate ∧ (t.link z).slowBlocks = some (n - 1))
        ∧ ((s.link z).slowBlocks = none → (t.link z).lineRate = (s.link z).lineRate ∧ (t.link z).slowBlocks = none)
        ∧ t.link z = { s.link z with
            onLine := (t.link z).onLine, txQueue := (t.link z).txQueue, idleTimer := (t.link z).idleTimer
            lineRate := (t.link z).lineRate, slowBlocks := (t.link z).slowBlocks })
  ∧ (∀ x : Link,
    (x.state = .off → x.line.txd = [true] ∧ x.clockRate = none)
    ∧ (x.state ≠ .off → x.clockRate = some (rateBits x.lineRate))
    ∧ (x.state ≠ .off → x.onLine = none → x.line.txd = [true, true, true, true, true, true, true, true])
    ∧ ∀ (b : OutBlock) (kind : Byte) (body covered : List Byte), x.state ≠ .off → x.onLine = some b →
      (match b with
        | .capBase rates capacity next => kind = 0x01
            ∧ body = bytesOf 1 rates.toNat ++ bytesOf 2 capacity ++ [0, if next then 1 else 0]
        | .capNext identity => kind = 0x02 ∧ body = bytesOf 2 identity
        | .idle => kind = 0x03 ∧ body = []
        | .batchOpen number words => kind = 0x10 ∧ body = number :: bytesOf 2 words
        | .batchWords words => kind = 0x11 ∧ body = words.flatMap fun w => bytesOf 4 w.toNat
        | .batchClose number => kind = 0x12 ∧ body = [number]) →
      covered = kind :: bytesOf 1 body.length ++ body →
      x.line.txd = (0xA6 :: covered ++ crcBytes covered).flatMap bitsMsbFirst)
  ∧ ∀ b : Byte, bitsMsbFirst b = [b.getLsbD 7, b.getLsbD 6, b.getLsbD 5, b.getLsbD 4, b.getLsbD 3, b.getLsbD 2,
      b.getLsbD 1, b.getLsbD 0]

/-- R96, R99, R112, R117, R118, R120, R121, R124, R140, R141, Table 7-3: a valid CAP_BASE, its body read field by field, in
HUNT, in EXCHANGE and in UP. In HUNT and EXCHANGE an OFFLINE site and rates with nothing in common fail the link; a needed
next page keeps the link in EXCHANGE with the page held; and otherwise the link enters UP at once, its CAP_BASE answer after
whatever the line was sending, at the highest common rate once every block queued before has left, and resumes the STALLED
slots, with a batch formed at once in each zone that a resumed slot of priority 3 joins and that can form one. In UP the link
leaves UP with cause RENEGOTIATE, enters EXCHANGE and is evaluated there, with the same four ends. That the lost zone is
tested for congestion only once in the event that leaves UP and enters UP again, after the resumption, is read from R96,
which tests each zone once at the end of an event (log entry 12, DEDUCED: R107 step 2 taken alone tests it at 0 words). That
the line is idle and at SLOW right after a cut is read from R112, which names the next byte boundary (log entry 7, DEDUCED).
-/
def Obligations.CapBaseIsEvaluated : Prop :=
  (∀ body : List Byte,
    (body.length ≠ 5 ∨ fieldAt body 1 2 < 96 ∨ 2048 < fieldAt body 1 2 ∨ 2 < fieldAt body 3 1 → readCapBase body = none)
    ∧ (body.length = 5 → 96 ≤ fieldAt body 1 2 → fieldAt body 1 2 ≤ 2048 → fieldAt body 3 1 ≤ 2 →
      readCapBase body = some ⟨BitVec.ofNat 3 (fieldAt body 0 1), fieldAt body 1 2,
        if fieldAt body 3 1 = 0 then some .ok else if fieldAt body 3 1 = 1 then some .degraded else none,
        decide (fieldAt body 4 1 ≠ 0)⟩))
  ∧ (∀ rates : BitVec 3, highestRate rates =
    if rates.getLsbD 2 = true then some .fast
    else if rates.getLsbD 1 = true then some .mid
    else if rates.getLsbD 0 = true then some .slow
    else none)
  ∧ (∀ (x : Link) (rate : Rate),
    (x.onLine = none → x.txQueue = [] → x.changeRate rate = { x with lineRate := rate, slowBlocks := none })
    ∧ (x.onLine = none → x.txQueue ≠ [] → x.changeRate rate = { x with slowBlocks := some x.txQueue.length })
    ∧ (x.onLine.isSome → x.changeRate rate = { x with slowBlocks := some (x.txQueue.length + 1) })
    ∧ x.stopTimers = { x with
        huntTimer := none, exchangeTimer := none, silenceTimer := none, idleTimer := none, holdOffTimer := none }
    ∧ ∀ b, x.send b = if x.onLine = none then { x with onLine := some b } else { x with txQueue := x.txQueue ++ [b] })
  ∧ ∀ (s : State) (z : ZoneId) (body : List Byte) (page : SitePage), readCapBase body = some page →
    (∀ x : Link,
      (s.link z).state = .hunt ∧ x = { (s.link z).stopTimers with
          state := .exchange, exchangeTimer := some 30, basePage := none, received := none }
        ∨ (s.link z).state = .exchange ∧ x = { s.link z with received := none } →
      (page.fault = none →
        exec (.capBase z body) s = .next (s.setLink z { x.quiet with
          state := .failed, downCause := some .remote, holdOffTimer := some 20, basePage := none }))
      ∧ ∀ f, page.fault = some f →
        ((s.zone z).written.rates &&& page.rates = 0 →
          exec (.capBase z body) s = .next (s.setLink z { x.quiet with
            state := .failed, downCause := some .mismatch, holdOffTimer := some 20, basePage := none }))
        ∧ ∀ rate, highestRate ((s.zone z).written.rates &&& page.rates) = some rate →
          ((s.zone z).written.identity ≠ 0 ∨ page.nextPage = true →
            exec (.capBase z body) s = .next (s.setLink z
              { (x.send (.capBase (s.zone z).written.rates (s.zone z).written.capacity
                    (decide ((s.zone z).written.identity ≠ 0)))).send (.capNext (s.zone z).written.identity) with
                basePage := some ⟨page.rates, page.capacity, f, page.nextPage, rate,
                  min (s.zone z).written.capacity page.capacity⟩ }))
          ∧ ((s.zone z).written.identity = 0 → page.nextPage = false →
            ∃ t, exec (.capBase z body) s = .next t ∧ s.entersUp t z
              (({ x.send (.capBase (s.zone z).written.rates (s.zone z).written.capacity false) with
                  state := .up, profile := some ⟨rate, min (s.zone z).written.capacity page.capacity, 0, f⟩
                  huntTimer := none, exchangeTimer := none, silenceTimer := some 40, idleTimer := some 10
                  holdOffTimer := none, basePage := none } : Link).changeRate rate) rate))
    ∧ ((s.link z).state = .up →
      (page.fault = none →
        ∃ t, exec (.capBase z body) s = .next t ∧ s.leftUp t z .renegotiate ∧ s.clearedOnLoss t z
          ∧ t.link z = { (s.link z).quiet with
              state := .failed, downCause := some .remote, holdOffTimer := some 20, basePage := none, received := none })
      ∧ ∀ f, page.fault = some f →
        ((s.zone z).written.rates &&& page.rates = 0 →
          ∃ t, exec (.capBase z body) s = .next t ∧ s.leftUp t z .renegotiate ∧ s.clearedOnLoss t z
            ∧ t.link z = { (s.link z).quiet with
                state := .failed, downCause := some .mismatch, holdOffTimer := some 20, basePage := none
                received := none })
        ∧ ∀ rate, highestRate ((s.zone z).written.rates &&& page.rates) = some rate →
          ((s.zone z).written.identity ≠ 0 ∨ page.nextPage = true →
            ∃ t, exec (.capBase z body) s = .next t ∧ s.leftUp t z .renegotiate ∧ s.clearedOnLoss t z
              ∧ t.link z = { (s.link z).quiet with
                  state := .exchange, downCause := some .renegotiate, exchangeTimer := some 30, received := none
                  basePage := some ⟨page.rates, page.capacity, f, page.nextPage, rate,
                    min (s.zone z).written.capacity page.capacity⟩
                  onLine := some (.capBase (s.zone z).written.rates (s.zone z).written.capacity
                    (decide ((s.zone z).written.identity ≠ 0)))
                  txQueue := [.capNext (s.zone z).written.identity] })
          ∧ ((s.zone z).written.identity = 0 → page.nextPage = false →
            ∃ t u, exec (.capBase z body) s = .next t ∧ s.leftUp u z .renegotiate
              ∧ (∀ y, (u.zone y).congested = (s.zone y).congested)
              ∧ u.entersUp t z { (s.link z).quiet with
                  state := .up, downCause := some .renegotiate
                  profile := some ⟨rate, min (s.zone z).written.capacity page.capacity, 0, f⟩, silenceTimer := some 40
                  idleTimer := some 10, basePage := none, received := none, slowBlocks := some 1
                  onLine := some (.capBase (s.zone z).written.rates (s.zone z).written.capacity false) } rate
              ∧ (∃ changed, u.tests t changed [⟨.linkUp, z.val, (rateBits rate : Int), s.clock⟩]
                ∧ ∀ y, zoneIn y changed = false → (t.zone y).queue = (s.zone y).queue)))

/-- R96, R99, R112, R119, R120, R140, R141: a CAP_NEXT in EXCHANGE with a page held: another identity than the expected one
fails the link with WRONG_SITE; otherwise the link enters UP with the terms evaluated and its line as it was, posts LINK_UP,
and resumes the STALLED slots whose coverage holds the zone, with a batch formed at once in each zone that a resumed slot of
priority 3 joins and that can form one. That the line is idle and at SLOW right after WRONG_SITE is read from R112, which
names the next byte boundary (log entry 7, DEDUCED). -/
def Obligations.CapNextEndsTheExchange : Prop :=
  ∀ (s : State) (z : ZoneId) (identity : Nat) (page : BasePage), identity < 65536 → (s.link z).state = .exchange →
    (s.link z).basePage = some page →
    ((s.zone z).written.identity ≠ 0 → (s.zone z).written.identity ≠ identity →
      exec (.capNext z (bytesOf 2 identity)) s = .next (s.setLink z { (s.link z).quiet with
        state := .failed, downCause := some .wrongSite, holdOffTimer := some 20, basePage := none, received := none }))
    ∧ ((s.zone z).written.identity = 0 ∨ (s.zone z).written.identity = identity →
      ∃ t, exec (.capNext z (bytesOf 2 identity)) s = .next t ∧ s.entersUp t z
          (({ s.link z with
            state := .up, profile := some ⟨page.agreedRate, page.agreedCapacity, identity, page.fault⟩
            huntTimer := none, exchangeTimer := none, silenceTimer := some 40, idleTimer := some 10
            holdOffTimer := none, basePage := none, received := none } : Link).changeRate page.agreedRate) page.agreedRate
        ∧ (∀ q, (s.port q).role = .dispatch ∨ (s.port q).role = .supervisor → (s.port q).events.length < 32 →
            ⟨.linkUp, z.val, (rateBits page.agreedRate : Int), s.clock⟩ ∈ (t.port q).events)
        ∧ (∀ slot ∈ s.stalls, ∀ m a, s.openMessage slot = some m → m.lastAttempt = some a →
            zoneIn z a.requested = true → slot ∉ t.stalls))

/-- R118, R119, R121, R123: IDLE, SITE_STATUS, a CAP_NEXT that ends no exchange, and every block in OFF, in FAILED and, but
for CAP_BASE, in HUNT. A SITE_STATUS of OFFLINE fails a link in EXCHANGE; in UP it is that of LeavingUpEmptiesTheZone. That
the line is idle and at SLOW right after that failure is read from R112 (log entry 7, DEDUCED). -/
def Obligations.QuietInboundBlocks : Prop :=
  ∀ (s : State) (z : ZoneId) (f : RemoteFault) (identity : Nat), identity < 65536 →
    ((s.link z).state = .up →
      exec (.idle z []) s = .next (s.setLink z { s.link z with received := none, silenceTimer := some 40 })
      ∧ exec (.capNext z (bytesOf 2 identity)) s
        = .next (s.setLink z { s.link z with received := none, silenceTimer := some 40 })
      ∧ exec (.siteStatus z [remoteFaultCode f]) s = .next (s.setLink z { s.link z with
          received := none, silenceTimer := some 40, profile := (s.link z).profile.map fun x => { x with fault := f } }))
    ∧ ((s.link z).state = .exchange →
      exec (.idle z []) s = .next (s.setLink z { s.link z with received := none })
      ∧ ((s.link z).basePage = none →
        exec (.capNext z (bytesOf 2 identity)) s = .next (s.setLink z { s.link z with received := none }))
      ∧ exec (.siteStatus z [2]) s = .next (s.setLink z { (s.link z).quiet with
          state := .failed, downCause := some .remote, holdOffTimer := some 20, basePage := none, received := none })
      ∧ exec (.siteStatus z [remoteFaultCode f]) s = .next (s.setLink z { s.link z with
          received := none, basePage := (s.link z).basePage.map fun x => { x with fault := f } }))
    ∧ ∀ i kind body, linkFields i = some (z, kind, body) → inboundBodyGood kind.toNat body = true →
      ((s.link z).state = .off → exec i s = .next s)
      ∧ ((s.link z).state = .failed ∨ (s.link z).state = .hunt ∧ kind ≠ 0x01 →
        exec i s = .next (s.setLink z { s.link z with received := none }))

/-- R112 to R114, R127, Tables 7-2 and 10-9: the receiver of a link looks for the sync byte 0xA6 and discards every other byte
between blocks, judges a block that is whole, and ends a block at once whose length byte is above 128. A block judged bad,
and one whose body is out of its kind's range, is counted up to 255 in every state but OFF and reaches nothing else; READ_LINK
shows the link field by field and sets the count to 0. That the line rate of a link in OFF is SLOW, which READ_LINK sends, is
read from R112 (log entry 7, DEDUCED). The bodies that each inbound kind allows are those of Table 7-3, but
that a PAGER_ACK with a set bit among bits 8 to 0 of its tag word is a good block is the model's choice (log entry 20); the
codes of link state, down cause and remote fault are those of Table 10-8. -/
def Obligations.BadBlocksAreCounted : Prop :=
  (∀ (kind : Nat) (body : List Byte), inboundBodyGood kind body = true ↔
    kind = 0x01 ∧ body.length = 5 ∧ 96 ≤ fieldAt body 1 2 ∧ fieldAt body 1 2 ≤ 2048 ∧ fieldAt body 3 1 ≤ 2
      ∨ kind = 0x02 ∧ body.length = 2 ∨ kind = 0x03 ∧ body.length = 0
      ∨ (kind = 0x20 ∨ kind = 0x21) ∧ body.length = 1 ∨ kind = 0x22 ∧ body.length = 7 ∨ kind = 0x23 ∧ body.length = 3
      ∨ kind = 0x24 ∧ body.length = 1 ∧ fieldAt body 0 1 ≤ 2)
  ∧ (∀ (kind length : Byte) (body crc : List Byte),
    length.toNat = body.length → crc.length = 2 →
    (blockGood (kind :: length :: body ++ crc) = true ↔
      body.length ≤ 128 ∧ crc = crcBytes (kind :: length :: body) ∧ inboundBodyGood kind.toNat body = true))
  ∧ (List.map linkStateCode [.off, .hunt, .exchange, .up, .failed] = [0, 1, 2, 3, 4]
    ∧ List.map downCauseCode [.remote, .mismatch, .wrongSite, .timeout, .silence, .noAccept, .restart, .renegotiate]
      = [1, 2, 3, 4, 5, 6, 7, 8]
    ∧ List.map remoteFaultCode [.ok, .degraded] = [0, 1] ∧ List.map rateBits [.slow, .mid, .fast] = [1600, 3200, 6400])
  ∧ ∀ (s : State) (z : ZoneId),
    (∀ t, t = (if (s.link z).state = .off then s
        else s.setLink z { s.link z with rxErrors := min 255 ((s.link z).rxErrors + 1), received := none }) →
      (∀ block, blockGood block = false → exec (.badBlock z block) s = .next t)
      ∧ (∀ i kind body, linkFields i = some (z, kind, body) → inboundBodyGood kind.toNat body = false →
        exec i s = .next t)
      ∧ ∀ kind length : Byte, (s.link z).state ≠ .off → (s.link z).received = some [kind] → 128 < length.toNat →
        s.linkByte z length = t)
    ∧ (∀ b : Byte,
      ((s.link z).state = .off → s.linkByte z b = s)
      ∧ ((s.link z).state ≠ .off → (s.link z).received = none →
        s.linkByte z b = if b = 0xA6 then s.setLink z { s.link z with received := some [] } else s)
      ∧ s.linkBits z (bitsMsbFirst b) = s.linkByte z b)
    ∧ (∀ block : List Byte, (s.link z).state ≠ .off → (s.link z).received = none → 4 ≤ block.length →
      block.length = 4 + fieldAt block 1 1 → fieldAt block 1 1 ≤ 128 →
      exec (takeLinkBlock z block) (s.setLink z { s.link z with received := some block })
        = .next ((0xA6 :: block).foldl (State.linkByte z) s))
    ∧ ∀ (p : PortId) (body : List Byte), s.serves p [.dispatch, .supervisor] → body.length = 1 →
      (7 < fieldAt body 0 1 → exec (.readLink p body) s = .next (s.answers p .range []))
      ∧ (fieldAt body 0 1 = z.val →
      ∃ b, exec (.readLink p body) s = .next ((s.setLink z { s.link z with rxErrors := 0 }).answers p .ok b)
        ∧ b.length = 19 ∧ fieldAt b 0 1 = (linkStateCode (s.link z).state).toNat
        ∧ fieldAt b 1 1 = (if (s.link z).state = .off then 0 else 1)
        ∧ (match (s.link z).profile with
            | none => fieldAt b 2 8 = 0
            | some x => fieldAt b 2 1 = 1 ∧ fieldAt b 3 2 = rateBits x.rate ∧ fieldAt b 5 2 = x.capacity % 65536
                ∧ fieldAt b 7 2 = x.identity % 65536 ∧ fieldAt b 9 1 = (remoteFaultCode x.fault).toNat)
        ∧ fieldAt b 10 2 = rateBits (s.link z).lineRate
        ∧ fieldAt b 12 1 = (match (s.link z).downCause with | some c => (downCauseCode c).toNat | none => 0)
        ∧ fieldAt b 13 1 = (s.link z).rxErrors % 256
        ∧ fieldAt b 14 1 = (s.link z).huntTimer.getD 255 % 256 ∧ fieldAt b 15 1 = (s.link z).exchangeTimer.getD 255 % 256
        ∧ fieldAt b 16 1 = (s.link z).silenceTimer.getD 255 % 256 ∧ fieldAt b 17 1 = (s.link z).idleTimer.getD 255 % 256
        ∧ fieldAt b 18 1 = (s.link z).holdOffTimer.getD 255 % 256)

/-! ## Acknowledgement and retry -/

/-- R134: every wait lies between 1 tick and the snapshot's ceiling, doubles until the ceiling for a two-way pager, and is
the same after every repeat of a one-way pager. -/
def Obligations.WaitsDoubleUpToTheCeiling : Prop :=
  ∀ (t : TariffSnapshot) (n : Nat), t.legal → n ≤ 7 →
    retryWait t .twoWay n = min (t.retryBase * 2 ^ n) t.retryCeiling
    ∧ retryWait t .oneWay n = min t.retryBase t.retryCeiling
    ∧ t.retryBase * 2 ^ n ≤ 32640
    ∧ (∀ k, 1 ≤ retryWait t k n ∧ retryWait t k n ≤ t.retryCeiling ∧ retryWait t k n ≤ 65534)
    ∧ (t.retryCeiling < t.retryBase → ∀ k, retryWait t k n = t.retryCeiling)

/-- R94, R96, R99, R135, R136, R137, R138, R140: the expiry of a wait, which a TICK takes itself (TickCountsEveryTimer):
RETRY_EXPIRY and REPEAT_EXPIRY form attempt n + 1 with the ladder's coverage and place it, or, for a two-way slot whose n is at
the retry count, close the message MISSED. In each zone of the coverage that is UP an entry with the zone's next ready sequence
joins the queue, in which every entry still stands, or stands in the batch that a message of priority 3 has formed there at
once; nothing else of such a zone and, without a batch, of its link changes, but for its congestion test. Expiries come in
ascending slot order. That the two rows are one slot's share of the next tick, and change nothing when its timer does not reach
0 in it, is the model's choice (log entry 4). -/
def Obligations.WaitExpiryFormsTheNextAttempt : Prop :=
  ∀ (s : State) (slot : SlotId),
    (s.canonical → (s.dueRetry = some slot ↔
      (∃ m n, s.message slot = some m ∧ s.slotState slot = .wait ∧ m.frozen = false ∧ m.retryTimer = some n ∧ n ≤ 1)
      ∧ ∀ j m n, j < slot → s.message j = some m → s.slotState j = .wait → m.frozen = false → m.retryTimer = some n → 1 < n))
    ∧ (s.phase ≠ .working ∨ s.dueRetry ≠ some slot →
      exec (.retryExpiry slot) s = .next s ∧ exec (.repeatExpiry slot) s = .next s)
    ∧ ∀ m, s.phase = .working → s.canonical → s.dueRetry = some slot → s.message slot = some m →
      (m.kind = .twoWay → exec (.repeatExpiry slot) s = .next s
        ∧ ∃ t, exec (.retryExpiry slot) s = .next t ∧ s.waitEnds slot t)
      ∧ (m.kind = .oneWay → exec (.retryExpiry slot) s = .next s
        ∧ ∃ t, exec (.repeatExpiry slot) s = .next t ∧ s.waitEnds slot t)


/-- R8, R121: a PAGER_LOCATE in UP or in EXCHANGE writes the last-seen value of the entry its address is mapped to, and only
that; in UP it reloads the silence timer. -/
def Obligations.PagerLocateUpdatesLastSeen : Prop :=
  ∀ (s : State) (z : ZoneId) (a : PagerAddress), (s.link z).state = .up ∨ (s.link z).state = .exchange →
    ∃ t, exec (.pagerLocate z (bytesOf 3 a.toNat)) s = .next t
      ∧ (∀ i e, s.mapped a = some i → s.entry i = some e →
          t.entry i = some { e with lastSeen := some ⟨z, s.clock⟩ } ∧ ∀ j, j ≠ i → t.entry j = s.entry j)
      ∧ (s.mapped a = none → t.directory = s.directory)
      ∧ t.link z = { s.link z with
          received := none, silenceTimer := if (s.link z).state = .up then some 40 else (s.link z).silenceTimer }
      ∧ (∀ y, y ≠ z → t.link y = s.link y)
      ∧ t = { s with directory := t.directory, links := t.links }

/-- R8, R121, R129 to R131, Table 8-2: a PAGER_ACK in UP or in EXCHANGE, with the slot, epoch and attempt its tag word
carries. `u` is the state with the block taken, the silence timer of a link in UP reloaded (R121) and last-seen updated (R8).
That bits 8 to 0 of the tag word, which Table 7-4 shows zero, are not looked at is the model's choice (log entry 20). -/
def Obligations.PagerAckIsMatched : Prop :=
  ∀ (s : State) (z : ZoneId) (address : PagerAddress) (slot : SlotId) (e : Epoch) (k : Nat) (low : BitVec 16)
    (body : List Byte) (u : State), k ≤ 7 → (s.link z).state = .up ∨ (s.link z).state = .exchange →
    body = bytesOf 3 address.toNat
      ++ bytesOf 4 (slot.val * 8388608 + e.toNat * 524288 + k * 65536 + low.toNat) →
    u = (s.setLink z { s.link z with
      received := none
      silenceTimer := if (s.link z).state = .up then some 40 else (s.link z).silenceTimer }).seen z address →
    match s.message slot with
    | none => exec (.pagerAck z body) s = .next u
    | some m =>
      if s.epoch slot ≠ e ∨ m.kind = .oneWay ∨ m.address ≠ address ∨ m.currentAttempt < k then
        exec (.pagerAck z body) s = .next u
      else
        match m.closing with
        | none => ∃ t, exec (.pagerAck z body) s = .next t ∧ u.closes t slot m .delivered k
        | some c =>
          if c.outcome = .delivered then exec (.pagerAck z body) s = .next u
          else ∃ t, exec (.pagerAck z body) s = .next t
            ∧ u.posted t .lateAck m.billed.val (slot.val * 16 + e.toNat) ∧ t = { u with ports := t.ports }

/-! ## Accounts, journal and sweep -/

/-- R149: ACCOUNT_READ, whole. -/
def Obligations.AccountReadShowsTheAccount : Prop :=
  ∀ (s : State) (p : PortId) (body : List Byte), s.serves p anyRole →
    (body.length ≠ 2 → exec (.accountRead p body) s = .next (s.answers p .format []))
    ∧ (body.length = 2 → 8191 < fieldAt body 0 2 → exec (.accountRead p body) s = .next (s.answers p .range []))
    ∧ ∀ i : AccountIndex, body.length = 2 → fieldAt body 0 2 = i.val →
      match s.entry i with
      | none => exec (.accountRead p body) s = .next (s.answers p .noSubscriber [])
      | some e =>
        ∃ b, exec (.accountRead p body) s = .next (s.answers p .ok b) ∧ b.length = 20
          ∧ fieldAt b 0 1 = (entryStateCode e.state).toNat ∧ fieldAt b 1 1 = (suspendCauseCode e.state).toNat
          ∧ fieldAt b 2 4 = (BitVec.ofInt 32 e.balance).toNat ∧ fieldAt b 6 4 = e.creditLimit % 4294967296
          ∧ fieldAt b 10 4 = e.held % 4294967296 ∧ fieldAt b 14 1 = e.openCount % 256
          ∧ fieldAt b 15 1 = (if e.low then 1 else 0) + (if e.exhausted then 2 else 0)
          ∧ fieldAt b 16 4 = (BitVec.ofInt 32
              (max (-2147483648) (min 2147483647 (e.balance + e.creditLimit - e.held)))).toNat

/-- R150, R35, R146, R148, Table 9-2: ACCOUNT_ADJUST after FORMAT: its checks in their order, the saturating change of
balance, the ADJUST record, and the high-water test with its armed flag and its JOURNAL_HIGH; nothing else changes. -/
def Obligations.AccountAdjustChangesTheBalance : Prop :=
  ∀ (s : State) (p : PortId) (body : List Byte), s.serves p [.accounts, .supervisor] → body.length = 7 →
    (8191 < fieldAt body 0 2 ∨ signedAt body 2 < -16777215 ∨ 16777215 < signedAt body 2 →
      exec (.accountAdjust p body) s = .next (s.answers p .range []))
    ∧ ∀ i : AccountIndex, fieldAt body 0 2 = i.val → -16777215 ≤ signedAt body 2 → signedAt body 2 ≤ 16777215 →
      match s.entry i with
      | none => exec (.accountAdjust p body) s = .next (s.answers p .noSubscriber [])
      | some e =>
        if 1024 - s.journal.records.length < s.openMessages + 1 then
          exec (.accountAdjust p body) s = .next (s.answers p .journalFull [])
        else
          ∃ t u balance, balance = max (-2147483648) (min 2147483647 (e.balance + signedAt body 2))
            ∧ exec (.accountAdjust p body) s = .next t
            ∧ t.entry i = some { e with balance := balance }
            ∧ (∀ j, j ≠ i → t.entry j = s.entry j)
            ∧ t.journal.records
                = s.journal.records ++ [.adjust ⟨i, signedAt body 2, fieldAt body 6 1, balance, s.clock⟩]
            ∧ t.journal.highWater = s.journal.highWater
            ∧ t = u.answers p .ok (bytesOf 2 i.val ++ bytesOfInt balance
                ++ bytesOfInt (max (-2147483648) (min 2147483647 (balance + e.creditLimit - e.held))))
            ∧ s.testsWater u
            ∧ t = { s with directory := t.directory, journal := t.journal, ports := t.ports }

/-- R151: ACCOUNT_LIMIT, whole. -/
def Obligations.AccountLimitReplacesTheLimit : Prop :=
  ∀ (s : State) (p : PortId) (body : List Byte), s.serves p anyRole →
    ((s.port p).role ≠ .accounts → (s.port p).role ≠ .supervisor →
      exec (.accountLimit p body) s = .next (s.answers p .role []))
    ∧ ((s.port p).role = .accounts ∨ (s.port p).role = .supervisor →
      (body.length ≠ 6 → exec (.accountLimit p body) s = .next (s.answers p .format []))
      ∧ (body.length = 6 → 8191 < fieldAt body 0 2 ∨ 16777215 < fieldAt body 2 4 →
        exec (.accountLimit p body) s = .next (s.answers p .range []))
      ∧ ∀ i : AccountIndex, body.length = 6 → fieldAt body 0 2 = i.val → fieldAt body 2 4 ≤ 16777215 →
        match s.entry i with
        | none => exec (.accountLimit p body) s = .next (s.answers p .noSubscriber [])
        | some e =>
          exec (.accountLimit p body) s = .next
            ((s.setEntry i { e with creditLimit := fieldAt body 2 4 }).answers p .ok (bytesOf 2 i.val
              ++ bytesOfInt (max (-2147483648) (min 2147483647 (e.balance + (fieldAt body 2 4 : Nat) - e.held))))))

/-- R152, R87, R83, R84, R88, R96, R143, R148: ACCOUNT_STATE after FORMAT: the state written with its cause, and with the purge
flag every open message billed to the entry closed PURGED, one after another in ascending slot order, each with its entries
withdrawn and voided, its settlement with its record and high-water test, and its place on the outcome list; then each zone
whose queue has lost an entry is tested for congestion once. -/
def Obligations.AccountStateWritesAndPurges : Prop :=
  ∀ (s : State) (p : PortId) (body : List Byte), s.serves p [.accounts, .supervisor] → body.length = 4 →
    (8191 < fieldAt body 0 2 ∨ fieldAt body 2 1 = 0 ∨ 3 < fieldAt body 2 1 ∨ (fieldAt body 2 1 = 1 ∧ fieldAt body 3 1 ≠ 0) →
      exec (.accountState p body) s = .next (s.answers p .range []))
    ∧ ∀ (i : AccountIndex) (st : EntryState), fieldAt body 0 2 = i.val →
      (fieldAt body 2 1 = 1 ∧ st = .active ∨ fieldAt body 2 1 = 2 ∧ st = .suspended .accounts
        ∨ fieldAt body 2 1 = 3 ∧ st = .barred) →
      match s.entry i with
      | none => ¬ (st = .active ∧ fieldAt body 3 1 ≠ 0) →
        exec (.accountState p body) s = .next (s.answers p .noSubscriber [])
      | some e =>
        (fieldAt body 3 1 = 0 → exec (.accountState p body) s = .next
          ((s.setEntry i { e with state := st }).answers p .ok (bytesOf 2 i.val ++ [entryStateCode st, 0])))
        ∧ (fieldAt body 3 1 ≠ 0 → st ≠ .active → s.canonical →
          ∃ t, exec (.accountState p body) s = .next t
            ∧ (∃ (u w : State) (changed : ZoneSet),
              oneByOne (fun slot a b => ∃ m, a.message slot = some m ∧ m.closing = none ∧ m.billed = i
                  ∧ a.shuts b slot m .purged 0)
                ((s.messages.filter fun x => decide (x.2.closing = none ∧ x.2.billed = i)).map Prod.fst)
                (s.setEntry i { e with state := st }) u
              ∧ u.tested w changed
              ∧ (∀ z, zoneIn z changed = true ↔ ∃ q ∈ (s.zone z).queue, q.epoch = s.epoch q.slot
                  ∧ ∃ m, s.message q.slot = some m ∧ m.closing = none ∧ m.billed = i)
              ∧ t = w.answers p .ok (bytesOf 2 i.val ++ [entryStateCode st] ++ bytesOf 1 (s.openBilled i).length))
            ∧ (∀ slot m, s.message slot = some m → m.closing = none → m.billed = i →
                t.message slot = some { m with closing := some ⟨.purged, 0⟩, retryTimer := none, frozen := false })
            ∧ (∀ slot m, s.message slot = some m → ¬ (m.closing = none ∧ m.billed = i) → t.message slot = some m)
            ∧ (∃ e', t.entry i = some e' ∧ e'.state = st ∧ e'.terms = { e with state := st }.terms
                ∧ e'.openCount = e.openCount - (s.openBilled i).length)
            ∧ (∀ j, j ≠ i → t.entry j = s.entry j)
            ∧ t.journal.records.length = s.journal.records.length + (s.openBilled i).length
            ∧ (t.port p).answer
                = some ⟨⟨.ok, bytesOf 2 i.val ++ [entryStateCode st] ++ bytesOf 1 (s.openBilled i).length⟩, (s.port p).gap⟩)

/-- R147, R148, Tables 9-2 and 10-9: JOURNAL_FETCH removes up to four records from the front, answers them in 24 bytes each
and makes the high-water test; JOURNAL_CONFIG replaces the high water and makes the test. -/
def Obligations.JournalCommands : Prop :=
  ∀ (s : State) (p : PortId), s.serves p [.accounts, .supervisor] →
    (∃ (u : State) (records : List Byte), exec (.journalFetch p []) s = .next (u.answers p .ok (bytesOf 1 (min 4 s.journal.records.length)
          ++ bytesOf 2 (s.journal.records.length - 4) ++ records))
      ∧ u.journal.records = s.journal.records.drop 4 ∧ u.journal.highWater = s.journal.highWater
      ∧ s.testsWater u
      ∧ (s.journal.records.length - 4 < s.journal.highWater → u.ports = s.ports)
      ∧ records.length = 24 * min 4 s.journal.records.length
      ∧ (∀ (i : Nat) (r : SettleRecord), i < 4 → s.journal.records[i]? = some (.settle r) →
          fieldAt records (24 * i) 1 = 0 ∧ fieldAt records (24 * i + 1) 2 = r.account.val
            ∧ fieldAt records (24 * i + 3) 2 = r.slot.val ∧ fieldAt records (24 * i + 5) 1 = r.epoch.toNat
            ∧ fieldAt records (24 * i + 6) 1 = (outcomeCode r.outcome).toNat
            ∧ fieldAt records (24 * i + 7) 1 = (classCode r.cls).toNat
            ∧ fieldAt records (24 * i + 8) 1 = r.payloadWords % 256 ∧ fieldAt records (24 * i + 9) 1 = r.zonesSent % 256
            ∧ fieldAt records (24 * i + 10) 1 = r.attempt % 256
            ∧ fieldAt records (24 * i + 11) 4 = r.amount % 4294967296 ∧ fieldAt records (24 * i + 15) 1 = 0
            ∧ fieldAt records (24 * i + 16) 4 = (BitVec.ofInt 32 r.balanceAfter).toNat
            ∧ fieldAt records (24 * i + 20) 4 = r.time.toNat)
      ∧ (∀ (i : Nat) (r : AdjustRecord), i < 4 → s.journal.records[i]? = some (.adjust r) →
          fieldAt records (24 * i) 1 = 1 ∧ fieldAt records (24 * i + 1) 2 = r.account.val
            ∧ fieldAt records (24 * i + 3) 8 = 0
            ∧ fieldAt records (24 * i + 11) 4 = (BitVec.ofInt 32 r.amount).toNat
            ∧ fieldAt records (24 * i + 15) 1 = r.reason % 256
            ∧ fieldAt records (24 * i + 16) 4 = (BitVec.ofInt 32 r.balanceAfter).toNat
            ∧ fieldAt records (24 * i + 20) 4 = r.time.toNat)
      ∧ u = { s with journal := u.journal, ports := u.ports })
    ∧ ∀ body : List Byte, body.length = 2 →
      (fieldAt body 0 2 = 0 ∨ 1024 < fieldAt body 0 2 → exec (.journalConfig p body) s = .next (s.answers p .range []))
      ∧ (1 ≤ fieldAt body 0 2 → fieldAt body 0 2 ≤ 1024 →
        ∃ u : State, exec (.journalConfig p body) s = .next (u.answers p .ok (bytesOf 2 s.journal.records.length
              ++ [if s.journal.records.length < fieldAt body 0 2 then 1 else 0]))
          ∧ u.journal.records = s.journal.records ∧ u.journal.highWater = fieldAt body 0 2
          ∧ u.journal.armed = decide (s.journal.records.length < fieldAt body 0 2)
          ∧ s.testsWater u
          ∧ (s.journal.records.length < fieldAt body 0 2 ∨ s.journal.armed = false → u.ports = s.ports)
          ∧ u = { s with journal := u.journal, ports := u.ports })

/-- R153, R156: SWEEP_START writes every field of the sweep and copies the 16 low waters; SWEEP_STATUS shows the sweep
and changes no state; with the mode codes of Table 10-8. -/
def Obligations.SweepStartAndStatus : Prop :=
  List.map sweepModeCode [.stop, .continuous, .onePass, .single] = [0, 1, 2, 3] ∧ ∀ (s : State) (p : PortId),
    (∀ (body : List Byte), s.serves p [.accounts, .supervisor] → body.length = 6 →
      (3 < fieldAt body 0 1 ∨ fieldAt body 1 1 = 0 ∨ 64 < fieldAt body 1 1 ∨ 8191 < fieldAt body 2 2 →
        exec (.sweepStart p body) s = .next (s.answers p .range []))
      ∧ ∀ (mode : SweepMode) (single : AccountIndex), fieldAt body 0 1 = (sweepModeCode mode).toNat →
        1 ≤ fieldAt body 1 1 → fieldAt body 1 1 ≤ 64 → fieldAt body 2 2 = single.val →
        ∃ t, exec (.sweepStart p body) s = .next t
          ∧ t.sweep = ⟨mode, fieldAt body 1 1, single, decide (fieldAt body 4 1 ≠ 0), decide (fieldAt body 5 1 ≠ 0),
              t.sweep.lowWater, if mode = .single then single else 0, 0⟩
          ∧ (∀ i, bankGet t.sweep.lowWater i = (s.plan i).lowWater)
          ∧ t.ports = (s.answers p .ok []).ports
          ∧ t = { s with sweep := t.sweep, ports := t.ports })
    ∧ (s.serves p anyRole → ∃ b, exec (.sweepStatus p []) s = .next (s.answers p .ok b) ∧ b.length = 10
      ∧ fieldAt b 0 1 = (sweepModeCode s.sweep.mode).toNat ∧ fieldAt b 1 2 = s.sweep.position.val
      ∧ fieldAt b 3 2 = s.sweep.passCount.toNat ∧ fieldAt b 5 1 = s.sweep.rate % 256
      ∧ fieldAt b 6 2 = s.sweep.single.val ∧ fieldAt b 8 1 = (if s.sweep.autoSuspend then 1 else 0)
      ∧ fieldAt b 9 1 = (if s.sweep.autoResume then 1 else 0))

/-- R154, R155, R166, Table 10-7: a visit of the sweep: the flags follow the exact available amount, a suspension is made only
when EXHAUSTED changes to set, a sweep suspension ends only at or above the low water, each change posts its record, in their
order, the account itself stands, and an UNUSED index is skipped. A visit advances the position by 1; that of index 8,191 ends
the pass: the position returns to 0, the pass count rises, SWEEP_PASS_DONE is posted, and in ONE_PASS the mode becomes STOP.
The visits of a tick: none in STOP, the single index in SINGLE, as many as the rate in CONTINUOUS, and in ONE_PASS no more than
are left of the pass. -/
def Obligations.SweepVisitsAndPosition : Prop :=
  ∀ s : State,
    (∀ (i : AccountIndex) (e : Entry), s.entry i = some e →
      ∃ e', (s.visit i).entry i = some e'
        ∧ e'.low = decide (e.balance + e.creditLimit - e.held < (bankGet s.sweep.lowWater e.plan : Nat))
        ∧ e'.exhausted = decide (e.balance + e.creditLimit - e.held ≤ 0)
        ∧ e' = { e with low := e'.low, exhausted := e'.exhausted, state := e'.state }
        ∧ (e'.state = .suspended .sweep ∧ e.state ≠ .suspended .sweep ↔
            s.sweep.autoSuspend = true ∧ e.exhausted = false ∧ e'.exhausted = true ∧ e.state = .active)
        ∧ (e.state = .suspended .sweep ∧ e'.state = .active ↔
            s.sweep.autoResume = true ∧ e.state = .suspended .sweep ∧ e'.low = false)
        ∧ (e'.state ≠ e.state → e'.state = .suspended .sweep ∨ e'.state = .active)
        ∧ (∀ j, j ≠ i → (s.visit i).entry j = s.entry j)
        ∧ (∀ (reported : Int), reported = max (-2147483648) (min 2147483647 (e.balance + e.creditLimit - e.held)) →
            ∀ q, (s.visit i).port q = (s.port q).takes
              ((if e.low = false ∧ e'.low = true then [⟨.creditLow, i.val, reported, s.clock⟩] else [])
                ++ (if e.exhausted = false ∧ e'.exhausted = true then
                    [⟨.creditExhausted, i.val, reported, s.clock⟩] else [])
                ++ (if e.state = .active ∧ e'.state = .suspended .sweep then
                    [⟨.accountSuspended, i.val, 2, s.clock⟩] else [])
                ++ (if e.state = .suspended .sweep ∧ e'.state = .active then
                    [⟨.accountResumed, i.val, 0, s.clock⟩] else [])))
        ∧ s.visit i = { s with directory := (s.visit i).directory, ports := (s.visit i).ports })
    ∧ (∀ i : AccountIndex, s.entry i = none → s.visit i = s)
    ∧ (s.sweep.position.val < 8191 → ∃ t, t = s.sweepVisit
        ∧ t.sweep = { s.sweep with position := t.sweep.position } ∧ t.sweep.position.val = s.sweep.position.val + 1
        ∧ t = { s.visit s.sweep.position with sweep := t.sweep })
    ∧ (s.sweep.position.val = 8191 → ∃ t, t = s.sweepVisit
        ∧ t.sweep = { s.sweep with
            mode := if s.sweep.mode = .onePass then .stop else s.sweep.mode
            position := 0, passCount := s.sweep.passCount + 1 }
        ∧ (∀ q, t.port q = ((s.visit s.sweep.position).port q).takes
            [⟨.sweepPassDone, 0, ((s.sweep.passCount + 1).toNat : Int), s.clock⟩])
        ∧ t = { s.visit s.sweep.position with sweep := t.sweep, ports := t.ports })
    ∧ (s.sweep.mode = .stop → s.sweepTick = s)
    ∧ (s.sweep.mode = .single → s.sweepTick = s.visit s.sweep.single)
    ∧ (s.sweep.mode = .continuous → s.sweepTick = Nat.iterate State.sweepVisit s.sweep.rate s)
    ∧ (s.sweep.mode = .onePass →
        s.sweepTick = Nat.iterate State.sweepVisit (min s.sweep.rate (8192 - s.sweep.position.val)) s
        ∧ (8192 ≤ s.sweep.position.val + s.sweep.rate → s.sweepTick.sweep.mode = .stop))
    ∧ (s.sweep.mode = .continuous → s.sweep.rate ≤ 64 →
      s.sweepTick.sweep.position.val = (s.sweep.position.val + s.sweep.rate) % 8192
      ∧ s.sweepTick.sweep.mode = .continuous
      ∧ s.sweepTick.sweep.passCount
          = (if 8192 ≤ s.sweep.position.val + s.sweep.rate then s.sweep.passCount + 1 else s.sweep.passCount))

/-! ## Office clock, ticks and resets -/

/-- R170, R171, R81, R82, R83: READ_CLOCK, CLOCK_SET and the one-second step, which comes at every tenth tick, advances the
office clock, wrapping, lowers the life of every open message by 1, and in the same step closes each message whose life has
reached 0, in ascending slot order: EXPIRED, or SENT for a one-way message whose attempt 0 has been transmitted. That the
second divider counts on beyond ten ticks until the step is taken, and that the clock advances before the expiries of its
step, is the model's choice (log entry 4), and so is that the step comes after the acts of its tenth tick (log entry 22). -/
def Obligations.OfficeClockAndSeconds : Prop :=
  ∀ (s : State) (p : PortId),
    (s.serves p anyRole → ∃ b, exec (.readClock p []) s = .next (s.answers p .ok b) ∧ b.length = 4
      ∧ natOfBytes b = s.clock.toNat)
    ∧ (∀ v : Clock, s.serves p [.supervisor] →
      exec (.clockSet p (bytesOf 4 v.toNat)) s = .next
        (State.answers { s with clock := v } p .ok (bytesOf 4 s.clock.toNat ++ bytesOf 4 v.toNat)))
    ∧ (s.phase = .working → s.secondDivider < 10 → exec .oneSecondStep s = .next s)
    ∧ (s.phase = .working → 10 ≤ s.secondDivider → s.canonical → ∃ t, exec .oneSecondStep s = .next t
      ∧ t.clock.toNat = (s.clock.toNat + 1) % 4294967296 ∧ t.secondDivider = s.secondDivider - 10
      ∧ (∀ slot m, s.message slot = some m → m.closing = none → 2 ≤ m.life →
          t.message slot = some { m with life := m.life - 1 })
      ∧ (∀ slot m (o : MsgOutcome), s.message slot = some m → m.closing = none → m.life ≤ 1 →
          o = (if m.kind = .oneWay ∧ ∃ a ∈ m.attempts, a.number = 0 ∧ a.transmitted.isSome then .sent else .expired) →
          t.message slot = some { m with
            life := 0, closing := some ⟨o, m.settlementAmount o 0⟩, retryTimer := none, frozen := false })
      ∧ (∀ slot m, s.message slot = some m → m.closing.isSome → t.message slot = some m)
      ∧ (∀ slot, s.message slot = none → t.message slot = none)
      ∧ (∃ u : State, (∀ slot, u.message slot = (s.message slot).map fun m =>
            if m.closing = none then { m with life := m.life - 1 } else m)
        ∧ u = { s with clock := s.clock + 1, secondDivider := s.secondDivider - 10, messages := u.messages }
        ∧ oneByOne (fun slot a b => ∃ m, a.message slot = some m ∧ m.closing = none ∧ a.closes b slot m
              (if m.kind = .oneWay ∧ ∃ r ∈ m.attempts, r.number = 0 ∧ r.transmitted.isSome then .sent else .expired) 0)
            ((s.messages.filter fun x => decide (x.2.closing = none ∧ x.2.life ≤ 1)).map Prod.fst) u t)
      ∧ (∀ q, (t.port q).outcomes = (s.port q).outcomes
          ++ (s.messages.filter fun x => decide (x.2.closing = none ∧ x.2.life ≤ 1 ∧ x.2.port = q)).map Prod.fst)
      ∧ (∀ i e, s.entry i = some e → ∃ e', t.entry i = some e' ∧ e'.terms = e.terms
          ∧ e'.openCount = e.openCount - ((s.openBilled i).filter fun m => decide (m.life ≤ 1)).length)
      ∧ ((∀ slot m, s.message slot = some m → (s.entry m.billed).isSome) → t.journal.records.length
          = s.journal.records.length
            + (s.messages.filter fun x => decide (x.2.closing = none ∧ x.2.life ≤ 1)).length)
      ∧ ((∀ slot m, s.message slot = some m → m.closing = none → 2 ≤ m.life) →
          t = { s with clock := t.clock, secondDivider := t.secondDivider, messages := t.messages })
      ∧ t = { s with
          clock := t.clock, secondDivider := t.secondDivider, messages := t.messages, ports := t.ports
          directory := t.directory, stalls := t.stalls, zones := t.zones, journal := t.journal })

/-- R98, R102, R111, R122, R135 to R137, R154, R170: a TICK of a working part counts down every batch timer, accept deadline,
link timer and unfrozen retry timer of a slot in WAIT by one (`u` is the state as counted); takes in the same tick the retry
expiry of each slot whose timer reaches 0, one after another in ascending slot order; and then takes the sweep's visits, as
SweepVisitsAndPosition states them. A part that does not work takes no tick. That the timers of zones and links stand at 0 for
an expiry that is due, and stay there, is the model's choice (log entry 4); that the tick divider stands at 0 is the model's
choice (log entry 6), and so are the order of the three parts (log entry 8) and that all of them come before the one-second
step of a tenth tick (log entry 22); that the idle timer stops at 1 while a stream is
being sent is read from R122 (log entry 15, DEDUCED). -/
def Obligations.TickCountsEveryTimer : Prop :=
  ∀ s : State, (s.phase ≠ .working → exec .tick s = .next s)
    ∧ (s.phase = .working → ∃ u v : State, exec .tick s = .next v.sweepTick ∧ u.secondDivider = s.secondDivider + 1
      ∧ (∀ z, u.zone z = { s.zone z with
          batchTimer := (s.zone z).batchTimer - 1
          inFlight := (s.zone z).inFlight.map fun b => { b with deadline := b.deadline - 1 } })
      ∧ (∀ z, u.link z = { s.link z with
          huntTimer := (s.link z).huntTimer.map (· - 1), exchangeTimer := (s.link z).exchangeTimer.map (· - 1)
          silenceTimer := (s.link z).silenceTimer.map (· - 1), idleTimer := (u.link z).idleTimer
          holdOffTimer := (s.link z).holdOffTimer.map (· - 1) })
      ∧ (∀ z, (u.link z).idleTimer =
          if ((s.link z).onLine.toList ++ (s.link z).txQueue).any OutBlock.isStream = true
              ∧ (s.link z).idleTimer = some 1 then some 1
          else (s.link z).idleTimer.map (· - 1))
      ∧ (∀ slot m, s.message slot = some m → u.message slot = some
          (if s.slotState slot = .wait ∧ m.frozen = false then { m with retryTimer := m.retryTimer.map (· - 1) } else m))
      ∧ (∀ slot, s.message slot = none → u.message slot = none)
      ∧ u = { s with
          tickDivider := 0, secondDivider := u.secondDivider, zones := u.zones, links := u.links, messages := u.messages }
      ∧ (s.canonical → oneByOne State.waitEnds ((s.messages.filter fun x => decide
          (s.slotStateOf x.1 x.2 = .wait ∧ x.2.frozen = false ∧ ∃ n ∈ x.2.retryTimer, n ≤ 1)).map Prod.fst) u v))

/-- R159, R172, R173 and the columns After reset of the record tables: OFFICE_RESET is answered OK and changes nothing else
but that its reset is to come; when its response has ended, or is being sent and ends with the event, the reset is taken, from
power-on and RESET_N low too; a device reset samples the straps and gives every record its value after reset; RESET_N holds
the part and its return high starts the pass, and the pass's end starts the work with each batch timer at 50 ticks. That a
flag holds the reset of an OFFICE_RESET until its own row takes it is the model's choice (log entry 11); that the rows carry
the levels of the straps, and that RESET_N_HIGH keeps those of the falling edge, is the model's choice (log entry 16); that
State.reset has the pass running is the model's choice (log entry 9); the stored reason and target of an action, which no rule
gives after reset, are not claimed (log entry 19). -/
def Obligations.ResetsAndThePass : Prop :=
  ∀ (s : State) (r1 r0 : Bool),
    (∀ p : PortId, s.serves p [.supervisor] → exec (.officeReset p []) s
      = .next ((s.setPort p { s.port p with resetAfter := true }).answers p .ok []))
    ∧ (s.phase ≠ .held →
      s.resetDue = true ∨ (∃ p : PortId, (s.port p).resetAfter = true ∧ (s.port p).receiver = .sending) →
      exec (.officeResetTakesEffect r1 r0) s
        = .next { State.reset with pending := s.pending, straps := ⟨r1, r0⟩, phase := .starting })
    ∧ (s.phase = .held ∨ s.resetDue = false
        ∧ (∀ p : PortId, (s.port p).resetAfter = false ∨ (s.port p).receiver ≠ .sending) →
      exec (.officeResetTakesEffect r1 r0) s = .next s)
    ∧ exec (.resetNLow r1 r0) s = .next { State.reset with pending := s.pending, straps := ⟨r1, r0⟩, phase := .held }
    ∧ exec (.powerOn r1 r0) s = .next { State.reset with
        pending := s.pending, straps := ⟨r1, r0⟩, phase := if s.phase = .held then .held else .starting }
    ∧ (∀ ph : Phase,
      State.afterReset { State.reset with pending := s.pending, straps := ⟨r1, r0⟩, phase := ph })
    ∧ (s.phase = .held → exec .resetNHigh s = .next { s with phase := .starting })
    ∧ (s.phase ≠ .held → exec .resetNHigh s = .next s)
    ∧ (s.phase ≠ .starting → exec .initialisationPassEnd s = .next s)
    ∧ (s.phase = .starting → ∃ t, exec .initialisationPassEnd s = .next t ∧ t.phase = .working ∧ t.tickDivider = 0
      ∧ t.secondDivider = 0 ∧ (∀ z, t.zone z = { s.zone z with batchTimer := 50 })
      ∧ t = { s with phase := .working, tickDivider := 0, secondDivider := 0, zones := t.zones })

/-! ## What only some commands change -/

/-- R171, Table 11-1: only CLOCK_SET, ONE_SECOND_STEP and the events that take a device reset change the office clock. -/
def Obligations.OnlyFiveCommandsChangeTheClock : Prop :=
  ∀ (i : Instr) (s t : State), exec i s = .next t → t.clock ≠ s.clock →
    (∃ p body, i = .clockSet p body) ∨ i = .oneSecondStep ∨ (∃ a b, i = .officeResetTakesEffect a b)
      ∨ (∃ a b, i = .powerOn a b) ∨ ∃ a b, i = .resetNLow a b

/-- R83: the outcome, the settled amount and the attempt list of a CLOSED slot stand, whatever event is taken, until the
slot is FREE again by FETCH_OUTCOMES or by a device reset. -/
def Obligations.ClosedMessagesStandUntilFreed : Prop :=
  ∀ (i : Instr) (s t : State) (slot : SlotId) (m : Message), exec i s = .next t → s.message slot = some m →
    m.closing.isSome →
    (∃ m', t.message slot = some m' ∧ m'.closing = m.closing ∧ m'.attempts = m.attempts ∧ m'.hold = m.hold
        ∧ m'.billed = m.billed ∧ m'.port = m.port)
      ∨ t.message slot = none ∧ ((∃ p body, i = .fetchOutcomes p body) ∨ (∃ a b, i = .officeResetTakesEffect a b)
        ∨ (∃ a b, i = .powerOn a b) ∨ ∃ a b, i = .resetNLow a b)

/-! ## Invariants that every step keeps -/

/-- The machine right after a device reset meets every invariant stated below. -/
def Obligations.ResetMeetsTheInvariants : Prop :=
  State.reset.canonical ∧ State.reset.mapAgrees ∧ State.reset.supervised ∧ State.reset.eventsBounded
    ∧ State.reset.reserved ∧ State.reset.outcomesListed ∧ State.reset.accountLaw ∧ State.reset.downZonesEmpty
    ∧ State.reset.queuesOrdered ∧ State.reset.congestionAgrees

/-- R6: every step keeps the tables in canonical form, and the pager address map in agreement with the directory. -/
def Obligations.StepKeepsTheTables : Prop :=
  (∀ s t : State, s.canonical → step s = .next t → t.canonical)
    ∧ ∀ s t : State, s.mapAgrees → step s = .next t → t.mapAgrees

/-- R164, R166, R167: every step keeps at least one SUPERVISOR port, and the event queues within 32 records with a set lost
flag beside a full queue only. -/
def Obligations.StepKeepsThePorts : Prop :=
  (∀ s t : State, s.supervised → step s = .next t → t.supervised)
    ∧ ∀ s t : State, s.eventsBounded → step s = .next t → t.eventsBounded

/-- R146: every step keeps one free journal record in reserve for every open message. -/
def Obligations.StepKeepsTheJournalReserve : Prop :=
  ∀ s t : State, s.reserved → step s = .next t → t.reserved

/-- R88: every step keeps each CLOSED slot on its submitting port's outcome list, once, and no other slot on any list. -/
def Obligations.StepKeepsTheOutcomeLists : Prop :=
  ∀ s t : State, s.outcomesListed → step s = .next t → t.outcomesListed

/-- R5: every step keeps the account law: held and open count are the sum of the holds and the number of the open
messages billed to the entry. -/
def Obligations.StepKeepsTheAccountLaw : Prop :=
  ∀ s t : State, s.canonical → s.outcomesListed → s.accountLaw → step s = .next t → t.accountLaw

/-- R94, R96, R107, R120: every step keeps the zones whose link is not UP empty and a profile on every link in UP; every zone
queue in queue order; and every congested flag in agreement with the queued words and the settings in force. -/
def Obligations.StepKeepsDownZonesEmpty : Prop :=
  (∀ s t : State, s.downZonesEmpty → step s = .next t → t.downZonesEmpty)
    ∧ (∀ s t : State, s.queuesOrdered → step s = .next t → t.queuesOrdered)
    ∧ ∀ s t : State, s.congestionAgrees → step s = .next t → t.congestionAgrees
end

