-- ==== Sys2Proof/Laws/Bytes.lean ====
section
/-! SUPPORT. What the bytes of a number read back as, where a field of a body stands, and that a CRC just added is good. -/

namespace Sys2Proof.Machine

@[simp] theorem bytesOf_length (len n : Nat) : (bytesOf len n).length = len := by
  induction len with
  | zero => rfl
  | succ k ih => simp [bytesOf, ih]

theorem natOfBytes_foldl (bs : List Byte) (acc : Nat) :
    bs.foldl (fun n b => n * 256 + b.toNat) acc = acc * 256 ^ bs.length + natOfBytes bs := by
  induction bs generalizing acc with
  | nil => simp [natOfBytes]
  | cons b rest ih =>
    have h0 : natOfBytes (b :: rest) = b.toNat * 256 ^ rest.length + natOfBytes rest := by
      rw [natOfBytes, List.foldl_cons, ih]; simp
    rw [List.foldl_cons, ih, h0, List.length_cons, pow_succ]
    ring

theorem natOfBytes_cons (b : Byte) (rest : List Byte) :
    natOfBytes (b :: rest) = b.toNat * 256 ^ rest.length + natOfBytes rest := by
  rw [natOfBytes, List.foldl_cons, natOfBytes_foldl]; simp

@[simp] theorem natOfBytes_nil : natOfBytes [] = 0 := rfl

theorem natOfBytes_append (a b : List Byte) : natOfBytes (a ++ b) = natOfBytes a * 256 ^ b.length + natOfBytes b := by
  rw [natOfBytes, List.foldl_append, natOfBytes_foldl]
  rfl

theorem natOfBytes_lt (bs : List Byte) : natOfBytes bs < 256 ^ bs.length := by
  induction bs with
  | nil => simp
  | cons b rest ih =>
    have := b.isLt
    rw [natOfBytes_cons, List.length_cons, pow_succ]
    nlinarith [Nat.pow_pos (n := rest.length) (show 0 < 256 by decide)]

/-- The bytes of a number read back as the number, cut to their length. -/
@[simp] theorem natOfBytes_bytesOf (len n : Nat) : natOfBytes (bytesOf len n) = n % 256 ^ len := by
  induction len generalizing n with
  | zero => simp [bytesOf, Nat.mod_one]
  | succ k ih =>
    rw [bytesOf, natOfBytes_cons, ih, bytesOf_length, BitVec.toNat_ofNat, pow_succ 256 k, show 2 ^ 8 = 256 from rfl]
    have h1 : n % (256 ^ k * 256) = n % 256 ^ k + 256 ^ k * (n / 256 ^ k % 256) := Nat.mod_mul ..
    rw [h1]
    ring

/-- The field at the front of a body. -/
theorem fieldAt_front {a b : List Byte} {len : Nat} (h : a.length = len) : fieldAt (a ++ b) 0 len = natOfBytes a := by
  subst h; simp [fieldAt]

/-- A field beyond a front part of a body. -/
theorem fieldAt_append {a b : List Byte} {off k len : Nat} (h : off = a.length + k) :
    fieldAt (a ++ b) off len = fieldAt b k len := by
  subst h; simp [fieldAt, List.drop_append, List.drop_eq_nil_of_le]

/-- The front field of the bytes of a number and a rest. -/
theorem fieldAt_bytesOf (len n : Nat) (b : List Byte) : fieldAt (bytesOf len n ++ b) 0 len = n % 256 ^ len := by
  rw [fieldAt_front (bytesOf_length len n), natOfBytes_bytesOf]

/-- The bytes of a number alone. -/
theorem fieldAt_bytesOf_nil (len n : Nat) : fieldAt (bytesOf len n) 0 len = n % 256 ^ len := by
  simpa using fieldAt_bytesOf len n []

/-- A field that begins beyond the front part of a body. -/
theorem fieldAt_skip {a b : List Byte} {off len : Nat} (h : a.length ≤ off) :
    fieldAt (a ++ b) off len = fieldAt b (off - a.length) len :=
  fieldAt_append (by omega)

/-- The byte at the front of a body. -/
theorem fieldAt_cons_zero (x : Byte) (b : List Byte) : fieldAt (x :: b) 0 1 = x.toNat := by
  simp [fieldAt, natOfBytes_cons]

/-- A field beyond the byte at the front of a body. -/
theorem fieldAt_cons_skip (x : Byte) (b : List Byte) {off len : Nat} (h : 0 < off) :
    fieldAt (x :: b) off len = fieldAt b (off - 1) len := by
  obtain ⟨k, rfl⟩ : ∃ k, off = k + 1 := ⟨off - 1, by omega⟩
  simp [fieldAt]

/-- A field is below the power of its length. -/
theorem fieldAt_lt (b : List Byte) (off len : Nat) : fieldAt b off len < 256 ^ len := by
  refine lt_of_lt_of_le (natOfBytes_lt _) (Nat.pow_le_pow_right (by decide) ?_)
  simp

/-- The bytes of the number that bytes give are those bytes. -/
theorem bytesOf_natOfBytes (bs : List Byte) : bytesOf bs.length (natOfBytes bs) = bs := by
  induction bs with
  | nil => rfl
  | cons b rest ih =>
    have hlt := natOfBytes_lt rest
    have hb := b.isLt
    have hpos : 0 < 256 ^ rest.length := Nat.pow_pos (by decide)
    have hmod : ∀ (len n k : Nat), bytesOf len (n + 256 ^ len * k) = bytesOf len n := by
      intro len
      induction len with
      | zero => intro n k; rfl
      | succ l ihl =>
        intro n k
        have hl : 0 < 256 ^ l := Nat.pow_pos (by decide)
        have e1 : n + 256 ^ (l + 1) * k = n + 256 ^ l * (256 * k) := by ring
        rw [bytesOf, bytesOf, e1, ihl, Nat.add_mul_div_left _ _ hl]
        congr 1
        apply BitVec.eq_of_toNat_eq
        simp [Nat.add_mul_mod_self_left]
    rw [List.length_cons, bytesOf, natOfBytes_cons]
    congr 1
    · apply BitVec.eq_of_toNat_eq
      rw [BitVec.toNat_ofNat, Nat.mul_comm, Nat.mul_add_div hpos, Nat.div_eq_of_lt hlt]
      omega
    · rw [Nat.mul_comm, Nat.add_comm, hmod, ih]

/-- A body that is one field. -/
theorem bytesOf_fieldAt {body : List Byte} {len n : Nat} (hb : body.length = len) (h : fieldAt body 0 len = n) :
    bytesOf len n = body := by
  subst hb h
  simpa [fieldAt] using bytesOf_natOfBytes body

theorem crcBytes_length (bs : List Byte) : (crcBytes bs).length = 2 := bytesOf_length ..

/-- Bytes followed by their own CRC are judged good. -/
theorem crcGood_append (bs : List Byte) : crcGood (bs ++ crcBytes bs) = true := by
  have h : (bs ++ crcBytes bs).length - 2 = bs.length := by simp [crcBytes_length]
  simp only [crcGood, h, List.drop_left, List.take_left, decide_eq_true_eq]
  exact ⟨by simp [crcBytes_length], trivial⟩

end Sys2Proof.Machine
end

