-- ==== Sys2Proof/Laws/Table.lean ====
section
/-! SUPPORT. What the tables by key, the fixed banks and the zone sets read after each of their operations, and that every table operation keeps the canonical form. -/

namespace Sys2Proof.Machine

/-! ## Tables by key -/

section
variable {κ α β : Type} [LinearOrder κ]

@[simp] theorem tblGet_nil (k : κ) : tblGet k ([] : Tbl κ α) = none := rfl

@[simp] theorem tblGet_tblSet_self (k : κ) (v : α) (t : Tbl κ α) : tblGet k (tblSet k v t) = some v := by
  induction t with
  | nil => simp [tblSet, tblGet]
  | cons p rest ih =>
    obtain ⟨j, w⟩ := p
    by_cases h : j = k
    · simp [tblSet, tblGet, h]
    · by_cases h2 : k < j
      · simp [tblSet, tblGet, h, h2]
      · simp [tblSet, tblGet, h, h2, ih]

theorem tblGet_tblSet_ne {k j : κ} (v : α) (t : Tbl κ α) (h : j ≠ k) : tblGet j (tblSet k v t) = tblGet j t := by
  induction t with
  | nil => simp [tblSet, tblGet, Ne.symm h]
  | cons p rest ih =>
    obtain ⟨i, w⟩ := p
    by_cases h1 : i = k
    · subst h1; simp [tblSet, tblGet, Ne.symm h]
    · by_cases h2 : k < i
      · simp [tblSet, tblGet, h1, h2, Ne.symm h]
      · simp [tblSet, tblGet, h1, h2, ih]

theorem tblGet_tblSet (k j : κ) (v : α) (t : Tbl κ α) :
    tblGet j (tblSet k v t) = if j = k then some v else tblGet j t := by
  split
  · next h => subst h; exact tblGet_tblSet_self j v t
  · next h => exact tblGet_tblSet_ne v t h

@[simp] theorem tblGet_tblErase_self (k : κ) (t : Tbl κ α) : tblGet k (tblErase k t) = none := by
  induction t with
  | nil => rfl
  | cons p rest ih =>
    obtain ⟨j, w⟩ := p
    by_cases h : j = k
    · simpa [tblErase, h] using ih
    · simpa [tblErase, tblGet, h] using ih

theorem tblGet_tblErase_ne {k j : κ} (t : Tbl κ α) (h : j ≠ k) : tblGet j (tblErase k t) = tblGet j t := by
  induction t with
  | nil => rfl
  | cons p rest ih =>
    obtain ⟨i, w⟩ := p
    by_cases h1 : i = k
    · subst h1; simpa [tblErase, tblGet, Ne.symm h] using ih
    · by_cases h2 : i = j
      · simp [tblErase, tblGet, h2, h]
      · simpa [tblErase, tblGet, h1, h2] using ih

theorem tblGet_tblErase (k j : κ) (t : Tbl κ α) : tblGet j (tblErase k t) = if j = k then none else tblGet j t := by
  split
  · next h => subst h; exact tblGet_tblErase_self j t
  · next h => exact tblGet_tblErase_ne t h

@[simp] theorem tblGet_tblMap (f : κ → α → β) (k : κ) (t : Tbl κ α) : tblGet k (tblMap f t) = (tblGet k t).map (f k) := by
  induction t with
  | nil => rfl
  | cons p rest ih =>
    obtain ⟨j, w⟩ := p
    by_cases h : j = k
    · subst h; simp [tblMap, tblGet]
    · simpa [tblMap, tblGet, h] using ih

/-- A table in canonical form lists exactly the pairs it reads as. -/
theorem mem_iff_tblGet {t : Tbl κ α} (h : tblSorted t) (k : κ) (v : α) : (k, v) ∈ t ↔ tblGet k t = some v := by
  induction t with
  | nil => simp [tblGet]
  | cons p rest ih =>
    obtain ⟨j, w⟩ := p
    rw [tblSorted, List.pairwise_cons] at h
    by_cases hk : j = k
    · subst hk
      have : (j, v) ∉ rest := fun hm => lt_irrefl j (h.1 _ hm)
      simp [tblGet, this, eq_comm]
    · simp [tblGet, hk, Ne.symm hk, ih h.2]

theorem mem_tblSet {k : κ} {v : α} {t : Tbl κ α} {p : κ × α} (h : p ∈ tblSet k v t) : p = (k, v) ∨ p ∈ t := by
  induction t with
  | nil => simpa [tblSet] using h
  | cons q rest ih =>
    obtain ⟨j, w⟩ := q
    simp only [tblSet] at h
    split at h
    · rcases List.mem_cons.mp h with h | h
      · exact .inl h
      · exact .inr (List.mem_cons_of_mem _ h)
    · split at h
      · rcases List.mem_cons.mp h with h | h
        · exact .inl h
        · exact .inr h
      · rcases List.mem_cons.mp h with h | h
        · exact .inr (h ▸ List.mem_cons_self)
        · rcases ih h with h | h
          · exact .inl h
          · exact .inr (List.mem_cons_of_mem _ h)

theorem tblSorted_nil : tblSorted ([] : Tbl κ α) := List.Pairwise.nil

theorem tblSorted_tblSet (k : κ) (v : α) {t : Tbl κ α} (h : tblSorted t) : tblSorted (tblSet k v t) := by
  induction t with
  | nil => simp [tblSet, tblSorted]
  | cons p rest ih =>
    obtain ⟨j, w⟩ := p
    rw [tblSorted, List.pairwise_cons] at h
    simp only [tblSet]
    split
    · next hj => subst hj; exact List.pairwise_cons.mpr ⟨h.1, h.2⟩
    · next hj =>
      split
      · next hk =>
        refine List.pairwise_cons.mpr ⟨?_, List.pairwise_cons.mpr h⟩
        intro q hq
        rcases List.mem_cons.mp hq with rfl | hq
        · exact hk
        · exact lt_trans hk (h.1 _ hq)
      · next hk =>
        refine List.pairwise_cons.mpr ⟨?_, ih h.2⟩
        intro q hq
        rcases mem_tblSet hq with rfl | hq
        · exact lt_of_le_of_ne (not_lt.mp hk) hj
        · exact h.1 _ hq

theorem tblSorted_tblErase (k : κ) {t : Tbl κ α} (h : tblSorted t) : tblSorted (tblErase k t) :=
  List.Pairwise.filter _ h

theorem tblSorted_tblMap (f : κ → α → β) {t : Tbl κ α} (h : tblSorted t) : tblSorted (tblMap f t) :=
  List.pairwise_map.mpr h

end

/-! ## Fixed banks -/

section
variable {α β : Type} {n : Nat}

theorem bankGet_eq (v : Vector α n) (i : Fin n) : bankGet v i = v[i.val] := rfl

@[simp] theorem bankGet_bankSet_self (v : Vector α n) (i : Fin n) (x : α) : bankGet (bankSet v i x) i = x := by
  rw [bankGet_eq]; exact Vector.getElem_set_self i.isLt

theorem bankGet_bankSet_ne {i j : Fin n} (v : Vector α n) (x : α) (h : j ≠ i) :
    bankGet (bankSet v i x) j = bankGet v j := by
  rw [bankGet_eq, bankGet_eq]
  exact Vector.getElem_set_ne i.isLt j.isLt (fun e => h (Fin.ext e.symm))

@[simp] theorem bankGet_bankMap (f : α → β) (v : Vector α n) (i : Fin n) : bankGet (bankMap f v) i = f (bankGet v i) := by
  rw [bankGet_eq, bankGet_eq]; simp [bankMap]

@[simp] theorem bankGet_replicate (x : α) (i : Fin n) : bankGet (Vector.replicate n x) i = x := by
  simp [bankGet, Vector.get]

/-- Two banks with the same records are the same. -/
theorem bank_ext {v w : Vector α n} (h : ∀ i, bankGet v i = bankGet w i) : v = w := by
  apply Vector.ext
  intro i hi
  simpa [bankGet, Vector.get] using h ⟨i, hi⟩

end

/-! ## Zone sets -/

theorem mem_allZones (z : ZoneId) : z ∈ allZones := by revert z; decide

theorem mem_allPorts (p : PortId) : p ∈ allPorts := by revert p; decide

/-- Two zone sets with the same zones are the same. -/
theorem zoneSet_ext {a b : ZoneSet} (h : ∀ z, zoneIn z a = zoneIn z b) : a = b := by
  apply BitVec.eq_of_getLsbD_eq
  intro i hi
  exact h ⟨i, hi⟩

@[simp] theorem zoneIn_zero (z : ZoneId) : zoneIn z 0#8 = false := by simp [zoneIn]

theorem zoneIn_single (z y : ZoneId) : zoneIn y (zoneSingle z) = decide (y = z) := by
  revert z y; decide

theorem zoneIn_insert (z y : ZoneId) (zs : ZoneSet) : zoneIn y (zoneInsert z zs) = (zoneIn y zs || decide (y = z)) := by
  rw [zoneInsert, ← zoneIn_single]; simp [zoneIn]

theorem zoneIn_remove (z y : ZoneId) (zs : ZoneSet) : zoneIn y (zoneRemove z zs) = (zoneIn y zs && !decide (y = z)) := by
  rw [zoneRemove, ← zoneIn_single]; simp [zoneIn, y.isLt]

theorem zoneIn_or (y : ZoneId) (a b : ZoneSet) : zoneIn y (a ||| b) = (zoneIn y a || zoneIn y b) := by simp [zoneIn]

theorem zoneIn_and (y : ZoneId) (a b : ZoneSet) : zoneIn y (a &&& b) = (zoneIn y a && zoneIn y b) := by simp [zoneIn]

theorem zoneIn_foldl_insert (p : ZoneId → Bool) (zs : List ZoneId) (acc : ZoneSet) (y : ZoneId) :
    zoneIn y (zs.foldl (fun a z => if p z then zoneInsert z a else a) acc)
      = (zoneIn y acc || (decide (y ∈ zs) && p y)) := by
  induction zs generalizing acc with
  | nil => simp
  | cons z rest ih =>
    rw [List.foldl_cons, ih]
    by_cases hz : p z = true
    · by_cases hy : y = z
      · subst hy; simp [hz, zoneIn_insert]
      · simp [hz, zoneIn_insert, hy]
    · by_cases hy : y = z
      · subst hy; simp [hz]
      · simp [hz, hy]

/-- The set of the zones for which a test holds has exactly those zones. -/
@[simp] theorem zoneIn_zonesWhere (p : ZoneId → Bool) (y : ZoneId) : zoneIn y (zonesWhere p) = p y := by
  rw [zonesWhere, zoneIn_foldl_insert]; simp [mem_allZones]

end Sys2Proof.Machine
end

