-- ==== Sys2Proof/Laws/State.lean ====
section
/-! SUPPORT. One lemma for each field of State under each named update, and what the accessors read after an update. -/

namespace Sys2Proof.Machine

/-! ## State.setPort -/

@[simp] theorem State.setPort_pending (s : State) (p : PortId) (x : Port) : (s.setPort p x).pending = s.pending := rfl
@[simp] theorem State.setPort_phase (s : State) (p : PortId) (x : Port) : (s.setPort p x).phase = s.phase := rfl
@[simp] theorem State.setPort_straps (s : State) (p : PortId) (x : Port) : (s.setPort p x).straps = s.straps := rfl
@[simp] theorem State.setPort_resetDue (s : State) (p : PortId) (x : Port) : (s.setPort p x).resetDue = s.resetDue := rfl
@[simp] theorem State.setPort_tickDivider (s : State) (p : PortId) (x : Port) : (s.setPort p x).tickDivider = s.tickDivider := rfl
@[simp] theorem State.setPort_secondDivider (s : State) (p : PortId) (x : Port) : (s.setPort p x).secondDivider = s.secondDivider := rfl
@[simp] theorem State.setPort_clock (s : State) (p : PortId) (x : Port) : (s.setPort p x).clock = s.clock := rfl
@[simp] theorem State.setPort_directory (s : State) (p : PortId) (x : Port) : (s.setPort p x).directory = s.directory := rfl
@[simp] theorem State.setPort_addressMap (s : State) (p : PortId) (x : Port) : (s.setPort p x).addressMap = s.addressMap := rfl
@[simp] theorem State.setPort_plans (s : State) (p : PortId) (x : Port) : (s.setPort p x).plans = s.plans := rfl
@[simp] theorem State.setPort_classifier (s : State) (p : PortId) (x : Port) : (s.setPort p x).classifier = s.classifier := rfl
@[simp] theorem State.setPort_firstDefault (s : State) (p : PortId) (x : Port) : (s.setPort p x).firstDefault = s.firstDefault := rfl
@[simp] theorem State.setPort_secondDefault (s : State) (p : PortId) (x : Port) : (s.setPort p x).secondDefault = s.secondDefault := rfl
@[simp] theorem State.setPort_checkers (s : State) (p : PortId) (x : Port) : (s.setPort p x).checkers = s.checkers := rfl
@[simp] theorem State.setPort_epochs (s : State) (p : PortId) (x : Port) : (s.setPort p x).epochs = s.epochs := rfl
@[simp] theorem State.setPort_messages (s : State) (p : PortId) (x : Port) : (s.setPort p x).messages = s.messages := rfl
@[simp] theorem State.setPort_stalls (s : State) (p : PortId) (x : Port) : (s.setPort p x).stalls = s.stalls := rfl
@[simp] theorem State.setPort_zones (s : State) (p : PortId) (x : Port) : (s.setPort p x).zones = s.zones := rfl
@[simp] theorem State.setPort_links (s : State) (p : PortId) (x : Port) : (s.setPort p x).links = s.links := rfl
@[simp] theorem State.setPort_airHold (s : State) (p : PortId) (x : Port) : (s.setPort p x).airHold = s.airHold := rfl
@[simp] theorem State.setPort_journal (s : State) (p : PortId) (x : Port) : (s.setPort p x).journal = s.journal := rfl
@[simp] theorem State.setPort_sweep (s : State) (p : PortId) (x : Port) : (s.setPort p x).sweep = s.sweep := rfl

/-! ## State.setZone -/

@[simp] theorem State.setZone_pending (s : State) (z : ZoneId) (x : Zone) : (s.setZone z x).pending = s.pending := rfl
@[simp] theorem State.setZone_phase (s : State) (z : ZoneId) (x : Zone) : (s.setZone z x).phase = s.phase := rfl
@[simp] theorem State.setZone_straps (s : State) (z : ZoneId) (x : Zone) : (s.setZone z x).straps = s.straps := rfl
@[simp] theorem State.setZone_resetDue (s : State) (z : ZoneId) (x : Zone) : (s.setZone z x).resetDue = s.resetDue := rfl
@[simp] theorem State.setZone_tickDivider (s : State) (z : ZoneId) (x : Zone) : (s.setZone z x).tickDivider = s.tickDivider := rfl
@[simp] theorem State.setZone_secondDivider (s : State) (z : ZoneId) (x : Zone) : (s.setZone z x).secondDivider = s.secondDivider := rfl
@[simp] theorem State.setZone_clock (s : State) (z : ZoneId) (x : Zone) : (s.setZone z x).clock = s.clock := rfl
@[simp] theorem State.setZone_ports (s : State) (z : ZoneId) (x : Zone) : (s.setZone z x).ports = s.ports := rfl
@[simp] theorem State.setZone_directory (s : State) (z : ZoneId) (x : Zone) : (s.setZone z x).directory = s.directory := rfl
@[simp] theorem State.setZone_addressMap (s : State) (z : ZoneId) (x : Zone) : (s.setZone z x).addressMap = s.addressMap := rfl
@[simp] theorem State.setZone_plans (s : State) (z : ZoneId) (x : Zone) : (s.setZone z x).plans = s.plans := rfl
@[simp] theorem State.setZone_classifier (s : State) (z : ZoneId) (x : Zone) : (s.setZone z x).classifier = s.classifier := rfl
@[simp] theorem State.setZone_firstDefault (s : State) (z : ZoneId) (x : Zone) : (s.setZone z x).firstDefault = s.firstDefault := rfl
@[simp] theorem State.setZone_secondDefault (s : State) (z : ZoneId) (x : Zone) : (s.setZone z x).secondDefault = s.secondDefault := rfl
@[simp] theorem State.setZone_checkers (s : State) (z : ZoneId) (x : Zone) : (s.setZone z x).checkers = s.checkers := rfl
@[simp] theorem State.setZone_epochs (s : State) (z : ZoneId) (x : Zone) : (s.setZone z x).epochs = s.epochs := rfl
@[simp] theorem State.setZone_messages (s : State) (z : ZoneId) (x : Zone) : (s.setZone z x).messages = s.messages := rfl
@[simp] theorem State.setZone_stalls (s : State) (z : ZoneId) (x : Zone) : (s.setZone z x).stalls = s.stalls := rfl
@[simp] theorem State.setZone_links (s : State) (z : ZoneId) (x : Zone) : (s.setZone z x).links = s.links := rfl
@[simp] theorem State.setZone_airHold (s : State) (z : ZoneId) (x : Zone) : (s.setZone z x).airHold = s.airHold := rfl
@[simp] theorem State.setZone_journal (s : State) (z : ZoneId) (x : Zone) : (s.setZone z x).journal = s.journal := rfl
@[simp] theorem State.setZone_sweep (s : State) (z : ZoneId) (x : Zone) : (s.setZone z x).sweep = s.sweep := rfl

/-! ## State.setLink -/

@[simp] theorem State.setLink_pending (s : State) (z : ZoneId) (x : Link) : (s.setLink z x).pending = s.pending := rfl
@[simp] theorem State.setLink_phase (s : State) (z : ZoneId) (x : Link) : (s.setLink z x).phase = s.phase := rfl
@[simp] theorem State.setLink_straps (s : State) (z : ZoneId) (x : Link) : (s.setLink z x).straps = s.straps := rfl
@[simp] theorem State.setLink_resetDue (s : State) (z : ZoneId) (x : Link) : (s.setLink z x).resetDue = s.resetDue := rfl
@[simp] theorem State.setLink_tickDivider (s : State) (z : ZoneId) (x : Link) : (s.setLink z x).tickDivider = s.tickDivider := rfl
@[simp] theorem State.setLink_secondDivider (s : State) (z : ZoneId) (x : Link) : (s.setLink z x).secondDivider = s.secondDivider := rfl
@[simp] theorem State.setLink_clock (s : State) (z : ZoneId) (x : Link) : (s.setLink z x).clock = s.clock := rfl
@[simp] theorem State.setLink_ports (s : State) (z : ZoneId) (x : Link) : (s.setLink z x).ports = s.ports := rfl
@[simp] theorem State.setLink_directory (s : State) (z : ZoneId) (x : Link) : (s.setLink z x).directory = s.directory := rfl
@[simp] theorem State.setLink_addressMap (s : State) (z : ZoneId) (x : Link) : (s.setLink z x).addressMap = s.addressMap := rfl
@[simp] theorem State.setLink_plans (s : State) (z : ZoneId) (x : Link) : (s.setLink z x).plans = s.plans := rfl
@[simp] theorem State.setLink_classifier (s : State) (z : ZoneId) (x : Link) : (s.setLink z x).classifier = s.classifier := rfl
@[simp] theorem State.setLink_firstDefault (s : State) (z : ZoneId) (x : Link) : (s.setLink z x).firstDefault = s.firstDefault := rfl
@[simp] theorem State.setLink_secondDefault (s : State) (z : ZoneId) (x : Link) : (s.setLink z x).secondDefault = s.secondDefault := rfl
@[simp] theorem State.setLink_checkers (s : State) (z : ZoneId) (x : Link) : (s.setLink z x).checkers = s.checkers := rfl
@[simp] theorem State.setLink_epochs (s : State) (z : ZoneId) (x : Link) : (s.setLink z x).epochs = s.epochs := rfl
@[simp] theorem State.setLink_messages (s : State) (z : ZoneId) (x : Link) : (s.setLink z x).messages = s.messages := rfl
@[simp] theorem State.setLink_stalls (s : State) (z : ZoneId) (x : Link) : (s.setLink z x).stalls = s.stalls := rfl
@[simp] theorem State.setLink_zones (s : State) (z : ZoneId) (x : Link) : (s.setLink z x).zones = s.zones := rfl
@[simp] theorem State.setLink_airHold (s : State) (z : ZoneId) (x : Link) : (s.setLink z x).airHold = s.airHold := rfl
@[simp] theorem State.setLink_journal (s : State) (z : ZoneId) (x : Link) : (s.setLink z x).journal = s.journal := rfl
@[simp] theorem State.setLink_sweep (s : State) (z : ZoneId) (x : Link) : (s.setLink z x).sweep = s.sweep := rfl

/-! ## State.setEntry -/

@[simp] theorem State.setEntry_pending (s : State) (i : AccountIndex) (e : Entry) : (s.setEntry i e).pending = s.pending := rfl
@[simp] theorem State.setEntry_phase (s : State) (i : AccountIndex) (e : Entry) : (s.setEntry i e).phase = s.phase := rfl
@[simp] theorem State.setEntry_straps (s : State) (i : AccountIndex) (e : Entry) : (s.setEntry i e).straps = s.straps := rfl
@[simp] theorem State.setEntry_resetDue (s : State) (i : AccountIndex) (e : Entry) : (s.setEntry i e).resetDue = s.resetDue := rfl
@[simp] theorem State.setEntry_tickDivider (s : State) (i : AccountIndex) (e : Entry) : (s.setEntry i e).tickDivider = s.tickDivider := rfl
@[simp] theorem State.setEntry_secondDivider (s : State) (i : AccountIndex) (e : Entry) : (s.setEntry i e).secondDivider = s.secondDivider := rfl
@[simp] theorem State.setEntry_clock (s : State) (i : AccountIndex) (e : Entry) : (s.setEntry i e).clock = s.clock := rfl
@[simp] theorem State.setEntry_ports (s : State) (i : AccountIndex) (e : Entry) : (s.setEntry i e).ports = s.ports := rfl
@[simp] theorem State.setEntry_addressMap (s : State) (i : AccountIndex) (e : Entry) : (s.setEntry i e).addressMap = s.addressMap := rfl
@[simp] theorem State.setEntry_plans (s : State) (i : AccountIndex) (e : Entry) : (s.setEntry i e).plans = s.plans := rfl
@[simp] theorem State.setEntry_classifier (s : State) (i : AccountIndex) (e : Entry) : (s.setEntry i e).classifier = s.classifier := rfl
@[simp] theorem State.setEntry_firstDefault (s : State) (i : AccountIndex) (e : Entry) : (s.setEntry i e).firstDefault = s.firstDefault := rfl
@[simp] theorem State.setEntry_secondDefault (s : State) (i : AccountIndex) (e : Entry) : (s.setEntry i e).secondDefault = s.secondDefault := rfl
@[simp] theorem State.setEntry_checkers (s : State) (i : AccountIndex) (e : Entry) : (s.setEntry i e).checkers = s.checkers := rfl
@[simp] theorem State.setEntry_epochs (s : State) (i : AccountIndex) (e : Entry) : (s.setEntry i e).epochs = s.epochs := rfl
@[simp] theorem State.setEntry_messages (s : State) (i : AccountIndex) (e : Entry) : (s.setEntry i e).messages = s.messages := rfl
@[simp] theorem State.setEntry_stalls (s : State) (i : AccountIndex) (e : Entry) : (s.setEntry i e).stalls = s.stalls := rfl
@[simp] theorem State.setEntry_zones (s : State) (i : AccountIndex) (e : Entry) : (s.setEntry i e).zones = s.zones := rfl
@[simp] theorem State.setEntry_links (s : State) (i : AccountIndex) (e : Entry) : (s.setEntry i e).links = s.links := rfl
@[simp] theorem State.setEntry_airHold (s : State) (i : AccountIndex) (e : Entry) : (s.setEntry i e).airHold = s.airHold := rfl
@[simp] theorem State.setEntry_journal (s : State) (i : AccountIndex) (e : Entry) : (s.setEntry i e).journal = s.journal := rfl
@[simp] theorem State.setEntry_sweep (s : State) (i : AccountIndex) (e : Entry) : (s.setEntry i e).sweep = s.sweep := rfl

/-! ## State.setMessage -/

@[simp] theorem State.setMessage_pending (s : State) (slot : SlotId) (m : Message) : (s.setMessage slot m).pending = s.pending := rfl
@[simp] theorem State.setMessage_phase (s : State) (slot : SlotId) (m : Message) : (s.setMessage slot m).phase = s.phase := rfl
@[simp] theorem State.setMessage_straps (s : State) (slot : SlotId) (m : Message) : (s.setMessage slot m).straps = s.straps := rfl
@[simp] theorem State.setMessage_resetDue (s : State) (slot : SlotId) (m : Message) : (s.setMessage slot m).resetDue = s.resetDue := rfl
@[simp] theorem State.setMessage_tickDivider (s : State) (slot : SlotId) (m : Message) : (s.setMessage slot m).tickDivider = s.tickDivider := rfl
@[simp] theorem State.setMessage_secondDivider (s : State) (slot : SlotId) (m : Message) : (s.setMessage slot m).secondDivider = s.secondDivider := rfl
@[simp] theorem State.setMessage_clock (s : State) (slot : SlotId) (m : Message) : (s.setMessage slot m).clock = s.clock := rfl
@[simp] theorem State.setMessage_ports (s : State) (slot : SlotId) (m : Message) : (s.setMessage slot m).ports = s.ports := rfl
@[simp] theorem State.setMessage_directory (s : State) (slot : SlotId) (m : Message) : (s.setMessage slot m).directory = s.directory := rfl
@[simp] theorem State.setMessage_addressMap (s : State) (slot : SlotId) (m : Message) : (s.setMessage slot m).addressMap = s.addressMap := rfl
@[simp] theorem State.setMessage_plans (s : State) (slot : SlotId) (m : Message) : (s.setMessage slot m).plans = s.plans := rfl
@[simp] theorem State.setMessage_classifier (s : State) (slot : SlotId) (m : Message) : (s.setMessage slot m).classifier = s.classifier := rfl
@[simp] theorem State.setMessage_firstDefault (s : State) (slot : SlotId) (m : Message) : (s.setMessage slot m).firstDefault = s.firstDefault := rfl
@[simp] theorem State.setMessage_secondDefault (s : State) (slot : SlotId) (m : Message) : (s.setMessage slot m).secondDefault = s.secondDefault := rfl
@[simp] theorem State.setMessage_checkers (s : State) (slot : SlotId) (m : Message) : (s.setMessage slot m).checkers = s.checkers := rfl
@[simp] theorem State.setMessage_epochs (s : State) (slot : SlotId) (m : Message) : (s.setMessage slot m).epochs = s.epochs := rfl
@[simp] theorem State.setMessage_stalls (s : State) (slot : SlotId) (m : Message) : (s.setMessage slot m).stalls = s.stalls := rfl
@[simp] theorem State.setMessage_zones (s : State) (slot : SlotId) (m : Message) : (s.setMessage slot m).zones = s.zones := rfl
@[simp] theorem State.setMessage_links (s : State) (slot : SlotId) (m : Message) : (s.setMessage slot m).links = s.links := rfl
@[simp] theorem State.setMessage_airHold (s : State) (slot : SlotId) (m : Message) : (s.setMessage slot m).airHold = s.airHold := rfl
@[simp] theorem State.setMessage_journal (s : State) (slot : SlotId) (m : Message) : (s.setMessage slot m).journal = s.journal := rfl
@[simp] theorem State.setMessage_sweep (s : State) (slot : SlotId) (m : Message) : (s.setMessage slot m).sweep = s.sweep := rfl

/-! ## State.setEpoch -/

@[simp] theorem State.setEpoch_pending (s : State) (slot : SlotId) (e : Epoch) : (s.setEpoch slot e).pending = s.pending := rfl
@[simp] theorem State.setEpoch_phase (s : State) (slot : SlotId) (e : Epoch) : (s.setEpoch slot e).phase = s.phase := rfl
@[simp] theorem State.setEpoch_straps (s : State) (slot : SlotId) (e : Epoch) : (s.setEpoch slot e).straps = s.straps := rfl
@[simp] theorem State.setEpoch_resetDue (s : State) (slot : SlotId) (e : Epoch) : (s.setEpoch slot e).resetDue = s.resetDue := rfl
@[simp] theorem State.setEpoch_tickDivider (s : State) (slot : SlotId) (e : Epoch) : (s.setEpoch slot e).tickDivider = s.tickDivider := rfl
@[simp] theorem State.setEpoch_secondDivider (s : State) (slot : SlotId) (e : Epoch) : (s.setEpoch slot e).secondDivider = s.secondDivider := rfl
@[simp] theorem State.setEpoch_clock (s : State) (slot : SlotId) (e : Epoch) : (s.setEpoch slot e).clock = s.clock := rfl
@[simp] theorem State.setEpoch_ports (s : State) (slot : SlotId) (e : Epoch) : (s.setEpoch slot e).ports = s.ports := rfl
@[simp] theorem State.setEpoch_directory (s : State) (slot : SlotId) (e : Epoch) : (s.setEpoch slot e).directory = s.directory := rfl
@[simp] theorem State.setEpoch_addressMap (s : State) (slot : SlotId) (e : Epoch) : (s.setEpoch slot e).addressMap = s.addressMap := rfl
@[simp] theorem State.setEpoch_plans (s : State) (slot : SlotId) (e : Epoch) : (s.setEpoch slot e).plans = s.plans := rfl
@[simp] theorem State.setEpoch_classifier (s : State) (slot : SlotId) (e : Epoch) : (s.setEpoch slot e).classifier = s.classifier := rfl
@[simp] theorem State.setEpoch_firstDefault (s : State) (slot : SlotId) (e : Epoch) : (s.setEpoch slot e).firstDefault = s.firstDefault := rfl
@[simp] theorem State.setEpoch_secondDefault (s : State) (slot : SlotId) (e : Epoch) : (s.setEpoch slot e).secondDefault = s.secondDefault := rfl
@[simp] theorem State.setEpoch_checkers (s : State) (slot : SlotId) (e : Epoch) : (s.setEpoch slot e).checkers = s.checkers := rfl
@[simp] theorem State.setEpoch_messages (s : State) (slot : SlotId) (e : Epoch) : (s.setEpoch slot e).messages = s.messages := rfl
@[simp] theorem State.setEpoch_stalls (s : State) (slot : SlotId) (e : Epoch) : (s.setEpoch slot e).stalls = s.stalls := rfl
@[simp] theorem State.setEpoch_zones (s : State) (slot : SlotId) (e : Epoch) : (s.setEpoch slot e).zones = s.zones := rfl
@[simp] theorem State.setEpoch_links (s : State) (slot : SlotId) (e : Epoch) : (s.setEpoch slot e).links = s.links := rfl
@[simp] theorem State.setEpoch_airHold (s : State) (slot : SlotId) (e : Epoch) : (s.setEpoch slot e).airHold = s.airHold := rfl
@[simp] theorem State.setEpoch_journal (s : State) (slot : SlotId) (e : Epoch) : (s.setEpoch slot e).journal = s.journal := rfl
@[simp] theorem State.setEpoch_sweep (s : State) (slot : SlotId) (e : Epoch) : (s.setEpoch slot e).sweep = s.sweep := rfl

/-! ## State.post -/

@[simp] theorem State.post_pending (s : State) (k : EventKind) (a : Nat) (d : Int) : (s.post k a d).pending = s.pending := rfl
@[simp] theorem State.post_phase (s : State) (k : EventKind) (a : Nat) (d : Int) : (s.post k a d).phase = s.phase := rfl
@[simp] theorem State.post_straps (s : State) (k : EventKind) (a : Nat) (d : Int) : (s.post k a d).straps = s.straps := rfl
@[simp] theorem State.post_resetDue (s : State) (k : EventKind) (a : Nat) (d : Int) : (s.post k a d).resetDue = s.resetDue := rfl
@[simp] theorem State.post_tickDivider (s : State) (k : EventKind) (a : Nat) (d : Int) : (s.post k a d).tickDivider = s.tickDivider := rfl
@[simp] theorem State.post_secondDivider (s : State) (k : EventKind) (a : Nat) (d : Int) : (s.post k a d).secondDivider = s.secondDivider := rfl
@[simp] theorem State.post_clock (s : State) (k : EventKind) (a : Nat) (d : Int) : (s.post k a d).clock = s.clock := rfl
@[simp] theorem State.post_directory (s : State) (k : EventKind) (a : Nat) (d : Int) : (s.post k a d).directory = s.directory := rfl
@[simp] theorem State.post_addressMap (s : State) (k : EventKind) (a : Nat) (d : Int) : (s.post k a d).addressMap = s.addressMap := rfl
@[simp] theorem State.post_plans (s : State) (k : EventKind) (a : Nat) (d : Int) : (s.post k a d).plans = s.plans := rfl
@[simp] theorem State.post_classifier (s : State) (k : EventKind) (a : Nat) (d : Int) : (s.post k a d).classifier = s.classifier := rfl
@[simp] theorem State.post_firstDefault (s : State) (k : EventKind) (a : Nat) (d : Int) : (s.post k a d).firstDefault = s.firstDefault := rfl
@[simp] theorem State.post_secondDefault (s : State) (k : EventKind) (a : Nat) (d : Int) : (s.post k a d).secondDefault = s.secondDefault := rfl
@[simp] theorem State.post_checkers (s : State) (k : EventKind) (a : Nat) (d : Int) : (s.post k a d).checkers = s.checkers := rfl
@[simp] theorem State.post_epochs (s : State) (k : EventKind) (a : Nat) (d : Int) : (s.post k a d).epochs = s.epochs := rfl
@[simp] theorem State.post_messages (s : State) (k : EventKind) (a : Nat) (d : Int) : (s.post k a d).messages = s.messages := rfl
@[simp] theorem State.post_stalls (s : State) (k : EventKind) (a : Nat) (d : Int) : (s.post k a d).stalls = s.stalls := rfl
@[simp] theorem State.post_zones (s : State) (k : EventKind) (a : Nat) (d : Int) : (s.post k a d).zones = s.zones := rfl
@[simp] theorem State.post_links (s : State) (k : EventKind) (a : Nat) (d : Int) : (s.post k a d).links = s.links := rfl
@[simp] theorem State.post_airHold (s : State) (k : EventKind) (a : Nat) (d : Int) : (s.post k a d).airHold = s.airHold := rfl
@[simp] theorem State.post_journal (s : State) (k : EventKind) (a : Nat) (d : Int) : (s.post k a d).journal = s.journal := rfl
@[simp] theorem State.post_sweep (s : State) (k : EventKind) (a : Nat) (d : Int) : (s.post k a d).sweep = s.sweep := rfl

/-! ## State.respond -/

@[simp] theorem State.respond_pending (s : State) (p : PortId) (g : Nat) (st : Status) (b : List Byte) : (s.respond p g st b).pending = s.pending := rfl
@[simp] theorem State.respond_phase (s : State) (p : PortId) (g : Nat) (st : Status) (b : List Byte) : (s.respond p g st b).phase = s.phase := rfl
@[simp] theorem State.respond_straps (s : State) (p : PortId) (g : Nat) (st : Status) (b : List Byte) : (s.respond p g st b).straps = s.straps := rfl
@[simp] theorem State.respond_resetDue (s : State) (p : PortId) (g : Nat) (st : Status) (b : List Byte) : (s.respond p g st b).resetDue = s.resetDue := rfl
@[simp] theorem State.respond_tickDivider (s : State) (p : PortId) (g : Nat) (st : Status) (b : List Byte) : (s.respond p g st b).tickDivider = s.tickDivider := rfl
@[simp] theorem State.respond_secondDivider (s : State) (p : PortId) (g : Nat) (st : Status) (b : List Byte) : (s.respond p g st b).secondDivider = s.secondDivider := rfl
@[simp] theorem State.respond_clock (s : State) (p : PortId) (g : Nat) (st : Status) (b : List Byte) : (s.respond p g st b).clock = s.clock := rfl
@[simp] theorem State.respond_directory (s : State) (p : PortId) (g : Nat) (st : Status) (b : List Byte) : (s.respond p g st b).directory = s.directory := rfl
@[simp] theorem State.respond_addressMap (s : State) (p : PortId) (g : Nat) (st : Status) (b : List Byte) : (s.respond p g st b).addressMap = s.addressMap := rfl
@[simp] theorem State.respond_plans (s : State) (p : PortId) (g : Nat) (st : Status) (b : List Byte) : (s.respond p g st b).plans = s.plans := rfl
@[simp] theorem State.respond_classifier (s : State) (p : PortId) (g : Nat) (st : Status) (b : List Byte) : (s.respond p g st b).classifier = s.classifier := rfl
@[simp] theorem State.respond_firstDefault (s : State) (p : PortId) (g : Nat) (st : Status) (b : List Byte) : (s.respond p g st b).firstDefault = s.firstDefault := rfl
@[simp] theorem State.respond_secondDefault (s : State) (p : PortId) (g : Nat) (st : Status) (b : List Byte) : (s.respond p g st b).secondDefault = s.secondDefault := rfl
@[simp] theorem State.respond_checkers (s : State) (p : PortId) (g : Nat) (st : Status) (b : List Byte) : (s.respond p g st b).checkers = s.checkers := rfl
@[simp] theorem State.respond_epochs (s : State) (p : PortId) (g : Nat) (st : Status) (b : List Byte) : (s.respond p g st b).epochs = s.epochs := rfl
@[simp] theorem State.respond_messages (s : State) (p : PortId) (g : Nat) (st : Status) (b : List Byte) : (s.respond p g st b).messages = s.messages := rfl
@[simp] theorem State.respond_stalls (s : State) (p : PortId) (g : Nat) (st : Status) (b : List Byte) : (s.respond p g st b).stalls = s.stalls := rfl
@[simp] theorem State.respond_zones (s : State) (p : PortId) (g : Nat) (st : Status) (b : List Byte) : (s.respond p g st b).zones = s.zones := rfl
@[simp] theorem State.respond_links (s : State) (p : PortId) (g : Nat) (st : Status) (b : List Byte) : (s.respond p g st b).links = s.links := rfl
@[simp] theorem State.respond_airHold (s : State) (p : PortId) (g : Nat) (st : Status) (b : List Byte) : (s.respond p g st b).airHold = s.airHold := rfl
@[simp] theorem State.respond_journal (s : State) (p : PortId) (g : Nat) (st : Status) (b : List Byte) : (s.respond p g st b).journal = s.journal := rfl
@[simp] theorem State.respond_sweep (s : State) (p : PortId) (g : Nat) (st : Status) (b : List Byte) : (s.respond p g st b).sweep = s.sweep := rfl

/-! ## The accessors after an update -/

@[simp] theorem State.port_setPort_self (s : State) (i : PortId) (x : Port) : (s.setPort i x).port i = x :=
  bankGet_bankSet_self s.ports i x

theorem State.port_setPort_ne (s : State) (x : Port) {i j : PortId} (h : j ≠ i) : (s.setPort i x).port j = s.port j :=
  bankGet_bankSet_ne s.ports x h

theorem State.port_setPort (s : State) (i j : PortId) (x : Port) : (s.setPort i x).port j = if j = i then x else s.port j := by
  split
  · next h => subst h; exact State.port_setPort_self s j x
  · next h => exact State.port_setPort_ne s x h

@[simp] theorem State.zone_setZone_self (s : State) (i : ZoneId) (x : Zone) : (s.setZone i x).zone i = x :=
  bankGet_bankSet_self s.zones i x

theorem State.zone_setZone_ne (s : State) (x : Zone) {i j : ZoneId} (h : j ≠ i) : (s.setZone i x).zone j = s.zone j :=
  bankGet_bankSet_ne s.zones x h

theorem State.zone_setZone (s : State) (i j : ZoneId) (x : Zone) : (s.setZone i x).zone j = if j = i then x else s.zone j := by
  split
  · next h => subst h; exact State.zone_setZone_self s j x
  · next h => exact State.zone_setZone_ne s x h

@[simp] theorem State.link_setLink_self (s : State) (i : ZoneId) (x : Link) : (s.setLink i x).link i = x :=
  bankGet_bankSet_self s.links i x

theorem State.link_setLink_ne (s : State) (x : Link) {i j : ZoneId} (h : j ≠ i) : (s.setLink i x).link j = s.link j :=
  bankGet_bankSet_ne s.links x h

theorem State.link_setLink (s : State) (i j : ZoneId) (x : Link) : (s.setLink i x).link j = if j = i then x else s.link j := by
  split
  · next h => subst h; exact State.link_setLink_self s j x
  · next h => exact State.link_setLink_ne s x h

@[simp] theorem State.entry_setEntry_self (s : State) (i : AccountIndex) (e : Entry) : (s.setEntry i e).entry i = some e :=
  tblGet_tblSet_self i e s.directory

theorem State.entry_setEntry_ne (s : State) (e : Entry) {i j : AccountIndex} (h : j ≠ i) :
    (s.setEntry i e).entry j = s.entry j :=
  tblGet_tblSet_ne e s.directory h

theorem State.entry_setEntry (s : State) (i j : AccountIndex) (e : Entry) :
    (s.setEntry i e).entry j = if j = i then some e else s.entry j :=
  tblGet_tblSet i j e s.directory

@[simp] theorem State.message_setMessage_self (s : State) (slot : SlotId) (m : Message) :
    (s.setMessage slot m).message slot = some m :=
  tblGet_tblSet_self slot m s.messages

theorem State.message_setMessage_ne (s : State) (m : Message) {slot j : SlotId} (h : j ≠ slot) :
    (s.setMessage slot m).message j = s.message j :=
  tblGet_tblSet_ne m s.messages h

theorem State.message_setMessage (s : State) (slot j : SlotId) (m : Message) :
    (s.setMessage slot m).message j = if j = slot then some m else s.message j :=
  tblGet_tblSet slot j m s.messages

theorem State.epoch_setEpoch (s : State) (slot j : SlotId) (e : Epoch) :
    (s.setEpoch slot e).epoch j = if j = slot then e else s.epoch j := by
  rw [State.epoch, State.setEpoch]
  by_cases h : e = 0 <;> by_cases hj : j = slot <;> simp only [h, hj, if_true, if_false, tblGet_tblErase, tblGet_tblSet,
    Option.getD, State.epoch]

@[simp] theorem State.epoch_setEpoch_self (s : State) (slot : SlotId) (e : Epoch) : (s.setEpoch slot e).epoch slot = e := by
  simp [State.epoch_setEpoch]

theorem State.epoch_setEpoch_ne (s : State) (e : Epoch) {slot j : SlotId} (h : j ≠ slot) :
    (s.setEpoch slot e).epoch j = s.epoch j := by
  simp [State.epoch_setEpoch, h]

/-- Accessors that an update of another record leaves alone. -/
theorem State.openMessage_congr {s t : State} (h : s.messages = t.messages) (slot : SlotId) :
    s.openMessage slot = t.openMessage slot := by
  simp [State.openMessage, State.message, h]

@[simp] theorem State.zone_setPort' (s : State) (p : PortId) (x : Port) (j : ZoneId) : (s.setPort p x).zone j = s.zone j := rfl
@[simp] theorem State.link_setPort' (s : State) (p : PortId) (x : Port) (j : ZoneId) : (s.setPort p x).link j = s.link j := rfl
@[simp] theorem State.plan_setPort' (s : State) (p : PortId) (x : Port) (j : PlanIndex) : (s.setPort p x).plan j = s.plan j := rfl
@[simp] theorem State.entry_setPort' (s : State) (p : PortId) (x : Port) (j : AccountIndex) : (s.setPort p x).entry j = s.entry j := rfl
@[simp] theorem State.mapped_setPort' (s : State) (p : PortId) (x : Port) (j : PagerAddress) : (s.setPort p x).mapped j = s.mapped j := rfl
@[simp] theorem State.message_setPort' (s : State) (p : PortId) (x : Port) (j : SlotId) : (s.setPort p x).message j = s.message j := rfl
@[simp] theorem State.epoch_setPort' (s : State) (p : PortId) (x : Port) (j : SlotId) : (s.setPort p x).epoch j = s.epoch j := rfl
@[simp] theorem State.openMessage_setPort' (s : State) (p : PortId) (x : Port) (j : SlotId) : (s.setPort p x).openMessage j = s.openMessage j := rfl

@[simp] theorem State.port_setZone' (s : State) (z : ZoneId) (x : Zone) (j : PortId) : (s.setZone z x).port j = s.port j := rfl
@[simp] theorem State.link_setZone' (s : State) (z : ZoneId) (x : Zone) (j : ZoneId) : (s.setZone z x).link j = s.link j := rfl
@[simp] theorem State.plan_setZone' (s : State) (z : ZoneId) (x : Zone) (j : PlanIndex) : (s.setZone z x).plan j = s.plan j := rfl
@[simp] theorem State.entry_setZone' (s : State) (z : ZoneId) (x : Zone) (j : AccountIndex) : (s.setZone z x).entry j = s.entry j := rfl
@[simp] theorem State.mapped_setZone' (s : State) (z : ZoneId) (x : Zone) (j : PagerAddress) : (s.setZone z x).mapped j = s.mapped j := rfl
@[simp] theorem State.message_setZone' (s : State) (z : ZoneId) (x : Zone) (j : SlotId) : (s.setZone z x).message j = s.message j := rfl
@[simp] theorem State.epoch_setZone' (s : State) (z : ZoneId) (x : Zone) (j : SlotId) : (s.setZone z x).epoch j = s.epoch j := rfl
@[simp] theorem State.openMessage_setZone' (s : State) (z : ZoneId) (x : Zone) (j : SlotId) : (s.setZone z x).openMessage j = s.openMessage j := rfl

@[simp] theorem State.port_setLink' (s : State) (z : ZoneId) (x : Link) (j : PortId) : (s.setLink z x).port j = s.port j := rfl
@[simp] theorem State.zone_setLink' (s : State) (z : ZoneId) (x : Link) (j : ZoneId) : (s.setLink z x).zone j = s.zone j := rfl
@[simp] theorem State.plan_setLink' (s : State) (z : ZoneId) (x : Link) (j : PlanIndex) : (s.setLink z x).plan j = s.plan j := rfl
@[simp] theorem State.entry_setLink' (s : State) (z : ZoneId) (x : Link) (j : AccountIndex) : (s.setLink z x).entry j = s.entry j := rfl
@[simp] theorem State.mapped_setLink' (s : State) (z : ZoneId) (x : Link) (j : PagerAddress) : (s.setLink z x).mapped j = s.mapped j := rfl
@[simp] theorem State.message_setLink' (s : State) (z : ZoneId) (x : Link) (j : SlotId) : (s.setLink z x).message j = s.message j := rfl
@[simp] theorem State.epoch_setLink' (s : State) (z : ZoneId) (x : Link) (j : SlotId) : (s.setLink z x).epoch j = s.epoch j := rfl
@[simp] theorem State.openMessage_setLink' (s : State) (z : ZoneId) (x : Link) (j : SlotId) : (s.setLink z x).openMessage j = s.openMessage j := rfl

@[simp] theorem State.port_setEntry' (s : State) (i : AccountIndex) (e : Entry) (j : PortId) : (s.setEntry i e).port j = s.port j := rfl
@[simp] theorem State.zone_setEntry' (s : State) (i : AccountIndex) (e : Entry) (j : ZoneId) : (s.setEntry i e).zone j = s.zone j := rfl
@[simp] theorem State.link_setEntry' (s : State) (i : AccountIndex) (e : Entry) (j : ZoneId) : (s.setEntry i e).link j = s.link j := rfl
@[simp] theorem State.plan_setEntry' (s : State) (i : AccountIndex) (e : Entry) (j : PlanIndex) : (s.setEntry i e).plan j = s.plan j := rfl
@[simp] theorem State.mapped_setEntry' (s : State) (i : AccountIndex) (e : Entry) (j : PagerAddress) : (s.setEntry i e).mapped j = s.mapped j := rfl
@[simp] theorem State.message_setEntry' (s : State) (i : AccountIndex) (e : Entry) (j : SlotId) : (s.setEntry i e).message j = s.message j := rfl
@[simp] theorem State.epoch_setEntry' (s : State) (i : AccountIndex) (e : Entry) (j : SlotId) : (s.setEntry i e).epoch j = s.epoch j := rfl
@[simp] theorem State.openMessage_setEntry' (s : State) (i : AccountIndex) (e : Entry) (j : SlotId) : (s.setEntry i e).openMessage j = s.openMessage j := rfl

@[simp] theorem State.port_setMessage' (s : State) (slot : SlotId) (m : Message) (j : PortId) : (s.setMessage slot m).port j = s.port j := rfl
@[simp] theorem State.zone_setMessage' (s : State) (slot : SlotId) (m : Message) (j : ZoneId) : (s.setMessage slot m).zone j = s.zone j := rfl
@[simp] theorem State.link_setMessage' (s : State) (slot : SlotId) (m : Message) (j : ZoneId) : (s.setMessage slot m).link j = s.link j := rfl
@[simp] theorem State.plan_setMessage' (s : State) (slot : SlotId) (m : Message) (j : PlanIndex) : (s.setMessage slot m).plan j = s.plan j := rfl
@[simp] theorem State.entry_setMessage' (s : State) (slot : SlotId) (m : Message) (j : AccountIndex) : (s.setMessage slot m).entry j = s.entry j := rfl
@[simp] theorem State.mapped_setMessage' (s : State) (slot : SlotId) (m : Message) (j : PagerAddress) : (s.setMessage slot m).mapped j = s.mapped j := rfl
@[simp] theorem State.epoch_setMessage' (s : State) (slot : SlotId) (m : Message) (j : SlotId) : (s.setMessage slot m).epoch j = s.epoch j := rfl

@[simp] theorem State.port_setEpoch' (s : State) (slot : SlotId) (e : Epoch) (j : PortId) : (s.setEpoch slot e).port j = s.port j := rfl
@[simp] theorem State.zone_setEpoch' (s : State) (slot : SlotId) (e : Epoch) (j : ZoneId) : (s.setEpoch slot e).zone j = s.zone j := rfl
@[simp] theorem State.link_setEpoch' (s : State) (slot : SlotId) (e : Epoch) (j : ZoneId) : (s.setEpoch slot e).link j = s.link j := rfl
@[simp] theorem State.plan_setEpoch' (s : State) (slot : SlotId) (e : Epoch) (j : PlanIndex) : (s.setEpoch slot e).plan j = s.plan j := rfl
@[simp] theorem State.entry_setEpoch' (s : State) (slot : SlotId) (e : Epoch) (j : AccountIndex) : (s.setEpoch slot e).entry j = s.entry j := rfl
@[simp] theorem State.mapped_setEpoch' (s : State) (slot : SlotId) (e : Epoch) (j : PagerAddress) : (s.setEpoch slot e).mapped j = s.mapped j := rfl
@[simp] theorem State.message_setEpoch' (s : State) (slot : SlotId) (e : Epoch) (j : SlotId) : (s.setEpoch slot e).message j = s.message j := rfl
@[simp] theorem State.openMessage_setEpoch' (s : State) (slot : SlotId) (e : Epoch) (j : SlotId) : (s.setEpoch slot e).openMessage j = s.openMessage j := rfl

@[simp] theorem State.zone_post' (s : State) (k : EventKind) (a : Nat) (d : Int) (j : ZoneId) : (s.post k a d).zone j = s.zone j := rfl
@[simp] theorem State.link_post' (s : State) (k : EventKind) (a : Nat) (d : Int) (j : ZoneId) : (s.post k a d).link j = s.link j := rfl
@[simp] theorem State.plan_post' (s : State) (k : EventKind) (a : Nat) (d : Int) (j : PlanIndex) : (s.post k a d).plan j = s.plan j := rfl
@[simp] theorem State.entry_post' (s : State) (k : EventKind) (a : Nat) (d : Int) (j : AccountIndex) : (s.post k a d).entry j = s.entry j := rfl
@[simp] theorem State.mapped_post' (s : State) (k : EventKind) (a : Nat) (d : Int) (j : PagerAddress) : (s.post k a d).mapped j = s.mapped j := rfl
@[simp] theorem State.message_post' (s : State) (k : EventKind) (a : Nat) (d : Int) (j : SlotId) : (s.post k a d).message j = s.message j := rfl
@[simp] theorem State.epoch_post' (s : State) (k : EventKind) (a : Nat) (d : Int) (j : SlotId) : (s.post k a d).epoch j = s.epoch j := rfl
@[simp] theorem State.openMessage_post' (s : State) (k : EventKind) (a : Nat) (d : Int) (j : SlotId) : (s.post k a d).openMessage j = s.openMessage j := rfl

@[simp] theorem State.zone_respond' (s : State) (p : PortId) (g : Nat) (st : Status) (b : List Byte) (j : ZoneId) : (s.respond p g st b).zone j = s.zone j := rfl
@[simp] theorem State.link_respond' (s : State) (p : PortId) (g : Nat) (st : Status) (b : List Byte) (j : ZoneId) : (s.respond p g st b).link j = s.link j := rfl
@[simp] theorem State.plan_respond' (s : State) (p : PortId) (g : Nat) (st : Status) (b : List Byte) (j : PlanIndex) : (s.respond p g st b).plan j = s.plan j := rfl
@[simp] theorem State.entry_respond' (s : State) (p : PortId) (g : Nat) (st : Status) (b : List Byte) (j : AccountIndex) : (s.respond p g st b).entry j = s.entry j := rfl
@[simp] theorem State.mapped_respond' (s : State) (p : PortId) (g : Nat) (st : Status) (b : List Byte) (j : PagerAddress) : (s.respond p g st b).mapped j = s.mapped j := rfl
@[simp] theorem State.message_respond' (s : State) (p : PortId) (g : Nat) (st : Status) (b : List Byte) (j : SlotId) : (s.respond p g st b).message j = s.message j := rfl
@[simp] theorem State.epoch_respond' (s : State) (p : PortId) (g : Nat) (st : Status) (b : List Byte) (j : SlotId) : (s.respond p g st b).epoch j = s.epoch j := rfl
@[simp] theorem State.openMessage_respond' (s : State) (p : PortId) (g : Nat) (st : Status) (b : List Byte) (j : SlotId) : (s.respond p g st b).openMessage j = s.openMessage j := rfl

end Sys2Proof.Machine
end

