-- ==== Sys2Proof/Laws/Paging.lean ====
section
/-! SUPPORT. Every shared operation that moves pages stays inside the frame State.pages: one lemma for each. -/

namespace Sys2Proof.Machine

theorem State.pages.refl (s : State) : s.pages s :=
  ⟨rfl, fun _ => rfl, fun _ => rfl, fun _ => rfl, fun _ => rfl, rfl, fun _ => List.prefix_rfl, fun _ => List.prefix_rfl, List.prefix_rfl,
    fun _ => rfl, fun _ _ h _ => h⟩

theorem State.pages.trans {s t u : State} (h : s.pages t) (k : t.pages u) : s.pages u where
  rest := by
    have h1 := h.rest
    have h2 := k.rest
    rw [h1] at h2
    exact h2
  line p := (k.line p).trans (h.line p)
  terms i := (k.terms i).trans (h.terms i)
  still z := (k.still z).trans (h.still z)
  schedule z := (k.schedule z).trans (h.schedule z)
  highWater := k.highWater.trans h.highWater
  events p := (h.events p).trans (k.events p)
  outcomes p := (h.outcomes p).trans (k.outcomes p)
  records := h.records.trans k.records
  messages slot := (k.messages slot).trans (h.messages slot)
  closed slot m hm hc := k.closed slot m (h.closed slot m hm hc) hc

/-- A fold of operations that each stay inside the frame stays inside it. -/
theorem State.pages.foldl {α : Type} (f : State → α → State) (hf : ∀ (s : State) (a : α), s.pages (f s a)) (l : List α) (s : State) :
    s.pages (l.foldl f s) := by
  induction l generalizing s with
  | nil => exact .refl s
  | cons a rest ih => exact (hf s a).trans (ih (f s a))

theorem Work.pages_foldl {α : Type} (f : Work → α → Work) (hf : ∀ (w : Work) (a : α), w.state.pages (f w a).state) (l : List α)
    (w : Work) : w.state.pages (l.foldl f w).state := by
  induction l generalizing w with
  | nil => exact .refl w.state
  | cons a rest ih => exact (hf w a).trans (ih (f w a))

theorem Work.pages_map (f : State → State) (w : Work) (h : w.state.pages (f w.state)) : w.state.pages (w.map f).state := h

/-! ## Primitive updates -/

theorem State.pages_setPort {s : State} {p : PortId} {x : Port} (h : x.line = (s.port p).line)
    (he : (s.port p).events <+: x.events) (ho : (s.port p).outcomes <+: x.outcomes) : s.pages (s.setPort p x) where
  rest := rfl
  line q := by rw [State.port_setPort]; split <;> simp_all
  terms _ := rfl
  still _ := rfl
  schedule _ := rfl
  highWater := rfl
  events q := by
    rw [State.port_setPort]; split
    · next hq => subst hq; exact he
    · exact List.prefix_rfl
  outcomes q := by
    rw [State.port_setPort]; split
    · next hq => subst hq; exact ho
    · exact List.prefix_rfl
  records := List.prefix_rfl
  messages _ := rfl
  closed _ _ hm _ := hm

theorem State.pages_setZone {s : State} {z : ZoneId} {x : Zone} (h : x.schedule = (s.zone z).schedule) :
    s.pages (s.setZone z x) where
  rest := rfl
  line _ := rfl
  terms _ := rfl
  still _ := rfl
  schedule y := by rw [State.zone_setZone]; split <;> simp_all
  highWater := rfl
  events _ := List.prefix_rfl
  outcomes _ := List.prefix_rfl
  records := List.prefix_rfl
  messages _ := rfl
  closed _ _ hm _ := hm

theorem State.pages_setLink {s : State} {z : ZoneId} {x : Link} (h : x.still = (s.link z).still) :
    s.pages (s.setLink z x) where
  rest := rfl
  line _ := rfl
  terms _ := rfl
  still y := by rw [State.link_setLink]; split <;> simp_all
  schedule _ := rfl
  highWater := rfl
  events _ := List.prefix_rfl
  outcomes _ := List.prefix_rfl
  records := List.prefix_rfl
  messages _ := rfl
  closed _ _ hm _ := hm

theorem State.pages_setEntry {s : State} {i : AccountIndex} {e e' : Entry} (he : s.entry i = some e)
    (h : e'.terms = e.terms) : s.pages (s.setEntry i e') where
  rest := rfl
  line _ := rfl
  terms j := by
    rw [State.entry_setEntry]; split
    · next hj => subst hj; simp [he, h]
    · rfl
  still _ := rfl
  schedule _ := rfl
  highWater := rfl
  events _ := List.prefix_rfl
  outcomes _ := List.prefix_rfl
  records := List.prefix_rfl
  messages _ := rfl
  closed _ _ hm _ := hm

/-- The message of a slot that is open may change in what its terms leave out. -/
theorem State.pages_setMessage {s : State} {slot : SlotId} {m m' : Message} (hm : s.openMessage slot = some m)
    (h : m'.terms = m.terms) : s.pages (s.setMessage slot m') := by
  have ho : s.message slot = some m ∧ m.isOpen = true := by simpa [State.openMessage, Option.filter_eq_some_iff] using hm
  exact
    { rest := rfl
      line := fun _ => rfl
      terms := fun _ => rfl
      still := fun _ => rfl
      schedule := fun _ => rfl
      highWater := rfl
      events := fun _ => List.prefix_rfl
      outcomes := fun _ => List.prefix_rfl
      records := List.prefix_rfl
      messages := fun j => by
        rw [State.message_setMessage]; split
        · next hj => subst hj; simp [ho.1, h]
        · rfl
      closed := fun j n hn hc => by
        rw [State.message_setMessage]; split
        · next hj =>
          subst hj
          rw [ho.1] at hn
          cases hn
          simp [Message.isOpen] at ho
          simp [ho.2] at hc
        · exact hn }

theorem State.pages_stalls (s : State) (l : List SlotId) : s.pages { s with stalls := l } where
  rest := rfl
  line _ := rfl
  terms _ := rfl
  still _ := rfl
  schedule _ := rfl
  highWater := rfl
  events _ := List.prefix_rfl
  outcomes _ := List.prefix_rfl
  records := List.prefix_rfl
  messages _ := rfl
  closed _ _ hm _ := hm

theorem State.pages_journal {s : State} {j : Journal} (h : j.highWater = s.journal.highWater)
    (hr : s.journal.records <+: j.records) : s.pages { s with journal := j } where
  rest := rfl
  line _ := rfl
  terms _ := rfl
  still _ := rfl
  schedule _ := rfl
  highWater := h
  events _ := List.prefix_rfl
  outcomes _ := List.prefix_rfl
  records := hr
  messages _ := rfl
  closed _ _ hm _ := hm

/-! ## Events and flags -/

theorem Port.offer_line (r : EventRecord) (x : Port) : (x.offer r).line = x.line := by
  unfold Port.offer; split <;> rfl

theorem Port.offer_events (r : EventRecord) (x : Port) : x.events <+: (x.offer r).events := by
  unfold Port.offer; split
  · exact List.prefix_append ..
  · exact List.prefix_rfl

theorem Port.offer_outcomes (r : EventRecord) (x : Port) : (x.offer r).outcomes = x.outcomes := by
  unfold Port.offer; split <;> rfl

/-- A port with room stores the record. -/
theorem Port.mem_offer {r : EventRecord} {x : Port} (h : x.events.length < 32) : r ∈ (x.offer r).events := by
  simp [Port.offer, Config.eventQueueSize, h]

/-- What a posting does: every port of the kind's roles is offered the record, stamped with the office clock. -/
theorem State.port_post (k : EventKind) (a : Nat) (d : Int) (s : State) (p : PortId) :
    (s.post k a d).port p
      = if (s.port p).role ∈ eventRoles k then (s.port p).offer ⟨k, a, d, s.clock⟩ else s.port p := by
  show bankGet (bankMap _ s.ports) p = _
  rw [bankGet_bankMap]
  rfl

theorem State.pages_post (k : EventKind) (a : Nat) (d : Int) (s : State) : s.pages (s.post k a d) where
  rest := rfl
  line p := by rw [State.port_post]; split <;> simp [Port.offer_line]
  terms _ := rfl
  still _ := rfl
  schedule _ := rfl
  highWater := rfl
  events p := by
    rw [State.port_post]; split
    · exact Port.offer_events ..
    · exact List.prefix_rfl
  outcomes p := by rw [State.port_post]; split <;> simp [Port.offer_outcomes]
  records := List.prefix_rfl
  messages _ := rfl
  closed _ _ hm _ := hm

theorem State.pages_congestionTest (z : ZoneId) (s : State) : s.pages (s.congestionTest z) := by
  unfold State.congestionTest
  dsimp only
  split
  · exact (State.pages_setZone (by rfl)).trans (State.pages_post ..)
  · split
    · exact (State.pages_setZone (by rfl)).trans (State.pages_post ..)
    · exact .refl s

theorem State.pages_highWaterTest (s : State) : s.pages s.highWaterTest := by
  unfold State.highWaterTest
  dsimp only
  split
  · split
    · exact (State.pages_journal (j := { s.journal with armed := false }) (by rfl) List.prefix_rfl).trans
        (State.pages_post ..)
    · exact .refl s
  · exact State.pages_journal (j := { s.journal with armed := true }) (by rfl) List.prefix_rfl

theorem State.pages_appendRecord (r : JournalRecord) (s : State) : s.pages (s.appendRecord r) :=
  (State.pages_journal (j := { s.journal with records := s.journal.records ++ [r] }) (by rfl)
    (List.prefix_append ..)).trans (State.pages_highWaterTest _)

/-! ## The closing event -/

theorem State.pages_settle (slot : SlotId) (m : Message) (o : MsgOutcome) (k : Nat) (s : State) :
    s.pages (s.settle slot m o k) := by
  unfold State.settle
  split
  · exact .refl s
  · next e he => exact (State.pages_setEntry he (by rfl)).trans (State.pages_appendRecord ..)

theorem State.pages_listOutcome (p : PortId) (slot : SlotId) (s : State) : s.pages (s.listOutcome p slot) :=
  State.pages_setPort (by rfl) List.prefix_rfl (List.prefix_append ..)

theorem State.pages_withdraw (slot : SlotId) (e : Epoch) (s : State) :
    s.pages { s with zones := bankMap (Zone.withdraw slot e) s.zones } where
  rest := rfl
  line _ := rfl
  terms _ := rfl
  still _ := rfl
  schedule z := by simp [State.zone, Zone.schedule, Zone.withdraw]
  highWater := rfl
  events _ := List.prefix_rfl
  outcomes _ := List.prefix_rfl
  records := List.prefix_rfl
  messages _ := rfl
  closed _ _ hm _ := hm

theorem Work.pages_close (slot : SlotId) (o : MsgOutcome) (k : Nat) (w : Work) : w.state.pages (w.close slot o k).state := by
  unfold Work.close
  split
  · exact .refl _
  · next m hm =>
    refine (State.pages_withdraw slot (w.state.epoch slot) w.state).trans ?_
    refine (State.pages_stalls _ (w.state.stalls.filter fun x => decide (x ≠ slot))).trans ?_
    have ho : State.openMessage { w.state with
        zones := bankMap (Zone.withdraw slot (w.state.epoch slot)) w.state.zones
        stalls := w.state.stalls.filter fun x => decide (x ≠ slot) } slot = some m := hm
    refine (State.pages_setMessage (m := m)
      (m' := { m with closing := some ⟨o, m.settlementAmount o k⟩, retryTimer := none, frozen := false }) ho (by rfl)).trans ?_
    exact (State.pages_settle slot m o k _).trans (State.pages_listOutcome ..)

/-! ## Placing, completing, forming -/

theorem Work.pages_join (z : ZoneId) (slot : SlotId) (m : Message) (n : Nat) (w : Work) :
    w.state.pages (w.join z slot m n).state :=
  State.pages_setZone (by rfl)

theorem Work.pages_place (slot : SlotId) (w : Work) : w.state.pages (w.place slot).state := by
  unfold Work.place
  split
  · exact .refl _
  · next m hm =>
    split
    · exact .refl _
    · next a ha =>
      dsimp only
      generalize hv : (w.map fun s => s.setMessage slot
        { m with attempts :=
          changeLast (fun r => { r with pending := a.requested &&& w.state.upZones }) m.attempts }) = v
      have h1 : w.state.pages v.state := by
        rw [← hv]; exact State.pages_setMessage hm (by rfl)
      have h2 : ∀ l : List ZoneId, v.state.pages (l.foldl (fun v z => v.join z slot m a.number) v).state :=
        fun l => Work.pages_foldl _ (fun v z => Work.pages_join z slot m a.number v) l v
      split
      · exact h1.trans (State.pages_stalls ..)
      · split
        · exact h1.trans (h2 _)
        · exact h1.trans (h2 _)

theorem Work.pages_resume (z : ZoneId) (w : Work) : w.state.pages (w.resume z).state := by
  unfold Work.resume
  dsimp only
  exact (Work.pages_map _ w (State.pages_stalls _ _)).trans
    (Work.pages_foldl _ (fun v slot => Work.pages_place slot v) _ _)

theorem Work.pages_complete (slot : SlotId) (w : Work) : w.state.pages (w.complete slot).state := by
  unfold Work.complete
  split
  · exact .refl _
  · next m hm =>
    split
    · exact State.pages_setMessage hm (by rfl)
    · exact Work.pages_close ..

theorem Link.send_still (b : OutBlock) (x : Link) : (x.send b).still = x.still := by
  unfold Link.send; split <;> rfl

theorem Link.sendAll_still (bs : List OutBlock) (x : Link) : (x.sendAll bs).still = x.still := by
  unfold Link.sendAll
  induction bs generalizing x with
  | nil => rfl
  | cons b rest ih => rw [List.foldl_cons, ih, Link.send_still]

theorem State.pages_formWith (z : ZoneId) (p : Profile) (s : State) : s.pages (s.formWith z p) := by
  unfold State.formWith
  dsimp only
  exact (State.pages_setZone (by rfl)).trans (State.pages_setLink (by rw [Link.sendAll_still]; rfl))

theorem Work.pages_form (z : ZoneId) (w : Work) : w.state.pages (w.form z).state := by
  unfold Work.form
  split
  · exact State.pages_formWith ..
  · exact .refl _

theorem Work.pages_finish (w : Work) : w.state.pages w.finish := by
  unfold Work.finish
  dsimp only
  exact (Work.pages_foldl _ (fun v z => Work.pages_form z v) _ w).trans
    (State.pages.foldl _ (fun s z => State.pages_congestionTest z s) _ _)

theorem State.pages_closeMessage (slot : SlotId) (o : MsgOutcome) (k : Nat) (s : State) :
    s.pages (s.closeMessage slot o k) :=
  (Work.pages_close slot o k s.begin).trans (Work.pages_finish _)

/-! ## Answers and link loss -/

theorem State.openMessage_of_liveEntry {s : State} {q : QueueEntry} {m : Message} {a : Attempt}
    (h : s.liveEntry q = some (m, a)) : s.openMessage q.slot = some m := by
  unfold State.liveEntry at h
  split at h
  · cases h
  · next n hn =>
    split at h
    · cases h
    · split at h
      · cases h; exact hn
      · cases h

theorem Work.pages_credit (z : ZoneId) (be : BatchEntry) (w : Work) : w.state.pages (w.credit z be).state := by
  unfold Work.credit
  split
  · exact .refl _
  · next m a h =>
    have ho := State.openMessage_of_liveEntry h
    split
    · dsimp only
      split
      · exact (Work.pages_map _ w (State.pages_setMessage ho (by rfl))).trans (Work.pages_complete ..)
      · exact State.pages_setMessage ho (by rfl)
    · exact .refl _

theorem State.pages_unload (z : ZoneId) (s : State) :
    s.pages ((s.setZone z { s.zone z with inFlight := none }).setLink z ((s.link z).dropStream)) :=
  (State.pages_setZone (by rfl)).trans (State.pages_setLink (by rfl))

theorem Work.pages_accepted (z : ZoneId) (b : Batch) (w : Work) : w.state.pages (w.accepted z b).state := by
  unfold Work.accepted
  dsimp only
  have h : w.state.pages (b.entries.foldl (fun v be => v.credit z be) (w.map fun s =>
      (s.setZone z { s.zone z with inFlight := none }).setLink z ((s.link z).dropStream))).state :=
    (Work.pages_map _ w (State.pages_unload z w.state)).trans
      (Work.pages_foldl _ (fun v be => Work.pages_credit z be v) _ _)
  split <;> exact h

theorem Work.pages_giveBack (z : ZoneId) (be : BatchEntry) (w : Work) : w.state.pages (w.giveBack z be).state := by
  unfold Work.giveBack
  split
  · exact State.pages_setZone (by rfl)
  · exact .refl _

theorem Work.pages_refused (z : ZoneId) (b : Batch) (w : Work) : w.state.pages (w.refused z b).state := by
  unfold Work.refused
  dsimp only
  exact (Work.pages_map _ w (State.pages_unload z w.state)).trans
    (Work.pages_foldl _ (fun v be => Work.pages_giveBack z be v) _ _)

theorem Work.pages_lose (z : ZoneId) (q : QueueEntry) (w : Work) : w.state.pages (w.lose z q).state := by
  unfold Work.lose
  split
  · exact .refl _
  · next m a h =>
    have ho := State.openMessage_of_liveEntry h
    split
    · dsimp only
      have h1 := State.pages_setMessage (s := w.state) (slot := q.slot)
        (m' := { m with attempts := changeLast (fun r => { r with pending := zoneRemove z a.pending }) m.attempts })
        ho (by rfl)
      split
      · exact h1
      · split
        · exact (Work.pages_map _ w h1).trans (Work.pages_complete ..)
        · exact h1.trans (State.pages_stalls ..)
    · exact .refl _

theorem Work.pages_loseZone (z : ZoneId) (w : Work) : w.state.pages (w.loseZone z).state := by
  unfold Work.loseZone
  dsimp only
  generalize hv : (Work.mk _ _ _) = v
  have h1 : w.state.pages v.state := by rw [← hv]; exact State.pages_setZone (by rfl)
  exact h1.trans (Work.pages_foldl _ (fun v q => Work.pages_lose z q v) _ v)

/-! ## Retry and accounts -/

theorem State.pages_matchAck (t : AckTag) (s : State) : s.pages (s.matchAck t) := by
  unfold State.matchAck
  split
  · exact .refl _
  · repeat' split
    · exact .refl _
    · exact .refl _
    · exact .refl _
    · exact State.pages_closeMessage ..
    · exact .refl _
    · exact State.pages_post ..

theorem State.pages_formAttempt {slot : SlotId} {m : Message} {s : State} (h : s.openMessage slot = some m) :
    s.pages (s.formAttempt slot m) := by
  unfold State.formAttempt
  dsimp only
  generalize hv : s.setMessage slot _ = t
  have h1 : s.pages t := by rw [← hv]; exact State.pages_setMessage h (by rfl)
  exact h1.trans ((Work.pages_place slot t.begin).trans (Work.pages_finish _))

theorem State.pages_expireRetry (slot : SlotId) (s : State) : s.pages (s.expireRetry slot) := by
  unfold State.expireRetry
  split
  · next h =>
    split
    · exact State.pages_formAttempt h
    · exact State.pages_closeMessage ..
  · exact .refl _

theorem State.pages_purge (i : AccountIndex) (s : State) : s.pages (s.purge i) :=
  (Work.pages_foldl _ (fun w slot => Work.pages_close slot .purged 0 w) _ s.begin).trans (Work.pages_finish _)

end Sys2Proof.Machine
end

