-- ==== Sys2Proof/Laws/Closing.lean ====
section
/-! SUPPORT. What the tests and formations at the end of an event do, and everything a closing event does. -/

namespace Sys2Proof.Machine

/-! ## Ports and the records offered to them -/

theorem Port.takes_append (a b : List EventRecord) (x : Port) : x.takes (a ++ b) = (x.takes a).takes b := by
  simp [Port.takes]

@[simp] theorem Port.takes_nil (x : Port) : x.takes [] = x := rfl

theorem Port.takes_cons (r : EventRecord) (rest : List EventRecord) (x : Port) :
    x.takes (r :: rest) = (x.takes [r]).takes rest := Port.takes_append [r] rest x

theorem Port.takes_one (r : EventRecord) (x : Port) :
    x.takes [r] = if x.role ∈ eventRoles r.kind then x.offer r else x := rfl

/-- What a posting does to every port. -/
theorem State.port_post_takes (k : EventKind) (a : Nat) (d : Int) (s : State) (p : PortId) :
    (s.post k a d).port p = (s.port p).takes [⟨k, a, d, s.clock⟩] := by
  rw [State.port_post, Port.takes_one]

@[simp] theorem Port.takes_role (rs : List EventRecord) (x : Port) : (x.takes rs).role = x.role := by
  induction rs generalizing x with
  | nil => rfl
  | cons r rest ih =>
    rw [Port.takes_cons, ih, Port.takes_one]
    split
    · unfold Port.offer; split <;> rfl
    · rfl

theorem Port.takes_gap (rs : List EventRecord) (x : Port) : (x.takes rs).gap = x.gap := by
  induction rs generalizing x with
  | nil => rfl
  | cons r rest ih =>
    rw [Port.takes_cons, ih, Port.takes_one]
    split
    · unfold Port.offer; split <;> rfl
    · rfl

/-- A record posted to a port of its roles is stored, or the lost flag is set. -/
theorem Port.mem_takes {r : EventRecord} {rs : List EventRecord} {x : Port} (h : x.role ∈ eventRoles r.kind) (hr : r ∈ rs) :
    r ∈ (x.takes rs).events ∨ (x.takes rs).lost = true := by
  have keep : ∀ (l : List EventRecord) (y : Port), (r ∈ y.events ∨ y.lost = true) →
      r ∈ (y.takes l).events ∨ (y.takes l).lost = true := by
    intro l
    induction l with
    | nil => exact fun y h => h
    | cons a rest ih =>
      intro y hy
      rw [Port.takes_cons]
      apply ih
      rw [Port.takes_one]
      split
      · unfold Port.offer
        split
        · rcases hy with h | h
          · exact .inl (List.mem_append_left _ h)
          · exact .inr h
        · exact .inr rfl
      · exact hy
  induction rs generalizing x with
  | nil => cases hr
  | cons a rest ih =>
    rw [Port.takes_cons]
    rcases List.mem_cons.mp hr with rfl | hr
    · apply keep
      rw [Port.takes_one, if_pos h]
      unfold Port.offer
      split
      · exact .inl (List.mem_append_right _ List.mem_cons_self)
      · exact .inr rfl
    · exact ih (by rw [Port.takes_role]; exact h) hr

theorem Port.takes_outcomes (rs : List EventRecord) (x : Port) : (x.takes rs).outcomes = x.outcomes := by
  induction rs generalizing x with
  | nil => rfl
  | cons r rest ih =>
    rw [Port.takes_cons, ih, Port.takes_one]
    split
    · unfold Port.offer; split <;> rfl
    · rfl

/-- Records are taken whatever the outcome list is. -/
theorem Port.takes_listing (rs : List EventRecord) (x : Port) (l : List SlotId) :
    ({ x with outcomes := l } : Port).takes rs = { x.takes rs with outcomes := l } := by
  induction rs generalizing x with
  | nil => rfl
  | cons r rest ih =>
    rw [Port.takes_cons r rest x, ← ih, Port.takes_cons]
    congr 1
    rw [Port.takes_one, Port.takes_one]
    by_cases h : x.role ∈ eventRoles r.kind
    · rw [if_pos h, if_pos (by exact h)]
      unfold Port.offer
      by_cases h2 : x.events.length < Config.eventQueueSize
      · rw [if_pos h2, if_pos (by exact h2)]
      · rw [if_neg h2, if_neg (by exact h2)]
    · rw [if_neg h, if_neg (by exact h)]

/-! ## The end of an event (R96, R99) -/

/-- A congestion test changes the flag of its own zone and the ports' event queues, and nothing else. -/
theorem State.congestionTest_rest (z : ZoneId) (s : State) :
    s.congestionTest z
      = { s with ports := (s.congestionTest z).ports, zones := (s.congestionTest z).zones } := by
  unfold State.congestionTest
  dsimp only
  split
  · rfl
  · split <;> rfl

theorem State.zone_congestionTest (z y : ZoneId) (s : State) :
    (s.congestionTest z).zone y = { s.zone y with congested := ((s.congestionTest z).zone y).congested } := by
  unfold State.congestionTest
  dsimp only
  split
  · rw [State.zone_post', State.zone_setZone]
    split
    · next h => subst h; rfl
    · rfl
  · split
    · rw [State.zone_post', State.zone_setZone]
      split
      · next h => subst h; rfl
      · rfl
    · rfl

theorem State.zone_congestionTest_ne {z y : ZoneId} (s : State) (h : y ≠ z) : (s.congestionTest z).zone y = s.zone y := by
  unfold State.congestionTest
  dsimp only
  split
  · rw [State.zone_post', State.zone_setZone_ne _ _ h]
  · split
    · rw [State.zone_post', State.zone_setZone_ne _ _ h]
    · rfl

/-- The congestion tests of a list of zones. -/
theorem State.congestionTests_rest (l : List ZoneId) (s : State) :
    l.foldl (fun s z => s.congestionTest z) s
      = { s with
          ports := (l.foldl (fun s z => s.congestionTest z) s).ports
          zones := (l.foldl (fun s z => s.congestionTest z) s).zones } := by
  induction l generalizing s with
  | nil => rfl
  | cons z rest ih =>
    rw [List.foldl_cons]
    have h1 := ih (s.congestionTest z)
    have h2 := State.congestionTest_rest z s
    generalize hu : rest.foldl (fun s z => s.congestionTest z) (s.congestionTest z) = u at h1 ⊢
    rw [h1]
    generalize s.congestionTest z = v at h2
    rw [h2]

theorem State.zone_congestionTests (l : List ZoneId) (y : ZoneId) (s : State) :
    (l.foldl (fun s z => s.congestionTest z) s).zone y
      = { s.zone y with congested := ((l.foldl (fun s z => s.congestionTest z) s).zone y).congested } := by
  induction l generalizing s with
  | nil => rfl
  | cons z rest ih =>
    rw [List.foldl_cons, ih (s.congestionTest z), State.zone_congestionTest z y s]

theorem State.zone_congestionTests_ne {l : List ZoneId} {y : ZoneId} (s : State) (h : y ∉ l) :
    (l.foldl (fun s z => s.congestionTest z) s).zone y = s.zone y := by
  induction l generalizing s with
  | nil => rfl
  | cons z rest ih =>
    rw [List.foldl_cons, ih _ (fun hm => h (List.mem_cons_of_mem _ hm)),
      State.zone_congestionTest_ne _ (fun e => h (by rw [e]; exact List.mem_cons_self))]

/-- A formation changes zones and links only. -/
theorem Work.form_rest (z : ZoneId) (w : Work) :
    (w.form z).state = { w.state with zones := (w.form z).state.zones, links := (w.form z).state.links } := by
  unfold Work.form
  split <;> rfl

theorem Work.forms_rest (l : List ZoneId) (w : Work) :
    (l.foldl (fun v z => v.form z) w).state
      = { w.state with
          zones := (l.foldl (fun v z => v.form z) w).state.zones
          links := (l.foldl (fun v z => v.form z) w).state.links } := by
  induction l generalizing w with
  | nil => rfl
  | cons z rest ih =>
    rw [List.foldl_cons]
    have h1 := ih (w.form z)
    have h2 := Work.form_rest z w
    generalize (rest.foldl (fun v z => v.form z) (w.form z)).state = u at h1 ⊢
    rw [h1]
    generalize (w.form z).state = v at h2
    rw [h2]

theorem Work.zone_form_ne {z y : ZoneId} (w : Work) (h : y ≠ z) : (w.form z).state.zone y = w.state.zone y := by
  unfold Work.form
  split
  · simp [State.formWith, State.zone_setZone_ne _ _ h]
  · rfl

theorem Work.link_form_ne {z y : ZoneId} (w : Work) (h : y ≠ z) : (w.form z).state.link y = w.state.link y := by
  unfold Work.form
  split
  · simp [State.formWith, State.link_setLink_ne _ _ h]
  · rfl

theorem Work.touched_form (z y : ZoneId) (w : Work) :
    zoneIn y (w.form z).touched = true → zoneIn y w.touched = true ∨ y = z := by
  unfold Work.form
  split
  · simp [zoneIn_insert]
  · exact .inl

theorem Work.zone_forms_ne {l : List ZoneId} {y : ZoneId} (w : Work) (h : y ∉ l) :
    (l.foldl (fun v z => v.form z) w).state.zone y = w.state.zone y
      ∧ (l.foldl (fun v z => v.form z) w).state.link y = w.state.link y
      ∧ (zoneIn y (l.foldl (fun v z => v.form z) w).touched = true → zoneIn y w.touched = true) := by
  induction l generalizing w with
  | nil => exact ⟨rfl, rfl, id⟩
  | cons z rest ih =>
    have hz : y ≠ z := fun e => h (e ▸ List.mem_cons_self)
    obtain ⟨h1, h2, h3⟩ := ih (w.form z) (fun hm => h (List.mem_cons_of_mem _ hm))
    rw [List.foldl_cons]
    refine ⟨by rw [h1, Work.zone_form_ne _ hz], by rw [h2, Work.link_form_ne _ hz], fun ht => ?_⟩
    rcases Work.touched_form z y w (h3 ht) with h | h
    · exact h
    · exact absurd h hz

/-- The end of an event changes ports, zones and links only. -/
theorem Work.finish_rest (w : Work) :
    w.finish = { w.state with ports := w.finish.ports, zones := w.finish.zones, links := w.finish.links } := by
  unfold Work.finish
  dsimp only
  generalize hv : (allZones.filter fun z => zoneIn z w.calls).foldl (fun v z => v.form z) w = v
  have h1 := Work.forms_rest (allZones.filter fun z => zoneIn z w.calls) w
  rw [hv] at h1
  have h2 := State.congestionTests_rest (allZones.filter fun z => zoneIn z v.touched) v.state
  generalize (allZones.filter fun z => zoneIn z v.touched).foldl (fun s z => s.congestionTest z) v.state = u at h2
  rw [h2]
  generalize v.state = x at h1
  rw [h1]

@[simp] theorem Work.finish_messages (w : Work) : w.finish.messages = w.state.messages := by rw [Work.finish_rest]
@[simp] theorem Work.finish_directory (w : Work) : w.finish.directory = w.state.directory := by rw [Work.finish_rest]
@[simp] theorem Work.finish_addressMap (w : Work) : w.finish.addressMap = w.state.addressMap := by rw [Work.finish_rest]
@[simp] theorem Work.finish_stalls (w : Work) : w.finish.stalls = w.state.stalls := by rw [Work.finish_rest]
@[simp] theorem Work.finish_journal (w : Work) : w.finish.journal = w.state.journal := by rw [Work.finish_rest]
@[simp] theorem Work.finish_epochs (w : Work) : w.finish.epochs = w.state.epochs := by rw [Work.finish_rest]
@[simp] theorem Work.finish_clock (w : Work) : w.finish.clock = w.state.clock := by rw [Work.finish_rest]
@[simp] theorem Work.finish_airHold (w : Work) : w.finish.airHold = w.state.airHold := by rw [Work.finish_rest]

@[simp] theorem Work.message_finish (w : Work) (slot : SlotId) : w.finish.message slot = w.state.message slot := by
  rw [State.message, Work.finish_messages]; rfl

@[simp] theorem Work.entry_finish (w : Work) (i : AccountIndex) : w.finish.entry i = w.state.entry i := by
  rw [State.entry, Work.finish_directory]; rfl

@[simp] theorem Work.epoch_finish (w : Work) (slot : SlotId) : w.finish.epoch slot = w.state.epoch slot := by
  rw [State.epoch, Work.finish_epochs]; rfl

/-- A zone whose queue the event did not change and in which no formation is called for stands at its end. -/
theorem Work.zone_finish_ne {w : Work} {y : ZoneId} (hc : zoneIn y w.calls = false) (ht : zoneIn y w.touched = false) :
    w.finish.zone y = w.state.zone y := by
  unfold Work.finish
  dsimp only
  obtain ⟨h1, -, h3⟩ := Work.zone_forms_ne (l := allZones.filter fun z => zoneIn z w.calls) (y := y) w (by simp [hc])
  rw [State.zone_congestionTests_ne, h1]
  intro hm
  simp [mem_allZones] at hm
  simp [h3 hm] at ht

/-- The link of a zone in which no formation is called for stands. -/
theorem Work.link_finish_ne {w : Work} {y : ZoneId} (hc : zoneIn y w.calls = false) : w.finish.link y = w.state.link y := by
  unfold Work.finish
  dsimp only
  obtain ⟨-, h2, -⟩ := Work.zone_forms_ne (l := allZones.filter fun z => zoneIn z w.calls) (y := y) w (by simp [hc])
  rw [State.congestionTests_rest]
  exact h2

/-- A zone in which no formation is called for changes at the end of an event in its congested flag only. -/
theorem Work.zone_finish_quiet {w : Work} {y : ZoneId} (hc : zoneIn y w.calls = false) :
    w.finish.zone y = { w.state.zone y with congested := (w.finish.zone y).congested } := by
  unfold Work.finish
  dsimp only
  obtain ⟨h1, -, -⟩ := Work.zone_forms_ne (l := allZones.filter fun z => zoneIn z w.calls) (y := y) w (by simp [hc])
  rw [State.zone_congestionTests, h1]

/-- An event that calls for no formation leaves every link alone. -/
theorem Work.links_finish {w : Work} (hc : w.calls = 0) : w.finish.links = w.state.links := by
  apply bank_ext
  intro z
  exact Work.link_finish_ne (by simp [hc])

/-- An event that calls for no formation and changed no queue ends as it stands. -/
theorem Work.finish_idle {w : Work} (hc : w.calls = 0) (ht : w.touched = 0) : w.finish = w.state := by
  simp [Work.finish, hc, ht]

/-- Posting and congestion tests leave the outcome lists alone. -/
theorem State.outcomes_congestionTests (l : List ZoneId) (s : State) (p : PortId) :
    ((l.foldl (fun s z => s.congestionTest z) s).port p).outcomes = (s.port p).outcomes := by
  induction l generalizing s with
  | nil => rfl
  | cons z rest ih =>
    rw [List.foldl_cons, ih]
    unfold State.congestionTest
    dsimp only
    split
    · rw [State.port_post]; split <;> simp [Port.offer_outcomes]
    · split
      · rw [State.port_post]; split <;> simp [Port.offer_outcomes]
      · rfl

@[simp] theorem Work.outcomes_finish (w : Work) (p : PortId) : (w.finish.port p).outcomes = (w.state.port p).outcomes := by
  unfold Work.finish
  dsimp only
  rw [State.outcomes_congestionTests]
  have h := Work.forms_rest (allZones.filter fun z => zoneIn z w.calls) w
  rw [State.port, h]
  rfl

/-! ## The closing event (R83, R84, R88, R143) -/

theorem State.openMessage_eq_some {s : State} {slot : SlotId} {m : Message} :
    s.openMessage slot = some m ↔ s.message slot = some m ∧ m.closing = none := by
  simp [State.openMessage, Option.filter_eq_some_iff, Message.isOpen]

theorem State.openMessage_of {s : State} {slot : SlotId} {m : Message} (h : s.message slot = some m)
    (ho : m.closing = none) : s.openMessage slot = some m :=
  State.openMessage_eq_some.mpr ⟨h, ho⟩

theorem zoneIn_zonesQueuing {s : State} {slot : SlotId} {e : Epoch} {z : ZoneId} :
    zoneIn z (s.zonesQueuing slot e) = (s.zone z).queue.any fun q => q.isOf slot e := zoneIn_zonesWhere ..

/-- A settlement changes the billed entry, the journal and the ports' event queues. -/
theorem State.settle_rest (slot : SlotId) (m : Message) (o : MsgOutcome) (k : Nat) (s : State) :
    s.settle slot m o k = { s with
      ports := (s.settle slot m o k).ports, directory := (s.settle slot m o k).directory
      journal := (s.settle slot m o k).journal } := by
  unfold State.settle
  split
  · rfl
  · unfold State.appendRecord State.highWaterTest
    dsimp only
    split
    · split <;> rfl
    · rfl

theorem State.outcomes_highWaterTest (s : State) (p : PortId) : (s.highWaterTest.port p).outcomes = (s.port p).outcomes := by
  unfold State.highWaterTest
  dsimp only
  split
  · split
    · rw [State.port_post]; split
      · rw [Port.offer_outcomes]; rfl
      · rfl
    · rfl
  · rfl

@[simp] theorem State.highWaterTest_directory (s : State) : s.highWaterTest.directory = s.directory := by
  unfold State.highWaterTest
  dsimp only
  split
  · split <;> rfl
  · rfl

@[simp] theorem State.highWaterTest_records (s : State) : s.highWaterTest.journal.records = s.journal.records := by
  unfold State.highWaterTest
  dsimp only
  split
  · split <;> rfl
  · rfl

@[simp] theorem State.highWaterTest_highWater (s : State) : s.highWaterTest.journal.highWater = s.journal.highWater := by
  unfold State.highWaterTest
  dsimp only
  split
  · split <;> rfl
  · rfl

/-- Everything the high-water test does (R148). -/
theorem State.testsWater_highWaterTest (s : State) : s.testsWater s.highWaterTest := by
  constructor
  · rw [State.highWaterTest_records, State.highWaterTest_highWater]
    unfold State.highWaterTest
    dsimp only
    split
    · next h =>
      split
      · exact (decide_eq_false (by omega)).symm
      · next ha => exact (Bool.eq_false_iff.mpr ha).trans (decide_eq_false (by omega)).symm
    · next h => exact (decide_eq_true (by omega)).symm
  · intro q
    rw [State.highWaterTest_records, State.highWaterTest_highWater]
    unfold State.highWaterTest
    dsimp only
    split
    · next h =>
      split
      · next ha => rw [if_pos ⟨ha, h⟩, State.port_post_takes]; rfl
      · next ha => rw [if_neg (fun e => ha e.1)]; rfl
    · next h => rw [if_neg (fun e => h e.2)]; rfl

theorem State.outcomes_settle (slot : SlotId) (m : Message) (o : MsgOutcome) (k : Nat) (s : State) (p : PortId) :
    ((s.settle slot m o k).port p).outcomes = (s.port p).outcomes := by
  unfold State.settle
  split
  · rfl
  · exact State.outcomes_highWaterTest ..

theorem State.directory_settle {s : State} {m : Message} {e : Entry} (slot : SlotId) (o : MsgOutcome) (k : Nat)
    (h : s.entry m.billed = some e) :
    (s.settle slot m o k).directory = tblSet m.billed { e with
      balance := clampSigned (e.balance - m.settlementAmount o k), held := e.held - m.hold, openCount := e.openCount - 1 }
      s.directory := by
  unfold State.settle
  split
  · next h' => simp [h] at h'
  · next e' h' => rw [h] at h'; cases h'; exact State.highWaterTest_directory _

theorem State.settle_unbilled {s : State} {m : Message} (slot : SlotId) (o : MsgOutcome) (k : Nat)
    (h : s.entry m.billed = none) : s.settle slot m o k = s := by
  unfold State.settle; split
  · rfl
  · next e' h' => simp [h] at h'

theorem State.records_settle {s : State} {m : Message} {e : Entry} (slot : SlotId) (o : MsgOutcome) (k : Nat)
    (h : s.entry m.billed = some e) :
    (s.settle slot m o k).journal.records = s.journal.records ++ [.settle {
      account := m.billed, slot := slot, epoch := s.epoch slot, outcome := o, cls := m.cls, payloadWords := m.payload
      zonesSent := m.zonesSentCount o k, attempt := m.recordAttempt o k, amount := m.settlementAmount o k
      balanceAfter := clampSigned (e.balance - m.settlementAmount o k), time := s.clock }] := by
  unfold State.settle
  split
  · next h' => simp [h] at h'
  · next e' h' => rw [h] at h'; cases h'; exact State.highWaterTest_records _

/-- The journal and the ports after a settlement (R145, R148). -/
theorem State.water_settle {s : State} {m : Message} (slot : SlotId) (o : MsgOutcome) (k : Nat) :
    (s.settle slot m o k).journal.highWater = s.journal.highWater
      ∧ ((s.entry m.billed).isSome → (s.settle slot m o k).journal.armed
          = decide ((s.settle slot m o k).journal.records.length < (s.settle slot m o k).journal.highWater))
      ∧ ∀ q, (s.settle slot m o k).port q = (s.port q).takes
        (if (s.entry m.billed).isSome ∧ s.journal.armed = true
            ∧ (s.settle slot m o k).journal.highWater ≤ (s.settle slot m o k).journal.records.length then
          [⟨.journalHigh, 0, (((s.settle slot m o k).journal.records.length : Nat) : Int), s.clock⟩] else []) := by
  cases h : s.entry m.billed with
  | none => simp [State.settle_unbilled slot o k h]
  | some e =>
    simp only [State.settle, h, State.appendRecord]
    generalize hu : ({ s.setEntry m.billed _ with journal := _ } : State) = u
    have hw := State.testsWater_highWaterTest u
    have h1 : u.journal.highWater = s.journal.highWater := by rw [← hu]; rfl
    have h2 : u.journal.armed = s.journal.armed := by rw [← hu]; rfl
    have h3 : u.clock = s.clock := by rw [← hu]; rfl
    have h4 : ∀ q, u.port q = s.port q := fun q => by rw [← hu]; rfl
    refine ⟨by rw [State.highWaterTest_highWater, h1], fun _ => hw.armed, fun q => ?_⟩
    rw [hw.records q, h4, h2, h3]
    simp

/-- The state of a closing event, written out. -/
theorem Work.close_of {w : Work} {slot : SlotId} {m : Message} (o : MsgOutcome) (k : Nat)
    (h : w.state.openMessage slot = some m) :
    (w.close slot o k).state
      = ((({ w.state with
            zones := bankMap (Zone.withdraw slot (w.state.epoch slot)) w.state.zones
            stalls := w.state.stalls.filter fun x => decide (x ≠ slot) }).setMessage slot
          { m with closing := some ⟨o, m.settlementAmount o k⟩, retryTimer := none, frozen := false }).settle slot m o k).listOutcome
        m.port slot := by
  simp [Work.close, h]

theorem Work.close_closed {w : Work} {slot : SlotId} (o : MsgOutcome) (k : Nat) (h : w.state.openMessage slot = none) :
    w.close slot o k = w := by
  simp [Work.close, h]

@[simp] theorem Work.calls_close (w : Work) (slot : SlotId) (o : MsgOutcome) (k : Nat) : (w.close slot o k).calls = w.calls := by
  unfold Work.close; split <;> rfl

/-- Everything the closing of an open message does, before the test at the event's end. -/
theorem Work.shuts_close {w : Work} {slot : SlotId} {m : Message} (o : MsgOutcome) (k : Nat)
    (h : w.state.message slot = some m) (ho : m.closing = none) : w.state.shuts (w.close slot o k).state slot m o k := by
  rw [Work.close_of o k (State.openMessage_of h ho)]
  generalize hs : w.state = s
  generalize hu : (({ s with
            zones := bankMap (Zone.withdraw slot (s.epoch slot)) s.zones
            stalls := s.stalls.filter fun x => decide (x ≠ slot) }).setMessage slot
          { m with closing := some ⟨o, m.settlementAmount o k⟩, retryTimer := none, frozen := false }) = u
  have hr := State.settle_rest slot m o k u
  have hmsg : (u.settle slot m o k).messages = u.messages := by rw [hr]
  have hz : (u.settle slot m o k).zones = u.zones := by rw [hr]
  have hst : (u.settle slot m o k).stalls = u.stalls := by rw [hr]
  have hent : ∀ j, u.entry j = s.entry j := fun j => by rw [← hu]; rfl
  constructor
  · show tblGet slot (u.settle slot m o k).messages = _
    rw [hmsg, ← hu]
    exact State.message_setMessage_self ..
  · intro j hj
    show tblGet j (u.settle slot m o k).messages = _
    rw [hmsg, ← hu]
    exact State.message_setMessage_ne _ _ hj
  · intro z
    show (bankGet (u.settle slot m o k).zones z).queue = _
    rw [hz, ← hu]
    show (bankGet (bankMap (Zone.withdraw slot (s.epoch slot)) s.zones) z).queue = _
    rw [bankGet_bankMap]
    simp only [Zone.withdraw, QueueEntry.isOf, decide_not]
    rfl
  · intro z
    show (bankGet (u.settle slot m o k).zones z).inFlight = _
    rw [hz, ← hu]
    show (bankGet (bankMap (Zone.withdraw slot (s.epoch slot)) s.zones) z).inFlight = _
    rw [bankGet_bankMap]
    simp only [Zone.withdraw, QueueEntry.isOf, decide_eq_true_eq]
    rfl
  · intro z
    have hzz : (u.settle slot m o k).zone z = Zone.withdraw slot (s.epoch slot) (s.zone z) := by
      show bankGet (u.settle slot m o k).zones z = _
      rw [hz, ← hu]
      exact bankGet_bankMap ..
    show (u.settle slot m o k).zone z = { s.zone z with
      queue := ((u.settle slot m o k).zone z).queue, inFlight := ((u.settle slot m o k).zone z).inFlight }
    rw [hzz]
    rfl
  · show (u.settle slot m o k).stalls = _
    rw [hst, ← hu]; rfl
  · intro e he
    show tblGet m.billed (u.settle slot m o k).directory = _
    rw [State.directory_settle slot o k (by rw [hent]; exact he), tblGet_tblSet_self]
    rfl
  · intro j hj
    show tblGet j (u.settle slot m o k).directory = _
    cases hb : u.entry m.billed with
    | none => rw [State.settle_unbilled slot o k hb]; exact hent j
    | some e => rw [State.directory_settle slot o k hb, tblGet_tblSet_ne _ _ hj]; exact hent j
  · intro e he
    show (u.settle slot m o k).journal.records = _
    rw [State.records_settle slot o k (by rw [hent]; exact he), ← hu]
    simp only [Message.payload, Message.recordAttempt, clampSigned]
    cases o <;> simp <;> rfl
  · intro he
    have hb : u.entry m.billed = none := by rw [hent]; exact he
    constructor
    · show tblGet m.billed (u.settle slot m o k).directory = _
      rw [State.settle_unbilled slot o k hb]; exact hb
    · show (u.settle slot m o k).journal = _
      rw [State.settle_unbilled slot o k hb, ← hu]; rfl
  · show (u.settle slot m o k).journal.highWater = _
    rw [(State.water_settle slot o k).1, ← hu]; rfl
  · intro he
    exact (State.water_settle slot o k).2.1 (by rw [hent]; exact he)
  · intro q
    have hp := (State.water_settle (s := u) (m := m) slot o k).2.2 q
    have hup : u.port q = s.port q := by rw [← hu]; rfl
    have hua : u.journal.armed = s.journal.armed := by rw [← hu]; rfl
    have huc : u.clock = s.clock := by rw [← hu]; rfl
    rw [hent, hup, hua, huc] at hp
    rw [Port.takes_listing]
    show ((u.settle slot m o k).setPort m.port _).port q = _
    rw [State.port_setPort]
    have ho : ((u.settle slot m o k).port q).outcomes = (s.port q).outcomes := by rw [State.outcomes_settle, hup]
    split
    · next hq =>
      subst hq
      rw [ho, hp]
      rfl
    · next hq =>
      rw [hp, ← Port.takes_listing]
      rfl
  · show (u.settle slot m o k).listOutcome m.port slot = _
    rw [hr, ← hu]
    rfl

theorem Work.touched_close {w : Work} {slot : SlotId} {m : Message} (o : MsgOutcome) (k : Nat)
    (h : w.state.openMessage slot = some m) :
    (w.close slot o k).touched = w.touched ||| w.state.zonesQueuing slot (w.state.epoch slot) := by
  simp [Work.close, h]

end Sys2Proof.Machine
end

