-- ==== Sys2Proof/Laws/Congestion.lean ====
section
/-! SUPPORT. Everything the congestion tests at the end of an event do (R96): the flags they leave and the records they post. -/

namespace Sys2Proof.Machine

/-! ## One test -/

/-- The flag that a test of a zone leaves. -/
def Zone.testedFlag (x : Zone) : Bool := x.force.congests x.congested (queuedWords x.queue)

/-- The record that a test of a zone posts. -/
def Zone.testRecord (x : Zone) (z : ZoneId) (time : Clock) : Option EventRecord :=
  if x.testedFlag = x.congested then none
  else some ⟨if x.testedFlag then .zoneCongested else .zoneClear, z.val, ((queuedWords x.queue : Nat) : Int), time⟩

theorem State.congestionTest_eq (z : ZoneId) (s : State) :
    (s.congestionTest z).zone z = { s.zone z with congested := (s.zone z).testedFlag }
      ∧ ∀ q, (s.congestionTest z).port q = (s.port q).takes ((s.zone z).testRecord z s.clock).toList := by
  unfold State.congestionTest
  dsimp only
  generalize hx : s.zone z = x
  by_cases h1 : x.force.threshold ≠ 0 ∧ x.congested = false ∧ x.force.threshold < queuedWords x.queue
  · have hf : x.testedFlag = true := by simp [Zone.testedFlag, DispatchSettings.congests, h1]
    rw [if_pos h1]
    constructor
    · simp [hf]
    · intro q
      rw [State.port_post_takes]
      simp [Zone.testRecord, hf, h1]
  · rw [if_neg h1]
    by_cases h2 : x.congested = true ∧ (x.force.threshold = 0 ∨ queuedWords x.queue ≤ x.force.threshold - x.force.hysteresis)
    · have hf : x.testedFlag = false := by
        rcases h2.2 with h | h
        · simp [Zone.testedFlag, DispatchSettings.congests, h]
        · simp [Zone.testedFlag, DispatchSettings.congests, h2.1, h]
      rw [if_pos h2]
      constructor
      · simp [hf]
      · intro q
        rw [State.port_post_takes]
        simp [Zone.testRecord, hf, h2]
    · rw [if_neg h2]
      have hf : x.testedFlag = x.congested := by
        unfold Zone.testedFlag DispatchSettings.congests
        cases hc : x.congested with
        | false =>
          simp only [hc] at h1
          split
          · rfl
          · next h0 => simp [h0] at h1; simp; omega
        | true =>
          simp only [hc, true_and, not_or] at h2
          rw [if_neg h2.1]
          simp; omega
      constructor
      · rw [hf, hx]
      · intro q; simp [Zone.testRecord, hf]

@[simp] theorem State.clock_congestionTest (z : ZoneId) (s : State) : (s.congestionTest z).clock = s.clock := by
  rw [State.congestionTest_rest]

/-! ## The tests of an event -/

theorem State.congestionTests_eq (l : List ZoneId) (hl : l.Nodup) (s : State) :
    (∀ y, ((l.foldl (fun s z => s.congestionTest z) s).zone y).congested
        = if y ∈ l then (s.zone y).testedFlag else (s.zone y).congested)
      ∧ ∀ q, (l.foldl (fun s z => s.congestionTest z) s).port q
        = (s.port q).takes (l.filterMap fun z => (s.zone z).testRecord z s.clock) := by
  induction l generalizing s with
  | nil => exact ⟨fun _ => rfl, fun _ => rfl⟩
  | cons z rest ih =>
    obtain ⟨hz, hr⟩ := List.nodup_cons.mp hl
    obtain ⟨h1, h2⟩ := ih hr (s.congestionTest z)
    obtain ⟨g1, g2⟩ := State.congestionTest_eq z s
    have hne : ∀ y, y ∈ rest → (s.congestionTest z).zone y = s.zone y := fun y hy =>
      State.zone_congestionTest_ne s (fun e => hz (e ▸ hy))
    constructor
    · intro y
      rw [List.foldl_cons, h1]
      by_cases hy : y ∈ rest
      · rw [if_pos hy, if_pos (List.mem_cons_of_mem _ hy), hne y hy]
      · rw [if_neg hy]
        by_cases he : y = z
        · subst he; rw [if_pos List.mem_cons_self, g1]
        · rw [if_neg (by simp [he, hy]), State.zone_congestionTest_ne s he]
    · intro q
      rw [List.foldl_cons, h2, g2, ← Port.takes_append]
      congr 1
      rw [List.filterMap_cons]
      have e : (rest.filterMap fun y => ((s.congestionTest z).zone y).testRecord y (s.congestionTest z).clock)
          = rest.filterMap fun y => (s.zone y).testRecord y s.clock := by
        apply List.filterMap_congr
        intro y hy
        rw [hne y hy, State.clock_congestionTest]
      rw [e]
      cases (s.zone z).testRecord z s.clock <;> rfl

/-- Formations leave the flags and the ports, and mark the zones whose queue they have changed. -/
theorem Work.forms_quiet (l : List ZoneId) (w : Work) :
    (∀ y, ((l.foldl (fun v z => v.form z) w).state.zone y).congested = (w.state.zone y).congested)
      ∧ (l.foldl (fun v z => v.form z) w).state.ports = w.state.ports
      ∧ (l.foldl (fun v z => v.form z) w).state.clock = w.state.clock
      ∧ (∀ y, zoneIn y w.touched = true → zoneIn y (l.foldl (fun v z => v.form z) w).touched = true)
      ∧ ∀ y, y ∉ l ∨ w.state.formable y = none →
          zoneIn y (l.foldl (fun v z => v.form z) w).touched = zoneIn y w.touched := by
  have one : ∀ (v : Work) (z y : ZoneId), ((v.form z).state.zone y).congested = (v.state.zone y).congested := by
    intro v z y
    unfold Work.form
    split
    · next p hp =>
      simp only [State.formWith, State.zone_setLink', State.zone_setZone]
      split
      · next h => subst h; rfl
      · rfl
    · rfl
  induction l generalizing w with
  | nil => exact ⟨fun _ => rfl, rfl, rfl, fun _ h => h, fun _ _ => rfl⟩
  | cons z rest ih =>
    obtain ⟨h1, h2, h3, h4, h5⟩ := ih (w.form z)
    refine ⟨fun y => (h1 y).trans (one w z y), ?_, ?_, ?_, ?_⟩
    · rw [List.foldl_cons, h2, Work.form_rest]
    · rw [List.foldl_cons, h3, Work.form_rest]
    · intro y hy
      apply h4
      unfold Work.form
      split
      · simp [zoneIn_insert, hy]
      · exact hy
    · intro y hy
      rw [List.foldl_cons, h5]
      · unfold Work.form
        split
        · next p hp =>
          have : y ≠ z := by
            rintro rfl
            rcases hy with h | h
            · exact h List.mem_cons_self
            · rw [h] at hp; cases hp
          simp [zoneIn_insert, this]
        · rfl
      · rcases hy with h | h
        · exact .inl fun hm => h (List.mem_cons_of_mem _ hm)
        · by_cases hz : y = z
          · subst hz
            right
            have : w.form y = w := by simp [Work.form, h]
            rw [this]; exact h
          · right
            rw [← h]
            unfold State.formable
            rw [Work.zone_form_ne w hz, Work.link_form_ne w hz, Work.form_rest]

/-- A zone that an event's formations do not mark stands, and a block on a line stays there. -/
theorem Work.forms_unmarked (l : List ZoneId) (w : Work) (y : ZoneId) :
    (zoneIn y (l.foldl (fun v z => v.form z) w).touched = false →
        (l.foldl (fun v z => v.form z) w).state.zone y = w.state.zone y)
      ∧ ∀ b, (w.state.link y).onLine = some b → ((l.foldl (fun v z => v.form z) w).state.link y).onLine = some b := by
  have send : ∀ (bs : List OutBlock) (x : Link) (b : OutBlock), x.onLine = some b → (x.sendAll bs).onLine = some b := by
    intro bs
    induction bs with
    | nil => exact fun _ _ h => h
    | cons c rest ih =>
      intro x b h
      refine ih (x.send c) b ?_
      simp [Link.send, h]
  induction l generalizing w with
  | nil => exact ⟨fun _ => rfl, fun _ h => h⟩
  | cons z rest ih =>
    obtain ⟨h1, h2⟩ := ih (w.form z)
    have h4 := (Work.forms_quiet rest (w.form z)).2.2.2.1 y
    rw [List.foldl_cons]
    constructor
    · intro h
      rw [h1 h]
      by_cases hz : y = z
      · subst hz
        have hf : zoneIn y (w.form y).touched = false := by
          cases hb : zoneIn y (w.form y).touched
          · rfl
          · rw [h4 hb] at h; cases h
        unfold Work.form at hf ⊢
        split
        · next p hp =>
          rw [hp] at hf
          simp [zoneIn_insert] at hf
        · rfl
      · exact Work.zone_form_ne w hz
    · intro b hb
      apply h2
      unfold Work.form
      split
      · next p hp =>
        by_cases hz : y = z
        · subst hz
          simp only [State.formWith, State.link_setLink_self]
          exact send _ _ _ hb
        · simp only [State.formWith]
          rw [State.link_setLink_ne _ _ hz]
          exact hb
      · exact hb

/-- The end of an event: every zone it has touched or formed a batch in is tested once, and nothing else is posted; the queue
of a zone that is not tested stands. -/
theorem Work.tests_finish (w : Work) :
    ∃ changed, w.state.tests w.finish changed [] ∧ (∀ z, zoneIn z w.touched = true → zoneIn z changed = true)
      ∧ (∀ z, (zoneIn z w.calls = false ∨ w.state.formable z = none) → zoneIn z changed = zoneIn z w.touched)
      ∧ ∀ z, zoneIn z changed = false → (w.finish.zone z).queue = (w.state.zone z).queue := by
  obtain ⟨h1, h2, h3, h4, h5⟩ := Work.forms_quiet (allZones.filter fun z => zoneIn z w.calls) w
  have h6 := fun y => (Work.forms_unmarked (allZones.filter fun z => zoneIn z w.calls) w y).1
  unfold Work.finish
  dsimp only
  generalize (allZones.filter fun z => zoneIn z w.calls).foldl (fun v z => v.form z) w = x at *
  obtain ⟨g1, g2⟩ := State.congestionTests_eq (allZones.filter fun z => zoneIn z x.touched) ((by decide : allZones.Nodup).filter _) x.state
  have gz := State.zone_congestionTests (allZones.filter fun z => zoneIn z x.touched) (s := x.state)
  generalize (allZones.filter fun z => zoneIn z x.touched).foldl (fun s z => s.congestionTest z) x.state = t at *
  have flag : ∀ z, (t.zone z).congested = if zoneIn z x.touched then
      (t.zone z).force.congests (w.state.zone z).congested (queuedWords (t.zone z).queue) else (w.state.zone z).congested := by
    intro z
    rw [g1]
    simp only [List.mem_filter, mem_allZones, true_and, h1]
    rw [gz z]
    simp [Zone.testedFlag, h1]
  refine ⟨x.touched, ⟨flag, ?_⟩, h4, ?_, fun z hz => by rw [gz z, ← h6 z hz]⟩
  · intro q
    rw [g2]
    have hp : x.state.port q = w.state.port q := by simp [State.port, h2]
    rw [hp, List.nil_append]
    congr 1
    rw [List.filterMap_filter]
    apply List.filterMap_congr
    intro z _
    have f := flag z
    by_cases ht : zoneIn z x.touched = true
    · simp only [ht, if_true] at f ⊢
      have e1 : (t.zone z).congested = (x.state.zone z).testedFlag := by
        rw [g1]; simp [mem_allZones, ht]
      have e2 : (t.zone z).queue = (x.state.zone z).queue := by rw [gz z]
      unfold Zone.testRecord
      rw [e1, e2, h1, h3]
    · rw [if_neg ht] at f
      rw [if_neg ht, if_pos f]
  · intro z hz
    apply h5
    rcases hz with h | h
    · exact .inl (by simp [h])
    · exact .inr h

/-- The end of an event that calls for no formation: the zones it has touched are tested, and nothing else changes. -/
theorem Work.tested_finish {w : Work} (hc : w.calls = 0) :
    ∃ changed, w.state.tested w.finish changed ∧ ∀ z, zoneIn z changed = zoneIn z w.touched := by
  obtain ⟨changed, h1, -, h2, -⟩ := Work.tests_finish w
  have hz : ∀ z, zoneIn z w.calls = false := fun z => by rw [hc]; exact zoneIn_zero z
  refine ⟨changed, ⟨h1, fun z => Work.zone_finish_quiet (hz z), ?_⟩, fun z => h2 z (.inl (hz z))⟩
  have h3 := Work.finish_rest w
  have h4 := Work.links_finish hc
  generalize w.finish = f at h3 h4 ⊢
  rw [h3, h4]

/-- R83: a closing event taken as a whole event. -/
theorem State.closes_closeMessage {s : State} {slot : SlotId} {m : Message} (o : MsgOutcome) (k : Nat)
    (h : s.message slot = some m) (ho : m.closing = none) : s.closes (s.closeMessage slot o k) slot m o k := by
  have hs := Work.shuts_close (w := s.begin) o k h ho
  obtain ⟨changed, h1, h2⟩ := Work.tested_finish (w := s.begin.close slot o k) (by simp [State.begin])
  refine ⟨_, changed, hs, h1, fun z => ?_⟩
  rw [h2, Work.touched_close o k (State.openMessage_of h ho)]
  show zoneIn z ((0 : ZoneSet) ||| s.zonesQueuing slot (s.epoch slot)) = true ↔ _
  have h0 : zoneIn z (0 : ZoneSet) = false := zoneIn_zero z
  rw [zoneIn_or, h0, Bool.false_or, zoneIn_zonesQueuing, List.any_eq_true]
  simp [QueueEntry.isOf]

end Sys2Proof.Machine
end

