-- ==== Sys2Proof/Laws/Dispatching.lean ====
section
/-! SUPPORT. Everything that placing an attempt, completing one, crediting an entry, giving one back and losing one do. -/

namespace Sys2Proof.Machine

/-! ## Attempt lists -/

@[simp] theorem changeLast_append (f : Attempt → Attempt) (l : List Attempt) (a : Attempt) :
    changeLast f (l ++ [a]) = l ++ [f a] := by
  induction l with
  | nil => rfl
  | cons b rest ih =>
    cases rest with
    | nil => rfl
    | cons c rest' =>
      show b :: changeLast f (c :: rest' ++ [a]) = _
      rw [ih]; rfl

/-- A message with a last attempt is a list that ends with it. -/
theorem Message.attempts_of_lastAttempt {m : Message} {a : Attempt} (h : m.lastAttempt = some a) :
    ∃ l, m.attempts = l ++ [a] := by
  have := List.getLast?_eq_some_iff.mp h
  obtain ⟨l, hl⟩ := this
  exact ⟨l, hl⟩

/-- The last attempt after the last one is changed. -/
theorem lastAttempt_changeLast {m m' : Message} {a : Attempt} (f : Attempt → Attempt) (h : m.lastAttempt = some a)
    (hm : m'.attempts = changeLast f m.attempts) : m'.lastAttempt = some (f a) := by
  obtain ⟨l, hl⟩ := Message.attempts_of_lastAttempt h
  simp [Message.lastAttempt, hm, hl]

theorem currentAttempt_of {m : Message} {a : Attempt} (h : m.lastAttempt = some a) : m.currentAttempt = a.number := by
  simp [Message.currentAttempt, h]

/-! ## Queue order -/

theorem queueInsert_perm (e : QueueEntry) (q : List QueueEntry) : List.Perm (queueInsert e q) (q ++ [e]) := by
  induction q with
  | nil => exact List.Perm.refl _
  | cons x rest ih =>
    unfold queueInsert
    split
    · exact List.Perm.cons x ih
    · exact (List.perm_append_comm (l₁ := [e]) (l₂ := x :: rest))

theorem mem_queueInsert {e x : QueueEntry} {q : List QueueEntry} : x ∈ queueInsert e q ↔ x = e ∨ x ∈ q := by
  rw [(queueInsert_perm e q).mem_iff]
  simp [or_comm]

/-! ## Placing (R140) -/

/-- The joins of an attempt, one for each zone of a list. -/
theorem Work.zone_joins {l : List ZoneId} (hl : l.Nodup) (slot : SlotId) (m : Message) (n : Nat) (w : Work) (y : ZoneId) :
    (l.foldl (fun v z => v.join z slot m n) w).state.zone y
      = if y ∈ l then { w.state.zone y with
          queue := queueInsert ⟨slot, w.state.epoch slot, n, m.words, m.priority, (w.state.zone y).nextSeq⟩ (w.state.zone y).queue
          nextSeq := (w.state.zone y).nextSeq + 1 }
        else w.state.zone y := by
  induction l generalizing w with
  | nil => rfl
  | cons z rest ih =>
    obtain ⟨hz, hr⟩ := List.nodup_cons.mp hl
    rw [List.foldl_cons, ih hr]
    have he : (w.join z slot m n).state.epoch slot = w.state.epoch slot := rfl
    by_cases hy : y = z
    · subst hy
      rw [if_neg hz, if_pos List.mem_cons_self]
      exact State.zone_setZone_self ..
    · have h1 : (w.join z slot m n).state.zone y = w.state.zone y := State.zone_setZone_ne _ _ hy
      rw [h1, he]
      simp [hy]

theorem Work.joins_rest (l : List ZoneId) (slot : SlotId) (m : Message) (n : Nat) (w : Work) :
    (l.foldl (fun v z => v.join z slot m n) w).state
        = { w.state with zones := (l.foldl (fun v z => v.join z slot m n) w).state.zones }
      ∧ (l.foldl (fun v z => v.join z slot m n) w).calls = w.calls := by
  induction l generalizing w with
  | nil => exact ⟨rfl, rfl⟩
  | cons z rest ih =>
    rw [List.foldl_cons]
    obtain ⟨h1, h2⟩ := ih (w.join z slot m n)
    refine ⟨?_, h2⟩
    generalize (rest.foldl (fun v z => v.join z slot m n) (w.join z slot m n)).state = u at h1 ⊢
    rw [h1]
    rfl

theorem Work.touched_joins (l : List ZoneId) (slot : SlotId) (m : Message) (n : Nat) (w : Work) (y : ZoneId) :
    zoneIn y (l.foldl (fun v z => v.join z slot m n) w).touched = (zoneIn y w.touched || decide (y ∈ l)) := by
  induction l generalizing w with
  | nil => simp
  | cons z rest ih =>
    rw [List.foldl_cons, ih]
    show (zoneIn y (zoneInsert z w.touched) || _) = _
    rw [zoneIn_insert]
    by_cases hy : y = z <;> simp [hy]

theorem allZones_nodup : allZones.Nodup := by decide

/-- What placing the last attempt of an open message does. -/
structure Work.Placed (w v : Work) (slot : SlotId) (m : Message) (a : Attempt) (pending : ZoneSet) : Prop where
  message : v.state.message slot
    = some { m with attempts := changeLast (fun r => { r with pending := pending }) m.attempts }
  others : ∀ j, j ≠ slot → v.state.message j = w.state.message j
  stalls : v.state.stalls = if pending = 0 then w.state.stalls ++ [slot] else w.state.stalls
  zones : ∀ z, v.state.zone z
    = if zoneIn z pending then { w.state.zone z with
        queue := queueInsert ⟨slot, w.state.epoch slot, a.number, m.words, m.priority, (w.state.zone z).nextSeq⟩
          (w.state.zone z).queue
        nextSeq := (w.state.zone z).nextSeq + 1 }
      else w.state.zone z
  calls : v.calls = if m.priority = 3 then w.calls ||| pending else w.calls
  touched : ∀ z, zoneIn z v.touched = (zoneIn z w.touched || zoneIn z pending)
  messages : v.state.messages
    = tblSet slot { m with attempts := changeLast (fun r => { r with pending := pending }) m.attempts } w.state.messages
  rest : v.state = { w.state with
    messages := v.state.messages, stalls := v.state.stalls, zones := v.state.zones }

/-- R140: the pending set is the requested coverage in UP zones; one entry joins each of them, or the slot stalls. -/
theorem Work.placed_place {w : Work} {slot : SlotId} {m : Message} {a : Attempt} (hm : w.state.openMessage slot = some m)
    (ha : m.lastAttempt = some a) : w.Placed (w.place slot) slot m a (a.requested &&& w.state.upZones) := by
  unfold Work.place
  simp only [hm, ha]
  generalize a.requested &&& w.state.upZones = pending
  generalize hm' : ({ m with attempts := changeLast (fun r => { r with pending := pending }) m.attempts } : Message) = m'
  generalize hv : (w.map fun s => s.setMessage slot m') = v
  have e1 : v.state = w.state.setMessage slot m' := by rw [← hv]; rfl
  have e2 : v.calls = w.calls := by rw [← hv]; rfl
  have e3 : v.touched = w.touched := by rw [← hv]; rfl
  by_cases hp : pending = 0
  · rw [if_pos hp]
    subst hp
    constructor
    · show v.state.message slot = _
      rw [e1, hm']; exact State.message_setMessage_self ..
    · intro j hj
      show v.state.message j = _
      rw [e1]; exact State.message_setMessage_ne _ _ hj
    · show v.state.stalls ++ [slot] = _
      rw [e1]; rfl
    · intro z
      have h0 : zoneIn z (0 : ZoneSet) = false := zoneIn_zero z
      rw [h0]
      show v.state.zone z = _
      rw [e1]; rfl
    · show v.calls = _
      rw [e2]; simp
    · intro z
      have h0 : zoneIn z (0 : ZoneSet) = false := zoneIn_zero z
      rw [h0]
      show zoneIn z v.touched = _
      rw [e3]; simp
    · show v.state.messages = _
      rw [e1, hm']; rfl
    · subst hv; rfl
  · rw [if_neg hp]
    have hz := Work.zone_joins (l := allZones.filter fun z => zoneIn z pending) (allZones_nodup.filter _) slot m a.number v
    have ht := Work.touched_joins (allZones.filter fun z => zoneIn z pending) slot m a.number v
    obtain ⟨hr, hc⟩ := Work.joins_rest (allZones.filter fun z => zoneIn z pending) slot m a.number v
    generalize (allZones.filter fun z => zoneIn z pending).foldl (fun v z => v.join z slot m a.number) v = u at *
    have hs : ∀ x : Work, x.state = u.state → x.touched = u.touched →
        x.calls = (if m.priority = 3 then w.calls ||| pending else w.calls) →
        w.Placed x slot m a pending := by
      intro x hx hxt hxc
      have f1 : x.state.messages = v.state.messages := by rw [hx, hr]
      constructor
      · show tblGet slot x.state.messages = _
        rw [f1, e1, hm']; exact State.message_setMessage_self ..
      · intro j hj
        show tblGet j x.state.messages = _
        rw [f1, e1]; exact State.message_setMessage_ne _ _ hj
      · rw [if_neg hp, hx, hr, e1]; rfl
      · intro z
        rw [hx, hz, e1]
        simp [mem_allZones]
      · exact hxc
      · intro z
        rw [hxt, ht, e3]
        simp [mem_allZones]
      · rw [f1, e1, hm']; rfl
      · rw [hx, hr, e1]; rfl
    split
    · next h3 => exact hs _ rfl rfl (by rw [if_pos h3]; show u.calls ||| pending = _; rw [hc, e2])
    · next h3 => exact hs _ rfl rfl (by rw [if_neg h3, hc, e2])

/-- A slot that is not open is not placed. -/
theorem Work.place_closed {w : Work} {slot : SlotId} (h : w.state.openMessage slot = none) : w.place slot = w := by
  simp [Work.place, h]

/-- Placing changes the message of its own slot only. -/
theorem Work.message_place_ne {w : Work} {slot j : SlotId} (h : j ≠ slot) :
    (w.place slot).state.message j = w.state.message j := by
  cases hm : w.state.openMessage slot with
  | none => rw [Work.place_closed hm]
  | some m =>
    cases ha : m.lastAttempt with
    | none => simp [Work.place, hm, ha]
    | some a => exact (Work.placed_place hm ha).others j h

/-! ## What leaves queues without joining any: closings, completions and losses -/

/-- An operation that takes entries out of zones and adds none, forms nothing and touches no link. -/
structure State.Withdraws (s t : State) : Prop where
  queue : ∀ z, ∀ q ∈ (t.zone z).queue, q ∈ (s.zone z).queue
  inFlight : ∀ z, (s.zone z).inFlight = none → (t.zone z).inFlight = none
  fixed : ∀ z, (t.zone z).schedule = (s.zone z).schedule ∧ (t.zone z).force = (s.zone z).force
    ∧ (t.zone z).nextBatch = (s.zone z).nextBatch ∧ (t.zone z).nextSeq = (s.zone z).nextSeq
  flag : ∀ z, (t.zone z).congested = (s.zone z).congested
  rest : t = { s with
    ports := t.ports, directory := t.directory, messages := t.messages, stalls := t.stalls, zones := t.zones
    journal := t.journal }

theorem State.Withdraws.refl (s : State) : s.Withdraws s :=
  ⟨fun _ _ h => h, fun _ h => h, fun _ => ⟨rfl, rfl, rfl, rfl⟩, fun _ => rfl, rfl⟩

theorem State.Withdraws.trans {s t u : State} (h : s.Withdraws t) (k : t.Withdraws u) : s.Withdraws u where
  queue z q hq := h.queue z q (k.queue z q hq)
  inFlight z hz := k.inFlight z (h.inFlight z hz)
  fixed z := by
    obtain ⟨a1, a2, a3, a4⟩ := h.fixed z
    obtain ⟨b1, b2, b3, b4⟩ := k.fixed z
    exact ⟨b1.trans a1, b2.trans a2, b3.trans a3, b4.trans a4⟩
  flag z := (k.flag z).trans (h.flag z)
  rest := by
    have h1 := h.rest
    have h2 := k.rest
    rw [h1] at h2
    exact h2

theorem Work.withdraws_map_setMessage (w : Work) (slot : SlotId) (m : Message) :
    w.state.Withdraws (w.map fun s => s.setMessage slot m).state :=
  ⟨fun _ _ h => h, fun _ h => h, fun _ => ⟨rfl, rfl, rfl, rfl⟩, fun _ => rfl, rfl⟩

theorem Work.withdraws_foldl {α : Type} (f : Work → α → Work) (hf : ∀ (w : Work) (a : α), w.state.Withdraws (f w a).state)
    (l : List α) (w : Work) : w.state.Withdraws (l.foldl f w).state := by
  induction l generalizing w with
  | nil => exact .refl w.state
  | cons a rest ih => exact (hf w a).trans (ih (f w a))

theorem State.withdraws_setMessage (s : State) (slot : SlotId) (m : Message) : s.Withdraws (s.setMessage slot m) :=
  ⟨fun _ _ h => h, fun _ h => h, fun _ => ⟨rfl, rfl, rfl, rfl⟩, fun _ => rfl, rfl⟩

theorem State.withdraws_stalls (s : State) (l : List SlotId) : s.Withdraws { s with stalls := l } :=
  ⟨fun _ _ h => h, fun _ h => h, fun _ => ⟨rfl, rfl, rfl, rfl⟩, fun _ => rfl, rfl⟩

theorem Work.withdraws_close (slot : SlotId) (o : MsgOutcome) (k : Nat) (w : Work) :
    w.state.Withdraws (w.close slot o k).state := by
  cases hm : w.state.openMessage slot with
  | none => rw [Work.close_closed o k hm]; exact .refl _
  | some m =>
    obtain ⟨h1, h2⟩ := State.openMessage_eq_some.mp hm
    have h := Work.shuts_close (w := w) o k h1 h2
    have hz : ∀ z, (w.close slot o k).state.zone z = Zone.withdraw slot (w.state.epoch slot) (w.state.zone z) := by
      intro z
      rw [Work.close_of o k hm]
      show bankGet (State.settle slot m o k _).zones z = _
      rw [State.settle_rest]
      exact bankGet_bankMap ..
    refine ⟨?_, ?_, ?_, ?_, h.rest⟩
    · intro z q hq
      rw [h.queues] at hq
      exact (List.mem_filter.mp hq).1
    · intro z hz
      rw [h.inFlight, hz]; rfl
    · intro z
      rw [hz]
      exact ⟨rfl, rfl, rfl, rfl⟩
    · intro z
      rw [hz]; rfl

theorem Work.message_close_ne {w : Work} {slot j : SlotId} (o : MsgOutcome) (k : Nat) (h : j ≠ slot) :
    (w.close slot o k).state.message j = w.state.message j := by
  cases hm : w.state.openMessage slot with
  | none => rw [Work.close_closed o k hm]
  | some m =>
    obtain ⟨h1, h2⟩ := State.openMessage_eq_some.mp hm
    exact (Work.shuts_close (w := w) o k h1 h2).others j h

/-- A closing keeps the attempts of its own slot. -/
theorem Work.message_close_self {w : Work} {slot : SlotId} {m : Message} (o : MsgOutcome) (k : Nat)
    (h : w.state.message slot = some m) :
    ∃ m', (w.close slot o k).state.message slot = some m' ∧ m'.attempts = m.attempts := by
  cases hc : m.closing with
  | none => exact ⟨_, (Work.shuts_close (w := w) o k h hc).message, rfl⟩
  | some c =>
    have : w.state.openMessage slot = none := by simp [State.openMessage, h, Message.isOpen, hc]
    rw [Work.close_closed o k this]
    exact ⟨m, h, rfl⟩

/-! ## Completion (R104, R133, R134) -/

/-- A completed attempt waits, unless it is a one-way pager's last repeat. -/
theorem Work.complete_waits {w : Work} {slot : SlotId} {m : Message} (hm : w.state.openMessage slot = some m)
    (h : m.kind = .twoWay ∨ m.currentAttempt < m.tariff.retryCount) :
    w.complete slot = w.map fun s => s.setMessage slot
      { m with retryTimer := some (retryWait m.tariff m.kind m.currentAttempt), frozen := s.airHold } := by
  simp [Work.complete, hm, h]

/-- A one-way pager's last repeat closes SENT. -/
theorem Work.complete_sent {w : Work} {slot : SlotId} {m : Message} (hm : w.state.openMessage slot = some m)
    (h1 : m.kind = .oneWay) (h2 : m.tariff.retryCount ≤ m.currentAttempt) : w.complete slot = w.close slot .sent 0 := by
  simp [Work.complete, hm, h1, Nat.not_lt.mpr h2]

theorem Work.complete_cases (slot : SlotId) (w : Work) :
    w.complete slot = w ∨ w.complete slot = w.close slot .sent 0
      ∨ ∃ m, w.state.openMessage slot = some m ∧ w.complete slot = w.map fun s => s.setMessage slot
          { m with retryTimer := some (retryWait m.tariff m.kind m.currentAttempt), frozen := s.airHold } := by
  cases hm : w.state.openMessage slot with
  | none => exact .inl (by simp [Work.complete, hm])
  | some m =>
    by_cases h : m.kind = .twoWay ∨ m.currentAttempt < m.tariff.retryCount
    · exact .inr (.inr ⟨m, rfl, Work.complete_waits hm h⟩)
    · exact .inr (.inl (by simp [Work.complete, hm, h]))

theorem Work.withdraws_complete (slot : SlotId) (w : Work) : w.state.Withdraws (w.complete slot).state := by
  rcases Work.complete_cases slot w with h | h | ⟨m, -, h⟩ <;> rw [h]
  · exact .refl _
  · exact Work.withdraws_close ..
  · exact State.withdraws_setMessage ..

@[simp] theorem Work.calls_complete (slot : SlotId) (w : Work) : (w.complete slot).calls = w.calls := by
  rcases Work.complete_cases slot w with h | h | ⟨m, -, h⟩ <;> rw [h]
  · exact Work.calls_close ..
  · rfl

theorem Work.message_complete_ne {w : Work} {slot j : SlotId} (h : j ≠ slot) :
    (w.complete slot).state.message j = w.state.message j := by
  rcases Work.complete_cases slot w with e | e | ⟨m, -, e⟩ <;> rw [e]
  · exact Work.message_close_ne _ _ h
  · exact State.message_setMessage_ne _ _ h

/-- A completion keeps the attempts of its own slot. -/
theorem Work.message_complete_self {w : Work} {slot : SlotId} {m : Message} (h : w.state.message slot = some m) :
    ∃ m', (w.complete slot).state.message slot = some m' ∧ m'.attempts = m.attempts := by
  rcases Work.complete_cases slot w with e | e | ⟨n, hn, e⟩ <;> rw [e]
  · exact ⟨m, h, rfl⟩
  · exact Work.message_close_self _ _ h
  · obtain ⟨h1, -⟩ := State.openMessage_eq_some.mp hn
    rw [h] at h1
    cases h1
    exact ⟨_, State.message_setMessage_self .., rfl⟩

/-! ## The site's answer (R103, R105) -/

theorem State.liveEntry_eq_some {s : State} {q : QueueEntry} {m : Message} {a : Attempt} :
    s.liveEntry q = some (m, a) ↔ s.message q.slot = some m ∧ m.closing = none ∧ m.lastAttempt = some a
      ∧ s.epoch q.slot = q.epoch ∧ a.number = q.attempt := by
  unfold State.liveEntry
  constructor
  · intro h
    split at h
    · cases h
    · next n hn =>
      obtain ⟨h1, h2⟩ := State.openMessage_eq_some.mp hn
      split at h
      · cases h
      · next b hb =>
        split at h
        · next hc => cases h; exact ⟨h1, h2, hb, hc.1, hc.2⟩
        · cases h
  · rintro ⟨h1, h2, h3, h4, h5⟩
    simp [State.openMessage_of h1 h2, h3, h4, h5]

/-- Which messages are live depends on the messages and epochs alone. -/
theorem State.liveEntry_congr {s t : State} {q : QueueEntry} (h1 : t.message q.slot = s.message q.slot)
    (h2 : t.epoch q.slot = s.epoch q.slot) : t.liveEntry q = s.liveEntry q := by
  have h3 : t.openMessage q.slot = s.openMessage q.slot := by simp [State.openMessage, h1]
  simp [State.liveEntry, h2, h3]

/-- The attempt that an accepted entry credits. -/
def Attempt.credited (a : Attempt) (z : ZoneId) (time : Clock) : Attempt :=
  { a with
    pending := zoneRemove z a.pending
    sent := zoneInsert z a.sent
    transmitted := if a.sent = 0 then some time else a.transmitted }

/-- A live entry, not void, whose zone is pending is credited, and completes when no pending zone is left. -/
theorem Work.credit_live {w : Work} {z : ZoneId} {be : BatchEntry} {m : Message} {a : Attempt}
    (h : w.state.liveEntry be.entry = some (m, a)) (hv : be.void = false) (hz : zoneIn z a.pending = true) :
    w.credit z be =
      (if zoneRemove z a.pending = 0 then
        (w.map fun s => s.setMessage be.entry.slot
          { m with attempts := changeLast (fun _ => a.credited z w.state.clock) m.attempts }).complete be.entry.slot
      else w.map fun s => s.setMessage be.entry.slot
          { m with attempts := changeLast (fun _ => a.credited z w.state.clock) m.attempts }) := by
  simp [Work.credit, h, hv, hz, Attempt.credited]

theorem Work.credit_cases (z : ZoneId) (be : BatchEntry) (w : Work) :
    w.credit z be = w ∨ ∃ m a, w.state.liveEntry be.entry = some (m, a) ∧ be.void = false ∧ zoneIn z a.pending = true := by
  cases h : w.state.liveEntry be.entry with
  | none => exact .inl (by simp [Work.credit, h])
  | some p =>
    obtain ⟨m, a⟩ := p
    by_cases hc : be.void = false ∧ zoneIn z a.pending = true
    · exact .inr ⟨m, a, rfl, hc.1, hc.2⟩
    · exact .inl (by simp [Work.credit, h, hc])

theorem Work.withdraws_credit (z : ZoneId) (be : BatchEntry) (w : Work) : w.state.Withdraws (w.credit z be).state := by
  rcases Work.credit_cases z be w with h | ⟨m, a, h, hv, hz⟩
  · rw [h]; exact .refl _
  · rw [Work.credit_live h hv hz]
    split
    · exact (Work.withdraws_map_setMessage w _ _).trans (Work.withdraws_complete ..)
    · exact State.withdraws_setMessage ..

@[simp] theorem Work.calls_credit (z : ZoneId) (be : BatchEntry) (w : Work) : (w.credit z be).calls = w.calls := by
  rcases Work.credit_cases z be w with h | ⟨m, a, h, hv, hz⟩
  · rw [h]
  · rw [Work.credit_live h hv hz]
    split
    · rw [Work.calls_complete]; rfl
    · rfl

theorem Work.message_credit_ne {w : Work} {z : ZoneId} {be : BatchEntry} {j : SlotId} (hj : j ≠ be.entry.slot) :
    (w.credit z be).state.message j = w.state.message j := by
  rcases Work.credit_cases z be w with h | ⟨m, a, h, hv, hz⟩
  · rw [h]
  · rw [Work.credit_live h hv hz]
    split
    · rw [Work.message_complete_ne hj]; exact State.message_setMessage_ne _ _ hj
    · exact State.message_setMessage_ne _ _ hj

theorem Work.giveBack_live {w : Work} {z : ZoneId} {be : BatchEntry} (hv : be.void = false)
    (h : (w.state.liveEntry be.entry).isSome) :
    w.giveBack z be = { w with
      touched := zoneInsert z w.touched
      state := w.state.setZone z { w.state.zone z with queue := queueInsert be.entry (w.state.zone z).queue } } := by
  simp [Work.giveBack, hv, h]

theorem Work.giveBack_dead {w : Work} {z : ZoneId} {be : BatchEntry}
    (h : ¬ (be.void = false ∧ (w.state.liveEntry be.entry).isSome)) : w.giveBack z be = w := by
  simp only [Work.giveBack, h, if_false]

/-! ## The loss of a link (R107) -/

theorem Work.lose_cases (z : ZoneId) (q : QueueEntry) (w : Work) :
    w.lose z q = w ∨ ∃ m a, w.state.liveEntry q = some (m, a) ∧ zoneIn z a.pending = true := by
  cases h : w.state.liveEntry q with
  | none => exact .inl (by simp [Work.lose, h])
  | some p =>
    obtain ⟨m, a⟩ := p
    by_cases hz : zoneIn z a.pending = true
    · exact .inr ⟨m, a, rfl, hz⟩
    · exact .inl (by simp [Work.lose, h, hz])

/-- A live slot of a lost zone gives the zone up; then its attempt is complete, or it stalls, or other zones remain. -/
theorem Work.lose_live {w : Work} {z : ZoneId} {q : QueueEntry} {m : Message} {a : Attempt}
    (h : w.state.liveEntry q = some (m, a)) (hz : zoneIn z a.pending = true) (v : Work)
    (hv : v = w.map fun s => s.setMessage q.slot
      { m with attempts := changeLast (fun r => { r with pending := zoneRemove z a.pending }) m.attempts }) :
    w.lose z q = (if zoneRemove z a.pending ≠ 0 then v else if a.sent ≠ 0 then v.complete q.slot
      else v.map fun s => { s with stalls := s.stalls ++ [q.slot] }) := by
  subst hv
  simp [Work.lose, h, hz]

theorem Work.withdraws_lose (z : ZoneId) (q : QueueEntry) (w : Work) : w.state.Withdraws (w.lose z q).state := by
  rcases Work.lose_cases z q w with h | ⟨m, a, h, hz⟩
  · rw [h]; exact .refl _
  · rw [Work.lose_live h hz _ rfl]
    split
    · exact State.withdraws_setMessage ..
    · split
      · exact (Work.withdraws_map_setMessage w _ _).trans (Work.withdraws_complete ..)
      · exact (State.withdraws_setMessage ..).trans (State.withdraws_stalls ..)

@[simp] theorem Work.calls_lose (z : ZoneId) (q : QueueEntry) (w : Work) : (w.lose z q).calls = w.calls := by
  rcases Work.lose_cases z q w with h | ⟨m, a, h, hz⟩
  · rw [h]
  · rw [Work.lose_live h hz _ rfl]
    split
    · rfl
    · split
      · rw [Work.calls_complete]; rfl
      · rfl

theorem Work.message_lose_ne {w : Work} {z : ZoneId} {q : QueueEntry} {j : SlotId} (hj : j ≠ q.slot) :
    (w.lose z q).state.message j = w.state.message j := by
  rcases Work.lose_cases z q w with h | ⟨m, a, h, hz⟩
  · rw [h]
  · rw [Work.lose_live h hz _ rfl]
    split
    · exact State.message_setMessage_ne _ _ hj
    · split
      · rw [Work.message_complete_ne hj]; exact State.message_setMessage_ne _ _ hj
      · exact State.message_setMessage_ne _ _ hj

/-- After a loss the slot's last attempt has the zone in its pending set no longer, and has its number and sent set. -/
theorem Work.message_lose_self {w : Work} {z : ZoneId} {q : QueueEntry} {m : Message} {a : Attempt}
    (h : w.state.liveEntry q = some (m, a)) :
    ∃ m', (w.lose z q).state.message q.slot = some m' ∧ m'.lastAttempt = some { a with pending := zoneRemove z a.pending } := by
  obtain ⟨h1, h2, h3, h4, h5⟩ := State.liveEntry_eq_some.mp h
  by_cases hz : zoneIn z a.pending = true
  · rw [Work.lose_live h hz _ rfl]
    have key : ∀ m' : Message,
        m'.attempts = changeLast (fun r => { r with pending := zoneRemove z a.pending }) m.attempts →
        m'.lastAttempt = some { a with pending := zoneRemove z a.pending } :=
      fun m' hm' => lastAttempt_changeLast _ h3 hm'
    split
    · exact ⟨_, State.message_setMessage_self .., key _ rfl⟩
    · split
      · obtain ⟨m', e1, e2⟩ := Work.message_complete_self (w := w.map fun s => s.setMessage q.slot
          { m with attempts := changeLast (fun r => { r with pending := zoneRemove z a.pending }) m.attempts })
          (slot := q.slot) (State.message_setMessage_self ..)
        exact ⟨m', e1, key _ e2⟩
      · exact ⟨_, State.message_setMessage_self .., key _ rfl⟩
  · have : w.lose z q = w := by simp [Work.lose, h, hz]
    rw [this]
    have hp : zoneRemove z a.pending = a.pending := by
      apply zoneSet_ext
      intro y
      rw [zoneIn_remove]
      by_cases hy : y = z
      · subst hy; simp [hz]
      · simp [hy]
    exact ⟨m, h1, by rw [hp]; exact h3⟩

/-! ## One action after another (R103, R107) -/

/-- A fold of actions is their chain. -/
theorem Work.oneByOne_foldl {α : Type} {R : α → State → State → Prop} (f : Work → α → Work)
    (hf : ∀ (w : Work) (a : α), R a w.state (f w a).state) (l : List α) (w : Work) :
    oneByOne R l w.state (l.foldl f w).state := by
  induction l generalizing w with
  | nil => rfl
  | cons a rest ih => exact ⟨_, hf w a, ih (f w a)⟩

/-- Everything that completing the last attempt of an open message does (R104). -/
theorem Work.completes_complete {w : Work} {slot : SlotId} {m : Message} (hm : w.state.openMessage slot = some m) :
    w.state.completes (w.complete slot).state slot m m.currentAttempt := by
  unfold State.completes
  split
  · next h =>
    rw [Work.complete_waits hm h]
    cases m.kind <;> rfl
  · next h =>
    have hk : m.kind = .oneWay := by
      cases hk : m.kind with
      | oneWay => rfl
      | twoWay => exact absurd (.inl hk) h
    obtain ⟨h1, h2⟩ := State.openMessage_eq_some.mp hm
    rw [Work.complete_sent hm hk (Nat.not_lt.mp fun e => h (.inr e))]
    exact Work.shuts_close .sent 0 h1 h2

/-- Everything that crediting one entry does (R103). -/
theorem Work.credits_credit (z : ZoneId) (be : BatchEntry) (w : Work) : w.state.credits z be (w.credit z be).state := by
  unfold State.credits
  split
  · next h => simp [Work.credit, h]
  · next m a h =>
    split
    · next hp =>
      rintro credited s1 rfl rfl
      rw [Work.credit_live h hp.1 hp.2]
      obtain ⟨h1, h2, h3, -, -⟩ := State.liveEntry_eq_some.mp h
      split
      · have hc := Work.completes_complete
          (w := w.map fun s => s.setMessage be.entry.slot
            { m with attempts := changeLast (fun _ => a.credited z w.state.clock) m.attempts })
          (m := { m with attempts := changeLast (fun _ => a.credited z w.state.clock) m.attempts })
          (State.openMessage_of (State.message_setMessage_self ..) h2)
        rw [currentAttempt_of (lastAttempt_changeLast (m := m) (fun _ => a.credited z w.state.clock) h3 rfl)] at hc
        exact hc
      · rfl
    · next hp => simp [Work.credit, h, hp]

/-- Everything that losing one entry does (R107). -/
theorem Work.loses_lose (z : ZoneId) (q : QueueEntry) (w : Work) : State.loses z q w.state (w.lose z q).state := by
  unfold State.loses
  split
  · next h => simp [Work.lose, h]
  · next m a h =>
    split
    · next hp =>
      rintro left s1 rfl rfl
      rw [Work.lose_live h hp _ rfl]
      obtain ⟨h1, h2, h3, -, -⟩ := State.liveEntry_eq_some.mp h
      split
      · rfl
      · split
        · have hc := Work.completes_complete
            (w := w.map fun s => s.setMessage q.slot
              { m with attempts := changeLast (fun r => { r with pending := zoneRemove z a.pending }) m.attempts })
            (m := { m with attempts := changeLast (fun r => { r with pending := zoneRemove z a.pending }) m.attempts })
            (State.openMessage_of (State.message_setMessage_self ..) h2)
          rw [currentAttempt_of (lastAttempt_changeLast (m := m)
            (fun r => { r with pending := zoneRemove z a.pending }) h3 rfl)] at hc
          exact hc
        · rfl
    · next hp => simp [Work.lose, h, hp]

/-- Everything that a formation does (R100 to R102). -/
theorem State.forms_formWith (z : ZoneId) (p : Profile) (s : State) : s.forms (s.formWith z p) z p where
  zone := by simp [State.formWith, Zone.formed, acceptDeadline, queuedWords]
  link := by simp [State.formWith, Zone.stream, queuedWords]
  others y hy := by simp [State.formWith, State.zone_setZone_ne _ _ hy, State.link_setLink_ne _ _ hy]
  rest := rfl

end Sys2Proof.Machine
end

