-- ==== Sys2Proof/Laws/Ops.lean ====
section
/-! SUPPORT. What taking a command, answering it, and taking a block do, once for each case; and how updates of one record combine. -/

namespace Sys2Proof.Machine

/-! ## Updates of one record -/

theorem bankSet_bankSet {α : Type} {n : Nat} (v : Vector α n) (i : Fin n) (x y : α) :
    bankSet (bankSet v i x) i y = bankSet v i y := by
  apply bank_ext
  intro j
  by_cases h : j = i
  · subst h; simp
  · simp [bankGet_bankSet_ne, h]

theorem bankSet_bankGet {α : Type} {n : Nat} (v : Vector α n) (i : Fin n) : bankSet v i (bankGet v i) = v := by
  apply bank_ext
  intro j
  by_cases h : j = i
  · subst h; simp
  · simp [bankGet_bankSet_ne, h]

@[simp] theorem State.setPort_setPort (s : State) (p : PortId) (x y : Port) : (s.setPort p x).setPort p y = s.setPort p y := by
  simp [State.setPort, bankSet_bankSet]

@[simp] theorem State.setZone_setZone (s : State) (z : ZoneId) (x y : Zone) : (s.setZone z x).setZone z y = s.setZone z y := by
  simp [State.setZone, bankSet_bankSet]

@[simp] theorem State.setLink_setLink (s : State) (z : ZoneId) (x y : Link) : (s.setLink z x).setLink z y = s.setLink z y := by
  simp [State.setLink, bankSet_bankSet]

@[simp] theorem State.setPort_port (s : State) (p : PortId) : s.setPort p (s.port p) = s := by
  simp [State.setPort, State.port, bankSet_bankGet]

@[simp] theorem State.setZone_zone (s : State) (z : ZoneId) : s.setZone z (s.zone z) = s := by
  simp [State.setZone, State.zone, bankSet_bankGet]

@[simp] theorem State.setLink_link (s : State) (z : ZoneId) : s.setLink z (s.link z) = s := by
  simp [State.setLink, State.link, bankSet_bankGet]

/-! ## Taking a command (R160, R161) -/

theorem State.listens_of_serves {s : State} {p : PortId} {roles : List Role} (h : s.serves p roles) :
    s.listens p = true := by
  simp [State.listens, h.1, h.2.1]

/-- A served port runs the owner and answers with what it returns. -/
theorem takeCommand_serves {s : State} {p : PortId} {roles : List Role} (owner : State → Reply) (h : s.serves p roles) :
    takeCommand p roles owner s = (owner s).state.respond p (s.port p).gap (owner s).status (owner s).body := by
  simp [takeCommand, State.listens_of_serves h, h.1, h.2.2]

/-- A port that takes no frame ignores the command. -/
theorem takeCommand_deaf {s : State} {p : PortId} (roles : List Role) (owner : State → Reply) (h : s.listens p = false) :
    takeCommand p roles owner s = s := by
  simp [takeCommand, h]

/-- During the pass a command is answered STARTING. -/
theorem takeCommand_starting {s : State} {p : PortId} (roles : List Role) (owner : State → Reply)
    (h : s.listens p = true) (hs : s.phase = .starting) : takeCommand p roles owner s = s.answers p .starting [] := by
  simp only [takeCommand, h, hs, if_true]; rfl

/-- A port of another role is answered ROLE. -/
theorem takeCommand_role {s : State} {p : PortId} {roles : List Role} (owner : State → Reply) (h : s.listens p = true)
    (hs : s.phase ≠ .starting) (hr : (s.port p).role ∉ roles) :
    takeCommand p roles owner s = s.answers p .role [] := by
  simp only [takeCommand, h, hs, hr, if_true, if_false]; rfl

/-- The three outcomes of taking a command on a port that works: ignored, answered by a common check, or run. -/
theorem takeCommand_cases (s : State) (p : PortId) (roles : List Role) (owner : State → Reply) :
    takeCommand p roles owner s = s
    ∨ (∃ st, takeCommand p roles owner s = s.answers p st [])
    ∨ s.serves p roles ∧ takeCommand p roles owner s
        = (owner s).state.respond p (s.port p).gap (owner s).status (owner s).body := by
  unfold takeCommand
  split
  · next h =>
    split
    · exact .inr (.inl ⟨.starting, rfl⟩)
    · next hs =>
      split
      · next hr =>
        refine .inr (.inr ⟨⟨?_, ?_, hr⟩, rfl⟩)
        · simp only [State.listens, decide_eq_true_eq] at h
          revert h hs
          cases s.phase <;> simp
        · simp only [State.listens, decide_eq_true_eq] at h
          exact h.2
      · exact .inr (.inl ⟨.role, rfl⟩)
  · exact .inl rfl

/-- Answering with the gap as it stands. -/
theorem State.respond_gap (s : State) (p : PortId) (st : Status) (b : List Byte) :
    s.respond p (s.port p).gap st b = s.answers p st b := rfl

/-- Answering when the owner left the gap alone. -/
theorem State.respond_answers {t : State} {p : PortId} {g : Nat} (h : (t.port p).gap = g) (st : Status) (b : List Byte) :
    t.respond p g st b = t.answers p st b := by
  subst h; rfl

theorem withLength_of {n : Nat} {body : List Byte} (owner : State → Reply) (s : State) (h : body.length = n) :
    withLength n body owner s = owner s := by
  simp [withLength, h]

theorem withLength_ne {n : Nat} {body : List Byte} (owner : State → Reply) (s : State) (h : body.length ≠ n) :
    withLength n body owner s = refuse .format s := by
  simp [withLength, h]

@[simp] theorem withRange_some {α : Type} (r : α) (owner : α → State → Reply) (s : State) :
    withRange (some r) owner s = owner r s := rfl

@[simp] theorem withRange_none {α : Type} (owner : α → State → Reply) (s : State) :
    withRange none owner s = refuse .range s := rfl

@[simp] theorem refuse_status (st : Status) (s : State) : (refuse st s).status = st := rfl
@[simp] theorem refuse_body (st : Status) (s : State) : (refuse st s).body = [] := rfl
@[simp] theorem refuse_state (st : Status) (s : State) : (refuse st s).state = s := rfl

/-- A served command of fixed length with a body of another length is answered FORMAT. -/
theorem takeCommand_format {s : State} {p : PortId} {roles : List Role} {n : Nat} {body : List Byte}
    (owner : State → Reply) (h : s.serves p roles) (hb : body.length ≠ n) :
    takeCommand p roles (withLength n body owner) s = s.answers p .format [] := by
  rw [takeCommand_serves _ h, withLength_ne _ _ hb]; rfl

/-- A served command of fixed length with a field out of its range is answered RANGE. -/
theorem takeCommand_range {α : Type} {s : State} {p : PortId} {roles : List Role} {n : Nat} {body : List Byte}
    {fields : Option α} (owner : α → State → Reply) (h : s.serves p roles) (hb : body.length = n) (hf : fields = none) :
    takeCommand p roles (withLength n body (withRange fields owner)) s = s.answers p .range [] := by
  rw [takeCommand_serves _ h, withLength_of _ _ hb, hf]; rfl

/-- A served command of fixed length with its fields in range runs its owner. -/
theorem takeCommand_runs {α : Type} {s : State} {p : PortId} {roles : List Role} {n : Nat} {body : List Byte}
    {fields : Option α} {r : α} (owner : α → State → Reply) (h : s.serves p roles) (hb : body.length = n)
    (hf : fields = some r) :
    takeCommand p roles (withLength n body (withRange fields owner)) s
      = (owner r s).state.respond p (s.port p).gap (owner r s).status (owner r s).body := by
  rw [takeCommand_serves _ h, withLength_of _ _ hb, hf]; rfl

/-- A served command with no field runs its owner on a body of its length. -/
theorem takeCommand_plain {s : State} {p : PortId} {roles : List Role} {n : Nat} {body : List Byte}
    (owner : State → Reply) (h : s.serves p roles) (hb : body.length = n) :
    takeCommand p roles (withLength n body owner) s
      = (owner s).state.respond p (s.port p).gap (owner s).status (owner s).body := by
  rw [takeCommand_serves _ h, withLength_of _ _ hb]

/-! ## Answers -/

theorem State.port_answers (s : State) (p q : PortId) (st : Status) (b : List Byte) :
    (s.answers p st b).port q
      = if q = p then { s.port p with receiver := .gap, frame := [], answer := some ⟨⟨st, b⟩, (s.port p).gap⟩, unsent := [] } else s.port q :=
  State.port_setPort ..

theorem State.port_respond (s : State) (p q : PortId) (g : Nat) (st : Status) (b : List Byte) :
    (s.respond p g st b).port q
      = if q = p then { s.port p with receiver := .gap, frame := [], answer := some ⟨⟨st, b⟩, g⟩, unsent := [] } else s.port q :=
  State.port_setPort ..

@[simp] theorem State.answer_respond (s : State) (p : PortId) (g : Nat) (st : Status) (b : List Byte) :
    ((s.respond p g st b).port p).answer = some ⟨⟨st, b⟩, g⟩ := by
  simp [State.port_respond]

/-- A response changes no port's role, gap, event queue, lost flag or outcome list. -/
theorem State.respond_keeps (s : State) (p q : PortId) (g : Nat) (st : Status) (b : List Byte) :
    ((s.respond p g st b).port q).role = (s.port q).role ∧ ((s.respond p g st b).port q).gap = (s.port q).gap
      ∧ ((s.respond p g st b).port q).events = (s.port q).events ∧ ((s.respond p g st b).port q).lost = (s.port q).lost
      ∧ ((s.respond p g st b).port q).outcomes = (s.port q).outcomes := by
  rw [State.port_respond]
  split
  · next h => subst h; exact ⟨rfl, rfl, rfl, rfl, rfl⟩
  · exact ⟨rfl, rfl, rfl, rfl, rfl⟩

/-! ## Taking a block (R113, R114, R121) -/

theorem receive_off {α : Type} {z : ZoneId} {s : State} (fields : Option α) (handle : LinkState → α → State → State)
    (h : (s.link z).state = .off) : receive z fields handle s = s := by
  simp [receive, h]

theorem receive_bad {α : Type} {z : ZoneId} {s : State} {fields : Option α} (handle : LinkState → α → State → State)
    (h : (s.link z).state ≠ .off) (hf : fields = none) : receive z fields handle s = s.countBad z := by
  simp [receive, h, hf]

theorem receive_good {α : Type} {z : ZoneId} {s : State} {fields : Option α} {x : α}
    (handle : LinkState → α → State → State) (h : (s.link z).state ≠ .off) (hf : fields = some x) :
    receive z fields handle s = handle (s.link z).state x (s.takeValid z) := by
  simp [receive, h, hf]

/-- A valid block in UP reloads the silence timer. -/
theorem State.takeValid_up {s : State} {z : ZoneId} (h : (s.link z).state = .up) :
    s.takeValid z = s.setLink z { s.link z with received := none, silenceTimer := some 40 } := by
  simp [State.takeValid, h]

/-- In every other state it touches no timer. -/
theorem State.takeValid_ne {s : State} {z : ZoneId} (h : (s.link z).state ≠ .up) :
    s.takeValid z = s.setLink z { s.link z with received := none } := by
  simp [State.takeValid, h]

/-- A valid block changes only its own link, and of it only the silence timer and the block being received. -/
theorem State.link_takeValid (s : State) (z y : ZoneId) :
    (s.takeValid z).link y
      = if y = z then { s.link z with
          received := none, silenceTimer := if (s.link z).state = .up then some 40 else (s.link z).silenceTimer }
        else s.link y :=
  State.link_setLink ..

end Sys2Proof.Machine
end

