-- ==== Sys2Proof/Laws/Linking.lean ====
section
/-! SUPPORT. Everything a departure from UP does (R107, R124), and what the entries to the link states and the evaluation of a page come to. -/

namespace Sys2Proof.Machine

/-! ## The slots of a lost zone -/

/-- A slot's message whose last attempt has the number and sent set of `a`, and the zone in its pending set no longer. -/
def Message.GaveUp (m : Message) (z : ZoneId) (a : Attempt) : Prop :=
  ∃ a', m.lastAttempt = some a' ∧ a'.number = a.number ∧ zoneIn z a'.pending = false ∧ a'.sent = a.sent

theorem Work.epoch_lose (z : ZoneId) (q : QueueEntry) (w : Work) (j : SlotId) :
    (w.lose z q).state.epoch j = w.state.epoch j := by
  rw [State.epoch, (Work.withdraws_lose z q w).rest]; rfl

/-- A slot that has given the zone up stays so through the losses of other entries. -/
theorem Work.gaveUp_lose {z : ZoneId} {w : Work} {slot : SlotId} {m : Message} {a : Attempt} (q : QueueEntry)
    (h : w.state.message slot = some m) (hg : m.GaveUp z a) :
    ∃ m', (w.lose z q).state.message slot = some m' ∧ m'.GaveUp z a := by
  by_cases hs : slot = q.slot
  · subst hs
    have : w.lose z q = w := by
      rcases Work.lose_cases z q w with e | ⟨n, b, e, hb⟩
      · exact e
      · obtain ⟨h1, -, h3, -, -⟩ := State.liveEntry_eq_some.mp e
        rw [h] at h1
        cases h1
        obtain ⟨a', ha', -, hz, -⟩ := hg
        rw [h3] at ha'
        cases ha'
        simp [hz] at hb
    rw [this]
    exact ⟨m, h, hg⟩
  · exact ⟨m, by rw [Work.message_lose_ne hs]; exact h, hg⟩

theorem Work.gaveUp_loses {z : ZoneId} (l : List QueueEntry) {w : Work} {slot : SlotId} {m : Message} {a : Attempt}
    (h : w.state.message slot = some m) (hg : m.GaveUp z a) :
    ∃ m', (l.foldl (fun v q => v.lose z q) w).state.message slot = some m' ∧ m'.GaveUp z a := by
  induction l generalizing w m with
  | nil => exact ⟨m, h, hg⟩
  | cons q rest ih =>
    obtain ⟨m', h', hg'⟩ := Work.gaveUp_lose q h hg
    exact ih h' hg'

/-- Every live slot among the entries lost gives the zone up. -/
theorem Work.loses_gaveUp {z : ZoneId} (l : List QueueEntry) {w : Work} {q : QueueEntry} {m : Message} {a : Attempt}
    (hq : q ∈ l) (h : w.state.liveEntry q = some (m, a)) :
    ∃ m', (l.foldl (fun v q => v.lose z q) w).state.message q.slot = some m' ∧ m'.GaveUp z a := by
  induction l generalizing w with
  | nil => cases hq
  | cons r rest ih =>
    rw [List.foldl_cons]
    by_cases hs : q.slot = r.slot
    · cases hr : w.state.liveEntry r with
      | none =>
        have e : w.lose z r = w := by simp [Work.lose, hr]
        rw [e]
        rcases List.mem_cons.mp hq with rfl | hq
        · rw [hr] at h; cases h
        · exact ih hq h
      | some p =>
        obtain ⟨n, b⟩ := p
        obtain ⟨h1, -, h3, -, -⟩ := State.liveEntry_eq_some.mp h
        obtain ⟨g1, -, g3, -, -⟩ := State.liveEntry_eq_some.mp hr
        rw [hs, g1] at h1
        cases h1
        rw [g3] at h3
        cases h3
        obtain ⟨m', e1, e2⟩ := Work.message_lose_self (z := z) hr
        rw [hs]
        exact Work.gaveUp_loses rest e1 ⟨_, e2, rfl, by simp [zoneIn_remove], rfl⟩
    · have h' : (w.lose z r).state.liveEntry q = some (m, a) := by
        rw [State.liveEntry_congr (Work.message_lose_ne hs) (Work.epoch_lose ..)]; exact h
      rcases List.mem_cons.mp hq with rfl | hq
      · exact absurd rfl hs
      · exact ih hq h'

/-- What one loss does to a live slot whose zone is pending. -/
theorem Work.lostTo_lose {w : Work} {z : ZoneId} {q : QueueEntry} {m : Message} {a : Attempt}
    (h : w.state.liveEntry q = some (m, a)) (hz : zoneIn z a.pending = true) :
    w.state.lostTo (w.lose z q).state z q m a := by
  obtain ⟨-, h2, h3, -, -⟩ := State.liveEntry_eq_some.mp h
  have hn : m.currentAttempt = a.number := by simp [Message.currentAttempt, h3]
  rintro left rfl
  rw [Work.lose_live h hz _ rfl]
  unfold Attempt.without
  generalize hl : ({ m with attempts := changeLast (fun r => { r with pending := zoneRemove z a.pending }) m.attempts } : Message)
    = left
  have c1 : left.closing = none := by rw [← hl]; exact h2
  have c2 : left.currentAttempt = a.number := by
    rw [← hl]
    exact (currentAttempt_of (lastAttempt_changeLast (m := m)
      (fun r => { r with pending := zoneRemove z a.pending }) h3 rfl)).trans rfl
  have c3 : left.kind = m.kind ∧ left.tariff = m.tariff := by rw [← hl]; exact ⟨rfl, rfl⟩
  have hm : (w.map fun s => s.setMessage q.slot left).state.message q.slot = some left := State.message_setMessage_self ..
  have ho := State.openMessage_of hm c1
  by_cases hp : zoneRemove z a.pending ≠ 0
  · rw [if_pos hp, if_pos (.inl hp)]; exact hm
  · rw [if_neg hp]
    by_cases hs : a.sent = 0
    · rw [if_neg (not_not.mpr hs), if_pos (.inr hs)]; exact hm
    · rw [if_pos hs, if_neg (fun h => h.elim hp hs)]
      by_cases hk : m.kind = .twoWay ∨ a.number < m.tariff.retryCount
      · rw [if_pos hk, Work.complete_waits ho (by rw [c2, c3.1, c3.2]; exact hk)]
        refine (State.message_setMessage_self ..).trans ?_
        rw [c2, c3.1, c3.2]
        cases m.kind <;> rfl
      · have k1 : left.kind = .oneWay := by
          rw [c3.1]
          cases hk' : m.kind with
          | oneWay => rfl
          | twoWay => exact absurd (.inl hk') hk
        rw [if_neg hk, Work.complete_sent ho k1 (by rw [c2, c3.2]; exact Nat.not_lt.mp fun h => hk (.inr h))]
        exact (Work.shuts_close (w := w.map fun s => s.setMessage q.slot left) .sent 0 hm c1).message

/-- What one loss does to the stall list. -/
theorem Work.stalls_lose {w : Work} {z : ZoneId} {q : QueueEntry} (h : q.slot ∉ w.state.stalls) :
    (w.lose z q).state.stalls = w.state.stalls ++ if w.state.stallsOnLoss z q then [q.slot] else [] := by
  cases hl : w.state.liveEntry q with
  | none => simp [Work.lose, State.stallsOnLoss, hl]
  | some p =>
    obtain ⟨m, a⟩ := p
    by_cases hz : zoneIn z a.pending = true
    · rw [Work.lose_live hl hz _ rfl]
      have he : w.state.stallsOnLoss z q = decide (zoneRemove z a.pending = 0 ∧ a.sent = 0) := by
        simp only [State.stallsOnLoss, hl, hz, Attempt.without, Bool.true_and]
        congr
      rw [he]
      by_cases hp : zoneRemove z a.pending ≠ 0
      · rw [if_pos hp, if_neg (by simpa using fun h => absurd h hp), List.append_nil]; rfl
      · rw [if_neg hp]
        have hp0 : zoneRemove z a.pending = 0 := not_not.mp hp
        by_cases hs : a.sent = 0
        · rw [if_neg (not_not.mpr hs), if_pos (by simpa using ⟨hp0, hs⟩)]; rfl
        · rw [if_pos hs, if_neg (by simpa using fun _ => hs), List.append_nil]
          generalize hv : (w.map fun s => s.setMessage q.slot _) = v
          have hst : v.state.stalls = w.state.stalls := by rw [← hv]; rfl
          rcases Work.complete_cases q.slot v with e | e | ⟨n, -, e⟩ <;> rw [e]
          · exact hst
          · cases ho : v.state.openMessage q.slot with
            | none => rw [Work.close_closed _ _ ho]; exact hst
            | some n =>
              obtain ⟨g1, g2⟩ := State.openMessage_eq_some.mp ho
              rw [(Work.shuts_close (w := v) .sent 0 g1 g2).stalls, hst]
              apply List.filter_eq_self.mpr
              intro j hj
              simp only [decide_eq_true_eq]
              rintro rfl
              exact h hj
          · exact hst
    · simp [Work.lose, State.stallsOnLoss, hl, hz]

theorem Work.touched_lose {z y : ZoneId} (q : QueueEntry) {w : Work} (h : zoneIn y w.touched = true) :
    zoneIn y (w.lose z q).touched = true := by
  have hc : ∀ v : Work, zoneIn y v.touched = true → zoneIn y (v.complete q.slot).touched = true := by
    intro v hv
    rcases Work.complete_cases q.slot v with e | e | ⟨n, -, e⟩ <;> rw [e]
    · exact hv
    · unfold Work.close
      split
      · exact hv
      · simp [zoneIn_or, hv]
    · exact hv
  rcases Work.lose_cases z q w with e | ⟨m, a, e, hz⟩
  · rw [e]; exact h
  · rw [Work.lose_live e hz _ rfl]
    split
    · exact h
    · split
      · exact hc _ h
      · exact h

/-- A live entry stays as it is through the losses of other slots. -/
theorem Work.liveEntry_loses {z : ZoneId} (l : List QueueEntry) (w : Work) {q : QueueEntry} (h : ∀ r ∈ l, r.slot ≠ q.slot) :
    (l.foldl (fun v q => v.lose z q) w).state.liveEntry q = w.state.liveEntry q
      ∧ (l.foldl (fun v q => v.lose z q) w).state.message q.slot = w.state.message q.slot := by
  induction l generalizing w with
  | nil => exact ⟨rfl, rfl⟩
  | cons r rest ih =>
    have hne := h r List.mem_cons_self
    obtain ⟨h1, h2⟩ := ih (w.lose z r) fun x hx => h x (List.mem_cons_of_mem _ hx)
    have e := Work.message_lose_ne (w := w) (z := z) (q := r) (Ne.symm hne)
    exact ⟨h1.trans (State.liveEntry_congr e (Work.epoch_lose ..)), h2.trans e⟩

/-- The losses of entries of distinct slots, one by one. -/
theorem Work.lostTo_loses {z : ZoneId} (l : List QueueEntry) (hl : (l.map QueueEntry.slot).Nodup) (w : Work) :
    (∀ q ∈ l, ∀ m a, w.state.liveEntry q = some (m, a) → zoneIn z a.pending = true →
        w.state.lostTo (l.foldl (fun v q => v.lose z q) w).state z q m a)
      ∧ ((∀ q ∈ l, q.slot ∉ w.state.stalls) →
        (l.foldl (fun v q => v.lose z q) w).state.stalls
          = w.state.stalls ++ (l.filter (w.state.stallsOnLoss z)).map QueueEntry.slot) := by
  induction l generalizing w with
  | nil => exact ⟨fun q hq => (List.not_mem_nil hq).elim, fun _ => by simp⟩
  | cons r rest ih =>
    rw [List.map_cons] at hl
    obtain ⟨hr, hn⟩ := List.nodup_cons.mp hl
    have hne : ∀ q ∈ rest, q.slot ≠ r.slot := fun q hq e => hr (e ▸ List.mem_map_of_mem hq)
    obtain ⟨h1, h2⟩ := ih hn (w.lose z r)
    have live : ∀ q ∈ rest, (w.lose z r).state.liveEntry q = w.state.liveEntry q := fun q hq =>
      State.liveEntry_congr (Work.message_lose_ne (hne q hq)) (Work.epoch_lose ..)
    have hold : (w.lose z r).state.airHold = w.state.airHold := by rw [(Work.withdraws_lose z r w).rest]
    constructor
    · intro q hq m a hla hz
      rw [List.foldl_cons]
      rcases List.mem_cons.mp hq with rfl | hq
      · have := Work.lostTo_lose hla hz
        rintro left rfl
        have h3 := this _ rfl
        rw [(Work.liveEntry_loses rest (w.lose z q) fun r hr' => hne r hr').2]
        exact h3
      · have := h1 q hq m a (by rw [live q hq]; exact hla) hz
        rintro left rfl
        have h3 := this _ rfl
        rw [hold] at h3
        exact h3
    · intro hs
      have e1 := Work.stalls_lose (z := z) (hs r List.mem_cons_self)
      rw [List.foldl_cons, h2, e1]
      · have : rest.filter ((w.lose z r).state.stallsOnLoss z) = rest.filter (w.state.stallsOnLoss z) := by
          apply List.filter_congr
          intro q hq
          simp [State.stallsOnLoss, live q hq]
        rw [this, List.filter_cons]
        split <;> simp
      · intro q hq
        rw [e1]
        have := hs q (List.mem_cons_of_mem _ hq)
        have h3 := hne q hq
        split <;> simp [this, h3]

/-! ## A departure from UP (R107, R124) -/

/-- What `leaveUp` does to an event in progress. -/
structure Work.Left (w v : Work) (z : ZoneId) (cause : DownCause) : Prop where
  calls : v.calls = w.calls
  queue : (v.state.zone z).queue = []
  inFlight : (v.state.zone z).inFlight = none
  notPending : ∀ q ∈ (w.state.zone z).inFlightEntries ++ (w.state.zone z).queue, ∀ m a,
    w.state.liveEntry q = some (m, a) → ∃ m', v.state.message q.slot = some m' ∧ m'.GaveUp z a
  slots : ((w.state.zone z).standing.map QueueEntry.slot).Nodup → ∀ q ∈ (w.state.zone z).standing, ∀ m a,
    w.state.liveEntry q = some (m, a) → zoneIn z a.pending = true → w.state.lostTo v.state z q m a
  others : ∀ slot, (∀ q ∈ (w.state.zone z).standing, q.slot ≠ slot) → v.state.message slot = w.state.message slot
  stalls : ((w.state.zone z).standing.map QueueEntry.slot).Nodup →
    (∀ q ∈ (w.state.zone z).standing, q.slot ∉ w.state.stalls) →
    v.state.stalls = w.state.stalls ++ ((w.state.zone z).standing.filter (w.state.stallsOnLoss z)).map QueueEntry.slot
  touched : (w.state.zone z).queue ≠ [] → zoneIn z v.touched = true
  flag : ∀ y, (v.state.zone y).congested = (w.state.zone y).congested
  role : ∀ q, (v.state.port q).role = (w.state.port q).role
  posted : ∀ q, (w.state.port q).role = .dispatch ∨ (w.state.port q).role = .supervisor →
    (w.state.port q).events.length < 32 →
    ⟨.linkDown, z.val, ((downCauseCode cause).toNat : Int), w.state.clock⟩ ∈ (v.state.port q).events
  otherQueues : ∀ y, ∀ q ∈ (v.state.zone y).queue, q ∈ (w.state.zone y).queue
  handled : ∃ u, (∀ q, u.port q = (w.state.port q).takes
      [⟨.linkDown, z.val, ((downCauseCode cause).toNat : Int), w.state.clock⟩])
    ∧ u = { w.state.setZone z { w.state.zone z with queue := [], inFlight := none } with ports := u.ports, links := u.links }
    ∧ oneByOne (State.loses z) (w.state.zone z).standing u v.state
  link : v.state.link z = { (w.state.link z).quiet with state := .failed, downCause := some cause }
  otherLinks : ∀ y, y ≠ z → v.state.link y = w.state.link y
  fixed : ∀ y, (v.state.zone y).schedule = (w.state.zone y).schedule ∧ (v.state.zone y).force = (w.state.zone y).force
    ∧ (v.state.zone y).nextBatch = (w.state.zone y).nextBatch ∧ (v.state.zone y).nextSeq = (w.state.zone y).nextSeq
  rest : v.state = { w.state with
    ports := v.state.ports, directory := v.state.directory, messages := v.state.messages, stalls := v.state.stalls
    zones := v.state.zones, links := v.state.links, journal := v.state.journal }

theorem Work.left_leaveUp (z : ZoneId) (cause : DownCause) (w : Work) : w.Left (w.leaveUp z cause) z cause := by
  unfold Work.leaveUp
  generalize hu : (w.map fun s =>
    (s.setLink z { (s.link z).stopTimers.cut with state := .failed, downCause := some cause }).post
      .linkDown z.val (downCauseCode cause).toNat) = u
  have u0 : u.calls = w.calls := by rw [← hu]; rfl
  have u1 : u.state.zones = w.state.zones := by rw [← hu]; rfl
  have u2 : u.state.messages = w.state.messages := by rw [← hu]; rfl
  have u3 : u.state.epochs = w.state.epochs := by rw [← hu]; rfl
  have u4 : u.state.links = bankSet w.state.links z { (w.state.link z).quiet with state := .failed, downCause := some cause } := by
    rw [← hu]; rfl
  have u5 : u.state = { w.state with ports := u.state.ports, links := u.state.links } := by rw [← hu]; rfl
  have u6 : ∀ q, (w.state.port q).role = .dispatch ∨ (w.state.port q).role = .supervisor →
      (w.state.port q).events.length < 32 →
      ⟨.linkDown, z.val, ((downCauseCode cause).toNat : Int), w.state.clock⟩ ∈ (u.state.port q).events := by
    intro q hr hl
    rw [← hu]
    show _ ∈ ((State.post _ _ _ _).port q).events
    rw [State.port_post, if_pos]
    · exact Port.mem_offer hl
    · show (w.state.port q).role ∈ _
      rcases hr with h | h <;> simp [h, eventRoles]
  have u7 : ∀ q, (u.state.port q).role = (w.state.port q).role := by
    intro q
    rw [← hu]
    show ((State.post _ _ _ _).port q).role = _
    rw [State.port_post_takes, Port.takes_role]
    rfl
  have u8 : ∀ q, u.state.port q = (w.state.port q).takes
      [⟨.linkDown, z.val, ((downCauseCode cause).toNat : Int), w.state.clock⟩] := by
    intro q
    rw [← hu]
    show (State.post _ _ _ _).port q = _
    rw [State.port_post_takes]
    rfl
  have uz : ∀ y, u.state.zone y = w.state.zone y := fun y => by rw [State.zone, u1]; rfl
  clear hu
  unfold Work.loseZone
  dsimp only
  generalize hl : (u.state.zone z).inFlightEntries ++ (u.state.zone z).queue = l
  generalize hv : (Work.mk (u.state.setZone z { u.state.zone z with queue := [], inFlight := none })
    (if (u.state.zone z).queue = [] then u.touched else zoneInsert z u.touched) u.calls) = v
  have v1 : v.state = u.state.setZone z { u.state.zone z with queue := [], inFlight := none } := by rw [← hv]
  have v2 : v.calls = u.calls := by rw [← hv]
  have v3 : (w.state.zone z).queue ≠ [] → zoneIn z v.touched = true := by
    intro h
    rw [← hv]
    show zoneIn z (if _ then _ else _) = true
    rw [uz, if_neg h]
    simp [zoneIn_insert]
  clear hv
  have hw : v.state.Withdraws (l.foldl (fun v q => v.lose z q) v).state :=
    Work.withdraws_foldl _ (fun w q => Work.withdraws_lose z q w) l v
  have hp : v.state.pages (l.foldl (fun v q => v.lose z q) v).state :=
    Work.pages_foldl _ (fun w q => Work.pages_lose z q w) l v
  have hchain : oneByOne (State.loses z) l v.state (l.foldl (fun v q => v.lose z q) v).state :=
    Work.oneByOne_foldl _ (fun w q => Work.loses_lose z q w) l v
  have hc : (l.foldl (fun v q => v.lose z q) v).calls = v.calls := by
    clear hl hw hp v1 v2 v3 hchain
    induction l generalizing v with
    | nil => rfl
    | cons q rest ih => rw [List.foldl_cons, ih, Work.calls_lose]
  have hg := fun q (hq : q ∈ l) m a h => Work.loses_gaveUp (z := z) l (w := v) (q := q) (m := m) (a := a) hq h
  have hlost := fun hn => Work.lostTo_loses (z := z) l hn v
  have hother := fun (q : QueueEntry) (h : ∀ r ∈ l, r.slot ≠ q.slot) => (Work.liveEntry_loses (z := z) l v h).2
  have htouch : zoneIn z v.touched = true → zoneIn z (l.foldl (fun v q => v.lose z q) v).touched = true := by
    clear hl hw hp v1 v2 hc hg hlost hother v3 hchain
    induction l generalizing v with
    | nil => exact id
    | cons q rest ih => exact fun h => ih (v.lose z q) (Work.touched_lose q h)
  have hlive : ∀ q, v.state.liveEntry q = w.state.liveEntry q := by
    intro q
    apply State.liveEntry_congr
    · rw [v1]; show tblGet _ u.state.messages = _; rw [u2]; rfl
    · rw [v1]; show (tblGet _ u.state.epochs).getD 0 = _; rw [u3]; rfl
  have hstalls : v.state.stalls = w.state.stalls := by rw [v1, State.setZone, u5]
  have hair : v.state.airHold = w.state.airHold := by rw [v1, State.setZone, u5]
  have hmsg : ∀ j, v.state.message j = w.state.message j := by
    intro j; rw [v1]; show tblGet _ u.state.messages = _; rw [u2]; rfl
  generalize l.foldl (fun v q => v.lose z q) v = x at *
  have hlinks : x.state.links = u.state.links := by rw [hw.rest, v1]; rfl
  have hvz : ∀ y, y ≠ z → v.state.zone y = w.state.zone y := by
    intro y hy
    rw [v1, State.zone_setZone_ne _ _ hy, uz]
  have hvzz : v.state.zone z = { w.state.zone z with queue := [], inFlight := none } := by
    rw [v1, State.zone_setZone_self, uz]
  constructor
  · rw [hc, v2, u0]
  · apply List.eq_nil_iff_forall_not_mem.mpr
    intro q hq
    have := hw.queue z q hq
    rw [hvzz] at this
    cases this
  · exact hw.inFlight z (by rw [hvzz])
  · intro q hq m a h
    refine hg q ?_ m a ?_
    · rw [← hl, uz]; exact hq
    · rw [← h, hlive]
  · intro hn q hq m a h hz
    have hl' : (w.state.zone z).standing = l := by rw [← hl, uz]; rfl
    rw [hl'] at hn hq
    have := (hlost hn).1 q hq m a (by rw [hlive]; exact h) hz
    rintro left rfl
    have h3 := this _ rfl
    rw [hair] at h3
    exact h3
  · intro slot hs
    have hl' : (w.state.zone z).standing = l := by rw [← hl, uz]; rfl
    rw [hl'] at hs
    rw [← hmsg]
    exact hother ⟨slot, 0, 0, 0, 0, 0⟩ hs
  · intro hn hs
    have hl' : (w.state.zone z).standing = l := by rw [← hl, uz]; rfl
    rw [hl'] at hn hs ⊢
    rw [(hlost hn).2 (by rw [hstalls]; exact hs), hstalls]
    congr 2
    apply List.filter_congr
    intro q _
    simp [State.stallsOnLoss, hlive]
  · exact fun h => htouch (v3 h)
  · intro y
    rw [hw.flag]
    by_cases hy : y = z
    · subst hy; rw [hvzz]
    · rw [hvz y hy]
  · intro q
    have h1 := congrArg Port.role (hp.line q)
    refine Eq.trans h1 ?_
    show (v.state.port q).role = _
    rw [v1]
    show (u.state.port q).role = _
    exact u7 q
  · intro q hr hl'
    have h1 := u6 q hr hl'
    have h2 : (v.state.port q).events = (u.state.port q).events := by rw [v1]; rfl
    exact (hp.events q).subset (h2 ▸ h1)
  · intro y q hq
    have := hw.queue y q hq
    by_cases hy : y = z
    · subst hy; rw [hvzz] at this; cases this
    · rw [hvz y hy] at this; exact this
  · have hl' : (w.state.zone z).standing = l := by rw [← hl, uz]; rfl
    refine ⟨v.state, fun q => ?_, ?_, by rw [hl']; exact hchain⟩
    · rw [v1]; exact u8 q
    · rw [v1, uz]
      generalize u.state = b at u5
      rw [u5]
      rfl
  · show bankGet x.state.links z = _
    rw [hlinks, u4, bankGet_bankSet_self]
  · intro y hy
    show bankGet x.state.links y = _
    rw [hlinks, u4, bankGet_bankSet_ne _ _ hy]; rfl
  · intro y
    have h1 := hw.fixed y
    by_cases hy : y = z
    · subst hy; rw [hvzz] at h1; exact h1
    · rw [hvz y hy] at h1; exact h1
  · have h1 := hw.rest
    rw [v1] at h1
    rw [hlinks]
    generalize x.state = y at h1 ⊢
    rw [h1]
    generalize u.state = b at u5
    rw [u5]
    rfl

/-- A departure from UP before the tests at the event's end. -/
theorem Work.Left.leftUp {s : State} {v : Work} {z : ZoneId} {cause : DownCause} (h : s.begin.Left v z cause) :
    s.leftUp v.state z cause where
  queue := h.queue
  inFlight := h.inFlight
  notPending q hq m a hl := by
    obtain ⟨m', e1, a', e2, e3, e4, e5⟩ := h.notPending q hq m a hl
    exact ⟨m', a', e1, e2, e3, e4, e5⟩
  slots := h.slots
  others := h.others
  stalls := h.stalls
  posted := h.posted
  otherQueues := h.otherQueues
  otherLinks := h.otherLinks
  handled := by
    obtain ⟨u, h1, h2, h3⟩ := h.handled
    exact ⟨u, v.state, h1, h2, h3, rfl, rfl, rfl, rfl, fun _ => rfl, fun _ _ => ⟨rfl, rfl⟩⟩
  schedule := h.fixed
  rest := h.rest

/-- A departure from UP, the link then set to what its next state asks for, at the end of the event. -/
theorem Work.leftUp_finish {s : State} {v w : Work} {z : ZoneId} {cause : DownCause} {x : Link} (h : s.begin.Left v z cause)
    (hs : w.state = v.state.setLink z x) (hc : w.calls = v.calls) (ht' : w.touched = v.touched) :
    s.leftUp w.finish z cause ∧ s.clearedOnLoss w.finish z ∧ w.finish.link z = x := by
  have hc0 : w.calls = 0 := by rw [hc, h.calls]; rfl
  have hq : ∀ y, zoneIn y w.calls = false := by intro y; rw [hc0]; exact zoneIn_zero y
  have hz : ∀ y, w.finish.zone y = { v.state.zone y with congested := (w.finish.zone y).congested } := by
    intro y; rw [Work.zone_finish_quiet (hq y), hs]; rfl
  have hl : ∀ y, w.finish.link y = (v.state.setLink z x).link y := by
    intro y; rw [Work.link_finish_ne (hq y), hs]
  have hp := Work.pages_finish w
  refine ⟨⟨?_, ?_, ?_, ?_, ?_, ?_, ?_, ?_, ?_, ?_, ?_, ?_⟩, ?_, ?_⟩
  · rw [hz]; exact h.queue
  · rw [hz]; exact h.inFlight
  · intro q hm m a hla
    obtain ⟨m', e1, a', e2, e3, e4, e5⟩ := h.notPending q hm m a hla
    exact ⟨m', a', by rw [Work.message_finish, hs]; exact e1, e2, e3, e4, e5⟩
  · intro hn q hq' m a hla hz'
    have := h.slots hn q hq' m a hla hz'
    rintro left rfl
    have h3 := this _ rfl
    rw [Work.message_finish, hs]
    exact h3
  · intro slot hn
    rw [Work.message_finish, hs]
    exact h.others slot hn
  · intro hn hst
    have : w.finish.stalls = v.state.stalls := by rw [Work.finish_rest, hs]; rfl
    rw [this]
    exact h.stalls hn hst
  · intro q hr hlen
    have h1 := h.posted q hr hlen
    have h2 : (w.state.port q).events = (v.state.port q).events := by rw [hs]; rfl
    exact (hp.events q).subset (h2 ▸ h1)
  · intro y q hm
    rw [hz] at hm
    exact h.otherQueues y q hm
  · intro y hy
    rw [hl, State.link_setLink_ne _ _ hy]; exact h.otherLinks y hy
  · obtain ⟨u, h1, h2, h3⟩ := h.handled
    refine ⟨u, v.state, h1, h2, h3, ?_, ?_, ?_, ?_, fun q => ?_, fun y _ => ?_⟩
    · rw [Work.finish_messages, hs]; rfl
    · rw [Work.finish_stalls, hs]; rfl
    · rw [Work.finish_directory, hs]; rfl
    · rw [Work.finish_journal, hs]; rfl
    · rw [Work.outcomes_finish, hs]; rfl
    · rw [hz]; exact ⟨rfl, rfl⟩
  · intro y
    have := h.fixed y
    rw [hz]
    exact this
  · have h1 := Work.finish_rest w
    have h2 := h.rest
    rw [hs] at h1
    rw [h1]
    generalize v.state = y at *
    rw [h2]
    rfl
  · intro hne
    obtain ⟨changed, ht, hin, -⟩ := Work.tests_finish w
    have hzc : zoneIn z changed = true := hin z (by rw [ht']; exact h.touched hne)
    have hf := ht.flags z
    rw [if_pos hzc] at hf
    have hqe : (w.finish.zone z).queue = [] := by rw [hz]; exact h.queue
    have hcl : (w.finish.zone z).congested = false := by
      rw [hf, hqe]
      simp [DispatchSettings.congests, queuedWords]
    refine ⟨hcl, fun hset q hrole => ?_⟩
    rw [ht.records q]
    apply Port.mem_takes
    · have e1 : (w.state.port q).role = (s.port q).role := by rw [hs]; exact h.role q
      rw [e1]; exact hrole
    · rw [List.nil_append]
      apply List.mem_filterMap.mpr
      refine ⟨z, mem_allZones z, ?_⟩
      have e2 : (w.state.zone z).congested = true := by
        rw [hs]; exact (h.flag z).trans hset
      have e3 : w.state.clock = s.clock := by
        rw [hs]
        show v.state.clock = _
        have := h.rest
        rw [this]; rfl
      rw [hcl, e2, hqe, e3]
      rfl
  · rw [hl, State.link_setLink_self]

/-- A departure counted from the state before the block of its own link was taken. -/
theorem State.leftUp_setLink {s t : State} {z : ZoneId} {cause : DownCause} {x : Link}
    (h : (s.setLink z x).leftUp t z cause) : s.leftUp t z cause where
  queue := h.queue
  inFlight := h.inFlight
  notPending := h.notPending
  slots := h.slots
  others := h.others
  stalls := h.stalls
  posted := h.posted
  otherQueues := h.otherQueues
  otherLinks y hy := by rw [h.otherLinks y hy, State.link_setLink_ne _ _ hy]
  handled := by
    obtain ⟨u, v, h1, h2, h3⟩ := h.handled
    exact ⟨u, v, h1, h2, h3⟩
  schedule := h.schedule
  rest := h.rest

/-- An answer leaves standing what a departure from UP did. -/
theorem State.leftUp_respond {s t : State} {z : ZoneId} {cause : DownCause} (h : s.leftUp t z cause) (p : PortId) (g : Nat)
    (st : Status) (b : List Byte) : s.leftUp (t.respond p g st b) z cause where
  queue := h.queue
  inFlight := h.inFlight
  notPending := h.notPending
  slots := h.slots
  others := h.others
  stalls := h.stalls
  posted q hr hl := by
    have := h.posted q hr hl
    rw [State.respond, State.port_setPort]
    split
    · next hq => subst hq; exact this
    · exact this
  otherQueues := h.otherQueues
  otherLinks := h.otherLinks
  handled := by
    obtain ⟨u, v, h1, h2, h3, h4, h5, h6, h7, h8, h9⟩ := h.handled
    refine ⟨u, v, h1, h2, h3, h4, h5, h6, h7, fun q => ?_, h9⟩
    rw [State.respond, State.port_setPort]
    split
    · next hq => subst hq; exact h8 q
    · exact h8 q
  schedule := h.schedule
  rest := by
    have h3 := h.rest
    rw [State.respond, State.setPort]
    generalize t.port p = x
    rw [h3]

/-- R124, R125: the link leaves UP into FAILED, at the end of the event. -/
theorem State.leftUp_failUp (s : State) (z : ZoneId) (cause : DownCause) :
    s.leftUp (s.begin.failUp z cause).finish z cause ∧ s.clearedOnLoss (s.begin.failUp z cause).finish z
      ∧ (s.begin.failUp z cause).finish.link z = { (s.link z).quiet with
          state := .failed, downCause := some cause, holdOffTimer := some 20, basePage := none } := by
  have h := Work.left_leaveUp z cause s.begin
  have he : (s.begin.failUp z cause).state = (s.begin.leaveUp z cause).state.setLink z
      { ((s.begin.leaveUp z cause).state.link z).stopTimers.cut with
        state := .failed, downCause := some cause, holdOffTimer := some 20, basePage := none } := rfl
  rw [h.link] at he
  exact Work.leftUp_finish h he rfl rfl

/-! ## Entries to states -/

theorem State.enterFailed_eq (s : State) (z : ZoneId) (cause : DownCause) :
    s.enterFailed z cause = s.setLink z { (s.link z).quiet with
      state := .failed, downCause := some cause, holdOffTimer := some 20, basePage := none } := rfl

theorem State.enterOff_eq (s : State) (z : ZoneId) :
    s.enterOff z = s.setLink z { (s.link z).quiet with state := .off, basePage := none, received := none } := rfl

/-- The part's own page in the words of its settings. -/
theorem Zone.capPage_eq (x : Zone) :
    x.capPage = .capBase x.written.rates x.written.capacity (decide (x.written.identity ≠ 0)) := rfl

/-! ## The evaluation of a page (R118) -/

theorem Work.evaluate_offline {w : Work} {z : ZoneId} {page : SitePage} (h : page.fault = none) :
    w.evaluate z page = w.map fun s => s.enterFailed z .remote := by
  simp [Work.evaluate, h]

theorem highestRate_none {r : BitVec 3} (h : r = 0) : highestRate r = none := by
  subst h; rfl

theorem highestRate_some {r : BitVec 3} (h : r ≠ 0) : ∃ x, highestRate r = some x := by
  have key : ∀ r : BitVec 3, r ≠ 0 → (highestRate r).isSome = true := by decide
  exact Option.isSome_iff_exists.mp (key r h)

theorem Work.evaluate_mismatch {w : Work} {z : ZoneId} {page : SitePage} {f : RemoteFault} (h : page.fault = some f)
    (hr : highestRate ((w.state.zone z).written.rates &&& page.rates) = none) :
    w.evaluate z page = w.map fun s => s.enterFailed z .mismatch := by
  simp [Work.evaluate, h, hr]

/-- A needed next page: the part's own pages are sent and the site's page is held. -/
theorem Work.evaluate_held {w : Work} {z : ZoneId} {page : SitePage} {f : RemoteFault} {rate : Rate}
    (h : page.fault = some f) (hr : highestRate ((w.state.zone z).written.rates &&& page.rates) = some rate)
    (hn : (w.state.zone z).written.identity ≠ 0 ∨ page.nextPage = true) :
    w.evaluate z page = w.map fun s => s.setLink z
      { ((s.link z).send (s.zone z).capPage).send (.capNext (w.state.zone z).written.identity) with
        basePage := some ⟨page.rates, page.capacity, f, page.nextPage, rate,
          min (w.state.zone z).written.capacity page.capacity⟩ } := by
  simp [Work.evaluate, h, hr, hn, Work.map]

end Sys2Proof.Machine
end

