-- ==== Sys2Proof/Laws/Resuming.lean ====
section
/-! SUPPORT. Everything the resumption of STALLED slots does (R141), and where an entry that has joined a queue stands at the end of the event (R99, R100). -/

namespace Sys2Proof.Machine

/-! ## Joined entries at the end of an event -/

/-- R100: what a walk takes and what it passes over are the entries of the queue. -/
theorem mem_walk (room : Nat) (queue : List QueueEntry) (q : QueueEntry) :
    q ∈ queue ↔ q ∈ (walk room queue).1 ∨ q ∈ (walk room queue).2 := by
  induction queue generalizing room with
  | nil => simp [walk]
  | cons x rest ih =>
    unfold walk
    split
    · simp
    · split
      · simp only [List.mem_cons, ih (room - x.words)]; tauto
      · simp only [List.mem_cons, ih room]; tauto

/-- A formation leaves every entry of a queue standing in its zone, and changes no ready sequence. -/
theorem Work.holds_form (z y : ZoneId) (w : Work) {q : QueueEntry} (h : (w.state.zone y).holds q) :
    ((w.form z).state.zone y).holds q ∧ ((w.form z).state.zone y).nextSeq = (w.state.zone y).nextSeq := by
  unfold Work.form
  split
  · next p hp =>
    simp only [State.formWith, State.zone_setLink', State.zone_setZone]
    split
    · next hy =>
      subst hy
      refine ⟨?_, rfl⟩
      have hn : (w.state.zone y).inFlight = none := by
        unfold State.formable at hp
        split at hp
        · next hc => exact hc.2.2.1
        · cases hp
      rcases h with h | ⟨b, hb, -⟩
      · rcases (mem_walk p.capacity _ _).mp h with h | h
        · exact .inr ⟨_, rfl, List.mem_map_of_mem h⟩
        · exact .inl h
      · rw [hn] at hb; cases hb
    · exact ⟨h, rfl⟩
  · exact ⟨h, rfl⟩

theorem Work.seq_form (z y : ZoneId) (w : Work) : ((w.form z).state.zone y).nextSeq = (w.state.zone y).nextSeq := by
  unfold Work.form
  split
  · simp only [State.formWith, State.zone_setLink', State.zone_setZone]
    split
    · next hy => subst hy; rfl
    · rfl
  · rfl

/-- The end of an event leaves every entry standing in its zone, and changes no ready sequence. -/
theorem Work.holds_finish (y : ZoneId) (w : Work) :
    (w.finish.zone y).nextSeq = (w.state.zone y).nextSeq
      ∧ ∀ q, (w.state.zone y).holds q → (w.finish.zone y).holds q := by
  have key : ∀ (l : List ZoneId) (v : Work),
      ((l.foldl (fun v z => v.form z) v).state.zone y).nextSeq = (v.state.zone y).nextSeq
        ∧ ∀ q, (v.state.zone y).holds q → ((l.foldl (fun v z => v.form z) v).state.zone y).holds q := by
    intro l
    induction l with
    | nil => exact fun v => ⟨rfl, fun _ h => h⟩
    | cons z rest ih =>
      intro v
      obtain ⟨h1, h2⟩ := ih (v.form z)
      exact ⟨h1.trans (Work.seq_form z y v), fun q hq => h2 q (Work.holds_form z y v hq).1⟩
  obtain ⟨h1, h2⟩ := key (allZones.filter fun z => zoneIn z w.calls) w
  unfold Work.finish
  dsimp only
  rw [State.zone_congestionTests]
  exact ⟨h1, h2⟩

/-! ## Resumption -/

theorem Work.place_rest (slot : SlotId) (w : Work) :
    (w.place slot).state = { w.state with
      messages := (w.place slot).state.messages, stalls := (w.place slot).state.stalls
      zones := (w.place slot).state.zones } := by
  cases hm : w.state.openMessage slot with
  | none => rw [Work.place_closed hm]
  | some m =>
    cases ha : m.lastAttempt with
    | none =>
      have : w.place slot = w := by simp [Work.place, hm, ha]
      rw [this]
    | some a => exact (Work.placed_place hm ha).rest

theorem Work.places_rest (l : List SlotId) (w : Work) :
    (l.foldl (fun v slot => v.place slot) w).state = { w.state with
      messages := (l.foldl (fun v slot => v.place slot) w).state.messages
      stalls := (l.foldl (fun v slot => v.place slot) w).state.stalls
      zones := (l.foldl (fun v slot => v.place slot) w).state.zones } := by
  induction l generalizing w with
  | nil => rfl
  | cons a r ih =>
    rw [List.foldl_cons]
    have h1 := ih (w.place a)
    have h2 := Work.place_rest a w
    generalize (r.foldl (fun v slot => v.place slot) (w.place a)).state = x at *
    rw [h1]
    generalize (w.place a).state = y at *
    rw [h2]

theorem State.resumesIn_congr {s t : State} {z y : ZoneId} {slot : SlotId} (hm : t.message slot = s.message slot)
    (hu : zoneInsert z t.upZones = zoneInsert z s.upZones) : t.resumesIn z y slot = s.resumesIn z y slot := by
  simp [State.resumesIn, State.openMessage, hm, hu]

theorem State.resumesIn_iff {s : State} {z y : ZoneId} {slot : SlotId} :
    s.resumesIn z y slot = true ↔ ∃ m a, s.openMessage slot = some m ∧ m.lastAttempt = some a
      ∧ zoneIn z a.requested = true ∧ zoneIn y (a.requested &&& zoneInsert z s.upZones) = true := by
  unfold State.resumesIn
  cases hm : s.openMessage slot with
  | none => simp
  | some m =>
    cases ha : m.lastAttempt with
    | none => simp [ha]
    | some a => simp [ha]

theorem State.insert_upZones {s : State} {z : ZoneId} (hz : (s.link z).state = .up) : zoneInsert z s.upZones = s.upZones := by
  apply zoneSet_ext
  intro y
  rw [zoneIn_insert]
  by_cases hy : y = z
  · subst hy; simp [State.upZones, hz]
  · simp [hy]

/-- Placing a slot that a zone in UP resumes: what it resumes into, and what the resumption of every slot still reads. -/
theorem Work.resumed_place {z : ZoneId} {w : Work} {b : SlotId} {m : Message} {a : Attempt} (hz : (w.state.link z).state = .up)
    (hm : w.state.openMessage b = some m) (ha : m.lastAttempt = some a) (hza : zoneIn z a.requested = true) :
    ((w.place b).state.link z).state = .up
      ∧ (w.place b).state.upZones = w.state.upZones
      ∧ (∀ j, (w.place b).state.epoch j = w.state.epoch j)
      ∧ (w.place b).state.openMessage b = some { m with
          attempts := changeLast (fun r => { r with pending := a.requested &&& w.state.upZones }) m.attempts }
      ∧ Message.lastAttempt { m with
          attempts := changeLast (fun r => { r with pending := a.requested &&& w.state.upZones }) m.attempts }
          = some { a with pending := a.requested &&& w.state.upZones }
      ∧ (∀ y, w.state.resumesIn z y b = zoneIn y (a.requested &&& w.state.upZones))
      ∧ ∀ y slot, (w.place b).state.resumesIn z y slot = w.state.resumesIn z y slot := by
  have P := Work.placed_place hm ha
  have R := Work.place_rest b w
  generalize w.place b = v at P R ⊢
  have hins := State.insert_upZones hz
  have hvz : (v.state.link z).state = .up := by rw [State.link, R]; exact hz
  have hvu : v.state.upZones = w.state.upZones := by unfold State.upZones State.link; rw [R]
  have hb : ∀ y, w.state.resumesIn z y b = zoneIn y (a.requested &&& w.state.upZones) := by
    intro y; simp [State.resumesIn, hm, ha, hza, hins]
  have hvb := State.openMessage_of P.message (State.openMessage_eq_some.mp hm).2
  have hlast : Message.lastAttempt { m with
      attempts := changeLast (fun r => { r with pending := a.requested &&& w.state.upZones }) m.attempts }
      = some { a with pending := a.requested &&& w.state.upZones } :=
    lastAttempt_changeLast (m := m) (fun r => { r with pending := a.requested &&& w.state.upZones }) ha rfl
  refine ⟨hvz, hvu, fun j => by rw [State.epoch, R]; rfl, hvb, hlast, hb, fun y slot => ?_⟩
  by_cases hs : slot = b
  · subst hs
    rw [hb]
    unfold State.resumesIn
    rw [hvb, Option.bind_some, hlast]
    simp only [hza, Bool.true_and, hvu, hins]
  · exact State.resumesIn_congr (P.others slot hs) (by rw [hvu])

/-- What is known of an event in progress in which the slots of a list are placed, the zone being UP. -/
theorem Work.places_resume {z : ZoneId} (l : List SlotId) (w : Work) (hz : (w.state.link z).state = .up)
    (hl : ∀ slot ∈ l, w.state.resumesIn z z slot = true) :
    (l.foldl (fun v slot => v.place slot) w).state.stalls = w.state.stalls
      ∧ (∀ slot, slot ∉ l → (l.foldl (fun v slot => v.place slot) w).state.message slot = w.state.message slot)
      ∧ (∀ slot m a, slot ∈ l → w.state.openMessage slot = some m → m.lastAttempt = some a →
          (l.foldl (fun v slot => v.place slot) w).state.message slot = some { m with
            attempts := changeLast (fun r => { r with pending := a.requested &&& zoneInsert z w.state.upZones }) m.attempts })
      ∧ (∀ y q, (w.state.zone y).holds q → ((l.foldl (fun v slot => v.place slot) w).state.zone y).holds q)
      ∧ (∀ y, (l.foldl (fun v slot => v.place slot) w).state.zone y = w.state.zone y ∨ ∃ slot ∈ l, w.state.resumesIn z y slot = true)
      ∧ (l.Nodup → ∀ y,
          ((l.foldl (fun v slot => v.place slot) w).state.zone y).nextSeq
              = (w.state.zone y).nextSeq + BitVec.ofNat 32 (l.filter (w.state.resumesIn z y)).length
            ∧ ∀ (i : Nat) (slot : SlotId) (m : Message) (a : Attempt), (l.filter (w.state.resumesIn z y))[i]? = some slot →
              w.state.openMessage slot = some m → m.lastAttempt = some a →
              ((l.foldl (fun v slot => v.place slot) w).state.zone y).holds
                ⟨slot, w.state.epoch slot, a.number, m.words, m.priority, (w.state.zone y).nextSeq + BitVec.ofNat 32 i⟩)
      ∧ (∀ y, zoneIn y (l.foldl (fun v slot => v.place slot) w).touched = true ↔
          zoneIn y w.touched = true ∨ ∃ slot ∈ l, w.state.resumesIn z y slot = true) := by
  induction l generalizing w with
  | nil =>
    refine ⟨rfl, fun _ _ => rfl, fun _ _ _ h => (List.not_mem_nil h).elim, fun _ _ h => h, fun _ => .inl rfl, fun _ y => ⟨by simp, ?_⟩, by simp⟩
    intro i slot m a h
    simp at h
  | cons b rest ih =>
    obtain ⟨m, a, hm, ha, hza, -⟩ := State.resumesIn_iff.mp (hl b List.mem_cons_self)
    have P := Work.placed_place hm ha
    have L := Work.resumed_place hz hm ha hza
    simp only [List.foldl_cons]
    generalize w.place b = v at P L ⊢
    obtain ⟨hvz, hvu, hve, hvb, hlast, hb, hvr⟩ := L
    have hins := State.insert_upZones hz
    have hvins := State.insert_upZones hvz
    have hvzones : ∀ y, v.state.zone y = w.state.zone y ∨ w.state.resumesIn z y b = true := by
      intro y
      rw [P.zones, hb]
      by_cases h : zoneIn y (a.requested &&& w.state.upZones) = true
      · exact .inr h
      · rw [if_neg h]; exact .inl rfl
    have hvh : ∀ y q, (w.state.zone y).holds q → (v.state.zone y).holds q := by
      intro y q hq
      rw [P.zones]
      split
      · rcases hq with h | h
        · exact .inl (mem_queueInsert.mpr (.inr h))
        · exact .inr h
      · exact hq
    obtain ⟨g1, g2, g3, g4, g5, g6, g7⟩ := ih v hvz (fun slot hs => by rw [hvr]; exact hl slot (List.mem_cons_of_mem _ hs))
    refine ⟨?_, ?_, ?_, ?_, ?_, ?_, ?_⟩
    · rw [g1, P.stalls, if_neg]
      intro h0
      have h1 := hl b List.mem_cons_self
      rw [hb, h0] at h1
      have h00 : zoneIn z (0 : ZoneSet) = false := zoneIn_zero z
      rw [h00] at h1; cases h1
    · intro slot hs
      rw [g2 slot fun h => hs (List.mem_cons_of_mem _ h)]
      exact P.others slot fun e => hs (e ▸ List.mem_cons_self)
    · intro slot n c hs hn hc
      by_cases he : slot = b
      · subst he
        rw [hm] at hn; cases hn
        rw [ha] at hc; cases hc
        by_cases hr : slot ∈ rest
        · rw [g3 slot _ _ hr hvb hlast, hvins, hvu, hins]
          congr 2
          obtain ⟨l, hl'⟩ := Message.attempts_of_lastAttempt ha
          simp [hl']
        · rw [g2 slot hr, P.message, hins]
      · have hr : slot ∈ rest := (List.mem_cons.mp hs).resolve_left he
        rw [g3 slot n c hr (by simpa [State.openMessage, P.others slot he] using hn) hc, hvu]
    · exact fun y q hq => g4 y q (hvh y q hq)
    · intro y
      rcases g5 y with h | ⟨slot, hs, hr⟩
      · rcases hvzones y with h' | h'
        · exact .inl (h.trans h')
        · exact .inr ⟨b, List.mem_cons_self, h'⟩
      · exact .inr ⟨slot, List.mem_cons_of_mem _ hs, by rw [← hvr]; exact hr⟩
    · intro hn y
      obtain ⟨hb', hn'⟩ := List.nodup_cons.mp hn
      obtain ⟨k1, k2⟩ := g6 hn' y
      have hf : rest.filter (v.state.resumesIn z y) = rest.filter (w.state.resumesIn z y) :=
        List.filter_congr fun slot _ => hvr y slot
      rw [hf] at k1 k2
      rw [List.filter_cons, hb, k1, P.zones]
      by_cases hp : zoneIn y (a.requested &&& w.state.upZones) = true
      · rw [if_pos hp, if_pos hp]
        constructor
        · rw [List.length_cons, BitVec.add_assoc, Nat.add_comm, BitVec.ofNat_add]; rfl
        · intro i slot n c hi hn1 hc
          cases i with
          | zero =>
            have : b = slot := by simpa using hi
            subst this
            rw [hm] at hn1; cases hn1
            rw [ha] at hc; cases hc
            apply g4
            rw [P.zones, if_pos hp]
            refine .inl (mem_queueInsert.mpr (.inl ?_))
            simp
          | succ i =>
            rw [List.getElem?_cons_succ] at hi
            have hmem : slot ∈ rest := (List.mem_filter.mp (List.mem_of_getElem? hi)).1
            have hne : slot ≠ b := fun e => hb' (e ▸ hmem)
            have := k2 i slot n c hi (by simpa [State.openMessage, P.others slot hne] using hn1) hc
            rw [P.zones, if_pos hp, hve] at this
            have e : (w.state.zone y).nextSeq + 1 + BitVec.ofNat 32 i = (w.state.zone y).nextSeq + BitVec.ofNat 32 (i + 1) := by
              rw [BitVec.add_assoc, Nat.add_comm i, BitVec.ofNat_add]; rfl
            simp only [e] at this
            exact this
      · rw [if_neg hp, if_neg hp]
        refine ⟨rfl, ?_⟩
        intro i slot n c hi hn1 hc
        have hmem : slot ∈ rest := (List.mem_filter.mp (List.mem_of_getElem? hi)).1
        have hne : slot ≠ b := fun e => hb' (e ▸ hmem)
        have := k2 i slot n c hi (by simpa [State.openMessage, P.others slot hne] using hn1) hc
        rw [P.zones, if_neg hp, hve] at this
        exact this
    · intro y
      rw [g7 y, P.touched]
      simp only [hvr, Bool.or_eq_true, List.mem_cons, exists_eq_or_imp, hb]
      tauto

/-- R141: a resumption takes the slots it resumes off the stall list and places each, oldest stall first. -/
theorem Work.resume_eq (z : ZoneId) (w : Work) :
    w.resume z = (w.state.stalls.filter (w.state.resumesIn z z)).foldl (fun v slot => v.place slot) (w.map fun s => { s with
      stalls := s.stalls.filter (fun slot => decide (slot ∉ w.state.stalls.filter (w.state.resumesIn z z))) }) := by
  unfold Work.resume
  dsimp only
  generalize hr : (w.state.stalls.filter fun slot =>
      match (w.state.openMessage slot).bind Message.lastAttempt with
      | some a => zoneIn z a.requested
      | none => false) = r
  have hr' : r = w.state.stalls.filter (w.state.resumesIn z z) := by
    rw [← hr]
    apply List.filter_congr
    intro slot _
    unfold State.resumesIn
    cases (w.state.openMessage slot).bind Message.lastAttempt with
    | none => rfl
    | some a => simp [zoneIn_and, zoneIn_insert]
  clear hr
  subst hr'
  rfl

/-- R141: everything a resumption does. -/
theorem Work.resumes_resume {z : ZoneId} (w : Work) (hz : (w.state.link z).state = .up) :
    w.state.resumes (w.resume z).state z
      ∧ (∀ y, zoneIn y (w.resume z).touched = true ↔
          zoneIn y w.touched = true ∨ ∃ slot ∈ w.state.stalls, w.state.resumesIn z y slot = true)
      ∧ (∀ y, (w.resume z).state.zone y = w.state.zone y ∨ ∃ slot ∈ w.state.stalls, w.state.resumesIn z y slot = true)
      ∧ (w.resume z).state = { w.state with
          messages := (w.resume z).state.messages, stalls := (w.resume z).state.stalls
          zones := (w.resume z).state.zones } := by
  rw [Work.resume_eq]
  generalize hv : (w.map fun s => { s with
    stalls := s.stalls.filter (fun slot => decide (slot ∉ w.state.stalls.filter (w.state.resumesIn z z))) }) = v
  have vm : ∀ j, v.state.message j = w.state.message j := by intro j; rw [← hv]; rfl
  have vo : ∀ j, v.state.openMessage j = w.state.openMessage j := by intro j; rw [← hv]; rfl
  have vz : ∀ y, v.state.zone y = w.state.zone y := by intro y; rw [← hv]; rfl
  have vu : v.state.upZones = w.state.upZones := by rw [← hv]; rfl
  have ve : ∀ j, v.state.epoch j = w.state.epoch j := by intro j; rw [← hv]; rfl
  have vt : v.touched = w.touched := by rw [← hv]; rfl
  have vl : (v.state.link z).state = .up := by rw [← hv]; exact hz
  have vr : ∀ y j, v.state.resumesIn z y j = w.state.resumesIn z y j := fun y j =>
    State.resumesIn_congr (vm j) (by rw [vu])
  have vs : v.state.stalls = w.state.stalls.filter fun slot => !w.state.resumesIn z z slot := by
    rw [← hv]
    show List.filter _ w.state.stalls = _
    apply List.filter_congr
    intro slot hs
    simp only [List.mem_filter, hs, true_and]
    cases w.state.resumesIn z z slot <;> rfl
  have vrest : v.state = { w.state with stalls := v.state.stalls } := by rw [← hv]; rfl
  obtain ⟨g1, g2, g3, g4, g5, g6, g7⟩ := Work.places_resume (w.state.stalls.filter (w.state.resumesIn z z)) v vl
    (fun slot hs => by rw [vr]; exact (List.mem_filter.mp hs).2)
  have g8 := Work.places_rest (w.state.stalls.filter (w.state.resumesIn z z)) v
  clear hv
  generalize (w.state.stalls.filter (w.state.resumesIn z z)).foldl (fun v slot => v.place slot) v = x at *
  have hsub : ∀ y, (w.state.stalls.filter (w.state.resumesIn z z)).filter (w.state.resumesIn z y)
      = w.state.stalls.filter (w.state.resumesIn z y) := by
    intro y
    rw [List.filter_filter]
    apply List.filter_congr
    intro slot _
    cases h : w.state.resumesIn z y slot with
    | false => rfl
    | true =>
      obtain ⟨m, a, e1, e2, e3, -⟩ := State.resumesIn_iff.mp h
      simp only [Bool.true_and]
      exact State.resumesIn_iff.mpr ⟨m, a, e1, e2, e3, by simp [zoneIn_and, zoneIn_insert, e3]⟩
  have hex : ∀ y, (∃ slot ∈ w.state.stalls.filter (w.state.resumesIn z z), v.state.resumesIn z y slot = true) ↔
      ∃ slot ∈ w.state.stalls, w.state.resumesIn z y slot = true := by
    intro y
    constructor
    · rintro ⟨slot, hs, h⟩
      exact ⟨slot, (List.mem_filter.mp hs).1, by rw [← vr]; exact h⟩
    · rintro ⟨slot, hs, h⟩
      have : slot ∈ w.state.stalls.filter (w.state.resumesIn z y) := List.mem_filter.mpr ⟨hs, h⟩
      rw [← hsub] at this
      exact ⟨slot, (List.mem_filter.mp this).1, by rw [vr]; exact h⟩
  refine ⟨⟨?_, ?_, ?_, ?_, ?_, ?_⟩, ?_, ?_, ?_⟩
  · rw [g1, vs]
  · intro slot m a hs hm ha hza
    have : slot ∈ w.state.stalls.filter (w.state.resumesIn z z) :=
      List.mem_filter.mpr ⟨hs, State.resumesIn_iff.mpr ⟨m, a, hm, ha, hza, by simp [zoneIn_and, zoneIn_insert, hza]⟩⟩
    rw [g3 slot m a this (by rw [vo]; exact hm) ha, vu]
  · intro slot hs
    rw [g2, vm]
    intro h
    obtain ⟨h1, h2⟩ := List.mem_filter.mp h
    rcases hs with h | h
    · exact h h1
    · rw [h] at h2; cases h2
  · intro hn y i slot m a hi hm ha
    have := (g6 (hn.filter _) y).2 i slot m a
      (by rw [List.filter_congr fun slot _ => vr y slot, hsub]; exact hi) (by rw [vo]; exact hm) ha
    rw [ve, vz] at this
    exact this
  · intro hn y
    rw [(g6 (hn.filter _) y).1, List.filter_congr fun slot _ => vr y slot, hsub, vz]
  · intro y q hq
    exact g4 y q (by rw [vz]; exact .inl hq)
  · intro y
    rw [g7 y, vt, hex]
  · intro y
    rcases g5 y with h | h
    · exact .inl (h.trans (vz y))
    · exact .inr ((hex y).mp h)
  · generalize x.state = b at g8 ⊢
    rw [g8]
    generalize v.state = c at vrest
    rw [vrest]

/-- A resumption counted from a state that has the same messages, stalls, epochs and zones, at the end of the event. -/
theorem State.resumes_finish {s : State} {w : Work} {z : ZoneId} {v : State} (h : v.resumes w.state z)
    (hs : v.stalls = s.stalls) (hm : ∀ j, v.message j = s.message j) (he : ∀ j, v.epoch j = s.epoch j)
    (hz : ∀ y, v.zone y = s.zone y) (hu : zoneInsert z v.upZones = zoneInsert z s.upZones) :
    s.resumes w.finish z := by
  have ho : ∀ j, v.openMessage j = s.openMessage j := fun j => by simp [State.openMessage, hm]
  have hr : ∀ y j, v.resumesIn z y j = s.resumesIn z y j := fun y j => State.resumesIn_congr (hm j) hu
  have hr' : ∀ y, v.resumesIn z y = s.resumesIn z y := fun y => funext (hr y)
  have hf := fun y => Work.holds_finish y w
  refine ⟨?_, ?_, ?_, ?_, ?_, ?_⟩
  · rw [Work.finish_stalls, h.stalls, hs]
    simp only [hr]
  · intro slot m a h1 h2 h3 h4
    rw [Work.message_finish, h.messages slot m a (by rw [hs]; exact h1) (by rw [ho]; exact h2) h3 h4, hu]
  · intro slot h1
    rw [Work.message_finish, h.others slot (by rw [hs, hr]; exact h1), hm]
  · intro hn y i slot m a h1 h2 h3
    have := h.entries (by rw [hs]; exact hn) y i slot m a (by rw [hs, hr']; exact h1) (by rw [ho]; exact h2) h3
    rw [he, hz] at this
    exact (hf y).2 _ this
  · intro hn y
    rw [(hf y).1, h.sequences (by rw [hs]; exact hn), hz, hs, hr']
  · intro y q hq
    exact (hf y).2 _ (h.kept y q (by rw [hz]; exact hq))

theorem Work.flag_place (slot : SlotId) (w : Work) (y : ZoneId) :
    ((w.place slot).state.zone y).congested = (w.state.zone y).congested := by
  cases hm : w.state.openMessage slot with
  | none => rw [Work.place_closed hm]
  | some m =>
    cases ha : m.lastAttempt with
    | none =>
      have : w.place slot = w := by simp [Work.place, hm, ha]
      rw [this]
    | some a =>
      rw [(Work.placed_place hm ha).zones]
      split <;> rfl

theorem Work.flag_resume (z : ZoneId) (w : Work) (y : ZoneId) :
    ((w.resume z).state.zone y).congested = (w.state.zone y).congested := by
  have key : ∀ (l : List SlotId) (v : Work),
      ((l.foldl (fun v slot => v.place slot) v).state.zone y).congested = (v.state.zone y).congested := by
    intro l
    induction l with
    | nil => exact fun _ => rfl
    | cons a r ih => exact fun v => (ih (v.place a)).trans (Work.flag_place a v y)
  exact key _ _

theorem Link.changeRate_state (rate : Rate) (x : Link) : (x.changeRate rate).state = x.state := by
  unfold Link.changeRate; dsimp only; split <;> split <;> rfl

theorem Link.changeRate_onLine (rate : Rate) (x : Link) : (x.changeRate rate).onLine = x.onLine := by
  unfold Link.changeRate; dsimp only; split <;> split <;> rfl

/-- A block on a line stays there to the end of the event. -/
theorem Work.onLine_finish {w : Work} {z : ZoneId} {b : OutBlock} (h : (w.state.link z).onLine = some b) :
    (w.finish.link z).onLine = some b := by
  have hl : ∀ (l : List ZoneId) (s : State), (l.foldl (fun s z => s.congestionTest z) s).link z = s.link z := by
    intro l s
    rw [State.congestionTests_rest]; rfl
  unfold Work.finish
  dsimp only
  rw [hl]
  exact (Work.forms_unmarked (allZones.filter fun y => zoneIn y w.calls) w z).2 b h

/-- R120, R141: everything an entry to UP does, at the end of the event. -/
theorem Work.entersUp_finish {s : State} {w : Work} {z : ZoneId} {p : Profile} {x : Link} (hs : w.state = s.setLink z x) :
    ((w.enterUp z p).finish.link z).still
        = ({ x.stopTimers with
            state := .up, profile := some p, basePage := none, silenceTimer := some 40, idleTimer := some 10
          : Link } |>.changeRate p.rate).still
      ∧ (∀ b, x.onLine = some b → ((w.enterUp z p).finish.link z).onLine = some b)
      ∧ s.resumes (w.enterUp z p).finish z
      ∧ (∃ changed, s.tests (w.enterUp z p).finish changed [⟨.linkUp, z.val, (rateBits p.rate : Int), s.clock⟩]
        ∧ (∀ y, zoneIn y w.touched = true → zoneIn y changed = true)
        ∧ ∀ y, zoneIn y changed = false → ((w.enterUp z p).finish.zone y).queue = (s.zone y).queue)
      ∧ (w.enterUp z p).finish = { s with
          ports := (w.enterUp z p).finish.ports, messages := (w.enterUp z p).finish.messages
          stalls := (w.enterUp z p).finish.stalls, zones := (w.enterUp z p).finish.zones
          links := (w.enterUp z p).finish.links } := by
  unfold Work.enterUp
  generalize hu : (w.map fun s => (s.setLink z
      (({ (s.link z).stopTimers with
          state := .up, profile := some p, basePage := none, silenceTimer := some 40, idleTimer := some 10 }
        : Link).changeRate p.rate)).post .linkUp z.val (rateBits p.rate)) = u
  have ul : u.state.link z = ({ x.stopTimers with
      state := .up, profile := some p, basePage := none, silenceTimer := some 40, idleTimer := some 10
    : Link } |>.changeRate p.rate) := by
    rw [← hu]
    simp only [Work.map, hs, State.link_post', State.link_setLink_self]
  have um : ∀ j, u.state.message j = s.message j := by intro j; rw [← hu]; simp only [Work.map, hs]; rfl
  have ue : ∀ j, u.state.epoch j = s.epoch j := by intro j; rw [← hu]; simp only [Work.map, hs]; rfl
  have uz : ∀ y, u.state.zone y = s.zone y := by intro y; rw [← hu]; simp only [Work.map, hs]; rfl
  have us : u.state.stalls = s.stalls := by rw [← hu]; simp only [Work.map, hs]; rfl
  have uk : u.state.clock = s.clock := by rw [← hu]; simp only [Work.map, hs]; rfl
  have ut : u.touched = w.touched := by rw [← hu]; rfl
  have ulo : ∀ y, y ≠ z → u.state.link y = s.link y := by
    intro y hy
    rw [← hu]
    simp only [Work.map, hs, State.link_post']
    rw [State.link_setLink_ne _ _ hy, State.link_setLink_ne _ _ hy]
  have ur : u.state = { s with ports := u.state.ports, links := u.state.links } := by
    rw [← hu]; simp only [Work.map, hs]; rfl
  have up : ∀ q, u.state.port q = (s.port q).takes [⟨.linkUp, z.val, (rateBits p.rate : Int), s.clock⟩] := by
    intro q
    rw [← hu]
    simp only [Work.map, hs]
    rw [State.port_post_takes]
    rfl
  clear hu
  have hup : (u.state.link z).state = .up := by
    rw [ul, Link.changeRate_state]
  have honl : ∀ b, x.onLine = some b → (u.state.link z).onLine = some b := by
    intro b hb
    rw [ul, Link.changeRate_onLine]
    exact hb
  have hups : zoneInsert z u.state.upZones = zoneInsert z s.upZones := by
    apply zoneSet_ext
    intro y
    by_cases hy : y = z
    · simp [zoneIn_insert, hy]
    · simp [zoneIn_insert, hy, State.upZones, ulo y hy]
  obtain ⟨r1, r2, r3, r4⟩ := Work.resumes_resume u hup
  have hpg := Work.pages_finish (u.resume z)
  have hrl : ∀ y, (u.resume z).state.link y = u.state.link y := by intro y; rw [r4]; rfl
  obtain ⟨changed, c1, c2, -, c4⟩ := Work.tests_finish (u.resume z)
  have hflag : ∀ y, ((u.resume z).state.zone y).congested = (s.zone y).congested := by
    intro y
    rw [Work.flag_resume, uz]
  have hclock : (u.resume z).state.clock = s.clock := by rw [r4]; exact uk
  have hrec : (u.resume z).state.congestionRecords (u.resume z).finish = s.congestionRecords (u.resume z).finish := by
    unfold State.congestionRecords
    simp only [hflag, hclock]
  refine ⟨?_, ?_, ?_, ⟨changed, ⟨?_, ?_⟩, ?_, ?_⟩, ?_⟩
  · rw [hpg.still z, hrl, ul]
  · intro b hb
    exact Work.onLine_finish (by rw [hrl]; exact honl b hb)
  · exact State.resumes_finish r1 us um ue uz hups
  · intro y
    rw [c1.flags, hflag]
  · intro q
    rw [c1.records, hrec]
    have : (u.resume z).state.port q = u.state.port q := by rw [r4]; rfl
    rw [this, up, List.nil_append, ← Port.takes_append]
  · intro y hy
    exact c2 y ((r2 y).mpr (.inl (by rw [ut]; exact hy)))
  · intro y hy
    rw [c4 y hy]
    rcases r3 y with h | h
    · rw [h, uz]
    · have := c2 y ((r2 y).mpr (.inr h))
      rw [hy] at this; cases this
  · have h1 := Work.finish_rest (u.resume z)
    generalize (u.resume z).finish = f at h1 ⊢
    generalize (u.resume z).state = v at r4 h1
    generalize u.state = b at ur r4
    rw [h1, r4, ur]

end Sys2Proof.Machine
end

