-- ==== Sys2Proof/Laws/Marking.lean ====
section
/-! SUPPORT. An event in progress marks every zone whose queue or force it changes, keeps every queue in queue order and no flag changes before its end (R94, R96); from this, what every event leaves of the two. -/

namespace Sys2Proof.Machine

/-! ## Queue order (R94) -/

theorem QueueEntry.inOrder_of_before {a b : QueueEntry} (h : a.before b = true) : a.inOrder b := by
  simp only [QueueEntry.before, decide_eq_true_eq] at h
  rcases h with h | ⟨h1, h2 | ⟨h2, h3⟩⟩
  · exact .inl h
  · exact .inr ⟨h1, .inl h2⟩
  · exact .inr ⟨h1, .inr ⟨h2, Nat.le_of_lt h3⟩⟩

theorem QueueEntry.inOrder_of_not_before {a b : QueueEntry} (h : a.before b = false) : b.inOrder a := by
  simp only [QueueEntry.before, decide_eq_false_iff_not] at h
  unfold QueueEntry.inOrder
  rcases Nat.lt_trichotomy a.priority.val b.priority.val with hp | hp | hp
  · exact .inl hp
  · have hp' : a.priority = b.priority := Fin.ext hp
    rcases Nat.lt_trichotomy a.seq.toNat b.seq.toNat with hs | hs | hs
    · exact absurd (.inr ⟨hp', .inl hs⟩) h
    · have hs' : a.seq = b.seq := BitVec.eq_of_toNat_eq hs
      refine .inr ⟨hp'.symm, .inr ⟨hs'.symm, ?_⟩⟩
      by_contra hlt
      exact h (.inr ⟨hp', .inr ⟨hs', not_le.mp hlt⟩⟩)
    · exact .inr ⟨hp'.symm, .inl hs⟩
  · exact absurd (.inl hp) h

theorem QueueEntry.inOrder_trans {a b c : QueueEntry} (h : a.inOrder b) (k : b.inOrder c) : a.inOrder c := by
  unfold QueueEntry.inOrder at *
  rcases h with h | ⟨h1, h2⟩
  · rcases k with k | ⟨k1, -⟩
    · exact .inl (lt_trans k h)
    · exact .inl (k1 ▸ h)
  · rcases k with k | ⟨k1, k2⟩
    · exact .inl (h1 ▸ k)
    · refine .inr ⟨h1.trans k1, ?_⟩
      rcases h2 with h2 | ⟨h2, h3⟩
      · rcases k2 with k2 | ⟨k2, -⟩
        · exact .inl (BitVec.lt_trans h2 k2)
        · exact .inl (k2 ▸ h2)
      · rcases k2 with k2 | ⟨k2, k3⟩
        · exact .inl (h2 ▸ k2)
        · exact .inr ⟨h2.trans k2, le_trans h3 k3⟩

theorem State.queuesOrdered_iff {s : State} : s.queuesOrdered ↔ ∀ z, (s.zone z).ordered := Iff.rfl

theorem queueInsert_ordered {e : QueueEntry} {q : List QueueEntry} (h : q.Pairwise QueueEntry.inOrder) :
    (queueInsert e q).Pairwise QueueEntry.inOrder := by
  induction q with
  | nil => simp [queueInsert]
  | cons a rest ih =>
    obtain ⟨h1, h2⟩ := List.pairwise_cons.mp h
    unfold queueInsert
    split
    · next hb =>
      refine List.pairwise_cons.mpr ⟨fun x hx => ?_, ih h2⟩
      rcases mem_queueInsert.mp hx with rfl | hx
      · exact QueueEntry.inOrder_of_before hb
      · exact h1 x hx
    · next hb =>
      have hea := QueueEntry.inOrder_of_not_before (Bool.eq_false_iff.mpr hb)
      refine List.pairwise_cons.mpr ⟨fun x hx => ?_, h⟩
      rcases List.mem_cons.mp hx with rfl | hx
      · exact hea
      · exact QueueEntry.inOrder_trans hea (h1 x hx)

theorem walk_sublist (room : Nat) (queue : List QueueEntry) : (walk room queue).2.Sublist queue := by
  induction queue generalizing room with
  | nil => exact List.Sublist.refl _
  | cons q rest ih =>
    unfold walk
    split
    · exact List.Sublist.refl _
    · split
      · exact (ih _).cons _
      · exact (ih _).cons_cons _

/-! ## Marks -/

/-- What an event in progress may do to a zone: no flag changes, queue order is kept, and an unmarked zone keeps its queue
and its force. -/
structure Zone.Steps (marked : Bool) (x y : Zone) : Prop where
  flag : y.congested = x.congested
  ordered : x.ordered → y.ordered
  unmarked : marked = false → y.queue = x.queue ∧ y.force = x.force

theorem Zone.Steps.refl (b : Bool) (x : Zone) : Zone.Steps b x x := ⟨rfl, id, fun _ => ⟨rfl, rfl⟩⟩

theorem Zone.Steps.of_eq {b : Bool} {x y : Zone} (hq : y.queue = x.queue) (hf : y.force = x.force)
    (hc : y.congested = x.congested) : Zone.Steps b x y :=
  ⟨hc, fun h => by unfold Zone.ordered; rw [hq]; exact h, fun _ => ⟨hq, hf⟩⟩

/-- An event in progress marks every zone whose queue or force it changes. -/
structure Work.Marks (w v : Work) : Prop where
  kept : ∀ y, zoneIn y w.touched = true → zoneIn y v.touched = true
  zones : ∀ y, Zone.Steps (zoneIn y v.touched) (w.state.zone y) (v.state.zone y)

theorem Work.Marks.refl (w : Work) : w.Marks w := ⟨fun _ h => h, fun _ => .refl _ _⟩

theorem Work.Marks.trans {w v u : Work} (h : w.Marks v) (k : v.Marks u) : w.Marks u where
  kept y hy := k.kept y (h.kept y hy)
  zones y := by
    refine ⟨(k.zones y).flag.trans (h.zones y).flag, fun ho => (k.zones y).ordered ((h.zones y).ordered ho), fun hm => ?_⟩
    have hv : zoneIn y v.touched = false := by
      cases hb : zoneIn y v.touched
      · rfl
      · rw [k.kept y hb] at hm; cases hm
    obtain ⟨a1, a2⟩ := (h.zones y).unmarked hv
    obtain ⟨b1, b2⟩ := (k.zones y).unmarked hm
    exact ⟨b1.trans a1, b2.trans a2⟩

theorem Work.marks_foldl {α : Type} (f : Work → α → Work) (hf : ∀ (w : Work) (a : α), w.Marks (f w a)) (l : List α) (w : Work) :
    w.Marks (l.foldl f w) := by
  induction l generalizing w with
  | nil => exact .refl w
  | cons a rest ih => exact (hf w a).trans (ih (f w a))

/-- A change of State that leaves queues, forces and flags. -/
theorem Work.marks_map {w : Work} {f : State → State} (h : ∀ y, ((f w.state).zone y).queue = (w.state.zone y).queue
    ∧ ((f w.state).zone y).force = (w.state.zone y).force ∧ ((f w.state).zone y).congested = (w.state.zone y).congested) :
    w.Marks (w.map f) :=
  ⟨fun _ h => h, fun y => .of_eq (h y).1 (h y).2.1 (h y).2.2⟩

theorem Work.marks_close (slot : SlotId) (o : MsgOutcome) (k : Nat) (w : Work) : w.Marks (w.close slot o k) := by
  cases hm : w.state.openMessage slot with
  | none => rw [Work.close_closed o k hm]; exact .refl w
  | some m =>
    have hz : ∀ z, (w.close slot o k).state.zone z = Zone.withdraw slot (w.state.epoch slot) (w.state.zone z) := by
      intro z
      rw [Work.close_of o k hm]
      show bankGet (State.settle slot m o k _).zones z = _
      rw [State.settle_rest]
      exact bankGet_bankMap ..
    have ht : (w.close slot o k).touched = w.touched ||| w.state.zonesQueuing slot (w.state.epoch slot) := by
      simp [Work.close, hm]
    refine ⟨fun y hy => by rw [ht, zoneIn_or, hy]; rfl, fun y => ?_⟩
    rw [hz, ht, zoneIn_or, zoneIn_zonesQueuing]
    refine ⟨rfl, fun h => h.filter _, fun h => ⟨?_, rfl⟩⟩
    simp only [Bool.or_eq_false_iff, List.any_eq_false] at h
    exact List.filter_eq_self.mpr fun q hq => by simpa using h.2 q hq

theorem Work.marks_join (z : ZoneId) (slot : SlotId) (m : Message) (n : Nat) (w : Work) : w.Marks (w.join z slot m n) := by
  refine ⟨fun y hy => by simp [Work.join, zoneIn_insert, hy], fun y => ?_⟩
  unfold Work.join
  dsimp only
  by_cases hy : y = z
  · subst hy
    rw [State.zone_setZone_self]
    exact ⟨rfl, fun h => queueInsert_ordered h, fun h => by simp [zoneIn_insert] at h⟩
  · rw [State.zone_setZone_ne _ _ hy]
    exact .refl _ _

theorem Work.marks_place (slot : SlotId) (w : Work) : w.Marks (w.place slot) := by
  unfold Work.place
  split
  · exact .refl w
  · next m _ =>
    split
    · exact .refl w
    · next a _ =>
      dsimp only
      refine Work.Marks.trans (v := w.map fun s => s.setMessage slot { m with
        attempts := changeLast (fun r => { r with pending := a.requested &&& w.state.upZones }) m.attempts })
        (Work.marks_map fun y => ⟨rfl, rfl, rfl⟩) ?_
      split
      · exact Work.marks_map fun y => ⟨rfl, rfl, rfl⟩
      · split
        · have h := Work.marks_foldl (fun v z => v.join z slot m a.number) (fun v z => Work.marks_join z slot m a.number v)
            (allZones.filter fun z => zoneIn z (a.requested &&& w.state.upZones))
            (w.map fun s => s.setMessage slot { m with
              attempts := changeLast (fun r => { r with pending := a.requested &&& w.state.upZones }) m.attempts })
          exact ⟨h.kept, h.zones⟩
        · exact Work.marks_foldl (fun v z => v.join z slot m a.number) (fun v z => Work.marks_join z slot m a.number v) _ _

theorem Work.marks_resume (z : ZoneId) (w : Work) : w.Marks (w.resume z) := by
  unfold Work.resume
  exact Work.Marks.trans (Work.marks_map fun y => ⟨rfl, rfl, rfl⟩) (Work.marks_foldl _ (fun v slot => Work.marks_place slot v) _ _)

theorem Work.marks_complete (slot : SlotId) (w : Work) : w.Marks (w.complete slot) := by
  unfold Work.complete
  split
  · exact .refl w
  · split
    · exact Work.marks_map fun y => ⟨rfl, rfl, rfl⟩
    · exact Work.marks_close ..

theorem Work.marks_form (z : ZoneId) (w : Work) : w.Marks (w.form z) := by
  unfold Work.form
  split
  · refine ⟨fun y hy => by simp [zoneIn_insert, hy], fun y => ?_⟩
    dsimp only
    simp only [State.formWith, State.zone_setLink', State.zone_setZone]
    split
    · next hy =>
      subst hy
      exact ⟨rfl, fun h => List.Pairwise.sublist (walk_sublist _ _) h, fun h => by simp [zoneIn_insert] at h⟩
    · exact .refl _ _
  · exact .refl w

theorem Work.marks_credit (z : ZoneId) (be : BatchEntry) (w : Work) : w.Marks (w.credit z be) := by
  rcases Work.credit_cases z be w with h | ⟨m, a, h, hv, hz⟩
  · rw [h]; exact .refl w
  · rw [Work.credit_live h hv hz]
    split
    · exact Work.Marks.trans (Work.marks_map fun y => ⟨rfl, rfl, rfl⟩) (Work.marks_complete ..)
    · exact Work.marks_map fun y => ⟨rfl, rfl, rfl⟩

theorem Work.marks_giveBack (z : ZoneId) (be : BatchEntry) (w : Work) : w.Marks (w.giveBack z be) := by
  unfold Work.giveBack
  split
  · refine ⟨fun y hy => by simp [zoneIn_insert, hy], fun y => ?_⟩
    dsimp only
    by_cases hy : y = z
    · subst hy
      rw [State.zone_setZone_self]
      exact ⟨rfl, fun h => queueInsert_ordered h, fun h => by simp [zoneIn_insert] at h⟩
    · rw [State.zone_setZone_ne _ _ hy]
      exact .refl _ _
  · exact .refl w

/-- The batch leaves flight and its stream is dropped. -/
theorem Work.marks_unload (z : ZoneId) (w : Work) :
    w.Marks (w.map fun s => (s.setZone z { s.zone z with inFlight := none }).setLink z ((s.link z).dropStream)) := by
  refine Work.marks_map fun y => ?_
  simp only [State.zone_setLink', State.zone_setZone]
  split
  · next hy => subst hy; exact ⟨rfl, rfl, rfl⟩
  · exact ⟨rfl, rfl, rfl⟩

theorem Work.marks_accepted (z : ZoneId) (b : Batch) (w : Work) : w.Marks (w.accepted z b) := by
  unfold Work.accepted
  dsimp only
  have h := (Work.marks_unload z w).trans (Work.marks_foldl _ (fun v be => Work.marks_credit z be v) b.entries _)
  split
  · exact ⟨h.kept, h.zones⟩
  · exact h

theorem Work.marks_refused (z : ZoneId) (b : Batch) (w : Work) : w.Marks (w.refused z b) :=
  (Work.marks_unload z w).trans (Work.marks_foldl _ (fun v be => Work.marks_giveBack z be v) b.entries _)

theorem Work.marks_lose (z : ZoneId) (q : QueueEntry) (w : Work) : w.Marks (w.lose z q) := by
  rcases Work.lose_cases z q w with h | ⟨m, a, h, hz⟩
  · rw [h]; exact .refl w
  · rw [Work.lose_live h hz _ rfl]
    split
    · exact Work.marks_map fun y => ⟨rfl, rfl, rfl⟩
    · split
      · exact Work.Marks.trans (Work.marks_map fun y => ⟨rfl, rfl, rfl⟩) (Work.marks_complete ..)
      · exact Work.Marks.trans (Work.marks_map fun y => ⟨rfl, rfl, rfl⟩) (Work.marks_map fun y => ⟨rfl, rfl, rfl⟩)

theorem Work.marks_loseZone (z : ZoneId) (w : Work) : w.Marks (w.loseZone z) := by
  unfold Work.loseZone
  dsimp only
  refine Work.Marks.trans ?_ (Work.marks_foldl _ (fun v q => Work.marks_lose z q v) _ _)
  refine ⟨fun y hy => ?_, fun y => ?_⟩
  · dsimp only
    split
    · exact hy
    · simp [zoneIn_insert, hy]
  · dsimp only
    by_cases hy : y = z
    · subst hy
      rw [State.zone_setZone_self]
      refine ⟨rfl, fun _ => List.Pairwise.nil, fun h => ⟨?_, rfl⟩⟩
      by_contra hq
      rw [if_neg (fun e => hq e.symm)] at h
      simp [zoneIn_insert] at h
    · rw [State.zone_setZone_ne _ _ hy]
      exact .refl _ _

theorem Work.marks_leaveUp (z : ZoneId) (cause : DownCause) (w : Work) : w.Marks (w.leaveUp z cause) := by
  unfold Work.leaveUp
  exact Work.Marks.trans (Work.marks_map fun y => ⟨rfl, rfl, rfl⟩) (Work.marks_loseZone ..)

theorem Work.marks_enterUp (z : ZoneId) (p : Profile) (w : Work) : w.Marks (w.enterUp z p) := by
  unfold Work.enterUp
  exact Work.Marks.trans (Work.marks_map fun y => ⟨rfl, rfl, rfl⟩) (Work.marks_resume ..)

theorem Work.marks_evaluate (z : ZoneId) (page : SitePage) (w : Work) : w.Marks (w.evaluate z page) := by
  unfold Work.evaluate
  dsimp only
  split
  · exact Work.marks_map fun y => ⟨rfl, rfl, rfl⟩
  · split
    · exact Work.marks_map fun y => ⟨rfl, rfl, rfl⟩
    · refine Work.Marks.trans (Work.marks_map (f := fun s => s.setLink z ((s.link z).send (s.zone z).capPage))
        fun y => ⟨rfl, rfl, rfl⟩) ?_
      split
      · exact Work.marks_map fun y => ⟨rfl, rfl, rfl⟩
      · exact Work.marks_enterUp ..

theorem Work.marks_enterExchange (z : ZoneId) (page : SitePage) (w : Work) : w.Marks (w.enterExchange z page) := by
  unfold Work.enterExchange
  exact Work.Marks.trans (Work.marks_map fun y => ⟨rfl, rfl, rfl⟩) (Work.marks_evaluate ..)

/-! ## The end of an event -/

/-- R96: the flag that a test leaves agrees with the words it was tested against. -/
theorem DispatchSettings.congests_agrees (d : DispatchSettings) (before : Bool) (words : Nat) :
    (d.threshold ≠ 0 → d.threshold < words → d.congests before words = true)
      ∧ (d.congests before words = true → d.threshold ≠ 0 ∧ d.threshold - d.hysteresis < words) := by
  unfold DispatchSettings.congests
  split
  · next h => exact ⟨fun h' => absurd h h', fun h' => by cases h'⟩
  · next h =>
    split
    · refine ⟨fun _ hw => decide_eq_true (by omega), fun hw => ⟨h, of_decide_eq_true hw⟩⟩
    · refine ⟨fun _ hw => decide_eq_true hw, fun hw => ⟨h, ?_⟩⟩
      have := of_decide_eq_true hw
      omega

/-- R94, R96: the end of an event that has marked what it changed leaves the queues in order and the flags in agreement. -/
theorem Work.Marks.finish {s : State} {w : Work} (h : s.begin.Marks w) :
    (s.queuesOrdered → w.finish.queuesOrdered) ∧ (s.congestionAgrees → w.finish.congestionAgrees) := by
  have hx := h.trans (Work.marks_foldl _ (fun v z => Work.marks_form z v) (allZones.filter fun z => zoneIn z w.calls) w)
  unfold Work.finish
  dsimp only
  generalize (allZones.filter fun z => zoneIn z w.calls).foldl (fun v z => v.form z) w = x at *
  have gf := (State.congestionTests_eq (allZones.filter fun z => zoneIn z x.touched) (allZones_nodup.filter _) x.state).1
  have gz := State.zone_congestionTests (allZones.filter fun z => zoneIn z x.touched) (s := x.state)
  generalize (allZones.filter fun z => zoneIn z x.touched).foldl (fun s z => s.congestionTest z) x.state = t at *
  constructor
  · intro ho y
    have := (hx.zones y).ordered (ho y)
    rw [gz y]
    exact this
  · intro ha y
    have hs := hx.zones y
    have hq : (t.zone y).queue = (x.state.zone y).queue := by rw [gz y]
    have hd : (t.zone y).force = (x.state.zone y).force := by rw [gz y]
    have hg := gf y
    simp only [List.mem_filter, mem_allZones, true_and] at hg
    rw [hq, hd]
    by_cases hm : zoneIn y x.touched = true
    · rw [if_pos hm] at hg
      rw [hg]
      exact DispatchSettings.congests_agrees _ _ _
    · rw [if_neg hm] at hg
      obtain ⟨u1, u2⟩ := hs.unmarked (Bool.eq_false_iff.mpr hm)
      rw [hg, hs.flag, u1, u2]
      exact ha y

end Sys2Proof.Machine
end

