-- ==== Sys2Proof/Laws/Placing.lean ====
section
/-! SUPPORT. A zone and its link at the end of an event, everything that placing an attempt does (R99, R140), the expiry of a wait (R136, R137), and the expiries of a tick (R135). -/

namespace Sys2Proof.Machine

/-! ## The end of an event, zone by zone -/

theorem State.airWords_congr {s t : State} (h : t.messages = s.messages) : t.airWords = s.airWords := by
  funext q
  simp [State.airWords, State.message, h]

theorem State.tests_congr {s t : State} {a b : ZoneSet} {first : List EventRecord} (h : s.tests t a first)
    (e : ∀ z, zoneIn z a = zoneIn z b) : s.tests t b first :=
  ⟨fun z => by rw [← e z]; exact h.flags z, h.records⟩

/-- A zone and its link after a formation called for in it: as formed where one can be formed, and else as they stand. -/
def State.afterForming (s t : State) (z : ZoneId) (form : Option Profile) : Prop :=
  match form with
  | none => t.zone z = s.zone z ∧ t.link z = s.link z
  | some p => t.zone z = (s.zone z).formed p ∧ t.link z = (s.link z).sendAll ((s.zone z).stream p s.airWords)

theorem Work.afterForming_form (z : ZoneId) (w : Work) : w.state.afterForming (w.form z).state z (w.state.formable z) := by
  unfold Work.form
  cases hp : w.state.formable z with
  | none => exact ⟨rfl, rfl⟩
  | some p => exact ⟨(State.forms_formWith z p w.state).zone, (State.forms_formWith z p w.state).link⟩

@[simp] theorem Work.messages_form (z : ZoneId) (w : Work) : (w.form z).state.messages = w.state.messages := by
  rw [Work.form_rest]

theorem Work.formable_form_ne {z y : ZoneId} (w : Work) (h : y ≠ z) :
    (w.form z).state.formable y = w.state.formable y := by
  unfold State.formable
  rw [Work.zone_form_ne w h, Work.link_form_ne w h, Work.form_rest]

theorem Work.afterForming_forms {l : List ZoneId} (hl : l.Nodup) (w : Work) (y : ZoneId) :
    w.state.afterForming (l.foldl (fun v z => v.form z) w).state y (if y ∈ l then w.state.formable y else none) := by
  induction l generalizing w with
  | nil => exact ⟨rfl, rfl⟩
  | cons z rest ih =>
    obtain ⟨hz, hr⟩ := List.nodup_cons.mp hl
    have h := ih hr (w.form z)
    rw [List.foldl_cons]
    by_cases hy : y = z
    · subst hy
      rw [if_neg hz] at h
      rw [if_pos List.mem_cons_self]
      have k := Work.afterForming_form y w
      unfold State.afterForming at h k ⊢
      rw [h.1, h.2]
      exact k
    · have e : (y ∈ z :: rest) = (y ∈ rest) := by simp [hy]
      simp only [e]
      rw [Work.formable_form_ne w hy] at h
      unfold State.afterForming at h ⊢
      rw [Work.zone_form_ne w hy, Work.link_form_ne w hy, State.airWords_congr (Work.messages_form z w)] at h
      exact h

/-- Each zone and link at the end of an event: formed where a formation is called for and can be made, tested for
congestion, and else as they stand. -/
theorem Work.zone_finish (w : Work) (y : ZoneId) :
    match if zoneIn y w.calls = true then w.state.formable y else none with
    | none => w.finish.zone y = { w.state.zone y with congested := (w.finish.zone y).congested }
        ∧ w.finish.link y = w.state.link y
    | some p => w.finish.zone y = { (w.state.zone y).formed p with congested := (w.finish.zone y).congested }
        ∧ w.finish.link y = (w.state.link y).sendAll ((w.state.zone y).stream p w.state.airWords) := by
  have h := Work.afterForming_forms (allZones_nodup.filter fun z => zoneIn z w.calls) w y
  unfold Work.finish
  dsimp only
  generalize (allZones.filter fun z => zoneIn z w.calls).foldl (fun v z => v.form z) w = x at h ⊢
  have gz := State.zone_congestionTests (allZones.filter fun z => zoneIn z x.touched) (s := x.state) y
  have gl : ((allZones.filter fun z => zoneIn z x.touched).foldl (fun s z => s.congestionTest z) x.state).link y = x.state.link y := by
    rw [State.congestionTests_rest]; rfl
  generalize (allZones.filter fun z => zoneIn z x.touched).foldl (fun s z => s.congestionTest z) x.state = t at gz gl ⊢
  simp only [List.mem_filter, mem_allZones, true_and] at h
  unfold State.afterForming at h
  rw [gl]
  generalize (if zoneIn y w.calls = true then w.state.formable y else none) = f at h ⊢
  cases f with
  | none => exact ⟨by rw [gz, h.1], h.2⟩
  | some p => exact ⟨by rw [gz, h.1], h.2⟩

/-! ## Placing an attempt as a whole event -/

theorem zoneIn_of_and {y : ZoneId} {a b : ZoneSet} (h : zoneIn y (a &&& b) = true) : zoneIn y b = true := by
  rw [zoneIn_and] at h
  exact (Bool.and_eq_true_iff.mp h).2

/-- Everything that placing the last attempt of an open message does, as a whole event. -/
theorem State.places_finish {s : State} {slot : SlotId} {m : Message} {a : Attempt} (hm : s.openMessage slot = some m)
    (ha : m.lastAttempt = some a) : s.places (s.begin.place slot).finish slot a.number m.words m.priority a.requested := by
  have h := Work.placed_place (w := s.begin) hm ha
  have hu : s.begin.state.upZones = s.upZones := rfl
  rw [hu] at h
  have hf := fun y => Work.zone_finish (s.begin.place slot) y
  have hh := fun y => (Work.holds_finish y (s.begin.place slot)).2
  obtain ⟨changed, ht, hx, hc, -⟩ := Work.tests_finish (s.begin.place slot)
  have hs := Work.finish_stalls (s.begin.place slot)
  have hmsg := Work.finish_messages (s.begin.place slot)
  have hz0 := fun z => Work.zone_finish_ne (w := s.begin.place slot) (y := z)
  have hl0 := fun z => Work.link_finish_ne (w := s.begin.place slot) (y := z)
  generalize s.begin.place slot = w at h hf hh ht hx hc hs hmsg hz0 hl0 ⊢
  generalize w.finish = t at hf hh ht hx hc hs hmsg hz0 hl0 ⊢
  have hup : ∀ z, zoneIn z (a.requested &&& s.upZones) = true → (s.link z).state = .up := fun z hz => by
    simpa [State.upZones] using zoneIn_of_and hz
  generalize hp : a.requested &&& s.upZones = pending at h hup
  have none0 : ∀ z, zoneIn z (0 : ZoneSet) = false := zoneIn_zero
  have touched : ∀ z, zoneIn z w.touched = zoneIn z pending := fun z => by
    rw [h.touched]
    show (zoneIn z (0 : ZoneSet) || _) = _
    rw [none0, Bool.false_or]
  have calls : ∀ z, zoneIn z w.calls = (decide (m.priority = 3) && zoneIn z pending) := fun z => by
    rw [h.calls]
    show zoneIn z (if m.priority = 3 then (0 : ZoneSet) ||| pending else 0) = _
    split
    · next h3 => rw [zoneIn_or, none0]; simp [h3]
    · next h3 => rw [none0]; simp [h3]
  have links : ∀ z, w.state.link z = s.link z := by
    intro z; rw [h.rest]; rfl
  have hold : w.state.airHold = s.airHold := by rw [h.rest]; rfl
  have stood : ∀ z, zoneIn z pending = false → w.state.zone z = s.zone z := fun z hz => by
    rw [h.zones, hz]; rfl
  have joined : ∀ z, zoneIn z pending = true → w.state.zone z = { s.zone z with
      queue := queueInsert ⟨slot, s.epoch slot, a.number, m.words, m.priority, (s.zone z).nextSeq⟩ (s.zone z).queue
      nextSeq := (s.zone z).nextSeq + 1 } := fun z hz => by
    rw [h.zones, hz]; rfl
  have called : ∀ z, zoneIn z pending = true →
      (if zoneIn z w.calls = true then w.state.formable z else none)
        = if m.priority = 3 then s.formsWith z else none := fun z hz => by
    rw [calls, hz]
    by_cases h3 : m.priority = 3
    · have hq : (w.state.zone z).queue ≠ [] := by
        rw [joined z hz]
        intro e
        have := (queueInsert_perm ⟨slot, s.epoch slot, a.number, m.words, m.priority, (s.zone z).nextSeq⟩ (s.zone z).queue).length_eq
        simp only at e
        rw [e] at this
        simp at this
      have hi : (w.state.zone z).inFlight = (s.zone z).inFlight := by rw [joined z hz]
      simp [h3, State.formable, State.formsWith, links, hold, hq, hi]
    · simp [h3]
  refine ⟨?_, ?_, ?_, ?_, ?_⟩ <;> rw [hp]
  · rw [hs, h.stalls]; rfl
  · intro z hz
    have hc0 : zoneIn z w.calls = false := by rw [calls, hz]; simp
    have ht0 : zoneIn z w.touched = false := by rw [touched, hz]
    exact ⟨(hz0 z hc0 ht0).trans (stood z hz), (hl0 z hc0).trans (links z)⟩
  · intro z hz
    have hj := joined z hz
    refine ⟨w.state.zone z, ?_, fun ho => ?_, ?_, ?_⟩
    · rw [hj]
      exact (queueInsert_perm ..).trans List.perm_append_comm
    · rw [hj]; exact queueInsert_ordered ho
    · rw [hj]
    · have k := hf z
      rw [called z hz, links, ← State.airWords_congr hmsg] at k
      exact k
  · intro z hz
    have hj := joined z hz
    refine ⟨hh z _ (.inl ?_), fun q hq => hh z q ?_⟩
    · rw [hj]; exact mem_queueInsert.mpr (.inl rfl)
    · rw [hj]
      rcases hq with hq | hq
      · exact .inl (mem_queueInsert.mpr (.inr hq))
      · exact .inr hq
  · refine State.tests_congr (a := changed) ⟨fun z => ?_, fun q => ?_⟩ fun z => ?_
    · have k := ht.flags z
      have e : (w.state.zone z).congested = (s.zone z).congested := by
        cases hz : zoneIn z pending
        · rw [stood z hz]
        · rw [joined z hz]
      rw [e] at k
      exact k
    · have k := ht.records q
      have e : w.state.congestionRecords t = s.congestionRecords t := by
        have hcl : w.state.clock = s.clock := by rw [h.rest]; rfl
        unfold State.congestionRecords
        refine List.filterMap_congr fun z _ => ?_
        have e : (w.state.zone z).congested = (s.zone z).congested := by
          cases hz : zoneIn z pending
          · rw [stood z hz]
          · rw [joined z hz]
        rw [e, hcl]
      have hq : w.state.port q = s.port q := by rw [h.rest]; rfl
      rw [e, hq] at k
      exact k
    · cases hz : zoneIn z pending
      · rw [hc z (.inl (by rw [calls, hz]; simp)), touched, hz]
      · exact hx z ((touched z).trans hz)

/-! ## The expiry of a wait (R136 to R138) -/

theorem Message.ladder_next (m : Message) (n : Nat) : m.ladder (n + 1)
    = match m.kind with
      | .oneWay => m.reach
      | .twoWay => if n = 0 then m.home else m.reach := by
  unfold Message.ladder
  cases m.kind <;> simp

/-- Everything that forming the next attempt of an open message does. -/
theorem State.formsAttempt_formAttempt {s : State} {slot : SlotId} {m : Message} (ho : m.closing = none) :
    s.formsAttempt (s.formAttempt slot m) slot m (m.currentAttempt + 1) (m.ladder (m.currentAttempt + 1)) := by
  unfold State.formAttempt
  dsimp only
  generalize hn : m.currentAttempt + 1 = n
  generalize m.ladder n = coverage
  generalize hm' : ({ m with retryTimer := none, attempts := m.attempts ++ [⟨n, coverage, 0, 0, none⟩] } : Message) = m'
  have hl : m'.lastAttempt = some ⟨n, coverage, 0, 0, none⟩ := by rw [← hm']; simp [Message.lastAttempt]
  have hk : (s.setMessage slot m').openMessage slot = some m' :=
    State.openMessage_of (State.message_setMessage_self ..) (by rw [← hm']; exact ho)
  have hp := State.places_finish hk hl
  have h := Work.placed_place (w := (s.setMessage slot m').begin) hk hl
  have hr := Work.finish_rest ((s.setMessage slot m').begin.place slot)
  have ew : m'.words = m.words := by rw [← hm']
  have ep : m'.priority = m.priority := by rw [← hm']
  refine ⟨?_, fun j hj => ?_, ?_, ?_⟩
  · rw [Work.message_finish, h.message, ← hm']
    simp [changeLast_append]
    rfl
  · rw [Work.message_finish, h.others j hj]
    exact State.message_setMessage_ne _ _ hj
  · rw [← ew, ← ep]
    exact ⟨hp.stalls, hp.elsewhere, hp.joins, hp.holds, hp.tests.flags, hp.tests.records⟩
  · have hw := h.rest
    generalize (s.setMessage slot m').begin.place slot = w at hr hw ⊢
    generalize w.finish = t at hr ⊢
    rw [hr, hw]
    rfl

/-- R136, R137: everything that the expiry of the wait of an open slot does. -/
theorem State.waitEnds_expireRetry {s : State} {slot : SlotId} {m : Message} {a : Attempt} (h : s.message slot = some m)
    (ho : m.closing = none) (ha : m.lastAttempt = some a) : s.waitEnds slot (s.expireRetry slot) := by
  refine ⟨m, a, h, ho, ha, ?_⟩
  have hf := State.formsAttempt_formAttempt (s := s) (slot := slot) ho
  have hc := State.closes_closeMessage (s := s) (slot := slot) .missed 0 h ho
  have hn := currentAttempt_of ha
  unfold State.expireRetry
  rw [State.openMessage_of h ho]
  simp only
  rw [Message.ladder_next, hn] at hf
  rw [hn]
  cases hk : m.kind with
  | oneWay => simp only [hk] at hf; simpa using hf
  | twoWay =>
    simp only [hk] at hf
    by_cases hlt : a.number < m.tariff.retryCount
    · simpa [hlt] using hf
    · simpa [hlt] using hc

theorem State.message_waitEnds_ne {s t : State} {slot j : SlotId} (h : State.waitEnds slot s t) (hj : j ≠ slot) :
    t.message j = s.message j := by
  obtain ⟨m, a, -, -, -, h⟩ := h
  have forms : ∀ n c, s.formsAttempt t slot m n c → t.message j = s.message j := fun _ _ k => k.others j hj
  have closes : s.closes t slot m .missed 0 → t.message j = s.message j := by
    rintro ⟨u, changed, h1, h2, -⟩
    rw [← h1.others j hj, h2.rest]
    rfl
  cases hk : m.kind with
  | oneWay => rw [hk] at h; exact forms _ _ h
  | twoWay =>
    rw [hk] at h
    simp only at h
    split at h
    · exact forms _ _ h
    · exact closes h

/-- R135: expiries taken one after another, each slot once. -/
theorem State.oneByOne_expireRetry {l : List SlotId} (hl : l.Nodup) {s : State}
    (h : ∀ slot ∈ l, ∃ m a, s.message slot = some m ∧ m.closing = none ∧ m.lastAttempt = some a) :
    oneByOne State.waitEnds l s (l.foldl State.expireRetry s) := by
  induction l generalizing s with
  | nil => rfl
  | cons slot rest ih =>
    obtain ⟨hz, hr⟩ := List.nodup_cons.mp hl
    obtain ⟨m, a, h1, h2, h3⟩ := h slot List.mem_cons_self
    have hw := State.waitEnds_expireRetry h1 h2 h3
    refine ⟨_, hw, ih hr fun j hj => ?_⟩
    rw [State.message_waitEnds_ne hw fun e => hz (e ▸ hj)]
    exact h j (List.mem_cons_of_mem _ hj)

/-! ## The expiries of a tick (R135) -/

theorem Message.lastTick_iff {m : Message} : m.lastTick = true ↔ m.inWait = true ∧ m.frozen = false ∧ ∃ n ∈ m.retryTimer, n ≤ 1 := by
  unfold Message.lastTick
  cases m.retryTimer <;> simp [and_assoc]

theorem Message.inWait_iff {m : Message} : m.inWait = true ↔ m.closing = none ∧ ∃ a, m.lastAttempt = some a ∧ a.pending = 0 ∧ a.sent ≠ 0 := by
  unfold Message.inWait Message.isOpen
  cases m.lastAttempt <;> simp

/-- R80: the slots in WAIT are those whose last attempt is complete. -/
theorem State.slotStateOf_wait {s : State} {slot : SlotId} {m : Message} : s.slotStateOf slot m = .wait ↔ m.inWait = true := by
  rw [Message.inWait_iff]
  unfold State.slotStateOf
  cases hc : m.closing with
  | some c => simp
  | none =>
    cases m.lastAttempt with
    | none => simp
    | some a =>
      by_cases hp : a.pending = 0
      · by_cases hs : a.sent = 0 <;> simp [hp, hs]
      · simp only [Option.isSome_none, Bool.false_eq_true, if_false, if_pos hp, true_and]
        constructor
        · intro h; split at h <;> cases h
        · rintro ⟨b, hb, hb2, -⟩; cases hb; exact absurd hb2 hp

theorem State.mem_lastTicks {s : State} (h : s.canonical) {slot : SlotId} :
    slot ∈ s.lastTicks ↔ ∃ m, s.message slot = some m ∧ m.lastTick = true := by
  unfold State.lastTicks
  constructor
  · intro hm
    obtain ⟨⟨j, m⟩, hx, rfl⟩ := List.mem_map.mp hm
    obtain ⟨h1, h2⟩ := List.mem_filter.mp hx
    exact ⟨m, (mem_iff_tblGet h.messages j m).mp h1, h2⟩
  · rintro ⟨m, h1, h2⟩
    exact List.mem_map.mpr ⟨(slot, m), List.mem_filter.mpr ⟨(mem_iff_tblGet h.messages slot m).mpr h1, h2⟩, rfl⟩

/-- R135: the expiries come in ascending slot order. -/
theorem State.lastTicks_ascending {s : State} (h : s.canonical) : s.lastTicks.Pairwise (· < ·) := by
  unfold State.lastTicks
  rw [List.pairwise_map]
  exact List.Pairwise.sublist List.filter_sublist h.messages

theorem State.dueRetry_iff {s : State} (h : s.canonical) {slot : SlotId} :
    s.dueRetry = some slot ↔ slot ∈ s.lastTicks ∧ ∀ j, j < slot → j ∉ s.lastTicks := by
  have hp := State.lastTicks_ascending h
  unfold State.dueRetry
  generalize s.lastTicks = l at hp ⊢
  cases l with
  | nil => simp
  | cons a rest =>
    obtain ⟨h1, -⟩ := List.pairwise_cons.mp hp
    simp only [List.head?_cons, Option.some.injEq]
    constructor
    · rintro rfl
      refine ⟨List.mem_cons_self, fun j hj hm => ?_⟩
      rcases List.mem_cons.mp hm with rfl | hm
      · exact lt_irrefl _ hj
      · exact lt_asymm hj (h1 j hm)
    · rintro ⟨hm, hn⟩
      rcases List.mem_cons.mp hm with rfl | hm
      · rfl
      · exact absurd List.mem_cons_self (hn a (h1 slot hm))

theorem State.message_count (s : State) (slot : SlotId) : s.count.message slot = (s.message slot).map Message.tick := by
  show tblGet slot (tblMap (fun _ (m : Message) => m.tick) s.messages) = _
  rw [tblGet_tblMap]
  rfl

theorem Message.tick_eq (m : Message) : m.tick = { m with retryTimer := m.tick.retryTimer } := by
  unfold Message.tick
  split <;> rfl

/-- R135: in a tick, the expiry of each slot whose timer reaches 0 is taken once, in ascending slot order. -/
theorem State.oneByOne_tick {s : State} (h : s.canonical) :
    oneByOne State.waitEnds s.lastTicks s.count (s.lastTicks.foldl State.expireRetry s.count) := by
  refine State.oneByOne_expireRetry ((State.lastTicks_ascending h).imp ne_of_lt) fun slot hs => ?_
  obtain ⟨m, h1, h2⟩ := (State.mem_lastTicks h).mp hs
  obtain ⟨h3, -, -⟩ := Message.lastTick_iff.mp h2
  obtain ⟨h4, a, h5, -, -⟩ := Message.inWait_iff.mp h3
  refine ⟨m.tick, a, by rw [State.message_count, h1]; rfl, ?_, ?_⟩
  · rw [Message.tick_eq]; exact h4
  · rw [Message.tick_eq]; exact h5

end Sys2Proof.Machine
end

