-- ==== Sys2Proof/Laws/Entering.lean ====
section
/-! SUPPORT. A zone's entry to UP whole: every queue, batch and line after the resumption of the STALLED slots (R99, R120, R140, R141). -/

namespace Sys2Proof.Machine

/-- Whether a slot of a list is of priority 3 and resumed into zone `y` by zone `z`. -/
def State.urgentAmong (s : State) (z y : ZoneId) (l : List SlotId) : Bool :=
  l.any fun slot => s.resumesIn z y slot && (s.openMessage slot).any fun m => decide (m.priority = 3)

/-- A zone of `t` is that zone of `s` with one entry for each slot of `l` that zone `z` resumes into it, in list order. -/
structure State.Joined (s t : State) (z y : ZoneId) (l : List SlotId) (joined : List QueueEntry) : Prop where
  length : joined.length = (l.filter (s.resumesIn z y)).length
  entries : ∀ (i : Nat) (slot : SlotId) (m : Message) (a : Attempt), (l.filter (s.resumesIn z y))[i]? = some slot →
    s.openMessage slot = some m → m.lastAttempt = some a → joined[i]?
      = some ⟨slot, s.epoch slot, a.number, m.words, m.priority, (s.zone y).nextSeq + BitVec.ofNat 32 i⟩
  perm : List.Perm (t.zone y).queue ((s.zone y).queue ++ joined)
  ordered : (s.zone y).ordered → (t.zone y).ordered
  zone : t.zone y = { s.zone y with
    queue := (t.zone y).queue, nextSeq := (s.zone y).nextSeq + BitVec.ofNat 32 joined.length }

theorem State.joined_nil (s : State) (z y : ZoneId) : s.Joined s z y [] [] :=
  ⟨rfl, fun i _ _ _ h => by simp at h, by simp, id, by simp⟩

/-- Placing the slots of a list in a zone that is UP: what joins each queue, and which formations it calls for. -/
theorem Work.joined_places {z : ZoneId} (l : List SlotId) (w : Work) (hz : (w.state.link z).state = .up)
    (hl : ∀ slot ∈ l, w.state.resumesIn z z slot = true) (y : ZoneId) :
    (∃ joined, w.state.Joined (l.foldl (fun v slot => v.place slot) w).state z y l joined)
      ∧ zoneIn y (l.foldl (fun v slot => v.place slot) w).calls = (zoneIn y w.calls || w.state.urgentAmong z y l) := by
  induction l generalizing w with
  | nil => exact ⟨⟨[], State.joined_nil ..⟩, by simp [State.urgentAmong]⟩
  | cons b rest ih =>
    obtain ⟨m, a, hm, ha, hza, -⟩ := State.resumesIn_iff.mp (hl b List.mem_cons_self)
    have P := Work.placed_place hm ha
    obtain ⟨hvz, hvu, hve, hvb, hlast, hb, hvr⟩ := Work.resumed_place hz hm ha hza
    rw [List.foldl_cons]
    generalize w.place b = v at P hvz hvu hve hvb hvr ⊢
    obtain ⟨⟨joined, J⟩, hc⟩ := ih v hvz fun slot hs => by rw [hvr]; exact hl slot (List.mem_cons_of_mem _ hs)
    generalize (rest.foldl (fun v slot => v.place slot) v) = x at J hc ⊢
    have hany : ∀ slot, (v.state.openMessage slot).any (fun m => decide (m.priority = 3))
        = (w.state.openMessage slot).any fun m => decide (m.priority = 3) := by
      intro slot
      by_cases hs : slot = b
      · subst hs; rw [hvb, hm]; rfl
      · simp only [State.openMessage, P.others slot hs]
    have hcalls : zoneIn y x.calls = (zoneIn y w.calls || w.state.urgentAmong z y (b :: rest)) := by
      rw [hc, P.calls]
      simp only [State.urgentAmong, List.any_cons, hvr, hany, hm, hb, Option.any_some]
      by_cases h3 : m.priority = 3
      · simp [h3, zoneIn_or, Bool.or_assoc]
      · simp [h3]
    have hf : rest.filter (v.state.resumesIn z y) = rest.filter (w.state.resumesIn z y) :=
      List.filter_congr fun slot _ => hvr y slot
    have later : ∀ slot n c, w.state.openMessage slot = some n → n.lastAttempt = some c →
        ∃ n' c', v.state.openMessage slot = some n' ∧ n'.lastAttempt = some c' ∧ c'.number = c.number
          ∧ n'.words = n.words ∧ n'.priority = n.priority := by
      intro slot n c hn hc
      by_cases hs : slot = b
      · subst hs
        rw [hm] at hn; cases hn
        rw [ha] at hc; cases hc
        exact ⟨_, _, hvb, hlast, rfl, rfl, rfl⟩
      · exact ⟨n, c, by simpa only [State.openMessage, P.others slot hs] using hn, hc, rfl, rfl, rfl⟩
    have entry : ∀ (i : Nat) (slot : SlotId) (n : Message) (c : Attempt), (rest.filter (w.state.resumesIn z y))[i]? = some slot →
        w.state.openMessage slot = some n → n.lastAttempt = some c → joined[i]?
          = some ⟨slot, w.state.epoch slot, c.number, n.words, n.priority, (v.state.zone y).nextSeq + BitVec.ofNat 32 i⟩ := by
      intro i slot n c hi hn hc
      obtain ⟨n', c', h1, h2, h3, h4, h5⟩ := later slot n c hn hc
      rw [J.entries i slot n' c' (by rw [hf]; exact hi) h1 h2, hve, h3, h4, h5]
    refine ⟨?_, hcalls⟩
    have hzones := P.zones y
    rw [← hb] at hzones
    cases hp : w.state.resumesIn z y b with
    | false =>
      rw [hp, if_neg Bool.false_ne_true] at hzones
      refine ⟨joined, ?_, ?_, ?_, ?_, ?_⟩
      · rw [J.length, hf, List.filter_cons, hp]; rfl
      · rw [List.filter_cons, hp, ← hzones]; exact entry
      · rw [← hzones]; exact J.perm
      · rw [← hzones]; exact J.ordered
      · rw [← hzones]; exact J.zone
    | true =>
      rw [hp, if_pos rfl] at hzones
      refine ⟨⟨b, w.state.epoch b, a.number, m.words, m.priority, (w.state.zone y).nextSeq⟩ :: joined, ?_, ?_, ?_, ?_, ?_⟩
      · rw [List.length_cons, J.length, hf, List.filter_cons, hp]; rfl
      · intro i slot n c hi hn hc
        rw [List.filter_cons, hp, if_pos rfl] at hi
        cases i with
        | zero =>
          have : b = slot := by simpa using hi
          subst this
          rw [hm] at hn; cases hn
          rw [ha] at hc; cases hc
          simp
        | succ i =>
          rw [List.getElem?_cons_succ] at hi ⊢
          rw [entry i slot n c hi hn hc, hzones]
          have e : (w.state.zone y).nextSeq + 1 + BitVec.ofNat 32 i = (w.state.zone y).nextSeq + BitVec.ofNat 32 (i + 1) := by
            rw [BitVec.add_assoc, Nat.add_comm i, BitVec.ofNat_add]; rfl
          simp only [e]
      · have h := J.perm
        rw [hzones] at h
        refine h.trans ((List.Perm.append_right joined (queueInsert_perm ..)).trans ?_)
        rw [List.append_assoc]; rfl
      · intro ho
        refine J.ordered ?_
        rw [hzones]
        exact queueInsert_ordered ho
      · have h := J.zone
        generalize (x.state.zone y) = q at h ⊢
        rw [h, hzones]
        have e : (w.state.zone y).nextSeq + 1 + BitVec.ofNat 32 joined.length
            = (w.state.zone y).nextSeq + BitVec.ofNat 32 (joined.length + 1) := by
          rw [BitVec.add_assoc, Nat.add_comm joined.length, BitVec.ofNat_add]; rfl
        simp only [e, List.length_cons]

/-- What a resumption reads and writes of the zones is the same in two states that agree on them, over lists that agree. -/
theorem State.Joined.congr {s v t : State} {z y : ZoneId} {k l : List SlotId} {joined : List QueueEntry}
    (h : v.Joined t z y k joined) (hz : v.zone y = s.zone y) (hm : ∀ j, v.openMessage j = s.openMessage j)
    (he : ∀ j, v.epoch j = s.epoch j) (hk : k.filter (v.resumesIn z y) = l.filter (s.resumesIn z y)) :
    s.Joined t z y l joined :=
  ⟨by rw [h.length, hk], fun i slot m a h1 h2 h3 => by
      rw [h.entries i slot m a (by rw [hk]; exact h1) (by rw [hm]; exact h2) h3, he, hz],
    by rw [← hz]; exact h.perm, by rw [← hz]; exact h.ordered, by rw [← hz]; exact h.zone⟩

theorem State.resumesIn_self {s : State} {z y : ZoneId} {slot : SlotId} (h : s.resumesIn z y slot = true) :
    s.resumesIn z z slot = true := by
  obtain ⟨m, a, h1, h2, h3, -⟩ := State.resumesIn_iff.mp h
  exact State.resumesIn_iff.mpr ⟨m, a, h1, h2, h3, by simp [zoneIn_and, zoneIn_insert, h3]⟩

/-- R140, R141: what a resumption joins to each queue, and which formations it calls for. -/
theorem Work.joined_resume {z : ZoneId} (w : Work) (hz : (w.state.link z).state = .up) (y : ZoneId) :
    (∃ joined, w.state.Joined (w.resume z).state z y w.state.stalls joined)
      ∧ zoneIn y (w.resume z).calls = (zoneIn y w.calls || w.state.resumesUrgent z y) := by
  rw [Work.resume_eq]
  generalize hv : (w.map fun s => { s with
    stalls := s.stalls.filter (fun slot => decide (slot ∉ w.state.stalls.filter (w.state.resumesIn z z))) }) = v
  have vm : ∀ j, v.state.openMessage j = w.state.openMessage j := by intro j; rw [← hv]; rfl
  have vr : ∀ y, v.state.resumesIn z y = w.state.resumesIn z y := by intro y; rw [← hv]; rfl
  obtain ⟨⟨joined, J⟩, hc⟩ := Work.joined_places (w.state.stalls.filter (w.state.resumesIn z z)) v
    (by rw [← hv]; exact hz) (fun slot hs => by rw [vr]; exact (List.mem_filter.mp hs).2) y
  refine ⟨⟨joined, J.congr (by rw [← hv]; rfl) vm (fun j => by rw [← hv]; rfl) ?_⟩, ?_⟩
  · rw [vr, List.filter_filter]
    exact List.filter_congr fun slot _ => by
      cases h : w.state.resumesIn z y slot with
      | false => rfl
      | true => rw [State.resumesIn_self h]; rfl
  · rw [hc, show v.calls = w.calls by rw [← hv]; rfl]
    congr 1
    simp only [State.urgentAmong, State.resumesUrgent, vr, vm, List.any_filter]
    congr 1
    funext slot
    cases h : w.state.resumesIn z y slot with
    | false => simp
    | true => simp [State.resumesIn_self h]

/-- R96, R99, R120, R140, R141: everything that an entry to UP does, at the end of an event that calls for no other
formation. -/
theorem Work.entersUp_whole {s : State} {w : Work} {z : ZoneId} {p : Profile} {x : Link} (hs : w.state = s.setLink z x)
    (hc : w.calls = 0) :
    s.entersUp (w.enterUp z p).finish z
      (({ x.stopTimers with
          state := .up, profile := some p, basePage := none, silenceTimer := some 40, idleTimer := some 10 }
        : Link).changeRate p.rate) p.rate := by
  obtain ⟨-, -, h3, ⟨changed, h4, -, h5⟩, h6⟩ := Work.entersUp_finish (z := z) (p := p) hs
  refine ⟨h3, fun y => ?_, ⟨changed, h4, h5⟩, h6⟩
  clear h3 h4 h5 h6
  generalize hline : (({ x.stopTimers with
      state := .up, profile := some p, basePage := none, silenceTimer := some 40, idleTimer := some 10 }
    : Link).changeRate p.rate) = line
  have lup : line.state = .up := by rw [← hline, Link.changeRate_state]
  unfold Work.enterUp
  generalize hu : (w.map fun s => (s.setLink z
      (({ (s.link z).stopTimers with
          state := .up, profile := some p, basePage := none, silenceTimer := some 40, idleTimer := some 10 }
        : Link).changeRate p.rate)).post .linkUp z.val (rateBits p.rate)) = u
  have hl : u.state.link = (s.setLink z line).link := by
    funext q
    rw [← hu, ← hline]
    simp only [Work.map, hs, State.link_post', State.link_setLink_self]
    by_cases hq : q = z
    · subst hq; simp only [State.link_setLink_self]
    · simp only [State.link_setLink_ne _ _ hq]
  have um : u.state.openMessage = s.openMessage := by rw [← hu]; simp only [Work.map, hs]; rfl
  have ue : ∀ j, u.state.epoch j = s.epoch j := by intro j; rw [← hu]; simp only [Work.map, hs]; rfl
  have uz : u.state.zone y = s.zone y := by rw [← hu]; simp only [Work.map, hs]; rfl
  have us : u.state.stalls = s.stalls := by rw [← hu]; simp only [Work.map, hs]; rfl
  have uh : u.state.airHold = s.airHold := by rw [← hu]; simp only [Work.map, hs]; rfl
  have uc : u.calls = 0 := by rw [← hu]; exact hc
  clear hu
  have ulz : (u.state.link z).state = .up := by rw [hl, State.link_setLink_self, lup]
  have uups : zoneInsert z u.state.upZones = zoneInsert z s.upZones := by
    apply zoneSet_ext
    intro q
    by_cases hq : q = z
    · simp [zoneIn_insert, hq]
    · simp [zoneIn_insert, hq, State.upZones, hl, State.link_setLink_ne _ _ hq]
  have ur : ∀ y, u.state.resumesIn z y = s.resumesIn z y := fun y => funext fun slot => by
    simp only [State.resumesIn, um, uups]
  obtain ⟨⟨joined, J⟩, hcalls⟩ := Work.joined_resume u ulz y
  obtain ⟨-, -, -, hrest⟩ := Work.resumes_resume u ulz
  have hf := Work.zone_finish (u.resume z) y
  have hmsg := Work.finish_messages (u.resume z)
  have J' : s.Joined (u.resume z).state z y s.stalls joined :=
    J.congr uz (fun j => by rw [um]) ue (by rw [us, ur])
  have urg : zoneIn y (u.resume z).calls = s.resumesUrgent z y := by
    rw [hcalls, uc]
    have h0 : zoneIn y (0 : ZoneSet) = false := zoneIn_zero y
    simp only [State.resumesUrgent, us, ur, um, h0, Bool.false_or]
  clear hcalls
  have hlink : (u.resume z).state.link y = (s.setLink z line).link y := by rw [hrest, ← hl]; rfl
  have hhold : (u.resume z).state.airHold = s.airHold := by rw [hrest, ← uh]
  generalize (u.resume z) = r at J' urg hf hmsg hlink hhold ⊢
  have hform : (if zoneIn y r.calls = true then r.state.formable y else none)
      = if s.resumesUrgent z y = true then (s.setLink z line).formsWith y else none := by
    rw [urg]
    by_cases h : s.resumesUrgent z y = true
    · rw [if_pos h, if_pos h]
      have hq : (r.state.zone y).queue ≠ [] := by
        obtain ⟨slot, hs', hr⟩ := List.any_eq_true.mp h
        have hmem : slot ∈ s.stalls.filter (s.resumesIn z y) :=
          List.mem_filter.mpr ⟨hs', (Bool.and_eq_true_iff.mp hr).1⟩
        have h1 := J'.length
        have h2 := J'.perm.length_eq
        rw [List.length_append, h1] at h2
        have h3 := List.length_pos_of_mem hmem
        intro e
        rw [e, List.length_nil] at h2
        omega
      have hi : (r.state.zone y).inFlight = (s.zone y).inFlight := by rw [J'.zone]
      unfold State.formable State.formsWith
      rw [hlink, hhold, hi]
      simp only [hq, ne_eq, not_false_eq_true, and_true]
      rfl
    · rw [if_neg h, if_neg h]
  rw [hform, hlink, ← State.airWords_congr hmsg] at hf
  exact ⟨r.state.zone y, joined, J'.length, J'.entries, J'.perm, J'.ordered, J'.zone, hf⟩

end Sys2Proof.Machine
end

