-- ==== Sys2Proof/Laws/Operands.lean ====
section
/-! SUPPORT. What the reads of the common body fields answer: index, zone number, message id, and the tag of an acknowledgement. -/

namespace Sys2Proof.Machine

theorem finBelow_of {n v : Nat} {i : Fin n} (h : v = i.val) : finBelow n v = some i := by
  subst h; simp [finBelow]

theorem finBelow_none {n v : Nat} (h : n ≤ v) : finBelow n v = none := by
  simp [finBelow, Nat.not_lt.mpr h]

theorem within_of {low high v : Nat} (h1 : low ≤ v) (h2 : v ≤ high) : within low high v = some v := by
  simp [within, h1, h2]

theorem within_none {low high v : Nat} (h : v < low ∨ high < v) : within low high v = none := by
  have : ¬ (low ≤ v ∧ v ≤ high) := by omega
  simp [within, this]

theorem readIndex_of {body : List Byte} {i : AccountIndex} (h : fieldAt body 0 2 = i.val) : readIndex body = some i :=
  finBelow_of h

theorem readIndex_none {body : List Byte} (h : 8191 < fieldAt body 0 2) : readIndex body = none :=
  finBelow_none h

theorem readZoneNumber_of {body : List Byte} {z : ZoneId} (h : fieldAt body 0 1 = z.val) : readZoneNumber body = some z :=
  finBelow_of h

theorem readZoneNumber_none {body : List Byte} (h : 7 < fieldAt body 0 1) : readZoneNumber body = none :=
  finBelow_none h

theorem readMessageId_of {body : List Byte} {slot : SlotId} {e : Epoch} (hs : fieldAt body 0 2 = slot.val)
    (he : fieldAt body 2 1 = e.toNat) : readMessageId body = some (slot, e) := by
  have h1 : finBelow 16 (fieldAt body 2 1) = some ⟨e.toNat, e.isLt⟩ := finBelow_of he
  simp [readMessageId, finBelow_of hs, h1]

theorem readMessageId_none {body : List Byte} (h : 511 < fieldAt body 0 2 ∨ 15 < fieldAt body 2 1) :
    readMessageId body = none := by
  unfold readMessageId
  rcases h with h | h
  · rw [finBelow_none h]; rfl
  · rw [finBelow_none (n := 16) h]
    cases finBelow 512 (fieldAt body 0 2) <;> rfl

/-- A body of three bytes is the id it carries. -/
theorem messageIdBytes_of {body : List Byte} {slot : SlotId} {e : Epoch} (hb : body.length = 3)
    (hs : fieldAt body 0 2 = slot.val) (he : fieldAt body 2 1 = e.toNat) : messageIdBytes slot e = body := by
  match body, hb with
  | [a, b, c], _ =>
    have h1 : bytesOf 2 slot.val = [a, b] := bytesOf_fieldAt rfl (by simpa [fieldAt] using hs)
    have h2 : bytesOf 1 e.toNat = [c] := bytesOf_fieldAt rfl (by simpa [fieldAt] using he)
    simp [messageIdBytes, h1, h2]

/-- The fields of a tag word (Table 7-4) from its value. -/
theorem tag_slot {w slot : Nat} (hw : w < 4294967296) (h : w >>> 23 % 512 = slot) (hs : slot < 512) :
    ((BitVec.ofNat 32 w).extractLsb' 23 9).toFin = (⟨slot, hs⟩ : Fin 512) := by
  apply Fin.ext
  simp
  rw [Nat.mod_eq_of_lt hw]
  exact h

theorem tag_epoch {w : Nat} {e : Epoch} (hw : w < 4294967296) (h : w >>> 19 % 16 = e.toNat) :
    (BitVec.ofNat 32 w).extractLsb' 19 4 = e := by
  apply BitVec.eq_of_toNat_eq
  simp
  rw [Nat.mod_eq_of_lt hw]
  exact h

theorem tag_attempt {w k : Nat} (hw : w < 4294967296) (h : w >>> 16 % 8 = k) :
    ((BitVec.ofNat 32 w).extractLsb' 16 3).toNat = k := by
  simp
  rw [Nat.mod_eq_of_lt hw]
  exact h

theorem tag_fields {slot e k low w : Nat} (h1 : slot < 512) (h2 : e < 16) (h3 : k ≤ 7) (h4 : low < 65536)
    (hw : slot * 8388608 + e * 524288 + k * 65536 + low = w) :
    w < 4294967296 ∧ w >>> 23 % 512 = slot ∧ w >>> 19 % 16 = e ∧ w >>> 16 % 8 = k := by
  refine ⟨by omega, ?_, ?_, ?_⟩ <;> rw [Nat.shiftRight_eq_div_pow] <;> omega

/-- What a PAGER_ACK with an address and a tag word carries. -/
theorem readPagerAck_of {body : List Byte} {address : PagerAddress} {slot : SlotId} {e : Epoch} {k w : Nat}
    (hl : body.length = 7) (h1 : fieldAt body 0 3 = address.toNat) (h2 : fieldAt body 3 4 = w) (hw : w < 4294967296)
    (hs : w >>> 23 % 512 = slot.val) (he : w >>> 19 % 16 = e.toNat) (hk : w >>> 16 % 8 = k) :
    readPagerAck body = some ⟨address, slot, e, k⟩ := by
  unfold readPagerAck
  rw [if_neg (by simp [hl])]
  simp only [h1, h2]
  rw [tag_slot hw hs slot.isLt, tag_epoch hw he, tag_attempt hw hk, BitVec.ofNat_toNat, BitVec.setWidth_eq]

end Sys2Proof.Machine
end

