-- ==== Sys2Proof/Laws/Receivers.lean ====
section
/-! SUPPORT. What the receivers make of the bytes and bits on the lines (R112, R114, R159, R160). -/

namespace Sys2Proof.Machine

/-! ## Bits -/

theorem byteOfBits_bitsMsbFirst : ∀ b : Byte, byteOfBits (bitsMsbFirst b) = b := by decide +kernel

theorem byteOfCharacter_characterBits : ∀ b : Byte, byteOfCharacter (characterBits b) = some b := by decide +kernel

/-- A stop bit read as 0. -/
theorem byteOfCharacter_badStop : ∀ b : Byte, byteOfCharacter ((characterBits b).dropLast ++ [false]) = none := by
  decide +kernel

theorem characterBits_eq : ∀ b : Byte, characterBits b = [false, b.getLsbD 0, b.getLsbD 1, b.getLsbD 2, b.getLsbD 3,
    b.getLsbD 4, b.getLsbD 5, b.getLsbD 6, b.getLsbD 7, true] := by decide +kernel

/-! ## Every command ends in a next state -/

theorem exec_after (i : Instr) (s : State) : exec i s = .next (s.after i) := by
  have h : ∃ t, exec i s = .next t := by cases i <;> exact ⟨_, rfl⟩
  obtain ⟨t, ht⟩ := h
  rw [State.after, ht]

/-! ## A whole frame and a whole block -/

theorem fieldAt_prefix {b : List Byte} (l : List Byte) {off : Nat} (h : off < b.length) :
    fieldAt (b ++ l) off 1 = fieldAt b off 1 := by
  unfold fieldAt
  rw [List.drop_append_of_le_length (Nat.le_of_lt h), List.take_append_of_le_length]
  simp; omega

/-- The bytes of a frame after START, while it is not whole, are kept. -/
theorem State.portBytes_part (p : PortId) (s : State) (h1 : s.phase ≠ .held) (rest taken : List Byte)
    (h : (taken ++ rest).length < 4 + fieldAt (taken ++ rest) 0 1) :
    rest.foldl (State.portByte p) (s.setPort p { s.port p with receiver := .receiving, frame := taken })
      = s.setPort p { s.port p with receiver := .receiving, frame := taken ++ rest } := by
  induction rest generalizing taken with
  | nil => simp
  | cons b rest ih =>
    have e : taken ++ b :: rest = (taken ++ [b]) ++ rest := by simp
    rw [e] at h ⊢
    rw [List.foldl_cons, ← ih (taken ++ [b]) h]
    congr 1
    have hw : frameWhole (taken ++ [b]) = false := by
      simp only [frameWhole, decide_eq_false_iff_not, not_and]
      intro _
      have : fieldAt ((taken ++ [b]) ++ rest) 0 1 = fieldAt (taken ++ [b]) 0 1 := fieldAt_prefix rest (by simp)
      rw [this] at h
      simp at h ⊢
      omega
    unfold State.portByte
    rw [if_neg (show ¬ (s.setPort p _).phase = .held from h1), State.port_setPort_self]
    dsimp only
    rw [hw, State.setPort_setPort]
    rfl

/-- R160: START and the bytes of a whole frame: the frame is judged and its command taken. -/
theorem State.portBytes_frame (p : PortId) (s : State) (h1 : s.phase ≠ .held) (h2 : (s.port p).receiver = .listening)
    (frame : List Byte) (h3 : 4 ≤ frame.length) (h4 : frame.length = 4 + fieldAt frame 0 1) :
    (0xC3 :: frame).foldl (State.portByte p) s
      = (s.setPort p { s.port p with receiver := .receiving, frame := frame }).after (takeStationFrame p frame) := by
  have hs : s.portByte p 0xC3 = s.setPort p { s.port p with receiver := .receiving, frame := [] } := by
    simp [State.portByte, h1, h2]
  obtain ⟨init, last, rfl⟩ : ∃ init last, frame = init ++ [last] :=
    ⟨frame.dropLast, frame.getLast (by rintro rfl; simp at h3), (List.dropLast_append_getLast _).symm⟩
  have hp : fieldAt (init ++ [last]) 0 1 = fieldAt init 0 1 := fieldAt_prefix _ (by simp at h3; omega)
  rw [List.foldl_cons, hs, List.foldl_append, State.portBytes_part p s h1 init [] (by simp at h4 ⊢; omega), List.nil_append]
  show State.portByte p _ last = _
  have hw : frameWhole (init ++ [last]) = true := by simp [frameWhole, h4]
  unfold State.portByte
  rw [if_neg (show ¬ (s.setPort p _).phase = .held from h1), State.port_setPort_self]
  dsimp only
  rw [hw, State.setPort_setPort]
  rfl

/-- The bytes of a block after its sync byte, while it is not whole, are kept. -/
theorem State.linkBytes_part (z : ZoneId) (s : State) (h1 : (s.link z).state ≠ .off) (rest taken : List Byte)
    (h : (taken ++ rest).length < 4 + fieldAt (taken ++ rest) 1 1) (hb : fieldAt (taken ++ rest) 1 1 ≤ 128) :
    rest.foldl (State.linkByte z) (s.setLink z { s.link z with received := some taken })
      = s.setLink z { s.link z with received := some (taken ++ rest) } := by
  induction rest generalizing taken with
  | nil => simp
  | cons b rest ih =>
    have e : taken ++ b :: rest = (taken ++ [b]) ++ rest := by simp
    rw [e] at h hb ⊢
    rw [List.foldl_cons, ← ih (taken ++ [b]) h hb]
    congr 1
    have hp : 2 ≤ (taken ++ [b]).length → fieldAt ((taken ++ [b]) ++ rest) 1 1 = fieldAt (taken ++ [b]) 1 1 :=
      fun hl => fieldAt_prefix rest hl
    have hw : blockWhole (taken ++ [b]) = false := by
      simp only [blockWhole, decide_eq_false_iff_not, not_and]
      intro hl
      rw [hp hl] at h
      simp at h ⊢
      omega
    have hn : ¬ ((taken ++ [b]).length = 2 ∧ 128 < b.toNat) := by
      rintro ⟨hl, hlt⟩
      rw [hp (by omega)] at hb
      obtain ⟨k, rfl⟩ : ∃ k, taken = [k] := List.length_eq_one_iff.mp (by simpa using hl)
      have : fieldAt ([k] ++ [b]) 1 1 = b.toNat := by simp [fieldAt, natOfBytes]
      omega
    unfold State.linkByte
    rw [State.link_setLink_self]
    dsimp only
    rw [if_neg h1, if_neg hn, hw, State.setLink_setLink]
    rfl

/-- R114: the sync byte and the bytes of a whole block: the block is judged. -/
theorem State.linkBytes_block (z : ZoneId) (s : State) (h1 : (s.link z).state ≠ .off) (h2 : (s.link z).received = none)
    (block : List Byte) (h3 : 4 ≤ block.length) (h4 : block.length = 4 + fieldAt block 1 1) (h5 : fieldAt block 1 1 ≤ 128) :
    (0xA6 :: block).foldl (State.linkByte z) s
      = (s.setLink z { s.link z with received := some block }).after (takeLinkBlock z block) := by
  have hs : s.linkByte z 0xA6 = s.setLink z { s.link z with received := some [] } := by
    simp [State.linkByte, h1, h2]
  obtain ⟨init, last, rfl⟩ : ∃ init last, block = init ++ [last] :=
    ⟨block.dropLast, block.getLast (by rintro rfl; simp at h3), (List.dropLast_append_getLast _).symm⟩
  have hp : fieldAt (init ++ [last]) 1 1 = fieldAt init 1 1 := fieldAt_prefix _ (by simp at h3; omega)
  rw [List.foldl_cons, hs, List.foldl_append,
    State.linkBytes_part z s h1 init [] (by simp at h4 ⊢; omega) (by simpa [hp] using h5), List.nil_append]
  show State.linkByte z _ last = _
  have hw : blockWhole (init ++ [last]) = true := by
    simp only [blockWhole, decide_eq_true_eq]
    omega
  have hn : ¬ ((init ++ [last]).length = 2 ∧ 128 < last.toNat) := by rintro ⟨hl, -⟩; omega
  unfold State.linkByte
  rw [State.link_setLink_self]
  dsimp only
  rw [if_neg h1, if_neg hn, hw, State.setLink_setLink]
  rfl

/-- R163: of bits that are one to ten of a character and then whole characters, a break leaves those of the first. -/
theorem finishByte_append (part rest : List Bool) (k : Nat) (short : part.length ≤ 10) (whole : rest.length = 10 * k)
    (none : part = [] → rest = []) : finishByte (part ++ rest) = part := by
  unfold finishByte
  by_cases h : part = []
  · simp [h, none h]
  · have : 0 < part.length := List.length_pos_iff.mpr h
    rw [List.length_append, whole, show (part.length + 10 * k - 1) % 10 + 1 = part.length by omega]
    simp

end Sys2Proof.Machine
end

