-- ==== Sys2Proof/Tests/Slice0.lean ====
section
/-! SUPPORT. Tests of one step each, with values taken from the spec's figures and tables; the ill-formed terms that WellFormed refuses; frames and blocks written out byte by byte; and a witness for the hypotheses of every statement that has some. -/

namespace Sys2Proof.Tests

set_option Elab.async false

open Sys2Proof Sys2Proof.Machine

/-! ## Small states -/

/-- The state a command leaves; the state itself where it stops (it never does). -/
def after (i : Instr) (s : State) : State :=
  match exec i s with
  | .next t => t
  | .fault _ => s
  | .refused _ => s

/-- Whether a command answers a next state of which `q` holds. -/
def runs (i : Instr) (s : State) (q : State → Bool) : Bool :=
  match exec i s with
  | .next t => q t
  | .fault _ => false
  | .refused _ => false

/-- STATUS and BODY of the response in progress on a port. -/
def answer (p : PortId) (s : State) : Option (Status × List Byte) :=
  (s.port p).answer.map fun a => (a.response.status, a.response.body)

/-- The part after the first initialisation pass. -/
def work : State := after .initialisationPassEnd State.reset

/-- Plan 3 of section 2.7.1 with the focus age of section 4.7.1. -/
def plan3 : Plan :=
  { Plan.reset with
    baseText := 400, wordRate := 25, zoneRate := 60, m2 := 21, retryFee := 30, failFee := 50, cap := 5000, retries := 4
    focusAge := 120 }

/-- Entry 12 of Figure 1-1 after step 4. -/
def entry12 : Entry := ⟨.active, 1048577, .twoWay, 3, 12, 16, some ⟨2, 39950⟩, 4, 0, 5000, 0, 0, false, false⟩

/-- A link in UP with the profile of section 6.10. -/
def linkUp : Link :=
  { Link.reset with
    state := .up, profile := some ⟨.mid, 96, 0, .ok⟩, silenceTimer := some 40, idleTimer := some 10, lineRate := .mid }

/-- The office of section 4.7.1 at clock 40,000, links 2, 3 and 4 UP, the store empty. -/
def office : State :=
  ((({ work with
      clock := 40000
      plans := bankSet work.plans 3 plan3
      directory := [(12, entry12)]
      addressMap := [(1048577, 12)] }.setLink 2 linkUp).setLink 3 linkUp).setLink 4 linkUp)

/-- The message (5, 3) of Figure 4-1 as its attempts stand. -/
def page (attempts : List Attempt) : Message where
  port := 1
  line := 7
  billed := 12
  delivery := 12
  address := 1048577
  kind := .twoWay
  cls := .text
  priority := 2
  length := 47
  text := List.replicate 47 65
  words := 18
  life := 3600
  home := 12
  reach := 28
  tariff := plan3.snapshot .text 2 .twoWay none
  hold := 1328
  truncated := false
  substituted := false
  forwarded := false
  override := false
  noFocus := false
  attempts := attempts
  closing := none
  retryTimer := none
  frozen := false

/-- The office with the message given in slot 5, epoch 3, and its hold on entry 12. -/
def holding (m : Message) : State :=
  { office with
    directory := [(12, { entry12 with held := 1328, openCount := 1 })]
    epochs := [(5, 3)]
    messages := [(5, m)] }

def queued5 : QueueEntry := ⟨5, 3, 0, 18, 2, 0⟩

/-- Slot 5 QUEUED in zone 2, focused. -/
def queuedState : State :=
  (holding (page [⟨0, 4, 4, 0, none⟩])).setZone 2 { Zone.reset with queue := [queued5], nextSeq := 1 }

/-- Slot 5 ON_AIR in batch 17 of zone 2, as Figure 5-1 begins. -/
def onAir : State :=
  (holding (page [⟨0, 4, 4, 0, none⟩])).setZone 2
    { Zone.reset with
      nextSeq := 1, nextBatch := 18, inFlight := some ⟨17, 96, .mid, [⟨queued5, false⟩], 18, 52⟩ }

/-- Slot 5 in WAIT after attempt `n` over the zones given, its timer as given. -/
def waiting (n : Nat) (zs : ZoneSet) (timer : Nat) : State :=
  holding { page [⟨n, zs, 0, zs, some 40010⟩] with retryTimer := some timer }

/-- The message closed CANCELLED with nothing transmitted. -/
def cancelledPage : Message := { page [⟨0, 4, 4, 0, none⟩] with closing := some ⟨.cancelled, 0⟩ }

/-- Slot 5 CLOSED, on port 1's outcome list. -/
def closedState : State :=
  { office with epochs := [(5, 3)], messages := [(5, cancelledPage)] }.setPort 1
    { Port.reset .intake with outcomes := [5] }

/-- Slot 5 STALLED in a part whose links are all OFF. -/
def stalledState : State :=
  { work with
    directory := [(12, { entry12 with held := 1328, openCount := 1 })]
    addressMap := [(1048577, 12)]
    epochs := [(5, 3)]
    messages := [(5, page [⟨0, 4, 0, 0, none⟩])]
    stalls := [5] }

/-- A working part with zone 5's link in the state given. -/
def linked (x : Link) : State := work.setLink 5 x

/-! ## Charge arithmetic, normalisation and CRC -/

/-- R113: the CRC named there gives 0x29B1 over the nine digits "123456789". -/
theorem test_crc_check_value : crc16 [49, 50, 51, 52, 53, 54, 55, 56, 57] = 0x29B1 := by decide +kernel

/-- Figures 2-1, 2-2 and 2-5. -/
theorem test_charge_figures :
    attemptCharge (plan3.snapshot .text 2 .twoWay none) 16 3 4 = 1328
      ∧ attemptCharge (plan3.snapshot .text 2 .twoWay none) 16 2 1 = 1159
      ∧ attemptCharge ⟨65535, 4095, 4095, 255, 4095, 0, 16777215, 7, 1, 1, 0⟩ 80 8 7 = 6751103 := by decide +kernel

/-- Figure 4-2: three characters become spaces. -/
theorem test_normalise_numeric :
    (normalise .numeric [53, 53, 53, 45, 48, 49, 51, 52, 32, 69, 88, 84, 32, 50, 50]).text
      = [53, 53, 53, 45, 48, 49, 51, 52, 32, 32, 32, 32, 32, 50, 50] := by decide +kernel

/-! ## Frames and blocks written out byte by byte -/

/-- READ_CLOCK: LENGTH 0, CODE 0x68, CRC 0xF0A1 (computed outside Lean, as for the frames below). -/
theorem test_frame_readClock : takeStationFrame 2 [0x00, 0x68, 0xF0, 0xA1] = .readClock 2 [] := by
  decide +kernel

/-- SET_ROLE of port 3 to ACCOUNTS: LENGTH 2, CODE 0x61, BODY 03 03. -/
theorem test_frame_setRole :
    takeStationFrame 0 [0x02, 0x61, 0x03, 0x03, 0xA0, 0xC3] = .setRole 0 [3, 3] := by
  decide +kernel

/-- A code that Table 10-6 does not list. -/
theorem test_frame_unknown :
    takeStationFrame 1 [0x00, 0x7F, 0x92, 0x77] = .unknownCommand 1 0x7F [] := by decide +kernel

/-- A frame whose last CRC bit is wrong. -/
theorem test_frame_bad :
    takeStationFrame 1 [0x00, 0x68, 0x00, 0x00] = .commandFrameBadCrc 1 [0x00, 0x68, 0x00, 0x00] := by decide +kernel

/-- CAP_NEXT 812: kind 2, length 2, 0x03 0x2C. -/
theorem test_block_capNext :
    takeLinkBlock 5 [0x02, 0x02, 0x03, 0x2C, 0xB7, 0x75] = .capNext 5 [0x03, 0x2C] := by
  decide +kernel

/-- BATCH_ACCEPT 17: kind 0x20, length 1. -/
theorem test_block_batchAccept :
    takeLinkBlock 2 [0x20, 0x01, 0x11, 0x7B, 0x7B] = .batchAccept 2 [17] := by decide +kernel

/-- An outbound kind is no inbound block. -/
theorem test_block_outbound_kind :
    takeLinkBlock 2 [0x10, 0x00, 0x1E, 0x7C] = .badBlock 2 [0x10, 0x00, 0x1E, 0x7C] := by
  decide +kernel

/-! ## Lines, bit by bit and byte by byte -/

/-- Section 10.2: 0x68 as a character, a start bit 0, bits 0 to 7 and a stop bit 1. -/
theorem test_character :
    characterBits 0x68 = [false, false, false, false, true, false, true, true, false, true]
      ∧ byteOfCharacter [false, false, false, false, true, false, true, true, false, true] = some 0x68
      ∧ byteOfCharacter [false, false, false, false, true, false, true, true, false, false] = none := by decide +kernel

/-- Section 7.2: the sync byte 0xA6 leaves most significant bit first; an empty line carries the fill byte 0xFF. -/
theorem test_linkLine :
    bitsMsbFirst 0xA6 = [true, false, true, false, false, true, true, false]
      ∧ (linked linkUp |>.link 5).line.txd = List.replicate 8 true ∧ (work.link 5).line.txd = [true]
      ∧ ((linked { linkUp with onLine := some .idle }).link 5).line.txd
        = [0xA6, 0x03, 0x00, 0x48, 0x5C].flatMap bitsMsbFirst := by decide +kernel

/-- Bytes before START are discarded; the frame of READ_CLOCK is then taken. -/
theorem test_port_bytes :
    answer 2 ([0x55, 0x00, 0xC3, 0x00, 0x68, 0xF0, 0xA1].foldl (State.portByte 2) work) = some (.ok, [0, 0, 0, 0])
      ∧ ([0x55, 0x00, 0xC3, 0x00, 0x68].foldl (State.portByte 2) work |>.port 2).receiver = .receiving := by decide +kernel

/-- Bytes before the sync byte are discarded; the IDLE then reloads the silence timer; a length of 129 is a bad block. -/
theorem test_link_bytes :
    ([0xFF, 0x03, 0xA6, 0x03, 0x00, 0x48, 0x5C].foldl (State.linkByte 5) (linked { linkUp with silenceTimer := some 27 })
        |>.link 5).silenceTimer = some 40
      ∧ ([0xFF, 0xA6, 0x03, 0x81].foldl (State.linkByte 5) (linked linkUp) |>.link 5).rxErrors = 1 := by decide +kernel

/-! ## Ill-formed terms -/

theorem test_illFormed_longBody : (Instr.submit 1 (List.replicate 256 0)).wellFormed = false := by decide +kernel
theorem test_illFormed_listedCode : (Instr.unknownCommand 1 0x30 []).wellFormed = false := by decide +kernel
theorem test_illFormed_goodFrame :
    (Instr.commandFrameBadCrc 1 [0x00, 0x68, 0xF0, 0xA1]).wellFormed = false := by decide +kernel
theorem test_illFormed_shortFrame : (Instr.commandFrameBadCrc 1 [0x00, 0x68, 0x00]).wellFormed = false := by
  decide +kernel
theorem test_illFormed_longBlock : (Instr.capBase 1 (List.replicate 129 0)).wellFormed = false := by decide +kernel
theorem test_illFormed_goodBlock :
    (Instr.badBlock 1 [0x03, 0x00, 0x48, 0x5C]).wellFormed = false := by decide +kernel

/-! ## Subscriber directory -/

/-- Figure 1-1, step 1. -/
theorem test_subscriberWrite_creates :
    runs (.subscriberWrite 0 [0, 12, 1, 0x10, 0, 1, 1, 3, 12, 16, 4]) work (fun t =>
      decide (t.entry 12 = some ⟨.active, 1048577, .twoWay, 3, 12, 16, none, 4, 0, 0, 0, 0, false, false⟩
        ∧ t.mapped 1048577 = some 12 ∧ answer 0 t = some (.ok, [0, 12, 1]))) = true := by decide +kernel

/-- Figure 1-1, step 2. -/
theorem test_subscriberWrite_addressInUse :
    runs (.subscriberWrite 0 [0, 40, 1, 0x10, 0, 1, 1, 3, 12, 16, 4]) office (fun t =>
      decide (answer 0 t = some (.addressInUse, []) ∧ t.entry 40 = none)) = true := by decide +kernel

/-- Table 10-9: 39,950 is 0x9C0E and 5,000 is 0x1388. -/
theorem test_subscriberRead :
    runs (.subscriberRead 2 [0, 12]) office (fun t =>
      decide (answer 2 t = some (.ok,
        [0, 12, 1, 0, 0x10, 0, 1, 1, 3, 12, 16, 1, 2, 0, 0, 0x9C, 0x0E, 4, 0, 0, 0, 0, 0, 0, 0x13, 0x88, 0, 0, 0, 0, 0, 0])))
      = true := by decide +kernel

/-- Figure 1-1, step 12. -/
theorem test_subscriberDelete :
    runs (.subscriberDelete 0 [0, 12]) office (fun t =>
      decide (t.entry 12 = none ∧ t.mapped 1048577 = none ∧ answer 0 t = some (.ok, [0, 12]))) = true := by decide +kernel

/-- Figure 1-1, step 10. -/
theorem test_subscriberDelete_balance :
    runs (.subscriberDelete 0 [0, 12]) (office.setEntry 12 { entry12 with balance := -1159 }) (fun t =>
      decide (answer 0 t = some (.balanceNotZero, []))) = true := by decide +kernel

/-! ## Plans -/

/-- Plan 3 of section 2.7.1 as a body of Table 10-9. -/
def plan3Body : List Byte :=
  [3, 0, 0, 0, 0, 0x01, 0x90, 0, 25, 0, 60, 16, 16, 21, 16, 0, 30, 0, 50, 0, 0x13, 0x88, 4, 0, 10, 0x02, 0x58, 0x0E, 0x10,
   0, 120, 0, 0, 0, 0]

theorem test_planWrite :
    runs (.planWrite 3 plan3Body) work (fun t => decide (t.plan 3 = plan3 ∧ answer 3 t = some (.ok, [3]))) = true := by
  decide +kernel

theorem test_planWrite_cap_zero :
    runs (.planWrite 3 (plan3Body.set 20 0 |>.set 21 0)) work (fun t => decide (answer 3 t = some (.range, []))) = true := by
  decide +kernel

theorem test_planRead :
    runs (.planRead 1 [3]) office (fun t => decide (answer 1 t = some (.ok, plan3Body))) = true := by decide +kernel

/-! ## Classifier -/

/-- Entry 0 of Table 3-10: EXHAUSTED is bit 20 of the key, LOOKUP bit 50, the highest PRI bit is bit 27. -/
def entry0Body : List Byte :=
  [0, 1, 0, 0, 0, 0, 0x10, 0, 0, 4, 0, 0, 8, 0x10, 0, 0, 1, 5, 0, 0, 0, 0, 0, 0, 0, 0, 0, 0, 0, 0, 0, 0]

theorem test_classifierWrite :
    runs (.classifierWrite 0 entry0Body) work (fun t =>
      decide ((bankGet t.classifier 0).action = { Action.reset with disposition := .refuse, reason := 5 }
        ∧ (bankGet t.classifier 0).mask = 0x4000008100000 ∧ answer 0 t = some (.ok, [0]))) = true := by decide +kernel

theorem test_classifierDefault :
    runs (.classifierDefault 0 [0, 0, 0, 0, 0, 0, 0, 0, 0, 0, 0, 0, 0, 0, 0, 0, 1]) work (fun t =>
      decide (t.firstDefault = { Action.reset with chain := 1 } ∧ t.secondDefault = Action.reset)) = true := by decide +kernel

theorem test_classifierRead :
    runs (.classifierRead 2 [0]) (after (.classifierWrite 0 entry0Body) work) (fun t =>
      decide (answer 2 t = some (.ok, entry0Body))) = true := by decide +kernel

/-- Table 3-9, checker 0. -/
theorem test_rangeWrite :
    runs (.rangeWrite 0 [0, 2, 22, 6]) work (fun t => decide (bankGet t.checkers 0 = ⟨.hour, 22, 6⟩)) = true := by
  decide +kernel

theorem test_rangeRead :
    runs (.rangeRead 1 []) (after (.rangeWrite 0 [0, 2, 22, 6]) work) (fun t =>
      decide (answer 1 t = some (.ok, [2, 22, 6, 0, 0, 0, 0, 0, 0, 0, 0, 0]))) = true := by decide +kernel

/-- Hour 23 wraps around midnight (section 3.6.3). -/
theorem test_range_wraps : RangeChecker.hits ⟨.hour, 22, 6⟩ 4 17 23 = true ∧ RangeChecker.hits ⟨.hour, 22, 6⟩ 4 17 14 = false := by
  decide +kernel

/-- With every entry invalid the defaults win: items 64 and 65, PASS. -/
theorem test_classifyProbe :
    runs (.classifyProbe 1 [1, 0, 12, 2, 2, 40, 1, 65]) office (fun t =>
      decide ((answer 1 t).map (fun a => (a.1, a.2.take 4, a.2.length)) = some (.ok, [0, 64, 65, 0], 19))) = true := by
  decide +kernel

/-- Entry 0 of Table 3-10 refuses an EXHAUSTED account's page of priority 2 (Figure 3-4). -/
theorem test_classifyProbe_refuses :
    runs (.classifyProbe 1 [1, 0, 12, 1, 2, 17, 0])
      ((after (.classifierWrite 0 entry0Body) office).setEntry 12 { entry12 with exhausted := true }) (fun t =>
      decide ((answer 1 t).map (fun a => a.2.take 5) = some [0, 0, 255, 1, 5])) = true := by decide +kernel

/-! ## Admission and the message store -/

/-- The first SUBMIT of Figure 4-1. -/
def submitBody : List Byte := [0, 12, 2, 2, 0, 0, 7, 47] ++ List.replicate 47 65

/-- H 1,328 is 0x000530, W 18, life 3,600 is 0x0E10; focus on zone 2. -/
theorem test_submit_accepted :
    runs (.submit 1 submitBody) office (fun t =>
      decide (answer 1 t = some (.accepted, [0, 0, 0, 0, 0x05, 0x30, 18, 0x0E, 0x10, 0])
        ∧ (t.message 0).map Message.attempts = some [⟨0, 4, 4, 0, none⟩]
        ∧ (t.entry 12).map (fun e => (e.held, e.openCount)) = some (1328, 1)
        ∧ (t.zone 2).queue = [⟨0, 0, 0, 18, 2, 0⟩])) = true := by decide +kernel

/-- The fourth SUBMIT of Figure 4-1: available 1,032 is below 1,040. -/
theorem test_submit_credit :
    runs (.submit 1 (submitBody.set 3 1)) (office.setEntry 12 { entry12 with held := 3968, openCount := 2 }) (fun t =>
      decide (answer 1 t = some (.credit, []) ∧ t.message 0 = none)) = true := by decide +kernel

/-- Figure 5-1, step 1: nothing was transmitted, so S is 0 and the whole hold is released; the entry is voided. -/
theorem test_cancel :
    runs (.cancel 1 [0, 5, 3]) onAir (fun t =>
      decide (answer 1 t = some (.ok, [0, 5, 3, 5, 0, 0x05, 0x30, 0, 0, 0])
        ∧ (t.zone 2).inFlight = some ⟨17, 96, .mid, [⟨queued5, true⟩], 18, 52⟩
        ∧ (t.entry 12).map (fun e => (e.balance, e.held, e.openCount)) = some (0, 0, 0)
        ∧ (t.port 1).outcomes = [5])) = true := by decide +kernel

theorem test_cancel_alreadyClosed :
    runs (.cancel 1 [0, 5, 3]) closedState (fun t => decide (answer 1 t = some (.alreadyClosed, [0, 5, 3, 5]))) = true := by
  decide +kernel

theorem test_queryMessage :
    runs (.queryMessage 2 [0, 5, 3]) queuedState (fun t =>
      decide ((answer 2 t).map (fun a => (a.1, a.2.take 6, a.2.drop 48)) = some (.ok, [1, 0, 0, 0, 0, 1], [0, 4, 4, 0, 0, 0, 0, 0, 0])))
      = true := by decide +kernel

/-- Figure 5-1, step 2: FREE, epoch 4 after 3. -/
theorem test_fetchOutcomes :
    runs (.fetchOutcomes 1 []) closedState (fun t =>
      decide (t.message 5 = none ∧ t.epoch 5 = 4 ∧ (t.port 1).outcomes = []
        ∧ answer 1 t = some (.ok, [1, 0, 0, 0, 5, 3, 5, 0, 12, 7, 0, 0x05, 0x30, 0, 0, 0, 1, 0, 0]))) = true := by decide +kernel

/-- Table 2-6: EXPIRED before any batch was accepted settles at 0. -/
theorem test_lifeExpiry :
    runs (.lifeExpiry 5) { holding { page [⟨0, 4, 4, 0, none⟩] with life := 1 } with secondDivider := 10 } (fun t =>
      decide ((t.message 5).map (fun m => (m.life, m.closing)) = some (0, some ⟨.expired, 0⟩))) = true := by decide +kernel

/-! ## Zone dispatcher -/

theorem test_zoneConfig :
    runs (.zoneConfig 2 [4, 5, 0, 100, 0, 40, 0, 50, 7, 0, 96, 0, 0]) work (fun t =>
      decide ((t.zone 4).written = ⟨⟨5, 100, 40, 50⟩, 7, 96, 0⟩ ∧ (t.zone 4).force = DispatchSettings.reset
        ∧ answer 2 t = some (.ok, [4]))) = true := by decide +kernel

theorem test_readZone :
    runs (.readZone 3 [2]) queuedState (fun t =>
      decide ((answer 3 t).map (fun a => (a.1, a.2.take 15)) = some (.ok, [0, 1, 0, 18, 0, 2, 0, 0, 0, 0, 0, 0, 0, 1, 0])))
      = true := by decide +kernel

/-- Figure 8-2, tick 5. -/
theorem test_airHold :
    runs (.airHold 2 []) (waiting 1 4 15) (fun t =>
      decide (t.airHold = true ∧ (t.message 5).map (fun m => (m.retryTimer, m.frozen)) = some (some 15, true))) = true := by
  decide +kernel

/-- Figure 8-2, tick 205. -/
theorem test_airRelease :
    runs (.airRelease 2 []) (after (.airHold 0 []) (waiting 1 4 15)) (fun t =>
      decide (t.airHold = false ∧ (t.message 5).map (fun m => (m.retryTimer, m.frozen)) = some (some 15, false)
        ∧ answer 2 t = some (.ok, [1]))) = true := by decide +kernel

/-- The zone of Figure 6-1. -/
def zone4 : Zone :=
  { Zone.reset with
    queue := [⟨20, 0, 0, 82, 2, 101⟩, ⟨21, 0, 0, 18, 1, 98⟩, ⟨22, 0, 0, 4, 1, 103⟩, ⟨23, 0, 0, 12, 0, 99⟩, ⟨24, 0, 0, 2, 0, 104⟩]
    congested := true, nextSeq := 105, nextBatch := 40, batchTimer := 0
    written := ⟨⟨5, 100, 40, 50⟩, 7, 96, 0⟩, force := ⟨5, 100, 40, 50⟩ }

/-- Section 6.10, step 1: A, C and E, 88 words, deadline 59; the flag clears with detail 30. -/
theorem test_batchTimerExpiry :
    runs (.batchTimerExpiry 4) (office.setZone 4 zone4) (fun t =>
      decide ((t.zone 4).inFlight.map (fun b => (b.number, b.entries.map fun e => e.entry.slot, b.totalWords, b.deadline))
          = some (40, [20, 22, 24], 88, 59)
        ∧ (t.zone 4).queue.map QueueEntry.slot = [21, 23] ∧ (t.zone 4).batchTimer = 50 ∧ (t.zone 4).congested = false
        ∧ (t.port 2).events = [⟨.zoneClear, 4, 30, 40000⟩])) = true := by decide +kernel

/-- Table 7-4 for slot 5, epoch 3, attempt 0, P 16: address word, tag word and the first of 16 words of "AAA". -/
theorem test_airWords :
    (queuedState.airWords queued5).take 3 = [0x40000680, 0x02982000, 0x001060C1]
      ∧ (queuedState.airWords queued5).length = 18 := by decide +kernel

/-- Figure 7-2: 88 words go out in bodies of 32, 32 and 24. -/
theorem test_batchStream :
    (wordBodies 88 (List.replicate 88 0)).map List.length = [32, 32, 24]
      ∧ (batchStream 40 88 (List.replicate 88 0)).length = 5 := by decide +kernel

/-- R106: a deadline that runs out fails the link with NO_ACCEPT. -/
theorem test_acceptDeadlineExpiry :
    runs (.acceptDeadlineExpiry 2)
      (onAir.setZone 2 { onAir.zone 2 with inFlight := some ⟨17, 96, .mid, [⟨queued5, false⟩], 18, 0⟩ }) (fun t =>
      decide ((t.link 2).state = .failed ∧ (t.link 2).downCause = some .noAccept ∧ (t.zone 2).inFlight = none
        ∧ t.stalls = [5])) = true := by decide +kernel

/-- Slot 5's batch with the last repeat of a one-way message, whose attempt 0 was sent to zones 2 and 3. -/
def lastRepeat : State :=
  (onAir.setMessage 5 { page [⟨0, 28, 0, 12, some 39000⟩, ⟨1, 28, 0, 28, some 39500⟩, ⟨2, 28, 4, 24, some 40000⟩] with
    kind := .oneWay, tariff := { plan3.snapshot .text 2 .oneWay none with retryCount := 2 } }).setZone 2
    { onAir.zone 2 with inFlight := some ⟨17, 96, .mid, [⟨{ queued5 with attempt := 2 }, false⟩], 18, 52⟩ }

/-- Batch 17 on the air with its stream half sent, and a priority-3 entry first in zone 2's queue. -/
def urgentNext : State :=
  (onAir.setZone 2 { onAir.zone 2 with queue := [⟨6, 0, 0, 2, 3, 1⟩] }).setLink 2
    { linkUp with onLine := some (.batchWords [0]), txQueue := [.batchClose 17] }

/-- Figure 8-1, step 1: WAIT with d(0) = 10 ticks. -/
theorem test_batchAccept :
    runs (.batchAccept 2 [17]) onAir (fun t =>
      decide ((t.message 5).map (fun m => (m.attempts, m.retryTimer)) = some ([⟨0, 4, 0, 4, some 40000⟩], some 10)
        ∧ (t.zone 2).inFlight = none)) = true := by decide +kernel

/-- R104, R143: the last repeat closes SENT at the charge of attempt 0 over two zones: 400 + 25 · 16 + 60 times 21/16. -/
theorem test_batchAccept_sent :
    runs (.batchAccept 2 [17]) lastRepeat (fun t =>
      decide ((t.message 5).map Message.closing = some (some ⟨.sent, 1129⟩) ∧ (t.port 1).outcomes = [5]
        ∧ (t.entry 12).map (fun e => (e.balance, e.held, e.openCount)) = some (-1129, 0, 0)
        ∧ t.journal.records.length = 1)) = true := by decide +kernel

/-- R103: a priority-3 entry first in the queue is formed into the next batch by the accept. -/
theorem test_batchAccept_forms :
    runs (.batchAccept 2 [17]) urgentNext (fun t =>
      decide ((t.zone 2).inFlight.map Batch.number = some 18 ∧ (t.zone 2).queue = []
        ∧ (t.link 2).onLine = some (.batchWords [0]) ∧ (t.link 2).txQueue = [.batchOpen 18 2, .batchClose 18])) = true := by
  decide +kernel

theorem test_batchAccept_stray :
    runs (.batchAccept 2 [16]) onAir (fun t => decide (t.messages = onAir.messages ∧ t.zones = onAir.zones)) = true := by
  decide +kernel

/-- Section 6.10, step 3: the entry returns with the sequence it had. -/
theorem test_batchRefuse :
    runs (.batchRefuse 2 [17]) onAir (fun t =>
      decide ((t.zone 2).queue = [queued5] ∧ (t.zone 2).inFlight = none ∧ (t.zone 2).nextSeq = 1)) = true := by decide +kernel

/-! ## Zone links -/

/-- Zone 5 of Figure 7-1 as configured. -/
def zone5 : Zone := { Zone.reset with written := ⟨DispatchSettings.reset, 3, 1024, 812⟩ }

def hunting : Link := { Link.reset with state := .hunt, huntTimer := some 0 }

def exchanging : Link :=
  { Link.reset with
    state := .exchange, exchangeTimer := some 28, basePage := some ⟨6, 512, .degraded, false, .mid, 512⟩ }

def failed : Link := { Link.reset with state := .failed, downCause := some .timeout, holdOffTimer := some 0 }

/-- Figure 7-1, tick 0. -/
theorem test_linkEnable :
    runs (.linkEnable 2 [5, 1]) (work.setZone 5 zone5) (fun t =>
      decide ((t.link 5).state = .hunt ∧ (t.link 5).huntTimer = some 5 ∧ (t.link 5).onLine = some (.capBase 3 1024 true)
        ∧ answer 2 t = some (.ok, [5, 1]))) = true := by decide +kernel

/-- Section 7.7: LINK_RESTART in UP leaves UP with cause RESTART and posts LINK_DOWN (R126). -/
theorem test_linkRestart :
    runs (.linkRestart 2 [5]) (linked linkUp) (fun t =>
      decide ((t.link 5).state = .failed ∧ (t.link 5).holdOffTimer = some 20 ∧ (t.port 0).events = [⟨.linkDown, 5, 7, 0⟩]))
      = true := by decide +kernel

theorem test_readLink :
    runs (.readLink 2 [5]) (linked { linkUp with rxErrors := 9 }) (fun t =>
      decide (answer 2 t = some (.ok, [3, 1, 1, 0x0C, 0x80, 0, 96, 0, 0, 0, 0x0C, 0x80, 0, 9, 255, 255, 40, 10, 255])
        ∧ (t.link 5).rxErrors = 0)) = true := by decide +kernel

/-- Figure 7-1, tick 5. -/
theorem test_huntTimerExpiry :
    runs (.huntTimerExpiry 5) ((linked hunting).setZone 5 zone5) (fun t =>
      decide ((t.link 5).huntTimer = some 5 ∧ (t.link 5).onLine = some (.capBase 3 1024 true))) = true := by decide +kernel

theorem test_exchangeTimerExpiry :
    runs (.exchangeTimerExpiry 5) (linked { exchanging with exchangeTimer := some 0 }) (fun t =>
      decide ((t.link 5).state = .failed ∧ (t.link 5).downCause = some .timeout ∧ (t.link 5).basePage = none)) = true := by
  decide +kernel

theorem test_silenceTimerExpiry :
    runs (.silenceTimerExpiry 5) (linked { linkUp with silenceTimer := some 0 }) (fun t =>
      decide ((t.link 5).state = .failed ∧ (t.link 5).downCause = some .silence ∧ (t.link 5).profile = linkUp.profile))
      = true := by decide +kernel

/-- Figure 7-1, tick 19. -/
theorem test_idleTimerExpiry :
    runs (.idleTimerExpiry 5) (linked { linkUp with idleTimer := some 0 }) (fun t => decide ((t.link 5).onLine = some .idle))
      = true := by decide +kernel

theorem test_holdOffTimerExpiry :
    runs (.holdOffTimerExpiry 5) (linked failed) (fun t =>
      decide ((t.link 5).state = .hunt ∧ (t.link 5).huntTimer = some 5 ∧ (t.link 5).holdOffTimer = none)) = true := by
  decide +kernel

/-- Figure 7-1, tick 7: rates {MID, FAST}, capacity 512, DEGRADED, next-page clear. -/
theorem test_capBase :
    runs (.capBase 5 [6, 2, 0, 1, 0]) ((linked hunting).setZone 5 zone5) (fun t =>
      decide ((t.link 5).state = .exchange ∧ (t.link 5).exchangeTimer = some 30
        ∧ (t.link 5).basePage = some ⟨6, 512, .degraded, false, .mid, 512⟩
        ∧ (t.link 5).onLine = some (.capBase 3 1024 true) ∧ (t.link 5).txQueue = [.capNext 812])) = true := by decide +kernel

/-- Figure 7-1, tick 9. -/
theorem test_capNext :
    runs (.capNext 5 [3, 0x2C]) ((linked exchanging).setZone 5 zone5) (fun t =>
      decide ((t.link 5).state = .up ∧ (t.link 5).profile = some ⟨.mid, 512, 812, .degraded⟩
        ∧ (t.link 5).silenceTimer = some 40 ∧ (t.link 5).idleTimer = some 10
        ∧ (t.port 2).events = [⟨.linkUp, 5, 3200, 0⟩])) = true := by decide +kernel

/-- Below Figure 7-1: another identity fails the link. -/
theorem test_capNext_wrongSite :
    runs (.capNext 5 [3, 0x2D]) ((linked exchanging).setZone 5 zone5) (fun t =>
      decide ((t.link 5).state = .failed ∧ (t.link 5).downCause = some .wrongSite ∧ (t.port 2).events = [])) = true := by
  decide +kernel

theorem test_idle :
    runs (.idle 5 []) (linked { linkUp with silenceTimer := some 27 }) (fun t => decide ((t.link 5).silenceTimer = some 40))
      = true := by decide +kernel

theorem test_siteStatus :
    runs (.siteStatus 5 [1]) (linked linkUp) (fun t => decide ((t.link 5).profile = some ⟨.mid, 96, 0, .degraded⟩)) = true := by
  decide +kernel

theorem test_siteStatus_offline :
    runs (.siteStatus 5 [2]) (linked linkUp) (fun t =>
      decide ((t.link 5).state = .failed ∧ (t.link 5).downCause = some .remote)) = true := by decide +kernel

theorem test_badBlock_saturates :
    runs (.badBlock 5 [3, 0, 0, 0]) (linked { linkUp with rxErrors := 255 }) (fun t => decide ((t.link 5).rxErrors = 255))
      = true := by decide +kernel

/-- R112: the rate changes once the blocks queued before the change have left. -/
theorem test_linkBlockSent :
    runs (.linkBlockSent 5) (linked { linkUp with onLine := some (.capNext 812), lineRate := .slow, slowBlocks := some 1 })
      (fun t => decide ((t.link 5).onLine = none ∧ (t.link 5).lineRate = .mid ∧ (t.link 5).idleTimer = some 10)) = true := by
  decide +kernel

/-! ## Acknowledgement and retry -/

/-- Figure 8-1, step 2: the HOME step. -/
theorem test_retryExpiry :
    runs (.retryExpiry 5) (waiting 0 4 1) (fun t =>
      decide ((t.message 5).map Message.attempts = some [⟨0, 4, 0, 4, some 40010⟩, ⟨1, 12, 12, 0, none⟩]
        ∧ (t.zone 3).queue = [⟨5, 3, 1, 18, 2, 0⟩])) = true := by decide +kernel

/-- Figure 8-2, tick 220: the last attempt is missed at min(fail fee, hold). -/
theorem test_retryExpiry_missed :
    runs (.retryExpiry 5) (waiting 4 4 1) (fun t =>
      decide ((t.message 5).map Message.closing = some (some ⟨.missed, 50⟩)
        ∧ (t.entry 12).map (fun e => (e.balance, e.held)) = some (-50, 0))) = true := by decide +kernel

/-- A one-way page in WAIT with its repeat due. -/
def repeating : State :=
  holding { page [⟨0, 12, 0, 12, some 40010⟩] with
    kind := .oneWay, retryTimer := some 1, tariff := { plan3.snapshot .text 2 .oneWay none with retryCount := 2 } }

/-- R137, R138: a repeat takes the reach snapshot. -/
theorem test_repeatExpiry :
    runs (.repeatExpiry 5) repeating (fun t =>
      decide ((t.message 5).map (fun m => m.attempts.getLast?) = some (some ⟨1, 28, 28, 0, none⟩))) = true := by decide +kernel

/-- Figure 8-2, tick 100: 15 ticks, frozen, no further attempt. -/
theorem test_retryStatus :
    runs (.retryStatus 2 [0, 5, 3]) (after (.airHold 0 []) (waiting 4 4 15)) (fun t =>
      decide (answer 2 t = some (.ok, [3, 4, 0, 15, 1, 4, 0]))) = true := by decide +kernel

/-- Tag word of slot 5, epoch 3, attempt 1: 5·2^23 + 3·2^19 + 2^16 is 0x02990000. -/
def ackBody : List Byte := [0x10, 0, 1, 0x02, 0x99, 0, 0]

/-- Figure 8-1, step 6: DELIVERED on attempt 1 over {2, 3} settles at 1,159, and last-seen becomes zone 3. -/
theorem test_pagerAck :
    runs (.pagerAck 3 ackBody) (waiting 1 12 15) (fun t =>
      decide ((t.message 5).map Message.closing = some (some ⟨.delivered, 1159⟩)
        ∧ (t.entry 12).map (fun e => (e.balance, e.lastSeen)) = some (-1159, some ⟨3, 40000⟩))) = true := by decide +kernel

/-- Figure 8-2, tick 231: LATE. -/
theorem test_pagerAck_late :
    runs (.pagerAck 3 [0x10, 0, 1, 0x02, 0x98, 0, 0]) closedState (fun t =>
      decide ((t.port 3).events = [⟨.lateAck, 12, 83, 40000⟩] ∧ t.messages = closedState.messages)) = true := by decide +kernel

/-- Figure 1-1, step 4. -/
theorem test_pagerLocate :
    runs (.pagerLocate 4 [0x10, 0, 1]) office (fun t =>
      decide ((t.entry 12).map Entry.lastSeen = some (some ⟨4, 40000⟩))) = true := by decide +kernel

/-! ## Accounts, journal and sweep -/

theorem test_accountRead :
    runs (.accountRead 1 [0, 12]) (holding (page [⟨0, 4, 4, 0, none⟩])) (fun t =>
      decide (answer 1 t = some (.ok, [1, 0, 0, 0, 0, 0, 0, 0, 0x13, 0x88, 0, 0, 0x05, 0x30, 1, 0, 0, 0, 0x0E, 0x58])))
      = true := by decide +kernel

/-- Figure 2-6: +5,000 from the floor; and Figure 1-1, step 11, leaves an ADJUST record. -/
theorem test_accountAdjust :
    runs (.accountAdjust 3 [0, 12, 0, 0, 0x13, 0x88, 7]) (office.setEntry 12 { entry12 with balance := -2147483648 })
      (fun t =>
        decide ((t.entry 12).map Entry.balance = some (-2147478648)
          ∧ t.journal.records = [.adjust ⟨12, 5000, 7, -2147478648, 40000⟩])) = true := by decide +kernel

theorem test_accountAdjust_saturates :
    runs (.accountAdjust 3 [0, 12, 0xFF, 0xFF, 0xFF, 0xFF, 7]) (office.setEntry 12 { entry12 with balance := -2147483648 })
      (fun t => decide ((t.entry 12).map Entry.balance = some (-2147483648))) = true := by decide +kernel

/-- Figure 1-1, step 3. -/
theorem test_accountLimit :
    runs (.accountLimit 3 [0, 12, 0, 0, 0x13, 0x88]) (office.setEntry 12 { entry12 with creditLimit := 0 }) (fun t =>
      decide (t.entry 12 = some entry12 ∧ answer 3 t = some (.ok, [0, 12, 0, 0, 0x13, 0x88]))) = true := by decide +kernel

/-- R152: BARRED with the purge flag closes the open message PURGED at 0. -/
theorem test_accountState_purges :
    runs (.accountState 3 [0, 12, 3, 1]) onAir (fun t =>
      decide ((t.entry 12).map Entry.state = some .barred ∧ (t.message 5).map Message.closing = some (some ⟨.purged, 0⟩)
        ∧ answer 3 t = some (.ok, [0, 12, 3, 1]))) = true := by decide +kernel

/-- A journal of `n` equal ADJUST records under the high water given. -/
def journalOf (n highWater : Nat) (armed : Bool) : Journal :=
  ⟨List.replicate n (.adjust ⟨12, 1, 0, 1, 0⟩), highWater, armed⟩

/-- Figure 9-1, the fetch: fill 769 falls to 765 and the high water is armed. -/
theorem test_journalFetch :
    runs (.journalFetch 3 []) { office with journal := journalOf 769 768 false } (fun t =>
      decide (t.journal.records.length = 765 ∧ t.journal.armed = true
        ∧ (answer 3 t).map (fun a => (a.2.take 3, a.2.length)) = some ([4, 0x02, 0xFD], 99))) = true := by decide +kernel

/-- R148: the fill stands at the new high water, so JOURNAL_HIGH is posted. -/
theorem test_journalConfig :
    runs (.journalConfig 3 [0, 2]) { office with journal := journalOf 2 768 true } (fun t =>
      decide (t.journal.armed = false ∧ (t.port 3).events = [⟨.journalHigh, 0, 2, 40000⟩]
        ∧ answer 3 t = some (.ok, [0, 2, 0]))) = true := by decide +kernel

/-- Figure 9-2, step 1: the low waters are copied. -/
theorem test_sweepStart :
    runs (.sweepStart 3 [1, 64, 0, 200, 1, 1]) { work with plans := bankSet work.plans 5 { Plan.reset with lowWater := 500 } }
      (fun t => decide (t.sweep.mode = .continuous ∧ t.sweep.rate = 64 ∧ bankGet t.sweep.lowWater 5 = 500)) = true := by
  decide +kernel

theorem test_sweepStatus :
    runs (.sweepStatus 1 []) { work with sweep := ⟨.continuous, 64, 200, true, false, Vector.replicate 16 0, 128, 3⟩ }
      (fun t => decide (answer 1 t = some (.ok, [1, 0, 128, 0, 3, 64, 0, 200, 1, 0]))) = true := by decide +kernel

/-! ## Ports, clock and resets -/

/-- Figure 10-1, step 2, with two records queued. -/
theorem test_fetchEvents :
    runs (.fetchEvents 3 []) (work.setPort 3
        { Port.reset .accounts with events := [⟨.creditLow, 4100, 200, 7⟩, ⟨.creditExhausted, 4102, -50, 8⟩], lost := true })
      (fun t =>
        decide (answer 3 t = some (.ok,
            [2, 0, 1, 0x10, 0x10, 0x04, 0, 0, 0, 200, 0, 0, 0, 7, 0x11, 0x10, 0x06, 0xFF, 0xFF, 0xFF, 0xCE, 0, 0, 0, 8])
          ∧ (t.port 3).lost = false ∧ (t.port 3).events = [])) = true := by decide +kernel

theorem test_setRole_lastSupervisor :
    runs (.setRole 0 [0, 1]) work (fun t => decide (answer 0 t = some (.lastSupervisor, []) ∧ (t.port 0).role = .supervisor))
      = true := by decide +kernel

theorem test_setRole :
    runs (.setRole 0 [3, 0]) work (fun t => decide (answer 0 t = some (.ok, [0, 1, 2, 0]))) = true := by decide +kernel

/-- R162, R165: the answer waits the gap as it stood at the taking. -/
theorem test_portConfig :
    runs (.portConfig 0 [0, 15]) work (fun t =>
      decide ((t.port 0).gap = 15 ∧ (t.port 0).answer.map Answer.gap = some 4)) = true := by decide +kernel

theorem test_portRead :
    runs (.portRead 2 []) closedState (fun t =>
      decide (answer 2 t = some (.ok, [0, 4, 0, 0, 0, 0, 1, 4, 0, 0, 0, 1, 2, 4, 0, 0, 0, 0, 3, 4, 0, 0, 0, 0]))) = true := by
  decide +kernel

theorem test_unknownCommand :
    runs (.unknownCommand 1 0x7F [1, 2]) work (fun t => decide (answer 1 t = some (.unknownCommand, []))) = true := by
  decide +kernel

theorem test_commandFrameBadCrc :
    runs (.commandFrameBadCrc 1 [0, 0x68, 0, 0]) work (fun t => decide (t = work)) = true := by decide +kernel

theorem test_frameAbandoned :
    runs (.frameAbandoned 1) (work.setPort 1 { Port.reset .intake with receiver := .receiving }) (fun t =>
      decide ((t.port 1).receiver = .listening)) = true := by decide +kernel

/-- Nine bytes of ten bits each: START, LENGTH, STATUS, four bytes of clock and the CRC. -/
theorem test_turnAroundGapExpiry :
    runs (.turnAroundGapExpiry 1) (after (.readClock 1 []) work) (fun t =>
      decide ((t.port 1).receiver = .sending ∧ answer 1 t = some (.ok, [0, 0, 0, 0]) ∧ (t.port 1).unsent.length = 90
        ∧ (t.port 1).txd.take 10 = characterBits 0x3C)) = true := by decide +kernel

/-- A port sending a response, that of an OFFICE_RESET as `reset` says, with nothing left to drive. -/
def sending (reset : Bool) : State :=
  work.setPort 0 { Port.reset .supervisor with receiver := .sending, answer := some ⟨⟨.ok, []⟩, 4⟩, resetAfter := reset }

/-- The same port with three bits of the byte 0x55 driven and one byte after it. -/
def midByte (reset : Bool) : State :=
  (sending reset).setPort 0 { (sending reset).port 0 with unsent := (characterBits 0x55).drop 3 ++ characterBits 0xFF }

/-- R159, R162: one bit time, and the stop bit that ends the response. -/
theorem test_txdBit :
    ((midByte true).txdBit 0 |>.port 0).unsent = (characterBits 0x55).drop 4 ++ characterBits 0xFF
      ∧ ((Nat.iterate (State.txdBit 0) 17 (midByte true)).port 0).receiver = .listening
      ∧ (Nat.iterate (State.txdBit 0) 17 (midByte true)).resetDue = true
      ∧ ((Nat.iterate (State.txdBit 0) 17 (midByte true)).port 0).txd = [true] := by decide +kernel

theorem test_responseSent :
    runs (.responseSent 0) (sending true) (fun t =>
      decide ((t.port 0).receiver = .listening ∧ answer 0 t = none ∧ t.resetDue = true)) = true := by decide +kernel

/-- R163 and Figure 10-1, step 3: the seven bits left of the byte on the line are driven, and then the line idles. -/
theorem test_lineBreak :
    runs (.lineBreak 0) (midByte false) (fun t =>
      decide ((t.port 0).receiver = .listening ∧ t.resetDue = false ∧ (t.port 0).txd = (characterBits 0x55).drop 3
        ∧ ((Nat.iterate (State.txdBit 0) 7 t).port 0).txd = [true])) = true := by
  decide +kernel

/-- R162, R163: a break right after the entry to SENDING finishes the first byte of the response. -/
theorem test_lineBreak_firstByte :
    runs (.lineBreak 1) (after (.turnAroundGapExpiry 1) (after (.readClock 1 []) work)) (fun t =>
      decide ((t.port 1).receiver = .listening ∧ (t.port 1).txd = characterBits 0x3C)) = true := by
  decide +kernel

/-- Figure 11-1, step 5. -/
theorem test_readClock :
    runs (.readClock 0 []) work (fun t => decide (answer 0 t = some (.ok, [0, 0, 0, 0]))) = true := by decide +kernel

/-- Figure 11-1, step 3: the pass is running. -/
theorem test_readClock_starting :
    runs (.readClock 0 []) State.reset (fun t => decide (answer 0 t = some (.starting, []))) = true := by decide +kernel

theorem test_clockSet :
    runs (.clockSet 0 [0, 0, 0x9C, 0x40]) work (fun t =>
      decide (t.clock = 40000 ∧ answer 0 t = some (.ok, [0, 0, 0, 0, 0, 0, 0x9C, 0x40]))) = true := by decide +kernel

theorem test_officeReset :
    runs (.officeReset 0 []) work (fun t => decide ((t.port 0).resetAfter = true ∧ t.resetDue = false)) = true := by
  decide +kernel

theorem test_officeResetTakesEffect :
    runs (.officeResetTakesEffect true false) { office with resetDue := true } (fun t =>
      decide (t = { State.reset with straps := ⟨true, false⟩ })) = true := by decide +kernel

theorem test_powerOn :
    runs (.powerOn false true) office (fun t => decide (t = { State.reset with straps := ⟨false, true⟩ })) = true := by
  decide +kernel

theorem test_resetNLow :
    runs (.resetNLow false false) office (fun t => decide (t = { State.reset with phase := .held })) = true := by decide +kernel

theorem test_resetNHigh :
    runs .resetNHigh { State.reset with phase := .held } (fun t => decide (t = State.reset)) = true := by decide +kernel

theorem test_initialisationPassEnd :
    runs .initialisationPassEnd State.reset (fun t => decide (t.phase = .working ∧ (t.zone 7).batchTimer = 50)) = true := by
  decide +kernel

/-- R135: the tick that takes a retry timer to 0 takes the expiry, and a frozen timer neither counts nor expires. -/
theorem test_tick :
    (runs .tick (waiting 0 4 10) (fun t =>
      decide ((t.message 5).map Message.retryTimer = some (some 9) ∧ (t.zone 0).batchTimer = 49
        ∧ (t.link 2).silenceTimer = some 39 ∧ t.secondDivider = 1)) = true)
      ∧ (runs .tick (waiting 0 4 1) (fun t =>
        decide ((t.message 5).map (fun m => (m.attempts, m.retryTimer))
            = some ([⟨0, 4, 0, 4, some 40010⟩, ⟨1, 12, 12, 0, none⟩], none)
          ∧ (t.zone 3).queue = [⟨5, 3, 1, 18, 2, 0⟩])) = true)
      ∧ runs .tick (after (.airHold 0 []) (waiting 0 4 1)) (fun t =>
        decide ((t.message 5).map Message.retryTimer = some (some 1))) = true := by decide +kernel

/-- Figure 9-2, step 8: the visit of a SINGLE sweep suspends and posts two events. -/
theorem test_tick_sweeps :
    runs .tick
      { office with
        directory := [(12, { entry12 with balance := -50, creditLimit := 0, low := true })]
        sweep := { Sweep.reset with mode := .single, single := 12, position := 12, autoSuspend := true
                                    lowWater := Vector.replicate 16 500 } }
      (fun t =>
        decide ((t.entry 12).map Entry.state = some (.suspended .sweep)
          ∧ (t.port 3).events = [⟨.creditExhausted, 12, -50, 40000⟩, ⟨.accountSuspended, 12, 2, 40000⟩])) = true := by
  decide +kernel

/-- R81: the second that takes the life to 0 closes the message EXPIRED in the same step. -/
theorem test_oneSecondStep_expires :
    runs .oneSecondStep { holding { page [⟨0, 4, 4, 0, none⟩] with life := 1 } with secondDivider := 10 } (fun t =>
      decide ((t.message 5).map (fun m => (m.life, m.closing)) = some (0, some ⟨.expired, 0⟩)
        ∧ (t.port 1).outcomes = [5])) = true := by decide +kernel

theorem test_oneSecondStep_wraps :
    runs .oneSecondStep { holding (page []) with clock := 0xFFFFFFFF, secondDivider := 10 } (fun t =>
      decide (t.clock = 0 ∧ (t.message 5).map Message.life = some 3599)) = true := by decide +kernel

/-! ## Witnesses: concrete states and operands that meet the hypotheses of a statement, clause by clause -/

/-- A port of a working part that is being tested in some receiver state. -/
def portIn (r : Receiver) : State := work.setPort 1 { Port.reset .intake with receiver := r }

theorem witness_CommonChecksComeFirst :
    stationFields (.setRole 1 [0]) = some (1, 0x61, [0]) ∧ (Instr.setRole 1 [0]).wellFormed = true
      ∧ stationFields (.unknownCommand 1 0x7F []) = some (1, 0x7F, []) ∧ (Instr.unknownCommand 1 0x7F []).wellFormed = true
      ∧ ({ work with phase := .held } : State).phase = .held ∧ ((portIn .gap).port 1).receiver = .gap
      ∧ ((portIn .sending).port 1).receiver = .sending ∧ State.reset.phase = .starting ∧ rolesOfCode 0x7F = none
      ∧ rolesOfCode 0x61 = some [.supervisor] ∧ (work.port 1).role ∉ [Role.supervisor]
      ∧ (work.port 0).role ∈ [Role.supervisor] ∧ ¬ bodyFormOf 0x61 [0] ∧ ¬ bodyFormOf 0x30 [0, 0, 0, 0, 0, 0, 0]
      ∧ ¬ bodyFormOf 0x25 [4, 0, 0, 0, 0, 0, 0] := by
  unfold bodyFormOf; decide +kernel

theorem witness_FramesAndBlocksSpellTheirEvents :
    stationFields (.submit 1 (List.replicate 255 0)) = some (1, 0x30, List.replicate 255 0)
      ∧ (Instr.submit 1 (List.replicate 255 0)).wellFormed = true
      ∧ stationFields (.unknownCommand 0 0 []) = some (0, 0, []) ∧ (Instr.unknownCommand 0 0 []).wellFormed = true
      ∧ linkFields (.capBase 7 [7, 8, 0, 2, 1]) = some (7, 1, [7, 8, 0, 2, 1]) ∧ inboundBodyGood 1 [7, 8, 0, 2, 1] = true
      ∧ linkFields (.idle 0 []) = some (0, 3, []) ∧ inboundBodyGood 3 [] = true := by
  decide +kernel

/-- Frames of an empty and of a full body, and the two bytes of a CRC. -/
theorem witness_FramesAndBlocksSpellTheirEvents_frames :
    (0 : Byte).toNat = ([] : List Byte).length ∧ (255 : Byte).toNat = (List.replicate 255 (0 : Byte)).length
      ∧ [0xF0, (0xA1 : Byte)].length = 2 := by
  decide +kernel

theorem witness_LineEventsMoveTheReceiver :
    work.phase ≠ .held ∧ (work.port 0).receiver = .listening ∧ ((portIn .receiving).port 1).receiver = .receiving
      ∧ ((portIn .gap).port 1).receiver = .gap ∧ ((portIn .sending).port 1).receiver = .sending
      ∧ frameGood [0, 0x68, 0, 0] = false := by
  decide +kernel

/-- The bytes of the shortest and of the longest frame, and a port that sends. -/
theorem witness_LineEventsMoveTheReceiver_bytes :
    4 ≤ [0, 0x68, 0xF0, (0xA1 : Byte)].length
      ∧ [0, 0x68, 0xF0, (0xA1 : Byte)].length = 4 + fieldAt [0, 0x68, 0xF0, 0xA1] 0 1
      ∧ (255 :: List.replicate 258 (0 : Byte)).length = 4 + fieldAt (255 :: List.replicate 258 0) 0 1
      ∧ ((sending false).port 0).receiver = .sending
      ∧ ((sending false).port 0).answer = some ⟨⟨.ok, []⟩, 4⟩
      ∧ [0, 0] = bytesOf 1 ([] : List Byte).length ++ statusCode .ok :: [] := by
  decide +kernel

/-- A response in GAP; a break in the middle of a byte with one byte after it, at the first bit of a byte, and with
nothing to drive. -/
theorem witness_LineEventsMoveTheReceiver_bits :
    ((after (.readClock 1 []) work).port 1).receiver = .gap
      ∧ ((after (.readClock 1 []) work).port 1).answer = some ⟨⟨.ok, [0, 0, 0, 0]⟩, 4⟩
      ∧ ((midByte true).port 0).unsent = (characterBits 0x55).drop 3 ++ characterBits 0xFF
      ∧ ((characterBits 0x55).drop 3).length ≤ 10 ∧ (characterBits 0xFF).length = 10 * 1 ∧ (characterBits 0x55).drop 3 ≠ []
      ∧ ((midByte true).port 0).receiver = .sending ∧ 16 < ((midByte true).port 0).unsent.length
      ∧ ((after (.turnAroundGapExpiry 1) (after (.readClock 1 []) work)).port 1).unsent.length = 10 + 10 * 8
      ∧ (work.port 1).unsent = [] ++ [] ∧ ([] : List Bool).length = 10 * 0 := by
  decide +kernel

/-- Port 3 with a full event queue and its lost flag set. -/
def overflowed : State :=
  work.setPort 3 { Port.reset .accounts with events := List.replicate 32 ⟨.creditLow, 4100, 200, 7⟩, lost := true }

theorem witness_FetchEventsTakesEight :
    overflowed.serves 3 anyRole ∧ 7 < 8 ∧ (overflowed.port 3).events[7]? = some ⟨.creditLow, 4100, 200, 7⟩
      ∧ work.serves 0 anyRole ∧ (work.port 0).events = [] := by
  unfold State.serves; decide +kernel

theorem witness_PortCommands :
    work.serves 0 [.supervisor] ∧ work.serves 3 anyRole
      ∧ 3 < fieldAt [4, 0] 0 1 ∧ 3 < fieldAt [0, 4] 1 1
      ∧ fieldAt [0, 3] 0 1 = (0 : PortId).val ∧ fieldAt [0, 3] 1 1 = (roleCode .accounts).toNat
      ∧ (work.port 0).role = .supervisor ∧ (∀ u : PortId, u ≠ 0 → (work.port u).role ≠ .supervisor)
      ∧ fieldAt [3, 0] 0 1 = (3 : PortId).val ∧ fieldAt [3, 0] 1 1 = (roleCode .supervisor).toNat
      ∧ fieldAt [0, 1] 1 1 < 2 ∧ 15 < fieldAt [0, 16] 1 1
      ∧ fieldAt [3, 2] 0 1 = (3 : PortId).val ∧ 2 ≤ fieldAt [3, 2] 1 1 ∧ fieldAt [0, 15] 1 1 ≤ 15 := by
  unfold State.serves; decide +kernel

/-! ### Subscriber directory and plans -/

/-- Table 1-3 with every field at its upper end. -/
def highWrite : List Byte := [0x1F, 0xFF, 2, 0x3F, 0xFF, 0xFF, 1, 15, 255, 255, 15]

/-- Entry 12 given another address. -/
def moveWrite : List Byte := [0, 12, 1, 0x10, 0, 0x18, 1, 3, 12, 16, 4]

theorem witness_SubscriberWriteWritesTheEntry :
    (office.serves 0 [.supervisor] ∧ highWrite.length = 11
      ∧ readSubscriberWrite highWrite = some ⟨8191, .suspended .accounts, 4194303, .twoWay, 15, 255, 255, 15⟩
      ∧ (∀ i, office.mapped 4194303 = some i → i = 8191)
      ∧ ∀ e, office.entry 8191 = some e → e.address = 4194303 ∨ e.openCount = 0)
    ∧ moveWrite.length = 11 ∧ readSubscriberWrite moveWrite = some ⟨12, .active, 1048600, .twoWay, 3, 12, 16, 4⟩
      ∧ (∀ i, office.mapped 1048600 = some i → i = 12)
      ∧ office.entry 12 = some entry12 ∧ ∀ e, office.entry 12 = some e → e.address = 1048600 ∨ e.openCount = 0 := by
  have h1 : office.serves 0 [.supervisor] := by unfold State.serves; decide +kernel
  have h2 : office.mapped 4194303 = none := by decide +kernel
  have h3 : office.entry 8191 = none := by decide +kernel
  have h4 : office.mapped 1048600 = none := by decide +kernel
  have h5 : office.entry 12 = some entry12 := by decide +kernel
  refine ⟨⟨h1, by decide +kernel, by decide +kernel, ?_, ?_⟩, by decide +kernel, by decide +kernel, ?_, h5, ?_⟩
  · intro i h; rw [h2] at h; cases h
  · intro e h; rw [h3] at h; cases h
  · intro i h; rw [h4] at h; cases h
  · intro e h; rw [h5] at h; cases h; exact .inr rfl

/-- Table 1-3 with every field at its lower end. -/
theorem witness_SubscriberWriteWritesTheEntry_fields :
    ∀ body ∈ [highWrite, [0, 0, 1, 0, 0, 0, 0, 0, 1, 0, 1]],
      fieldAt body 0 2 ≤ 8191 ∧ (fieldAt body 2 1 = 1 ∨ fieldAt body 2 1 = 2) ∧ fieldAt body 3 3 ≤ 4194303
        ∧ fieldAt body 6 1 ≤ 1 ∧ fieldAt body 7 1 ≤ 15 ∧ fieldAt body 8 1 ≠ 0 ∧ 1 ≤ fieldAt body 10 1
        ∧ fieldAt body 10 1 ≤ 15 := by
  decide +kernel

theorem witness_SubscriberWriteRefusals :
    office.serves 0 [.supervisor]
      ∧ fieldAt [0x20, 0, 1, 0, 0, 1, 0, 0, 1, 0, 1] 0 2 > 8191 ∧ fieldAt [0, 0, 3, 0, 0, 1, 0, 0, 1, 0, 1] 2 1 ≠ 1
      ∧ fieldAt [0, 0, 1, 0x40, 0, 0, 0, 0, 1, 0, 1] 3 3 > 4194303 ∧ fieldAt [0, 0, 1, 0, 0, 1, 0, 0, 1, 0, 0] 10 1 = 0
      ∧ (∃ r, readSubscriberWrite [0, 40, 1, 0x10, 0, 1, 1, 3, 12, 16, 4] = some r
        ∧ ∃ i, office.mapped r.address = some i ∧ i ≠ r.index)
      ∧ ∃ r e, readSubscriberWrite moveWrite = some r ∧ queuedState.entry r.index = some e
        ∧ queuedState.mapped r.address = none ∧ e.address ≠ r.address ∧ 0 < e.openCount := by
  refine ⟨by unfold State.serves; decide +kernel, by decide +kernel, by decide +kernel, by decide +kernel, by decide +kernel,
    ⟨⟨40, .active, 1048577, .twoWay, 3, 12, 16, 4⟩, by decide +kernel, 12, by decide +kernel, by decide +kernel⟩,
    ⟨12, .active, 1048600, .twoWay, 3, 12, 16, 4⟩, { entry12 with held := 1328, openCount := 1 }, ?_⟩
  decide +kernel

theorem witness_SubscriberDeleteFreesTheAddress :
    office.serves 0 [.supervisor] ∧ 8191 < fieldAt [0x20, 0] 0 2 ∧ fieldAt [0, 12] 0 2 = (12 : AccountIndex).val
      ∧ office.entry 13 = none ∧ office.entry 12 = some entry12 ∧ entry12.openCount = 0 ∧ entry12.balance = 0
      ∧ queuedState.entry 12 = some { entry12 with held := 1328, openCount := 1 }
      ∧ (office.setEntry 12 { entry12 with balance := -1159 }).entry 12 = some { entry12 with balance := -1159 } := by
  unfold State.serves; decide +kernel

theorem witness_SubscriberReadShowsTheEntry :
    office.serves 2 anyRole ∧ fieldAt [0, 12] 0 2 = (12 : AccountIndex).val ∧ office.entry 12 = some entry12
      ∧ fieldAt [0x1F, 0xFF] 0 2 = (8191 : AccountIndex).val ∧ office.entry 8191 = none ∧ 8191 < fieldAt [0x20, 0] 0 2 := by
  unfold State.serves; decide +kernel

theorem witness_PlanWriteAndPlanRead :
    work.serves 3 [.accounts, .supervisor] ∧ plan3Body.length = 35 ∧ fieldAt plan3Body 0 1 = (3 : PlanIndex).val
      ∧ planAt plan3Body = plan3 ∧ 15 < fieldAt (plan3Body.set 0 16) 0 1 ∧ office.serves 1 anyRole ∧ 15 < fieldAt [16] 0 1
      ∧ fieldAt [3] 0 1 = (3 : PlanIndex).val ∧ office.plan 3 = plan3 := by
  unfold State.serves; decide +kernel

/-- Plan 3 is in range; with 4 repeats it is not. -/
theorem witness_PlanWriteAndPlanRead_legal : plan3.legal ∧ ¬ (planAt (plan3Body.set 23 4)).legal := by
  refine ⟨by unfold Plan.legal; decide +kernel, fun h => ?_⟩
  obtain ⟨-, -, -, -, -, -, -, -, -, -, -, -, -, h, -⟩ := h
  revert h
  decide +kernel

theorem witness_WordCountByClass : 0 ≤ maxLength .tone ∧ 96 ≤ maxLength .numeric ∧ 240 ≤ maxLength .text := by decide

theorem witness_AttemptChargeByItsStages :
    (plan3.snapshot .text 2 .twoWay none).legal ∧ 80 ≤ 80 ∧ 1 ≤ 8 ∧ 8 ≤ 8 ∧ 0 ≤ 7 ∧ 7 ≤ 7 := by
  unfold TariffSnapshot.legal; decide +kernel

theorem witness_SettlementNeverExceedsTheHold :
    let m := page [⟨0, 4, 0, 4, some 40010⟩, ⟨1, 12, 0, 12, some 40020⟩]
    m.tariff.legal ∧ m.hold = holdAmount m.tariff m.kind m.payload m.reach ∧ 1 ≤ zoneCount m.reach
      ∧ (∀ a ∈ m.attempts, zoneCount a.sent ≤ zoneCount m.reach) ∧ 4 ≤ effectiveRetries m.tariff m.kind := by
  unfold TariffSnapshot.legal; decide +kernel

/-- Attempt 1 and attempt 0 found among two; an empty and a full sent set; a transmitted attempt, and none. -/
theorem witness_SettlementNeverExceedsTheHold_amounts :
    (page [⟨0, 4, 0, 4, some 40010⟩, ⟨1, 12, 12, 0, none⟩]).attempts
        = [⟨0, 4, 0, 4, some 40010⟩] ++ ⟨1, 12, 12, 0, none⟩ :: []
      ∧ (∀ b ∈ [(⟨0, 4, 0, 4, some 40010⟩ : Attempt)], b.number ≠ (⟨1, 12, 12, 0, none⟩ : Attempt).number)
      ∧ (⟨1, 12, 12, 0, none⟩ : Attempt).sent = 0
      ∧ (page [⟨0, 255, 0, 255, some 40010⟩]).attempts = [] ++ ⟨0, 255, 0, 255, some 40010⟩ :: []
      ∧ (⟨0, 255, 0, 255, some 40010⟩ : Attempt).number = 0 ∧ zoneCount (⟨0, 255, 0, 255, some 40010⟩ : Attempt).sent = 8
      ∧ (∃ a ∈ (page [⟨0, 4, 0, 4, some 40010⟩]).attempts, a.transmitted.isSome)
      ∧ (∀ a ∈ (page [⟨0, 4, 4, 0, none⟩]).attempts, a.transmitted = none)
      ∧ MsgOutcome.missed ≠ .delivered ∧ MsgOutcome.missed ≠ .sent := by
  decide +kernel

/-! ### Classifier and admission -/

theorem witness_ClassifierWritesReplaceOneItem :
    work.serves 0 [.supervisor] ∧ entry0Body.length = 32 ∧ fieldAt entry0Body 0 1 = (0 : Fin 64).val
      ∧ 63 < fieldAt (entry0Body.set 0 64) 0 1 ∧ (1 :: List.replicate 16 (0 : Byte)).length = 17
      ∧ fieldAt (1 :: List.replicate 16 0) 0 1 ≤ 1 ∧ 1 < fieldAt (2 :: List.replicate 16 0) 0 1
      ∧ fieldAt [3, 2, 23, 0] 0 1 = (3 : Fin 4).val ∧ fieldAt [3, 2, 23, 0] 1 1 = 2 ∧ fieldAt [3, 2, 23, 0] 2 1 ≤ 23
      ∧ fieldAt [3, 2, 23, 0] 3 1 ≤ 23 ∧ 3 < fieldAt [4, 2, 23, 0] 0 1 ∧ 3 < fieldAt [3, 4, 23, 0] 1 1
      ∧ 23 < fieldAt [3, 2, 24, 0] 2 1 := by
  unfold State.serves; decide +kernel

/-- The action of entry 0, the one of zeros, and a chain above 63. -/
theorem witness_ClassifierWritesReplaceOneItem_ranges :
    actionInRange entry0Body 16 ∧ actionInRange (1 :: List.replicate 16 0) 1
      ∧ ¬ actionInRange (entry0Body.set 31 64) 16 := by
  refine ⟨by unfold actionInRange; decide +kernel, by unfold actionInRange; decide +kernel,
    by unfold actionInRange; decide +kernel⟩

/-- An action with every field at its upper end and every optional field present, and the action that its bytes carry. -/
theorem witness_ClassifierWritesReplaceOneItem_action :
    actionInRange [2, 15, 0x1F, 0xFF, 1, 3, 255, 1, 1, 0xFF, 0xFF, 1, 7, 1, 15, 63] 0
      ∧ Action.carriedBy ⟨.forward, 15, 8191, some 3, some 255, true, some 65535, some 7, some 15, 63⟩
        [2, 15, 0x1F, 0xFF, 1, 3, 255, 1, 1, 0xFF, 0xFF, 1, 7, 1, 15, 63] 0 := by
  refine ⟨by unfold actionInRange; decide +kernel, ?_, ?_, ?_, ?_, ?_, ?_, ?_, ?_, ?_, ?_⟩ <;> decide +kernel

theorem witness_ClassifierReadsGiveBackTheItem :
    work.serves 1 anyRole ∧ 65 < fieldAt [66] 0 1 ∧ fieldAt [63] 0 1 = (63 : Fin 64).val
      ∧ (bankGet work.classifier 63).action.legal ∧ fieldAt [64] 0 1 = 64 ∧ work.firstDefault.legal
      ∧ fieldAt [65] 0 1 = 65 ∧ work.secondDefault.legal := by
  have h : Action.reset.legal := ⟨by decide, by simp [Action.reset], by simp [Action.reset]⟩
  have h1 : (bankGet work.classifier 63).action = Action.reset := by decide +kernel
  have h2 : work.firstDefault = Action.reset := by decide +kernel
  have h3 : work.secondDefault = Action.reset := by decide +kernel
  refine ⟨by unfold State.serves; decide +kernel, by decide, by decide, h1 ▸ h, by decide, h2 ▸ h, by decide, h3 ▸ h⟩

/-- Entry 63 matches every key; entry 0 none. -/
def catchAll : State := { work with classifier := bankSet work.classifier 63 { ClassifierEntry.reset with valid := true } }

theorem witness_LowestMatchingEntryWins :
    (∀ i, (bankGet work.classifier i).matchesKey 0 = false) ∧ (bankGet catchAll.classifier 63).matchesKey 0 = true
      ∧ ∀ j, j < 63 → (bankGet catchAll.classifier j).matchesKey 0 = false := by
  decide +kernel

/-- An action that refuses, with one that does not, as the winner of the FIRST lookup; and a character that is carried
beside one that is not. -/
theorem witness_LowestMatchingEntryWins_actions :
    (({ work with firstDefault := { Action.reset with disposition := .refuse, reason := 5 } } : State).classify
        ⟨1, 7, .text, 2, entry12, []⟩).first.2.disposition = .refuse
      ∧ (work.classify ⟨1, 7, .text, 2, entry12, []⟩).first.2.disposition = .pass
      ∧ 95 < 96 ∧ (List.replicate 97 (69 : Byte))[95]? = some 69 ∧ 40000 / 3600 % 24 = (40000 : Clock).toNat / 3600 % 24 := by
  decide +kernel

theorem witness_ProbeReportsTheClassification :
    office.serves 1 [.intake, .supervisor] ∧ 7 ≤ [1, 0, 12, 2, 3, 40, (0 : Byte)].length
      ∧ [1, 0, 12, 2, 3, 40, (0 : Byte)].length = 7 + fieldAt [1, 0, 12, 2, 3, 40, 0] 6 1
      ∧ fieldAt [3, 0x1F, 0xFF, 2, 3, 40, 0] 1 2 ≤ 8191 ∧ fieldAt [1, 0, 12, 2, 3, 40, 0] 3 1 ≤ 2
      ∧ fieldAt [1, 0, 12, 2, 3, 40, 0] 4 1 ≤ 3 ∧ office.entry 12 = some entry12
      ∧ office.entry 13 = none := by
  unfold State.serves; decide +kernel

theorem witness_ProbeReportsTheClassification_range :
    8191 < fieldAt [1, 0x20, 0, 2, 3, 40, 0] 1 2 ∧ 2 < fieldAt [1, 0, 12, 3, 3, 40, 0] 3 1
      ∧ 3 < fieldAt [3, 0, 12, 2, 4, 40, 0] 4 1 ∧ fieldAt [3, 0, 12, 2, 4, 40, 0] 0 1 ≤ 3 := by
  decide +kernel

theorem witness_RefusedSubmitChangesNothing : office.serves 1 [.intake, .supervisor] := by
  unfold State.serves; decide +kernel

/-- What the SUBMIT of Figure 4-1 carries. -/
def req12 : SubmitReq := ⟨12, .text, 2, 0, 7, List.replicate 47 65⟩

/-- The merged action of a part whose classifier stands as after reset. -/
def mergedPass : Merged := ⟨.pass, none, none, false, none, none, none⟩

theorem witness_AcceptedSubmitTakesTheSlot :
    office.serves 1 [.intake, .supervisor] ∧ bodyFormOf 0x30 submitBody ∧ readSubmit submitBody = some req12
      ∧ office.entry req12.billed = some entry12
      ∧ mergedPass = (office.classify ⟨1, req12.line, req12.cls, req12.priority, entry12,
          (normalise req12.cls req12.text).text⟩).merged
      ∧ mergedPass.disposition = .pass
      ∧ office.admissionRefusal (office.deriveAdmission req12 entry12 (normalise req12.cls req12.text) mergedPass
          req12.billed entry12 false) = none
      ∧ office.message 0 = none ∧ ∀ j, j < 0 → office.message j ≠ none := by
  unfold State.serves bodyFormOf
  refine ⟨by decide +kernel, by decide +kernel, by decide +kernel, by decide +kernel, by decide +kernel, by decide +kernel,
    by decide +kernel, by decide +kernel, fun j h => absurd h (Fin.not_lt_zero j)⟩

/-- Entry 12 as the ninth, eighth and seventh check find it. -/
def barred12 : Entry := { entry12 with state := .barred }
def suspended12 : Entry := { entry12 with state := .suspended .accounts }
def full12 : Entry := { entry12 with openCount := 4 }
def spent12 : Entry := { entry12 with held := 3968, openCount := 2 }

/-- The office with its FIRST default as given. -/
def defaulting (a : Action) : State := { office with firstDefault := a }

/-- An office with congestion in zone 2, the only zone of the page's coverage. -/
def congested2 : State := office.setZone 2 { Zone.reset with congested := true }

/-- The office with its 512 slots in use. -/
def storeFull : State := { office with messages := (List.finRange 512).map fun slot => (slot, page []) }

/-- What the page of Figure 4-1, or the body given, is answered in a state whose classifier stands as after reset. -/
theorem witness_RefusedSubmitChangesNothing_checks :
    ¬ bodyFormOf 0x30 (submitBody ++ [65]) ∧ bodyFormOf 0x30 submitBody
      ∧ 8191 < fieldAt (submitBody.set 0 0x20) 0 2 ∧ 2 < fieldAt (submitBody.set 2 3) 2 1
      ∧ 3 < fieldAt (submitBody.set 3 4) 3 1 ∧ readSubmit submitBody = some req12
      ∧ (work.entry req12.billed = none)
      ∧ ((defaulting { Action.reset with disposition := .refuse, reason := 5 }).classify
          ⟨1, 7, .text, 2, entry12, (normalise .text req12.text).text⟩).merged.disposition = .refuse 5
      ∧ ((defaulting { Action.reset with disposition := .forward, target := 13 }).classify
          ⟨1, 7, .text, 2, entry12, (normalise .text req12.text).text⟩).merged.disposition = .forward 13
      ∧ office.entry 13 = none := by
  unfold bodyFormOf; decide +kernel

/-- A state of the office, with the body of a SUBMIT and what it is answered. -/
theorem witness_RefusedSubmitChangesNothing_states :
    ∀ c ∈ ([
        (office, submitBody ++ [65], .format, []), (office, submitBody.set 0 0x20, .range, []),
        (office, submitBody.set 1 13, .noSubscriber, []),
        (defaulting { Action.reset with disposition := .refuse, reason := 5 }, submitBody, .classified, [5]),
        (defaulting { Action.reset with disposition := .forward, target := 13 }, submitBody, .forwardInvalid, []),
        (office.setEntry 12 barred12, submitBody, .barred, []), (office.setEntry 12 suspended12, submitBody, .suspended, []),
        (office.setEntry 12 full12, submitBody, .outstanding, []), (storeFull, submitBody, .storeFull, []),
        ({ office with journal := journalOf 1024 768 false }, submitBody, .journalFull, []),
        (congested2, submitBody.set 3 0, .congested, []), (office.setEntry 12 spent12, submitBody.set 3 1, .credit, [])] :
        List (State × List Byte × Status × List Byte)),
      c.1.phase = .working ∧ answer 1 (after (.submit 1 c.2.1) c.1) = some (c.2.2.1, c.2.2.2) := by
  decide +kernel

/-- An office whose links are OFF. -/
def unlinked : State := { work with directory := [(12, { entry12 with creditLimit := 16777215 })], addressMap := [(1048577, 12)] }

/-- The admission of the page of Figure 4-1 at a priority, under entry 12 as given. -/
def admission (s : State) (e : Entry) (priority : Priority) : Admission :=
  s.deriveAdmission { req12 with priority := priority } e (normalise .text req12.text)
    (s.classify ⟨1, 7, .text, priority, e, (normalise .text req12.text).text⟩).merged 12 e false

/-- A page of priority 3 whose batch is formed at once, and a page that finds no zone of its coverage UP. -/
theorem witness_AcceptedSubmitTakesTheSlot_zones :
    (readSubmit (submitBody.set 3 3) = some { req12 with priority := 3 }
      ∧ office.admissionRefusal (admission office entry12 3) = none ∧ (admission office entry12 3).priority = 3
      ∧ office.airHold = false ∧ (office.link 2).profile.isSome
      ∧ zoneIn 2 ((admission office entry12 3).coverage &&& office.upZones) = true
      ∧ zoneIn 3 ((admission office entry12 3).coverage &&& office.upZones) = false)
    ∧ unlinked.entry 12 = some { entry12 with creditLimit := 16777215 }
    ∧ unlinked.admissionRefusal (admission unlinked { entry12 with creditLimit := 16777215 } 2) = none
    ∧ (admission unlinked { entry12 with creditLimit := 16777215 } 2).coverage &&& unlinked.upZones = 0 := by
  decide +kernel

/-! ### Message store and zone dispatcher -/

theorem witness_CancelClosesTheMessage :
    onAir.serves 1 anyRole ∧ 511 < fieldAt [2, 0, 0] 0 2 ∧ 15 < fieldAt [0, 0, 16] 2 1
      ∧ fieldAt [0, 5, 3] 0 2 = (5 : SlotId).val ∧ fieldAt [0, 5, 3] 2 1 = (3 : Epoch).toNat ∧ onAir.epoch 5 = 3
      ∧ onAir.message 5 = some (page [⟨0, 4, 4, 0, none⟩]) ∧ onAir.epoch 5 ≠ 15 ∧ onAir.message 511 = none
      ∧ closedState.serves 1 anyRole ∧ closedState.epoch 5 = 3 ∧ closedState.message 5 = some cancelledPage
      ∧ onAir.serves 2 anyRole ∧ (2 : PortId) ≠ (page []).port ∧ (onAir.port 2).role ≠ .supervisor := by
  unfold State.serves; decide +kernel

/-- A message in the last second of its life. -/
def dying (kind : PagerKind) (attempts : List Attempt) : Message := { page attempts with kind := kind, life := 1 }

theorem witness_LifeExpiryClosesTheMessage :
    ∀ m ∈ [dying .twoWay [⟨0, 4, 4, 0, none⟩], dying .oneWay [⟨0, 4, 0, 4, some 7⟩]],
      ∀ s, s = { holding m with secondDivider := 10 } →
        s.phase = .working ∧ s.dueLife = some 5 ∧ s.message 5 = some m ∧ m.closing = none := by
  intro m hm s hs
  subst hs
  revert m
  decide +kernel

/-- The tables of the office with one message in slot 5 are in canonical form. -/
theorem canonical_holding (m : Message) : (holding m).canonical :=
  ⟨by unfold tblSorted; exact List.pairwise_singleton _ _, by unfold tblSorted; exact List.pairwise_singleton _ _,
    by unfold tblSorted; exact List.pairwise_singleton _ _, by unfold tblSorted; exact List.pairwise_singleton _ _,
    fun q hq => by rw [List.mem_singleton.mp hq]; decide⟩

theorem witness_LifeExpiryClosesTheMessage_due :
    (holding (page [])).canonical ∧ (holding (page [])).dueLife ≠ some 5
      ∧ ({ holding { page [] with life := 1 } with secondDivider := 9 } : State).dueLife ≠ some 5 :=
  ⟨canonical_holding _, by decide +kernel, by decide +kernel⟩

theorem witness_FetchOutcomesFreesTheSlots :
    closedState.serves 1 [.intake, .supervisor] ∧ (closedState.port 1).outcomes.Nodup
      ∧ 5 ∈ (closedState.port 1).outcomes.take 6 ∧ 6 ∉ (closedState.port 1).outcomes.take 6 := by
  unfold State.serves; decide +kernel

theorem witness_FetchOutcomesFreesTheSlots_records :
    (∀ slot ∈ (closedState.port 1).outcomes, (closedState.message slot).isSome)
      ∧ (closedState.port 1).outcomes[0]? = some 5 ∧ closedState.message 5 = some cancelledPage
      ∧ cancelledPage.closing = some ⟨.cancelled, 0⟩ := by
  decide +kernel

theorem witness_MessageReadsShowTheSlot :
    queuedState.serves 2 [.intake, .dispatch, .supervisor] ∧ fieldAt [0, 5, 3] 0 2 = (5 : SlotId).val
      ∧ fieldAt [0, 5, 3] 2 1 = (3 : Epoch).toNat ∧ queuedState.epoch 5 = 3
      ∧ queuedState.message 5 = some (page [⟨0, 4, 4, 0, none⟩])
      ∧ fieldAt [1, 255, 0] 0 2 = (511 : SlotId).val ∧ queuedState.message 511 = none := by
  unfold State.serves; decide +kernel

/-- RANGE, a port of another role, and each slot state of an open message. -/
theorem witness_MessageReadsShowTheSlot_states :
    queuedState.serves 3 anyRole ∧ (queuedState.port 3).role = .accounts ∧ 511 < fieldAt [2, 0, 0] 0 2
      ∧ 15 < fieldAt [0, 5, 16] 2 1 ∧ queuedState.slotState 5 = .queued ∧ onAir.slotState 5 = .onAir
      ∧ (waiting 0 4 10).slotState 5 = .wait ∧ stalledState.slotState 5 = .stalled ∧ closedState.slotState 5 = .closed
      ∧ (∀ a ∈ [⟨0, 4, 4, 0, none⟩, ⟨0, 4, 0, 4, some 40010⟩, ⟨0, 4, 0, 0, none⟩], (page [a]).lastAttempt = some a)
      ∧ queuedState.message 6 = none := by
  unfold State.serves; decide +kernel

theorem witness_MessageReadsShowTheSlot_fields :
    (page [⟨0, 4, 4, 0, none⟩]).attempts[0]? = some ⟨0, 4, 4, 0, none⟩ ∧ closedState.message 5 = some cancelledPage
      ∧ closedState.epoch 5 = 3 ∧ (waiting 0 4 10).slotState 5 = .wait
      ∧ ((waiting 0 4 10).message 5).bind Message.retryTimer = some 10 := by
  decide +kernel

theorem witness_ZoneConfigAndReadZone :
    work.serves 2 [.dispatch, .supervisor] ∧ (readZoneConfig [7, 60, 255, 255, 0, 40, 2, 88, 1, 8, 0, 0, 0]).isSome
      ∧ readZoneConfig [7, 61, 255, 255, 0, 40, 2, 88, 1, 8, 0, 0, 0] = none ∧ work.serves 1 anyRole
      ∧ 7 < fieldAt [8] 0 1 ∧ fieldAt [7] 0 1 = (7 : ZoneId).val ∧ (onAir.zone 2).inFlight.isSome
      ∧ (onAir.zone 7).inFlight = none := by
  unfold State.serves; decide +kernel

/-- Table 6-3, at both ends of each range and just outside. -/
theorem witness_ZoneConfigAndReadZone_ranges :
    (∀ body ∈ [[7, 60, 255, 255, 0, 40, 2, 88, 1, 8, 0, 255, 255], [7, 1, 0, 0, 0, 0, 0, 10, 7, 0, 96, 0, (0 : Byte)]],
      body.length = 13 ∧ fieldAt body 0 1 = (7 : ZoneId).val ∧ 1 ≤ fieldAt body 1 1 ∧ fieldAt body 1 1 ≤ 60
        ∧ 10 ≤ fieldAt body 6 2 ∧ fieldAt body 6 2 ≤ 600 ∧ fieldAt body 8 1 % 8 ≠ 0 ∧ 96 ≤ fieldAt body 9 2
        ∧ fieldAt body 9 2 ≤ 2048)
    ∧ (7 < fieldAt [8, 1] 0 1 ∧ fieldAt [7, 0] 1 1 = 0 ∧ 60 < fieldAt [7, 61] 1 1 ∧ fieldAt [0, 9] 0 2 < 10
      ∧ 600 < fieldAt [2, 89] 0 2 ∧ fieldAt [8] 0 1 % 8 = 0 ∧ fieldAt [0, 95] 0 2 < 96 ∧ 2048 < fieldAt [8, 1] 0 2)
    ∧ (queuedState.zone 2).queue = queued5 :: [] ∧ (office.zone 2).queue = []
    ∧ (onAir.zone 2).inFlight = some ⟨17, 96, .mid, [⟨queued5, false⟩], 18, 52⟩ := by
  decide +kernel

/-- The office under the air hold with a priority-3 entry first in zone 2's queue. -/
def held3 : State :=
  { office with airHold := true }.setZone 2 { Zone.reset with queue := [⟨6, 0, 0, 2, 3, 0⟩], nextSeq := 1 }

theorem witness_AirHoldAndRelease :
    office.serves 2 [.dispatch, .supervisor] ∧ office.airHold = false ∧ held3.serves 2 [.dispatch, .supervisor]
      ∧ held3.airHold = true ∧ (held3.zone 3).queue = [] ∧ (held3.zone 2).queue = [⟨6, 0, 0, 2, 3, 0⟩]
      ∧ (held3.link 2).state = .up ∧ (held3.link 2).profile.isSome ∧ (held3.zone 2).inFlight = none := by
  unfold State.serves; decide +kernel

theorem witness_TheWalkFillsTheBatch : [queued5] = queued5 :: [] ∧ 2 ≤ 18 ∧ queued5.words ≤ 18 := by decide

/-- Figure 6-1: B and D are passed over, C and E are taken. -/
theorem witness_TheWalkFillsTheBatch_turns :
    let a : QueueEntry := ⟨20, 0, 0, 82, 2, 101⟩
    let b : QueueEntry := ⟨21, 0, 0, 18, 1, 98⟩
    let c : QueueEntry := ⟨22, 0, 0, 4, 1, 103⟩
    let d : QueueEntry := ⟨23, 0, 0, 12, 0, 99⟩
    let e : QueueEntry := ⟨24, 0, 0, 2, 0, 104⟩
    zone4.queue = [a] ++ b :: [c, d, e] ∧ 96 - ((walk 96 [a]).1.map QueueEntry.words).sum = 14 ∧ ¬ (2 ≤ 14 ∧ b.words ≤ 14)
      ∧ zone4.queue = [a, b] ++ c :: [d, e] ∧ 96 - ((walk 96 [a, b]).1.map QueueEntry.words).sum = 14
      ∧ (2 ≤ 14 ∧ c.words ≤ 14) ∧ 83 - ((walk 83 [a]).1.map QueueEntry.words).sum = 1 := by
  decide +kernel

/-- A message of each class in a slot, a payload word of it, and a link with a block on the line and with none. -/
theorem witness_BatchTimerExpiryFormsABatch_words :
    queuedState.message queued5.slot = some (page [⟨0, 4, 4, 0, none⟩]) ∧ (page []).cls = .text
      ∧ (payloadWords (page []))[15]? = some 0x00106080 ∧ 2 < 3
      ∧ (payloadWords { page [] with cls := .numeric, text := [49, 45, 53], words := 3 })[0]? = some 0x001B5FFF ∧ 5 < 6
      ∧ (linkUp.onLine = none ∧ [OutBlock.idle] = .idle :: []) ∧ ({ linkUp with onLine := some .idle } : Link).onLine.isSome := by
  decide +kernel

theorem witness_BatchTimerExpiryFormsABatch :
    let s := office.setZone 4 zone4
    s.phase = .working ∧ (s.zone 4).batchTimer = 0 ∧ (s.link 4).state = .up ∧ s.airHold = false
      ∧ (s.zone 4).inFlight = none ∧ (s.zone 4).queue ≠ [] ∧ (s.link 4).profile = some ⟨.mid, 96, 0, .ok⟩
      ∧ ((office.setZone 4 { Zone.reset with batchTimer := 0 }).zone 4).queue = []
      ∧ ((work.setZone 4 zone4).link 4).state ≠ .up := by
  decide +kernel

theorem witness_BatchAcceptCreditsTheEntries :
    let b : Batch := ⟨17, 96, .mid, [⟨queued5, false⟩], 18, 52⟩
    (onAir.link 2).state = .up ∧ (onAir.zone 2).inFlight = some b ∧ (b.entries.map fun be => be.entry.slot).Nodup
      ∧ onAir.liveEntry queued5 = some (page [⟨0, 4, 4, 0, none⟩], ⟨0, 4, 4, 0, none⟩)
      ∧ zoneIn 2 (4 : ZoneSet) = true ∧ zoneRemove 2 (4 : ZoneSet) = 0 ∧ (page []).kind = .twoWay
      ∧ (∀ q ∈ (onAir.zone 2).queue, q.priority ≠ 3)
      ∧ lastRepeat.liveEntry { queued5 with attempt := 2 } ≠ none
      ∧ (urgentNext.zone 2).inFlight = some b ∧ (urgentNext.zone 2).queue = ⟨6, 0, 0, 2, 3, 1⟩ :: []
      ∧ (urgentNext.link 2).state = .up ∧ urgentNext.airHold = false
      ∧ (urgentNext.link 2).profile = some ⟨.mid, 96, 0, .ok⟩ := by
  decide +kernel

theorem witness_RefusedAndStrayBatchAnswers :
    (onAir.link 2).state = .up ∧ (onAir.zone 2).inFlight = some ⟨17, 96, .mid, [⟨queued5, false⟩], 18, 52⟩
      ∧ (17 : BitVec 8) ≠ 16 ∧ (office.link 3).state = .up ∧ (office.zone 3).inFlight = none := by
  decide +kernel

/-- A link in EXCHANGE with a batch in flight and with none; the entry that returns, and one that has become void; and the
repeat that is not the last. -/
theorem witness_BatchAnswers_exchange :
    ((onAir.setLink 2 exchanging).link 2).state = .exchange
      ∧ ((onAir.setLink 2 exchanging).zone 2).inFlight = some ⟨17, 96, .mid, [⟨queued5, false⟩], 18, 52⟩
      ∧ [queued5] = ([⟨queued5, false⟩, ⟨{ queued5 with slot := 6 }, true⟩].filter fun be : BatchEntry =>
          !be.void && (onAir.liveEntry be.entry).isSome).map BatchEntry.entry
      ∧ ((linked exchanging).link 5).state = .exchange ∧ ((linked exchanging).zone 5).inFlight = none
      ∧ (0 : Nat) < ({ plan3.snapshot .text 2 .oneWay none with retryCount := 2 } : TariffSnapshot).retryCount := by
  decide +kernel

/-! ### Zone links -/

theorem witness_LinkEnableAndRestartByState :
    work.serves 2 [.dispatch, .supervisor] ∧ 7 < fieldAt [8, 1] 0 1 ∧ 1 < fieldAt [5, 2] 1 1
      ∧ fieldAt [5, 1] 0 1 = (5 : ZoneId).val ∧ fieldAt [5, 1] 1 1 = 1 ∧ fieldAt [5, 0] 1 1 = 0
      ∧ (work.link 5).state = .off ∧ (work.link 5).onLine = none
      ∧ (linked hunting).serves 2 [.dispatch, .supervisor] ∧ ((linked hunting).link 5).state = .hunt
      ∧ ((linked exchanging).link 5).state = .exchange ∧ ((linked failed).link 5).state = .failed := by
  unfold State.serves; decide +kernel

/-- A link in UP under LINK_ENABLE off and under LINK_RESTART. -/
theorem witness_LinkEnableAndRestartByState_up :
    onAir.serves 2 [.dispatch, .supervisor] ∧ (onAir.link 2).state = .up ∧ fieldAt [2, 0] 0 1 = (2 : ZoneId).val
      ∧ fieldAt [2, 0] 1 1 = 0 ∧ [2, (0 : Byte)].length = 2 ∧ fieldAt [2] 0 1 = (2 : ZoneId).val := by
  unfold State.serves; decide +kernel

theorem witness_LeavingUpEmptiesTheZone :
    onAir.phase = .working ∧ (onAir.link 2).state = .up ∧ onAir.serves 2 [.dispatch, .supervisor]
      ∧ ((onAir.setZone 2 { onAir.zone 2 with inFlight := some ⟨17, 96, .mid, [⟨queued5, false⟩], 18, 0⟩ }).zone 2).inFlight
          = some ⟨17, 96, .mid, [⟨queued5, false⟩], 18, 0⟩
      ∧ ((linked { linkUp with silenceTimer := some 0 }).link 5).silenceTimer = some 0
      ∧ ((linked { linkUp with silenceTimer := some 0 }).link 5).state = .up
      ∧ (linked { linkUp with silenceTimer := some 0 }).phase = .working := by
  unfold State.serves; decide +kernel

/-- A lost zone's slots: other pending zones, none and no sent zone, none and a sent zone. -/
theorem witness_LeavingUpEmptiesTheZone_slots :
    ((onAir.zone 2).standing.map QueueEntry.slot).Nodup ∧ (∀ q ∈ (onAir.zone 2).standing, q.slot ∉ onAir.stalls)
      ∧ (∀ a ∈ [⟨0, 12, 12, 0, none⟩, ⟨0, 4, 4, 0, none⟩, ⟨0, 12, 4, 8, some 40000⟩],
        (onAir.setMessage 5 (page [a])).liveEntry queued5 = some (page [a], a) ∧ zoneIn 2 a.pending = true)
      ∧ (queuedState.zone 2).queue ≠ []
      ∧ ((queuedState.setZone 2 { queuedState.zone 2 with congested := true }).zone 2).congested = true := by
  decide +kernel

theorem witness_LinkTimersAndTheLine :
    work.phase = .working ∧ ((linked hunting).link 5).state = .hunt ∧ ((linked hunting).link 5).huntTimer = some 0
      ∧ ((linked { exchanging with exchangeTimer := some 0 }).link 5).exchangeTimer = some 0
      ∧ ((linked { linkUp with idleTimer := some 0 }).link 5).idleTimer = some 0
      ∧ ((linked { linkUp with idleTimer := some 0 }).link 5).onLine = none
      ∧ ((linked { linkUp with idleTimer := some 0 }).link 5).txQueue = []
      ∧ ((linked failed).link 5).state = .failed ∧ ((linked failed).link 5).holdOffTimer = some 0
      ∧ ((linked failed).link 5).onLine = none
      ∧ ((linked { linkUp with onLine := some (.capNext 812), slowBlocks := some 1 }).link 5).onLine = some (.capNext 812)
      ∧ ((linked { linkUp with onLine := some .idle }).link 5).slowBlocks = none := by
  decide +kernel

/-- An idle expiry beside another block, beside an IDLE and beside a stream; the count of blocks at SLOW from 2; a line with
each of its contents. -/
theorem witness_LinkTimersAndTheLine_blocks :
    (∀ b, some (OutBlock.capNext 812) = some b ∨ b ∈ [OutBlock.capBase 7 96 false] → b ≠ .idle ∧ b.isStream = false)
      ∧ (OutBlock.batchClose 17).isStream = true
      ∧ ((linked { linkUp with onLine := some (.capNext 812), slowBlocks := some 2 }).link 5).slowBlocks = some 2 ∧ 2 ≤ 2
      ∧ (work.link 5).state = .off ∧ ((linked linkUp).link 5).state ≠ .off ∧ ((linked linkUp).link 5).onLine = none
      ∧ ((linked { linkUp with onLine := some (.batchWords (List.replicate 32 0xFFFFFFFF)) }).link 5).onLine
          = some (.batchWords (List.replicate 32 0xFFFFFFFF)) := by
  refine ⟨?_, by decide +kernel⟩
  rintro b (h | h)
  · cases h; decide
  · cases List.mem_singleton.mp h; decide

theorem witness_CapBaseIsEvaluated :
    readCapBase [6, 2, 0, 1, 0] = some ⟨6, 512, some .degraded, false⟩
      ∧ readCapBase [6, 2, 0, 2, 0] = some ⟨6, 512, none, false⟩
      ∧ readCapBase [0, 0, 96, 0, 1] = some ⟨0, 96, some .ok, true⟩
      ∧ ((linked hunting).link 5).state = .hunt ∧ ((linked exchanging).link 5).state = .exchange
      ∧ (((linked hunting).setZone 5 zone5).zone 5).written.rates &&& 0 = 0
      ∧ highestRate ((((linked hunting).setZone 5 zone5).zone 5).written.rates &&& 6) = some .mid
      ∧ (((linked hunting).setZone 5 zone5).zone 5).written.identity ≠ 0
      ∧ (((linked linkUp).setZone 5 zone5).link 5).state = .up := by
  decide +kernel

/-- Table 7-3 at both ends of each range and just outside, and a line with a block, with a queue alone and with neither. -/
theorem witness_CapBaseIsEvaluated_ranges :
    (∀ body ∈ [[7, 0, 96, 0, 0], [0, 8, 0, 2, (255 : Byte)]], body.length = 5 ∧ 96 ≤ fieldAt body 1 2
      ∧ fieldAt body 1 2 ≤ 2048 ∧ fieldAt body 3 1 ≤ 2)
    ∧ fieldAt [7, 0, 95, 0, 0] 1 2 < 96 ∧ 2048 < fieldAt [7, 8, 1, 0, 0] 1 2 ∧ 2 < fieldAt [7, 8, 0, 3, 0] 3 1
    ∧ linkUp.onLine = none ∧ linkUp.txQueue = [] ∧ ({ linkUp with txQueue := [.idle] } : Link).txQueue ≠ []
    ∧ ({ linkUp with onLine := some .idle } : Link).onLine.isSome := by
  decide +kernel

/-- A CAP_BASE without a next page on a link that expects no identity, in HUNT, in EXCHANGE and in UP; an OFFLINE page; and
no common rate. -/
theorem witness_CapBaseIsEvaluated_atOnce :
    ((linked hunting).zone 5).written.identity = 0 ∧ ((linked exchanging).zone 5).written.identity = 0
      ∧ ((linked linkUp).zone 5).written.identity = 0 ∧ ((linked linkUp).link 5).state = .up
      ∧ (⟨6, 512, some .degraded, false⟩ : SitePage).nextPage = false
      ∧ (⟨6, 512, none, false⟩ : SitePage).fault = none
      ∧ highestRate (((linked linkUp).zone 5).written.rates &&& 6) = some .fast
      ∧ (((linked linkUp).setZone 5 { zone5 with written := { zone5.written with rates := 1 } }).zone 5).written.rates &&& 6
          = 0 := by
  decide +kernel

/-- Slot 5 STALLED while zone 2's link is about to enter UP. -/
theorem witness_StalledSlotsResume :
    ((stalledState.setLink 2 exchanging).link 2).state = .exchange
      ∧ ((stalledState.setLink 2 exchanging).link 2).basePage = some ⟨6, 512, .degraded, false, .mid, 512⟩
      ∧ (stalledState.setLink 2 exchanging).stalls.Nodup
      ∧ ((stalledState.setLink 2 exchanging).stalls.filter ((stalledState.setLink 2 exchanging).resumesIn 2 2))[0]? = some 5
      ∧ (stalledState.setLink 2 exchanging).openMessage 5 = some (page [⟨0, 4, 0, 0, none⟩])
      ∧ (page [⟨0, 4, 0, 0, none⟩]).lastAttempt = some ⟨0, 4, 0, 0, none⟩ ∧ zoneIn 2 (4 : ZoneSet) = true := by
  decide +kernel

/-- Slot 5 STALLED with priority 3 while zone 2's link is about to enter UP, with a batch to form there, and with none. -/
def urgentStalled : State :=
  (stalledState.setLink 2 exchanging).setMessage 5 { page [⟨0, 4, 0, 0, none⟩] with priority := 3 }

theorem witness_StalledSlotsResume_atOnce :
    urgentStalled.resumesUrgent 2 2 = true ∧ urgentStalled.resumesUrgent 2 5 = false
      ∧ (stalledState.setLink 2 exchanging).resumesUrgent 2 2 = false
      ∧ ((urgentStalled.setLink 2 linkUp).formsWith 2).isSome
      ∧ (({ urgentStalled with airHold := true }.setLink 2 linkUp).formsWith 2) = none
      ∧ (urgentStalled.zone 2).ordered
      ∧ ({ exchanging with onLine := some .idle } : Link).onLine ≠ none := by
  unfold Zone.ordered QueueEntry.inOrder; decide +kernel

/-- R99, R140, R141: the slot of priority 3 is in zone 2's batch right after the event that enters UP. -/
theorem witness_CapNextEndsTheExchange_atOnce :
    runs (.capNext 2 [0, 0]) urgentStalled (fun t =>
      decide (((t.zone 2).inFlight.map fun b => b.entries.map fun e => e.entry.slot) = some [5] ∧ (t.zone 2).queue = []
        ∧ (t.link 2).streaming = true ∧ t.stalls = [])) = true := by decide +kernel

theorem witness_CapNextEndsTheExchange :
    let s := (linked exchanging).setZone 5 zone5
    65535 < 65536 ∧ (s.link 5).state = .exchange ∧ (s.link 5).basePage = some ⟨6, 512, .degraded, false, .mid, 512⟩
      ∧ (s.zone 5).written.identity ≠ 0 ∧ (s.zone 5).written.identity ≠ 65535 ∧ (s.zone 5).written.identity = 812
      ∧ ((linked exchanging).zone 5).written.identity = 0 := by
  decide +kernel

theorem witness_QuietInboundBlocks :
    ((linked linkUp).link 5).state = .up ∧ ((linked exchanging).link 5).state = .exchange
      ∧ linkFields (.pagerLocate 5 [255, 255, 255]) = some (5, 0x23, [255, 255, 255])
      ∧ inboundBodyGood 0x23 [255, 255, 255] = true ∧ (work.link 5).state = .off
      ∧ ((linked failed).link 5).state = .failed ∧ ((linked hunting).link 5).state = .hunt := by
  decide +kernel

theorem witness_QuietInboundBlocks_pages :
    65535 < 65536 ∧ ((linked { exchanging with basePage := none }).link 5).basePage = none
      ∧ linkFields (.batchAccept 5 [255]) = some (5, 0x20, [255]) ∧ inboundBodyGood 0x20 [255] = true
      ∧ (0x20 : Byte) ≠ 0x01 := by
  decide +kernel

theorem witness_BadBlocksAreCounted :
    blockGood [3, 0, 0, 0] = false ∧ (work.link 5).state = .off ∧ ((linked { linkUp with rxErrors := 255 }).link 5).rxErrors = 255
      ∧ (linked linkUp).serves 2 [.dispatch, .supervisor] ∧ fieldAt [5] 0 1 = (5 : ZoneId).val := by
  unfold State.serves; decide +kernel

/-- A body out of its kind's range, a length byte above 128, the longest and the shortest block. -/
theorem witness_BadBlocksAreCounted_bytes :
    linkFields (.capBase 5 [0, 0, 95, 0, 0]) = some (5, 1, [0, 0, 95, 0, 0]) ∧ inboundBodyGood 1 [0, 0, 95, 0, 0] = false
      ∧ ((linked { linkUp with received := some [3] }).link 5).received = some [3] ∧ 128 < (129 : Byte).toNat
      ∧ ((linked linkUp).link 5).state ≠ .off ∧ ((linked linkUp).link 5).received = none
      ∧ (3 :: 128 :: List.replicate 130 (0 : Byte)).length = 4 + fieldAt (3 :: 128 :: List.replicate 130 0) 1 1
      ∧ fieldAt (3 :: 128 :: List.replicate 130 0) 1 1 ≤ 128
      ∧ 4 ≤ [3, 0, 0x48, (0x5C : Byte)].length ∧ [3, 0, 0x48, (0x5C : Byte)].length = 4 + fieldAt [3, 0, 0x48, 0x5C] 1 1
      ∧ 7 < fieldAt [8] 0 1 := by
  decide +kernel

/-- The IDLE block: kind, length, no body and its CRC. -/
theorem witness_BadBlocksAreCounted_block :
    (0 : Byte).toNat = ([] : List Byte).length ∧ [0x48, (0x5C : Byte)].length = 2
      ∧ blockGood (3 :: 0 :: [] ++ [0x48, 0x5C]) = true ∧ inboundBodyGood 0x24 [2] = true
      ∧ inboundBodyGood 0x24 [3] = false ∧ inboundBodyGood 0x10 [1, 0, 2] = false := by
  decide +kernel

/-! ### Acknowledgement and retry -/

theorem witness_WaitsDoubleUpToTheCeiling :
    (plan3.snapshot .text 2 .twoWay none).legal ∧ 7 ≤ 7
      ∧ ({ plan3.snapshot .text 2 .twoWay none with retryCeiling := 1 } : TariffSnapshot).legal ∧ 1 < plan3.retryBase := by
  unfold TariffSnapshot.legal; decide +kernel

theorem witness_WaitExpiryFormsTheNextAttempt :
    (∀ n timer, (waiting n 4 timer).canonical) ∧ repeating.canonical
      ∧ (∀ n ∈ [0, 4], ∀ timer ∈ [0, 1], (waiting n 4 timer).phase = .working ∧ (waiting n 4 timer).dueRetry = some 5
        ∧ (waiting n 4 timer).message 5 = some { page [⟨n, 4, 0, 4, some 40010⟩] with retryTimer := some timer })
      ∧ (page []).kind = .twoWay ∧ repeating.phase = .working ∧ repeating.dueRetry = some 5
      ∧ (repeating.message 5).map Message.kind = some .oneWay := by
  refine ⟨fun n timer => canonical_holding _, canonical_holding _, ?_⟩
  decide +kernel

/-- A timer above 1, a frozen one, a part that does not work, and a slot below with a timer above 1. -/
theorem witness_WaitExpiryFormsTheNextAttempt_due :
    (waiting 0 4 2).dueRetry ≠ some 5 ∧ (after (.airHold 0 []) (waiting 0 4 1)).dueRetry ≠ some 5 ∧ State.reset.phase ≠ .working
      ∧ ({ waiting 0 4 1 with messages := [(4, { page [⟨0, 4, 0, 4, some 7⟩] with retryTimer := some 2 }),
            (5, { page [⟨0, 4, 0, 4, some 7⟩] with retryTimer := some 1 })] } : State).dueRetry = some 5 := by
  decide +kernel

theorem witness_WaitExpiryFormsTheNextAttempt_zones :
    zoneIn 4 ((page []).home &&& (waiting 0 4 1).upZones) = false ∧ zoneIn 3 ((page []).home &&& (waiting 0 4 1).upZones) = true
      ∧ ({ page [] with priority := 3 } : Message).priority = 3 ∧ ((waiting 0 4 1).formsWith 3).isSome
      ∧ (page []).home &&& stalledState.upZones = 0 := by
  decide +kernel

theorem witness_PagerLocateUpdatesLastSeen :
    (office.link 4).state = .up ∧ office.mapped 1048577 = some 12 ∧ office.entry 12 = some entry12
      ∧ office.mapped 4194303 = none := by
  decide +kernel

theorem witness_PagerAckIsMatched :
    1 ≤ 7 ∧ ((waiting 1 12 15).link 3).state = .up
      ∧ ackBody = bytesOf 3 (1048577 : PagerAddress).toNat
          ++ bytesOf 4 ((5 : SlotId).val * 8388608 + (3 : Epoch).toNat * 524288 + 1 * 65536 + (0 : BitVec 16).toNat)
      ∧ ((waiting 1 12 15).message 5).map Message.closing = some none ∧ (waiting 1 12 15).epoch 5 = 3
      ∧ closedState.message 5 = some cancelledPage ∧ (closedState.link 3).state = .up
      ∧ office.message 5 = none ∧ (waiting 1 12 15).epoch 5 ≠ 4 := by
  decide +kernel

/-- A link in EXCHANGE takes the air answers too; and the tag word with its lowest nine bits set. -/
theorem witness_AirAnswers_exchange :
    (((waiting 1 12 15).setLink 3 exchanging).link 3).state = .exchange ∧ ((office.setLink 4 exchanging).link 4).state = .exchange
      ∧ [0x10, 0, 1, 0x02, 0x99, 0x01, 0xFF] = bytesOf 3 (1048577 : PagerAddress).toNat
          ++ bytesOf 4 ((5 : SlotId).val * 8388608 + (3 : Epoch).toNat * 524288 + 1 * 65536 + (0x01FF : BitVec 16).toNat) := by
  decide +kernel

/-! ### Accounts, journal and sweep -/

theorem witness_AccountReadShowsTheAccount :
    office.serves 1 anyRole ∧ 8191 < fieldAt [0x20, 0] 0 2 ∧ fieldAt [0x1F, 0xFF] 0 2 = (8191 : AccountIndex).val
      ∧ office.entry 8191 = none ∧ fieldAt [0, 12] 0 2 = (12 : AccountIndex).val ∧ office.entry 12 = some entry12 := by
  unfold State.serves; decide +kernel

theorem witness_AccountAdjustChangesTheBalance :
    office.serves 3 [.accounts, .supervisor] ∧ signedAt [0, 12, 0xFF, 0, 0, 0, 0] 2 < -16777215
      ∧ 16777215 < signedAt [0, 12, 1, 0, 0, 0, 0] 2 ∧ signedAt [0, 12, 0xFF, 0, 0, 1, 0] 2 = -16777215
      ∧ signedAt [0, 12, 0, 0xFF, 0xFF, 0xFF, 0] 2 = 16777215 ∧ fieldAt [0, 12, 0, 0, 0, 0, 0] 0 2 = (12 : AccountIndex).val
      ∧ office.entry 13 = none ∧ office.entry 12 = some entry12
      ∧ ¬ (1024 - office.journal.records.length < office.openMessages + 1)
      ∧ 1024 - ({ office with journal := journalOf 1024 768 false } : State).journal.records.length < office.openMessages + 1 := by
  unfold State.serves; decide +kernel

theorem witness_AccountLimitReplacesTheLimit :
    office.serves 1 anyRole ∧ (office.port 1).role ≠ .accounts ∧ (office.port 1).role ≠ .supervisor
      ∧ office.serves 3 anyRole ∧ (office.port 3).role = .accounts ∧ 8191 < fieldAt [0x20, 0, 0, 0, 0, 0] 0 2
      ∧ 16777215 < fieldAt [0, 12, 1, 0, 0, 0] 2 4 ∧ fieldAt [0, 12, 0, 255, 255, 255] 2 4 ≤ 16777215
      ∧ fieldAt [0, 12, 0, 255, 255, 255] 0 2 = (12 : AccountIndex).val ∧ office.entry 12 = some entry12
      ∧ office.entry 13 = none := by
  unfold State.serves; decide +kernel

theorem witness_AccountStateWritesAndPurges :
    onAir.serves 3 [.accounts, .supervisor] ∧ 8191 < fieldAt [0x20, 0, 1, 0] 0 2 ∧ fieldAt [0, 12, 0, 0] 2 1 = 0
      ∧ 3 < fieldAt [0, 12, 4, 0] 2 1 ∧ fieldAt [0, 12, 1, 1] 2 1 = 1 ∧ fieldAt [0, 12, 1, 1] 3 1 ≠ 0
      ∧ fieldAt [0, 12, 3, 1] 2 1 = 3 ∧ fieldAt [0, 12, 3, 0] 3 1 = 0
      ∧ onAir.entry 12 = some { entry12 with held := 1328, openCount := 1 } ∧ onAir.entry 13 = none ∧ onAir.canonical
      ∧ onAir.message 5 = some (page [⟨0, 4, 4, 0, none⟩]) ∧ (page []).billed = 12 := by
  have h : onAir.canonical :=
    ⟨by unfold tblSorted; decide +kernel, by unfold tblSorted; decide +kernel, by unfold tblSorted; decide +kernel,
      by unfold tblSorted; decide +kernel, fun q hq => by rw [List.mem_singleton.mp hq]; decide⟩
  refine ⟨by unfold State.serves; decide +kernel, by decide, by decide, by decide, by decide, by decide, by decide, by decide,
    by decide +kernel, by decide +kernel, h, by decide +kernel, rfl⟩

theorem witness_JournalCommands :
    office.serves 3 [.accounts, .supervisor] ∧ fieldAt [0, 0] 0 2 = 0 ∧ 1024 < fieldAt [4, 1] 0 2
      ∧ fieldAt [4, 0] 0 2 = 1024 ∧ 1 ≤ fieldAt [0, 1] 0 2
      ∧ ({ office with journal := journalOf 769 768 false } : State).journal.records.length - 4 < 768
      ∧ ¬ ({ office with journal := journalOf 772 768 false } : State).journal.records.length - 4 < 768 := by
  unfold State.serves; decide +kernel

theorem witness_JournalCommands_records :
    ({ office with journal := journalOf 2 768 true } : State).journal.records[1]? = some (.adjust ⟨12, 1, 0, 1, 0⟩)
      ∧ (after (.cancel 1 [0, 5, 3]) onAir).journal.records[0]? = some (.settle
          { account := 12, slot := 5, epoch := 3, outcome := .cancelled, cls := .text, payloadWords := 16, zonesSent := 0
            attempt := 0, amount := 0, balanceAfter := 0, time := 40000 })
      ∧ ({ office with journal := journalOf 2 768 true } : State).journal.armed = true
      ∧ ({ office with journal := journalOf 767 768 true } : State).journal.records.length + 1 = 768 := by
  decide +kernel

theorem witness_SweepStartAndStatus :
    work.serves 3 [.accounts, .supervisor] ∧ 3 < fieldAt [4, 1, 0, 0, 0, 0] 0 1 ∧ fieldAt [0, 0, 0, 0, 0, 0] 1 1 = 0
      ∧ 64 < fieldAt [0, 65, 0, 0, 0, 0] 1 1 ∧ 8191 < fieldAt [0, 1, 0x20, 0, 0, 0] 2 2
      ∧ fieldAt [3, 64, 0x1F, 0xFF, 2, 0] 0 1 = (sweepModeCode .single).toNat ∧ fieldAt [3, 64, 0x1F, 0xFF, 2, 0] 1 1 ≤ 64
      ∧ fieldAt [3, 64, 0x1F, 0xFF, 2, 0] 2 2 = (8191 : AccountIndex).val ∧ work.serves 1 anyRole := by
  unfold State.serves; decide +kernel

theorem witness_SweepVisitsAndPosition :
    office.entry 12 = some entry12
      ∧ ({ work with sweep := { Sweep.reset with mode := .continuous, rate := 64, position := 8128 } } : State).sweep.mode
          = .continuous
      ∧ 64 ≤ 64 := by
  decide +kernel

/-- The last two positions of a pass, each mode, and an index that is UNUSED. -/
theorem witness_SweepVisitsAndPosition_modes :
    office.entry 8191 = none ∧ work.sweep.mode = .stop
      ∧ ({ work with sweep := { Sweep.reset with position := 8190 } } : State).sweep.position.val < 8191
      ∧ ({ work with sweep := { Sweep.reset with position := 8191 } } : State).sweep.position.val = 8191
      ∧ ({ work with sweep := { Sweep.reset with mode := .single, single := 12 } } : State).sweep.mode = .single
      ∧ ({ work with sweep := { Sweep.reset with mode := .onePass, rate := 64, position := 8128 } } : State).sweep.mode
          = .onePass
      ∧ 8192 ≤ 8128 + 64 := by
  decide +kernel

/-! ### Office clock, ticks and resets -/

theorem witness_OfficeClockAndSeconds :
    work.serves 1 anyRole ∧ work.serves 0 [.supervisor] ∧ work.phase = .working ∧ work.secondDivider < 10
      ∧ 10 ≤ ({ work with secondDivider := 10 } : State).secondDivider := by
  unfold State.serves; decide +kernel

/-- A second that closes the message and a second that closes none. -/
theorem witness_OfficeClockAndSeconds_lives :
    (∀ life, ({ holding { page [] with life := life } with secondDivider := 10 } : State).canonical)
      ∧ ({ page [] with life := 1 } : Message).closing = none ∧ ({ page [] with life := 2 } : Message).closing = none
      ∧ 2 ≤ ({ page [] with life := 2 } : Message).life ∧ ({ page [] with life := 1 } : Message).life ≤ 1
      ∧ (∀ slot m, (holding { page [] with life := 1 }).message slot = some m →
          ((holding { page [] with life := 1 }).entry m.billed).isSome) := by
  refine ⟨fun life => ?_, by decide, by decide, by decide, by decide, ?_⟩
  · have h := canonical_holding { page [] with life := life }
    exact ⟨h.directory, h.addressMap, h.epochs, h.messages, h.noZero⟩
  · intro slot m h
    have hm : (holding { page [] with life := 1 }).message slot = if slot = 5 then some { page [] with life := 1 } else none := by
      show tblGet slot [(5, _)] = _
      simp [tblGet, eq_comm]
    rw [hm] at h
    split at h
    · cases h; decide +kernel
    · cases h

theorem witness_TickCountsEveryTimer :
    (waiting 0 4 10).phase = .working ∧ (waiting 0 4 10).sweep.mode = .stop
      ∧ (∀ b ∈ ((waiting 0 4 10).link 2).onLine.toList ++ ((waiting 0 4 10).link 2).txQueue, b.isStream = false)
      ∧ (waiting 0 4 10).slotState 5 = .wait ∧ (waiting 0 4 10).message 6 = none := by
  decide +kernel

theorem witness_TickCountsEveryTimer_expiries :
    (waiting 0 4 1).canonical ∧ (waiting 0 4 1).phase = .working ∧ (waiting 0 4 1).lastTicks = [5] :=
  ⟨canonical_holding _, by decide +kernel, by decide +kernel⟩

theorem witness_TickCountsEveryTimer_forms :
    State.reset.phase ≠ .working ∧ ((linked { linkUp with idleTimer := some 1, onLine := some (.batchClose 17) }).link 5).idleTimer
        = some 1
      ∧ ([OutBlock.batchClose 17]).any OutBlock.isStream = true := by
  decide +kernel

theorem witness_ResetsAndThePass :
    work.serves 0 [.supervisor] ∧ ({ work with resetDue := true } : State).phase ≠ .held
      ∧ ({ work with resetDue := true } : State).resetDue = true ∧ ({ work with phase := .held } : State).phase = .held
      ∧ State.reset.phase = .starting := by
  unfold State.serves; decide +kernel

theorem witness_ResetsAndThePass_ends :
    ((sending true).port 0).resetAfter = true ∧ ((sending true).port 0).receiver = .sending ∧ (sending true).phase ≠ .held
      ∧ work.resetDue = false ∧ (∀ p : PortId, (work.port p).resetAfter = false ∨ (work.port p).receiver ≠ .sending)
      ∧ work.phase ≠ .held ∧ work.phase ≠ .starting := by
  decide +kernel

/-! ### Whole-machine statements -/

theorem witness_OnlyFiveCommandsChangeTheClock :
    ∃ t, exec (.clockSet 0 [0, 0, 0, 1]) work = .next t ∧ t.clock ≠ work.clock :=
  ⟨_, rfl, by decide +kernel⟩

theorem witness_ClosedMessagesStandUntilFreed :
    ∃ t, exec (.fetchOutcomes 1 []) closedState = .next t ∧ closedState.message 5 = some cancelledPage
      ∧ cancelledPage.closing.isSome :=
  ⟨_, rfl, by decide +kernel, by decide⟩

/-- A state with one command waiting: the office's first page is submitted. -/
def submitting : State := { office with pending := [.submit 1 submitBody] }

theorem canonical_submitting : submitting.canonical :=
  ⟨by unfold tblSorted; decide +kernel, by unfold tblSorted; decide +kernel, by unfold tblSorted; decide +kernel,
    by unfold tblSorted; decide +kernel, fun _ h => (List.not_mem_nil h).elim⟩

theorem mapAgrees_submitting : submitting.mapAgrees := by
  intro a i
  have hm : submitting.mapped a = if a = 1048577 then some 12 else none := by
    show tblGet a [(1048577, 12)] = _
    simp [tblGet, eq_comm]
  have he : submitting.entry i = if i = 12 then some entry12 else none := by
    show tblGet i [(12, entry12)] = _
    simp [tblGet, eq_comm]
  rw [hm, he]
  constructor
  · intro h
    split at h
    · next ha => cases h; exact ⟨entry12, rfl, ha.symm⟩
    · cases h
  · rintro ⟨e, h, ha⟩
    split at h
    · next hi => cases h; subst hi; rw [if_pos (by rw [← ha]; rfl)]
    · cases h

theorem outcomesListed_submitting : submitting.outcomesListed := by
  intro p
  have h : ∀ q, (submitting.port q).outcomes = [] := by decide +kernel
  rw [h p]
  refine ⟨List.nodup_nil, fun slot => ⟨fun h => (List.not_mem_nil h).elim, ?_⟩⟩
  rintro ⟨m, h, -⟩
  cases h

theorem accountLaw_submitting : submitting.accountLaw := by
  intro i
  have he : submitting.entry i = if i = 12 then some entry12 else none := by
    show tblGet i [(12, entry12)] = _
    simp [tblGet, eq_comm]
  rw [he]
  split <;> rename_i h <;> split at h <;> cases h
  · exact ⟨rfl, rfl⟩
  · rfl

/-- Every step statement has its premises met by a state whose step admits a message. -/
theorem witness_StepKeeps :
    submitting.canonical ∧ submitting.mapAgrees ∧ submitting.supervised ∧ submitting.eventsBounded ∧ submitting.reserved
      ∧ submitting.outcomesListed ∧ submitting.accountLaw ∧ submitting.downZonesEmpty ∧ submitting.queuesOrdered
      ∧ submitting.congestionAgrees
      ∧ ∃ t, step submitting = .next t ∧ t.message 0 ≠ none := by
  refine ⟨canonical_submitting, mapAgrees_submitting, ⟨0, by decide +kernel⟩, ?_, ?_, outcomesListed_submitting,
    accountLaw_submitting, ?_, ?_, ?_, _, rfl, by decide +kernel⟩
  · unfold State.eventsBounded; decide +kernel
  · unfold State.reserved tblSorted; decide +kernel
  · unfold State.downZonesEmpty; decide +kernel
  · unfold State.queuesOrdered Zone.ordered QueueEntry.inOrder; decide +kernel
  · unfold State.congestionAgrees; decide +kernel

end Sys2Proof.Tests
end

/-! ## Charge arithmetic: each stage's equation, monotonicity and bound (R27 to R29) -/

section
namespace Sys2Proof.Machine

/-! ### Priority scaling rounds to the nearest whole unit (R28) -/

/-- The scaled charge is at most half a unit above the exact quotient. -/
theorem scaledCharge_mul_le (t : TariffSnapshot) (payload zs : Nat) :
    16 * scaledCharge t payload zs ≤ rawCharge t payload zs * t.multiplier + 8 :=
  Nat.mul_div_le _ 16

/-- The scaled charge is less than half a unit below the exact quotient, so an exact half goes up. -/
theorem lt_scaledCharge_mul (t : TariffSnapshot) (payload zs : Nat) :
    rawCharge t payload zs * t.multiplier < 16 * scaledCharge t payload zs + 8 := by
  have h : rawCharge t payload zs * t.multiplier + 8 < 16 * (scaledCharge t payload zs + 1) :=
    Nat.lt_mul_div_succ _ (by decide)
  omega

theorem scaledCharge_of_multiplier_eq {t : TariffSnapshot} (h : t.multiplier = 16) (payload zs : Nat) :
    scaledCharge t payload zs = rawCharge t payload zs := by
  have hle := scaledCharge_mul_le t payload zs
  have hlt := lt_scaledCharge_mul t payload zs
  rw [h] at hle hlt
  omega

/-! ### Every stage is monotone in its inputs -/

theorem rawCharge_mono (t : TariffSnapshot) {p p' z z' : Nat} (hp : p ≤ p') (hz : z ≤ z') :
    rawCharge t p z ≤ rawCharge t p' z' := by
  unfold rawCharge
  gcongr

theorem scaledCharge_mono (t : TariffSnapshot) {p p' z z' : Nat} (hp : p ≤ p') (hz : z ≤ z') :
    scaledCharge t p z ≤ scaledCharge t p' z' :=
  Nat.div_le_div_right (Nat.add_le_add_right (Nat.mul_le_mul_right _ (rawCharge_mono t hp hz)) 8)

theorem attemptCharge_mono (t : TariffSnapshot) {p p' z z' n n' : Nat} (hp : p ≤ p') (hz : z ≤ z') (hn : n ≤ n') :
    attemptCharge t p z n ≤ attemptCharge t p' z' n' :=
  min_le_min_right _ (Nat.add_le_add (scaledCharge_mono t hp hz) (Nat.mul_le_mul_left _ hn))

/-! ### The bounds of a legal snapshot -/

section
variable {t : TariffSnapshot} {payload zs : Nat}

theorem rawCharge_le (ht : t.legal) (hp : payload ≤ 80) (hz : zs ≤ 8) : rawCharge t payload zs ≤ 421800 := by
  obtain ⟨hbase, hword, hzone, -⟩ := ht
  calc rawCharge t payload zs ≤ rawCharge t 80 8 := rawCharge_mono t hp hz
    _ = t.classBase + t.wordRate * 80 + t.zoneRate * 7 := rfl
    _ ≤ 421800 := by omega

theorem rawCharge_mul_multiplier_le (ht : t.legal) (hp : payload ≤ 80) (hz : zs ≤ 8) :
    rawCharge t payload zs * t.multiplier ≤ 107559000 := by
  have hraw := rawCharge_le ht hp hz
  obtain ⟨-, -, -, -, hmult, -⟩ := ht
  exact Nat.mul_le_mul hraw hmult

theorem scaledCharge_le (ht : t.legal) (hp : payload ≤ 80) (hz : zs ≤ 8) : scaledCharge t payload zs ≤ 6722438 := by
  have hprod := rawCharge_mul_multiplier_le ht hp hz
  have hround := scaledCharge_mul_le t payload zs
  omega

theorem scaledCharge_add_fees_le (ht : t.legal) (hp : payload ≤ 80) (hz : zs ≤ 8) {n : Nat} (hn : n ≤ 7) :
    scaledCharge t payload zs + t.retryFee * n ≤ 6751103 := by
  have hscaled := scaledCharge_le ht hp hz
  obtain ⟨-, -, -, -, -, hfee, -⟩ := ht
  have hfees : t.retryFee * n ≤ 4095 * 7 := Nat.mul_le_mul hfee hn
  omega

end

/-- A cap that the scaled charge alone reaches is the charge of every attempt. -/
theorem attemptCharge_of_cap_le {t : TariffSnapshot} {payload zs : Nat} (h : t.cap ≤ scaledCharge t payload zs) (n : Nat) :
    attemptCharge t payload zs n = t.cap :=
  min_eq_right (Nat.le_add_right_of_le h)

theorem attemptCharge_le_cap (t : TariffSnapshot) (payload zs n : Nat) : attemptCharge t payload zs n ≤ t.cap :=
  min_le_right _ _

/-- The snapshot with every item of Table 2-2 that enters a charge at its greatest value. -/
def dearestTariff : TariffSnapshot where
  classBase := 65535
  wordRate := 4095
  zoneRate := 4095
  multiplier := 255
  retryFee := 4095
  failFee := 0
  cap := 16777215
  retryCount := 7
  retryBase := 1
  retryCeiling := 1
  focusAge := 0

theorem dearestTariff_legal : dearestTariff.legal := by
  unfold TariffSnapshot.legal
  decide

/-- The dearest snapshot attains the bound on what enters the cap, and the cap does not bind. -/
theorem attemptCharge_dearestTariff : attemptCharge dearestTariff 80 8 7 = 6751103 := by decide

/-- Settles O13, from the rounding, the monotonicity and the bound of each stage; the bound is attained by the dearest
snapshot of Table 2-2. -/
theorem attemptChargeByItsStages : Obligations.AttemptChargeByItsStages := by
  refine ⟨?stages, ?attempts, dearestTariff, dearestTariff_legal, attemptCharge_dearestTariff⟩
  case stages =>
    intro t payload zs ht hp _ hz
    exact ⟨rfl, rfl, scaledCharge_mul_le t payload zs, lt_scaledCharge_mul t payload zs,
      fun hm => scaledCharge_of_multiplier_eq hm payload zs, rawCharge_le ht hp hz,
      rawCharge_mul_multiplier_le ht hp hz, scaledCharge_le ht hp hz⟩
  case attempts =>
    intro t payload zs zs' n n' ht hp _ hzz hz hnn hn
    have hcap : t.cap ≤ 16777215 := by
      obtain ⟨-, -, -, -, -, -, -, -, hcap, -⟩ := ht
      exact hcap
    exact ⟨rfl, attemptCharge_mono t le_rfl hzz hnn, scaledCharge_add_fees_le ht hp (hzz.trans hz) (hnn.trans hn),
      (attemptCharge_le_cap t payload zs n).trans hcap, fun h => attemptCharge_of_cap_le h n⟩

end Sys2Proof.Machine
end

/-! ## The wait between two attempts: its bounds (R134) -/

section
namespace Sys2Proof.Machine

theorem retryWait_twoWay (t : TariffSnapshot) (n : Nat) :
    retryWait t .twoWay n = min (t.retryBase * 2 ^ n) t.retryCeiling := rfl

theorem retryWait_oneWay (t : TariffSnapshot) (n : Nat) : retryWait t .oneWay n = min t.retryBase t.retryCeiling := rfl

theorem retryWait_le_ceiling (t : TariffSnapshot) (kind : PagerKind) (n : Nat) : retryWait t kind n ≤ t.retryCeiling := by
  cases kind with
  | twoWay => exact min_le_right _ _
  | oneWay => exact min_le_right _ _

/-- No wait is shorter than a repeat interval of a one-way pager: doubling only lengthens the retry base. -/
theorem min_base_ceiling_le_retryWait (t : TariffSnapshot) (kind : PagerKind) (n : Nat) :
    min t.retryBase t.retryCeiling ≤ retryWait t kind n := by
  cases kind with
  | twoWay =>
    have hdouble : t.retryBase ≤ t.retryBase * 2 ^ n := Nat.le_mul_of_pos_right _ (Nat.two_pow_pos n)
    rw [retryWait_twoWay]
    exact min_le_min_right _ hdouble
  | oneWay => exact (retryWait_oneWay t n).ge

/-- A ceiling that the retry base alone reaches is the wait after every attempt. -/
theorem retryWait_of_ceiling_le {t : TariffSnapshot} (h : t.retryCeiling ≤ t.retryBase) (kind : PagerKind) (n : Nat) :
    retryWait t kind n = t.retryCeiling := by
  have hlow := min_base_ceiling_le_retryWait t kind n
  rw [min_eq_right h] at hlow
  exact (retryWait_le_ceiling t kind n).antisymm hlow

theorem TariffSnapshot.legal.retryBase_mem {t : TariffSnapshot} (ht : t.legal) : 1 ≤ t.retryBase ∧ t.retryBase ≤ 255 := by
  obtain ⟨-, -, -, -, -, -, -, -, -, -, hpos, hle, -⟩ := ht
  exact ⟨hpos, hle⟩

theorem TariffSnapshot.legal.retryCeiling_mem {t : TariffSnapshot} (ht : t.legal) :
    1 ≤ t.retryCeiling ∧ t.retryCeiling ≤ 65534 := by
  obtain ⟨-, -, -, -, -, -, -, -, -, -, -, -, hpos, hle, -⟩ := ht
  exact ⟨hpos, hle⟩

/-- The longest wait before the ceiling is 255 ticks doubled seven times. -/
theorem retryBase_mul_two_pow_le {t : TariffSnapshot} (ht : t.legal) {n : Nat} (hn : n ≤ 7) :
    t.retryBase * 2 ^ n ≤ 32640 :=
  calc t.retryBase * 2 ^ n ≤ 255 * 2 ^ 7 :=
        Nat.mul_le_mul ht.retryBase_mem.2 (Nat.pow_le_pow_right (by decide) hn)
    _ = 32640 := rfl

theorem one_le_retryWait {t : TariffSnapshot} (ht : t.legal) (kind : PagerKind) (n : Nat) : 1 ≤ retryWait t kind n :=
  (le_min ht.retryBase_mem.1 ht.retryCeiling_mem.1).trans (min_base_ceiling_le_retryWait t kind n)

/-- Settles O38: the two kinds' equations, and the bounds between the undoubled wait and the ceiling. -/
theorem waitsDoubleUpToTheCeiling : Obligations.WaitsDoubleUpToTheCeiling := by
  intro t n ht hn
  refine ⟨retryWait_twoWay t n, retryWait_oneWay t n, retryBase_mul_two_pow_le ht hn, fun kind => ?bounds,
    fun h kind => retryWait_of_ceiling_le h.le kind n⟩
  case bounds =>
    have hceiling := retryWait_le_ceiling t kind n
    exact ⟨one_le_retryWait ht kind n, hceiling, hceiling.trans ht.retryCeiling_mem.2⟩

end Sys2Proof.Machine
end

/-! ## ACCOUNT_READ and ACCOUNT_LIMIT: checks, responses and what they change (R149, R151) -/

section
namespace Sys2Proof.Machine

/-! ### An owner that leaves the answering port alone -/

section
variable {α : Type} {s t : State} {p : PortId} {roles : List Role} {n : Nat} {body b : List Byte}
  {fields : Option α} {r : α} {owner : α → State → Reply} {st : Status}

/-- A served command of fixed length whose owner keeps the port's gap is answered in the state its owner leaves. -/
theorem takeCommand_answers (h : s.serves p roles) (hb : body.length = n) (hf : fields = some r)
    (ho : owner r s = ⟨st, b, t⟩) (hg : (t.port p).gap = (s.port p).gap) :
    takeCommand p roles (withLength n body (withRange fields owner)) s = t.answers p st b := by
  rw [takeCommand_runs owner h hb hf, ho]
  exact State.respond_answers hg st b

/-- A served command of fixed length that its owner refuses changes only the answering port. -/
theorem takeCommand_refused (h : s.serves p roles) (hb : body.length = n) (hf : fields = some r)
    (ho : owner r s = refuse st s) :
    takeCommand p roles (withLength n body (withRange fields owner)) s = s.answers p st [] :=
  takeCommand_answers h hb hf ho rfl

end

/-! ### The signed field of four bytes -/

@[simp] theorem bytesOfInt_length (x : Int) : (bytesOfInt x).length = 4 := bytesOf_length ..

theorem fieldAt_bytesOfInt (x : Int) (b : List Byte) : fieldAt (bytesOfInt x ++ b) 0 4 = (BitVec.ofInt 32 x).toNat := by
  rw [bytesOfInt, fieldAt_bytesOf]
  exact Nat.mod_eq_of_lt (BitVec.isLt _)

theorem fieldAt_bytesOfInt_nil (x : Int) : fieldAt (bytesOfInt x) 0 4 = (BitVec.ofInt 32 x).toNat := by
  simpa using fieldAt_bytesOfInt x []

/-! ### ACCOUNT_READ (R149) -/

theorem creditFlagsByte_toNat (low exhausted : Bool) :
    (creditFlagsByte low exhausted).toNat = (if low then 1 else 0) + (if exhausted then 2 else 0) := by
  cases low <;> cases exhausted <;> rfl

/-- R33, R34: the reported available amount is the exact one, saturated to 32 bits. -/
theorem Entry.reported_eq (e : Entry) :
    e.reported = max (-2147483648) (min 2147483647 (e.balance + e.creditLimit - e.held)) := rfl

@[simp] theorem accountBytes_length (e : Entry) : (accountBytes e).length = 20 := by
  simp [accountBytes]

/-- The eight fields of an ACCOUNT_READ response at their offsets in Table 10-9. -/
theorem fieldAt_accountBytes (e : Entry) :
    fieldAt (accountBytes e) 0 1 = (entryStateCode e.state).toNat
    ∧ fieldAt (accountBytes e) 1 1 = (suspendCauseCode e.state).toNat
    ∧ fieldAt (accountBytes e) 2 4 = (BitVec.ofInt 32 e.balance).toNat
    ∧ fieldAt (accountBytes e) 6 4 = e.creditLimit % 4294967296
    ∧ fieldAt (accountBytes e) 10 4 = e.held % 4294967296
    ∧ fieldAt (accountBytes e) 14 1 = e.openCount % 256
    ∧ fieldAt (accountBytes e) 15 1 = (creditFlagsByte e.low e.exhausted).toNat
    ∧ fieldAt (accountBytes e) 16 4
        = (BitVec.ofInt 32 (max (-2147483648) (min 2147483647 (e.balance + e.creditLimit - e.held)))).toNat := by
  simp [accountBytes, fieldAt_cons_zero, fieldAt_cons_skip, fieldAt_skip, fieldAt_bytesOf, fieldAt_bytesOfInt,
    fieldAt_bytesOfInt_nil, Entry.reported_eq]

theorem accountRead_unused {s : State} {i : AccountIndex} (h : s.entry i = none) :
    accountRead i s = refuse .noSubscriber s := by
  simp [accountRead, h]

theorem accountRead_used {s : State} {i : AccountIndex} {e : Entry} (h : s.entry i = some e) :
    accountRead i s = ⟨.ok, accountBytes e, s⟩ := by
  simp [accountRead, h]

theorem exec_accountRead (p : PortId) (body : List Byte) (s : State) :
    exec (.accountRead p body) s
      = .next (takeCommand p anyRole (withLength 2 body (withRange (readIndex body) accountRead)) s) := rfl

/-- Settles O42: each check by the law of the shared checks, and the response by the layout of its bytes. -/
theorem accountReadShowsTheAccount : Obligations.AccountReadShowsTheAccount := by
  intro s p body hs
  simp only [exec_accountRead]
  refine ⟨?format, ?range, fun i hb hi => ?index⟩
  case format => exact fun hb => congrArg _ (takeCommand_format _ hs hb)
  case range => exact fun hb hi => congrArg _ (takeCommand_range _ hs hb (readIndex_none hi))
  case index =>
    cases he : s.entry i with
    | none => exact congrArg _ (takeCommand_refused hs hb (readIndex_of hi) (accountRead_unused he))
    | some e =>
      obtain ⟨hstate, hcause, hbalance, hlimit, hheld, hopen, hflags, havailable⟩ := fieldAt_accountBytes e
      exact ⟨accountBytes e, congrArg _ (takeCommand_answers hs hb (readIndex_of hi) (accountRead_used he) rfl),
        accountBytes_length e, hstate, hcause, hbalance, hlimit, hheld, hopen,
        hflags.trans (creditFlagsByte_toNat ..), havailable⟩

/-! ### ACCOUNT_LIMIT (R151) -/

theorem readAccountLimit_of {body : List Byte} {i : AccountIndex} (hi : fieldAt body 0 2 = i.val)
    (hlimit : fieldAt body 2 4 ≤ 16777215) : readAccountLimit body = some (i, fieldAt body 2 4) := by
  simp [readAccountLimit, readIndex_of hi, within_of (Nat.zero_le _) hlimit]

theorem readAccountLimit_none {body : List Byte} (h : 8191 < fieldAt body 0 2 ∨ 16777215 < fieldAt body 2 4) :
    readAccountLimit body = none := by
  rcases h with hindex | hlimit
  · simp [readAccountLimit, readIndex_none hindex]
  · simp [readAccountLimit, within_none (.inr hlimit)]

theorem accountLimit_unused {s : State} {i : AccountIndex} (limit : Nat) (h : s.entry i = none) :
    accountLimit (i, limit) s = refuse .noSubscriber s := by
  simp [accountLimit, h]

theorem accountLimit_used {s : State} {i : AccountIndex} {e : Entry} (limit : Nat) (h : s.entry i = some e) :
    accountLimit (i, limit) s = ⟨.ok,
      bytesOf 2 i.val ++ bytesOfInt (max (-2147483648) (min 2147483647 (e.balance + limit - e.held))),
      s.setEntry i { e with creditLimit := limit }⟩ := by
  simp [accountLimit, h, Entry.reported_eq]

theorem exec_accountLimit (p : PortId) (body : List Byte) (s : State) :
    exec (.accountLimit p body) s = .next (takeCommand p [.accounts, .supervisor]
      (withLength 6 body (withRange (readAccountLimit body) accountLimit)) s) := rfl

/-- A port served in any role is served in the roles that hold its own. -/
theorem State.serves.of_mem {s : State} {p : PortId} {roles allowed : List Role} (h : s.serves p roles)
    (hr : (s.port p).role ∈ allowed) : s.serves p allowed :=
  ⟨h.1, h.2.1, hr⟩

/-- A port served in any role is answered ROLE when its role may not give the command. -/
theorem takeCommand_role_of_serves {s : State} {p : PortId} {roles allowed : List Role} (owner : State → Reply)
    (h : s.serves p roles) (hr : (s.port p).role ∉ allowed) : takeCommand p allowed owner s = s.answers p .role [] := by
  have hphase : s.phase ≠ .starting := by simp [h.1]
  exact takeCommand_role owner (State.listens_of_serves h) hphase hr

/-- Settles O44: ROLE by the port's role, then each check by the law of the shared checks; replacing the limit leaves the
ports alone, so the response is fixed in the state with the new entry. -/
theorem accountLimitReplacesTheLimit : Obligations.AccountLimitReplacesTheLimit := by
  intro s p body hany
  simp only [exec_accountLimit]
  refine ⟨?role, fun hrole => ?served⟩
  case role =>
    intro haccounts hsupervisor
    exact congrArg _ (takeCommand_role_of_serves _ hany (by simp [haccounts, hsupervisor]))
  case served =>
    have hs : s.serves p [.accounts, .supervisor] := hany.of_mem (by simpa using hrole)
    refine ⟨?format, ?range, fun i hb hi hlimit => ?index⟩
    case format => exact fun hb => congrArg _ (takeCommand_format _ hs hb)
    case range => exact fun hb hout => congrArg _ (takeCommand_range _ hs hb (readAccountLimit_none hout))
    case index =>
      have hread := readAccountLimit_of hi hlimit
      cases he : s.entry i with
      | none => exact congrArg _ (takeCommand_refused hs hb hread (accountLimit_unused _ he))
      | some e => exact congrArg _ (takeCommand_answers hs hb hread (accountLimit_used _ he) rfl)

end Sys2Proof.Machine
end

/-! ## What a step can do: a chain of moves

Every command is a chain of moves, each an update of one record or one joint update that an invariant needs whole (a closing,
an admission, a fetch, a departure from UP). The commands are taken apart once, in `runs_after`; each invariant is then
checked move by move. -/

section
namespace Sys2Proof.Machine

/-! ### The moves -/

/-- The two states hold the same tables, ports, zones, links, journal and clock. -/
structure State.Alike (s t : State) : Prop where
  ports : t.ports = s.ports
  directory : t.directory = s.directory
  addressMap : t.addressMap = s.addressMap
  epochs : t.epochs = s.epochs
  messages : t.messages = s.messages
  zones : t.zones = s.zones
  links : t.links = s.links
  journal : t.journal = s.journal
  clock : t.clock = s.clock

/-- What every update of a message that stays in its slot keeps. -/
structure Message.Keeps (m n : Message) : Prop where
  closing : n.closing = m.closing
  hold : n.hold = m.hold
  billed : n.billed = m.billed
  port : n.port = m.port

/-- A zone may fill only while its link is UP. -/
def Zone.fillsOnlyUp (link : LinkState) (x y : Zone) : Prop :=
  link = .up ∨ ((x.queue = [] → y.queue = []) ∧ (x.inFlight = none → y.inFlight = none))

/-- A link does not leave UP, and enters it or stays in it with a profile. -/
structure Link.StaysUp (x y : Link) : Prop where
  up : x.state = .up → y.state = .up
  profile : y.state = .up → y.profile.isSome ∨ x.state = .up ∧ (x.profile.isSome → y.profile.isSome)

/-- The commands that take a device reset (R172). -/
def takesReset (i : Instr) : Prop :=
  (∃ a b, i = .officeResetTakesEffect a b) ∨ (∃ a b, i = .powerOn a b) ∨ ∃ a b, i = .resetNLow a b

/-- The moves a command is made of. Under `strict` zones fill only while their links are UP, and links leave UP only together
with the emptying of their zones. -/
inductive State.Move (i : Instr) (strict : Prop) : State → State → Prop
  | aside {s t : State} (alike : s.Alike t) : Move i strict s t
  | clock {s : State} (c : Clock) (sets : (∃ p body, i = .clockSet p body) ∨ i = .oneSecondStep) :
      Move i strict s { s with clock := c }
  | reset {s : State} (rate1 rate0 : Bool) (ph : Phase) (resets : takesReset i) :
      Move i strict s (s.deviceReset rate1 rate0 ph)
  | port {s : State} (p : PortId) (x : Port) (role : x.role = (s.port p).role) (events : x.events = (s.port p).events)
      (lost : x.lost = (s.port p).lost) (outcomes : x.outcomes = (s.port p).outcomes) : Move i strict s (s.setPort p x)
  | role {s : State} (p : PortId) (r : Role) (other : ¬ (s.onlySupervisor p ∧ r ≠ .supervisor)) :
      Move i strict s (s.setPort p { s.port p with role := r })
  | takeEvents {s : State} (p : PortId) (n : Nat) :
      Move i strict s (s.setPort p { s.port p with events := (s.port p).events.drop n, lost := false })
  | post {s : State} (kind : EventKind) (subject : Nat) (detail : Int) : Move i strict s (s.post kind subject detail)
  | entry {s : State} {j : AccountIndex} {e e' : Entry} (used : s.entry j = some e) (address : e'.address = e.address)
      (held : e'.held = e.held) (openCount : e'.openCount = e.openCount) : Move i strict s (s.setEntry j e')
  | createEntry {s : State} {r : SubscriberWriteReq} (unused : s.entry r.index = none)
      (free : ∀ j, s.mapped r.address = some j → j = r.index) :
      Move i strict s
        { s.setEntry r.index (createdEntry r) with addressMap := tblSet r.address r.index s.addressMap }
  | changeEntry {s : State} {r : SubscriberWriteReq} {e : Entry} (used : s.entry r.index = some e)
      (free : ∀ j, s.mapped r.address = some j → j = r.index) :
      Move i strict s
        { s.setEntry r.index (changedEntry r e) with
          addressMap := tblSet r.address r.index (tblErase e.address s.addressMap) }
  | deleteEntry {s : State} {j : AccountIndex} {e : Entry} (used : s.entry j = some e) (idle : e.openCount = 0) :
      Move i strict s { s with directory := tblErase j s.directory, addressMap := tblErase e.address s.addressMap }
  | everyMessage {s : State} (f : Message → Message) (keeps : ∀ m : Message, m.Keeps (f m))
      (attempts : ∀ m : Message, (f m).attempts = m.attempts) :
      Move i strict s { s with messages := tblMap (fun _ m => f m) s.messages }
  | openMessage {s : State} {slot : SlotId} {m m' : Message} (isOpen : s.openMessage slot = some m) (keeps : m.Keeps m') :
      Move i strict s (s.setMessage slot m')
  | takeSlot {s : State} {slot : SlotId} {m : Message} {e : Entry} (submits : ∃ p body, i = .submit p body)
      (free : s.message slot = none) (room : s.journalFull = false) (isOpen : m.closing = none)
      (billed : s.entry m.billed = some e) :
      Move i strict s ((s.setMessage slot m).setEntry m.billed
        { e with held := e.held + m.hold, openCount := e.openCount + 1 })
  | close (w : Work) (slot : SlotId) (o : MsgOutcome) (k : Nat) : Move i strict w.state (w.close slot o k).state
  | takeOutcomes {s : State} (p : PortId) (n : Nat) (fetches : ∃ p body, i = .fetchOutcomes p body) :
      Move i strict s (((s.port p).outcomes.take n).foldl State.freeSlotOf
        (s.setPort p { s.port p with outcomes := (s.port p).outcomes.drop n }))
  | journal {s : State} (j : Journal) (shorter : j.records.length ≤ s.journal.records.length) :
      Move i strict s { s with journal := j }
  | record {s : State} (r : JournalRecord) (room : s.journalFull = false) :
      Move i strict s { s with journal := { s.journal with records := s.journal.records ++ [r] } }
  | zones {s : State} (v : Vector Zone 8)
      (fills : strict → ∀ z, (s.zone z).fillsOnlyUp (s.link z).state (bankGet v z)) : Move i strict s { s with zones := v }
  | links {s : State} (v : Vector Link 8) (stays : strict → ∀ z, (s.link z).StaysUp (bankGet v z)) :
      Move i strict s { s with links := v }
  | leaveUp {s : State} (z : ZoneId) (x : Link) (kind : EventKind) (subject : Nat) (detail : Int) (down : x.state ≠ .up) :
      Move i strict s (((s.setLink z x).post kind subject detail).setZone z { s.zone z with queue := [], inFlight := none })

/-- A command's moves one after another. -/
abbrev State.Runs (i : Instr) (strict : Prop) : State → State → Prop := Relation.ReflTransGen (State.Move i strict)

/-- What every move keeps, a chain of moves keeps. -/
theorem State.Runs.keeps {i : Instr} {strict : Prop} {P : State → Prop}
    (hP : ∀ {s t}, State.Move i strict s t → P s → P t) {s t : State} (h : State.Runs i strict s t) (hs : P s) : P t := by
  induction h with
  | refl => exact hs
  | tail _ move ih => exact hP move ih

theorem Message.Keeps.refl (m : Message) : m.Keeps m := ⟨rfl, rfl, rfl, rfl⟩

/-! ### One record -/

section
variable {i : Instr} {strict : Prop}

theorem State.Move.runs {s t : State} (h : State.Move i strict s t) : State.Runs i strict s t := .single h

theorem State.runs_of_eq {s t : State} (h : t = s) : State.Runs i strict s t := h ▸ .refl

theorem State.runs_foldl {α : Type} (f : State → α → State) (hf : ∀ s a, State.Runs i strict s (f s a)) (l : List α)
    (s : State) : State.Runs i strict s (l.foldl f s) := by
  induction l generalizing s with
  | nil => exact .refl
  | cons a rest ih => exact (hf s a).trans (ih _)

theorem Work.runs_foldl {α : Type} (f : Work → α → Work) (hf : ∀ w a, State.Runs i strict w.state (f w a).state) (l : List α)
    (w : Work) : State.Runs i strict w.state (l.foldl f w).state := by
  induction l generalizing w with
  | nil => exact .refl
  | cons a rest ih => exact (hf w a).trans (ih _)

theorem Work.runs_map (f : State → State) (w : Work) (h : State.Runs i strict w.state (f w.state)) :
    State.Runs i strict w.state (w.map f).state := h

/-- A bank with one record replaced differs only there. -/
theorem bankGet_bankSet_rec {α : Type} {n : Nat} {P : α → α → Prop} (hP : ∀ x, P x x) {v : Vector α n} {j : Fin n} {x : α}
    (h : P (bankGet v j) x) (k : Fin n) : P (bankGet v k) (bankGet (bankSet v j x) k) := by
  by_cases hk : k = j
  · subst hk; rwa [bankGet_bankSet_self]
  · rw [bankGet_bankSet_ne v x hk]; exact hP _

theorem Zone.fillsOnlyUp_refl (l : LinkState) (x : Zone) : x.fillsOnlyUp l x := .inr ⟨id, id⟩

theorem Link.StaysUp.refl (x : Link) : x.StaysUp x := ⟨id, fun h => .inr ⟨h, id⟩⟩

theorem State.runs_setZone {s : State} {z : ZoneId} {x : Zone}
    (h : strict → (s.zone z).fillsOnlyUp (s.link z).state x) : State.Runs i strict s (s.setZone z x) := by
  refine (State.Move.zones _ fun hs y => ?_).runs
  by_cases hy : y = z
  · subst hy; rw [bankGet_bankSet_self]; exact h hs
  · rw [bankGet_bankSet_ne _ _ hy]; exact Zone.fillsOnlyUp_refl _ _

theorem State.runs_setLink {s : State} {z : ZoneId} {x : Link} (h : (s.link z).StaysUp x) :
    State.Runs i strict s (s.setLink z x) :=
  (State.Move.links _ fun _ => bankGet_bankSet_rec Link.StaysUp.refl h).runs

/-- A zone whose queue and batch stand. -/
theorem State.runs_setZone_same {s : State} {z : ZoneId} {x : Zone} (hq : x.queue = (s.zone z).queue)
    (hb : x.inFlight = (s.zone z).inFlight) : State.Runs i strict s (s.setZone z x) :=
  State.runs_setZone fun _ => .inr ⟨hq.trans, hb.trans⟩

/-- A link whose state and profile stand. -/
theorem Link.StaysUp.of_eq {x y : Link} (hs : y.state = x.state) (hp : y.profile = x.profile) : x.StaysUp y :=
  ⟨hs.trans, fun h => .inr ⟨hs ▸ h, fun k => hp ▸ k⟩⟩

/-- A link that was not UP and is not UP. -/
theorem Link.StaysUp.of_down {x y : Link} (hx : x.state ≠ .up) (hy : y.state ≠ .up) : x.StaysUp y :=
  ⟨fun h => absurd h hx, fun h => absurd h hy⟩

/-- A link that enters UP with a profile. -/
theorem Link.StaysUp.of_entry {x y : Link} (hy : y.state = .up) (hp : y.profile.isSome) : x.StaysUp y :=
  ⟨fun _ => hy, fun _ => .inl hp⟩

theorem State.runs_aside {s t : State} (h : s.Alike t) : State.Runs i strict s t := (State.Move.aside h).runs

theorem State.runs_post (kind : EventKind) (subject : Nat) (detail : Int) (s : State) :
    State.Runs i strict s (s.post kind subject detail) := (State.Move.post ..).runs

theorem State.runs_stalls (s : State) (l : List SlotId) : State.Runs i strict s { s with stalls := l } :=
  State.runs_aside ⟨rfl, rfl, rfl, rfl, rfl, rfl, rfl, rfl, rfl⟩

theorem State.runs_setMessage {s : State} {slot : SlotId} {m m' : Message} (h : s.openMessage slot = some m) (k : m.Keeps m') :
    State.Runs i strict s (s.setMessage slot m') := (State.Move.openMessage h k).runs

theorem State.runs_close (slot : SlotId) (o : MsgOutcome) (k : Nat) (w : Work) :
    State.Runs i strict w.state (w.close slot o k).state := (State.Move.close w slot o k).runs

/-- A response changes nothing of a port that an invariant speaks of. -/
theorem State.runs_respond (s : State) (p : PortId) (g : Nat) (st : Status) (b : List Byte) :
    State.Runs i strict s (s.respond p g st b) := (State.Move.port p _ (by rfl) (by rfl) (by rfl) (by rfl)).runs

/-! ### Flags and tests -/

theorem State.runs_congestionTest (z : ZoneId) (s : State) : State.Runs i strict s (s.congestionTest z) := by
  unfold State.congestionTest
  dsimp only
  split
  · exact (State.runs_setZone_same (by rfl) (by rfl)).trans (State.runs_post ..)
  · split
    · exact (State.runs_setZone_same (by rfl) (by rfl)).trans (State.runs_post ..)
    · exact .refl

theorem State.runs_highWaterTest (s : State) : State.Runs i strict s s.highWaterTest := by
  unfold State.highWaterTest
  dsimp only
  split
  · split
    · exact (State.Move.journal _ (Nat.le_of_eq (by rfl))).runs.trans (State.runs_post ..)
    · exact .refl
  · exact (State.Move.journal _ (Nat.le_of_eq (by rfl))).runs

theorem State.runs_appendRecord {s : State} (r : JournalRecord) (h : s.journalFull = false) :
    State.Runs i strict s (s.appendRecord r) :=
  (State.Move.record r h).runs.trans (State.runs_highWaterTest _)

/-! ### Placing, completing, forming -/

theorem Work.runs_join {z : ZoneId} {w : Work} (slot : SlotId) (m : Message) (n : Nat)
    (h : (w.state.link z).state = .up) : State.Runs i strict w.state (w.join z slot m n).state :=
  State.runs_setZone fun _ => .inl h

theorem Work.runs_joins (l : List ZoneId) (slot : SlotId) (m : Message) (n : Nat) (w : Work)
    (h : ∀ z ∈ l, (w.state.link z).state = .up) :
    State.Runs i strict w.state (l.foldl (fun v z => v.join z slot m n) w).state := by
  induction l generalizing w with
  | nil => exact .refl
  | cons z rest ih =>
    exact (Work.runs_join slot m n (h z List.mem_cons_self)).trans
      (ih (w.join z slot m n) fun y hy => h y (List.mem_cons_of_mem _ hy))

theorem State.zoneIn_upZones (s : State) (z : ZoneId) : zoneIn z s.upZones = true ↔ (s.link z).state = .up := by
  rw [State.upZones, zoneIn_zonesWhere, decide_eq_true_iff]

theorem Work.runs_place (slot : SlotId) (w : Work) : State.Runs i strict w.state (w.place slot).state := by
  unfold Work.place
  split
  · exact .refl
  · next m hm =>
    split
    · exact .refl
    · next a ha =>
      dsimp only
      generalize hv : (w.map fun s => s.setMessage slot
        { m with attempts :=
          changeLast (fun r => { r with pending := a.requested &&& w.state.upZones }) m.attempts }) = v
      have hset : State.Runs i strict w.state v.state := by
        rw [← hv]; exact State.runs_setMessage hm ⟨rfl, rfl, rfl, rfl⟩
      have hup : ∀ z ∈ allZones.filter fun z => zoneIn z (a.requested &&& w.state.upZones), (v.state.link z).state = .up := by
        intro z hz
        have hin := zoneIn_of_and (List.mem_filter.mp hz).2
        rw [← hv]
        exact (State.zoneIn_upZones w.state z).mp hin
      have hjoins := hset.trans (Work.runs_joins _ slot m a.number v hup)
      split
      · exact hset.trans (State.runs_stalls ..)
      · split
        · exact hjoins
        · exact hjoins

theorem Work.runs_resume (z : ZoneId) (w : Work) : State.Runs i strict w.state (w.resume z).state := by
  unfold Work.resume
  dsimp only
  exact (Work.runs_map _ w (State.runs_stalls w.state _)).trans
    (Work.runs_foldl _ (fun v slot => Work.runs_place slot v) _ _)

theorem Work.runs_complete (slot : SlotId) (w : Work) : State.Runs i strict w.state (w.complete slot).state := by
  rcases Work.complete_cases slot w with h | h | ⟨m, hm, h⟩
  · rw [h]
  · rw [h]; exact State.runs_close ..
  · rw [h]; exact State.runs_setMessage hm ⟨rfl, rfl, rfl, rfl⟩

theorem Link.send_state (b : OutBlock) (x : Link) : (x.send b).state = x.state := by
  unfold Link.send; split <;> rfl

theorem Link.send_profile (b : OutBlock) (x : Link) : (x.send b).profile = x.profile := by
  unfold Link.send; split <;> rfl

theorem Link.staysUp_send (b : OutBlock) (x : Link) : x.StaysUp (x.send b) :=
  .of_eq (Link.send_state b x) (Link.send_profile b x)

theorem Link.StaysUp.of_still {x y : Link} (h : y.still = x.still) : x.StaysUp y :=
  .of_eq (show y.still.state = x.still.state by rw [h]) (show y.still.profile = x.still.profile by rw [h])

theorem State.formable_up {s : State} {z : ZoneId} {p : Profile} (h : s.formable z = some p) : (s.link z).state = .up := by
  unfold State.formable at h
  split at h
  · next hc => exact hc.1
  · cases h

theorem Work.runs_form (z : ZoneId) (w : Work) : State.Runs i strict w.state (w.form z).state := by
  unfold Work.form
  split
  · next p hp =>
    exact (State.runs_setZone fun _ => .inl (State.formable_up hp)).trans
      (State.runs_setLink (.of_still (Link.sendAll_still _ _)))
  · exact .refl

theorem Work.runs_finish (w : Work) : State.Runs i strict w.state w.finish :=
  (Work.runs_foldl _ (fun v z => Work.runs_form z v) _ w).trans
    (State.runs_foldl _ (fun s z => State.runs_congestionTest z s) _ _)

theorem State.runs_closeMessage (slot : SlotId) (o : MsgOutcome) (k : Nat) (s : State) :
    State.Runs i strict s (s.closeMessage slot o k) :=
  (State.runs_close slot o k s.begin).trans (Work.runs_finish _)

/-! ### Answers and link loss -/

theorem Work.runs_credit (z : ZoneId) (be : BatchEntry) (w : Work) : State.Runs i strict w.state (w.credit z be).state := by
  rcases Work.credit_cases z be w with h | ⟨m, a, h, hv, hz⟩
  · rw [h]
  · have hset : State.Runs i strict w.state (w.map fun s => s.setMessage be.entry.slot
        { m with attempts := changeLast (fun _ => a.credited z w.state.clock) m.attempts }).state :=
      State.runs_setMessage (State.openMessage_of_liveEntry h) ⟨rfl, rfl, rfl, rfl⟩
    rw [Work.credit_live h hv hz]
    split
    · exact hset.trans (Work.runs_complete ..)
    · exact hset

theorem State.runs_unload (z : ZoneId) (s : State) :
    State.Runs i strict s ((s.setZone z { s.zone z with inFlight := none }).setLink z ((s.link z).dropStream)) := by
  refine Relation.ReflTransGen.trans ?_ (State.runs_setLink (.of_eq ?_ ?_))
  · exact State.runs_setZone fun _ => .inr ⟨id, fun _ => rfl⟩
  · rfl
  · rfl

theorem Work.runs_accepted (z : ZoneId) (b : Batch) (w : Work) : State.Runs i strict w.state (w.accepted z b).state := by
  unfold Work.accepted
  dsimp only
  have h : State.Runs i strict w.state (b.entries.foldl (fun v be => v.credit z be) (w.map fun s =>
      (s.setZone z { s.zone z with inFlight := none }).setLink z ((s.link z).dropStream))).state :=
    (Work.runs_map _ w (State.runs_unload z w.state)).trans (Work.runs_foldl _ (fun v be => Work.runs_credit z be v) _ _)
  split <;> exact h

theorem Work.links_giveBack (z : ZoneId) (be : BatchEntry) (w : Work) : (w.giveBack z be).state.links = w.state.links := by
  unfold Work.giveBack
  split <;> rfl

theorem Work.runs_giveBack (z : ZoneId) (be : BatchEntry) (w : Work) (h : strict → (w.state.link z).state = .up) :
    State.Runs i strict w.state (w.giveBack z be).state := by
  unfold Work.giveBack
  split
  · exact State.runs_setZone fun hs => .inl (h hs)
  · exact .refl

/-- Entries return to a queue while the zone's link is UP. -/
theorem Work.runs_giveBacks (z : ZoneId) (l : List BatchEntry) (w : Work) (h : strict → (w.state.link z).state = .up) :
    State.Runs i strict w.state (l.foldl (fun v be => v.giveBack z be) w).state := by
  induction l generalizing w with
  | nil => exact .refl
  | cons be rest ih =>
    have hlink : ((w.giveBack z be).state.link z) = w.state.link z := by
      rw [State.link, Work.links_giveBack, State.link]
    exact (Work.runs_giveBack z be w h).trans (ih _ fun hs => hlink ▸ h hs)

theorem Work.runs_refused (z : ZoneId) (b : Batch) (w : Work) (h : strict → (w.state.link z).state = .up) :
    State.Runs i strict w.state (w.refused z b).state := by
  refine (Work.runs_map _ w (State.runs_unload z w.state)).trans (Work.runs_giveBacks z b.entries _ fun hs => ?_)
  simpa [Work.map, Link.dropStream] using h hs

theorem Work.runs_lose (z : ZoneId) (q : QueueEntry) (w : Work) : State.Runs i strict w.state (w.lose z q).state := by
  rcases Work.lose_cases z q w with h | ⟨m, a, h, hz⟩
  · rw [h]
  · have hset : State.Runs i strict w.state (w.map fun s => s.setMessage q.slot
        { m with attempts := changeLast (fun r => { r with pending := zoneRemove z a.pending }) m.attempts }).state :=
      State.runs_setMessage (State.openMessage_of_liveEntry h) ⟨rfl, rfl, rfl, rfl⟩
    rw [Work.lose_live h hz _ rfl]
    split
    · exact hset
    · split
      · exact hset.trans (Work.runs_complete ..)
      · exact hset.trans (State.runs_stalls ..)

/-- A departure from UP takes the link out of UP and empties its zone in one move. -/
theorem Work.runs_leaveUp (z : ZoneId) (cause : DownCause) (w : Work) : State.Runs i strict w.state (w.leaveUp z cause).state := by
  unfold Work.leaveUp Work.loseZone
  dsimp only
  generalize hv : (Work.mk _ _ _) = v
  have hmove : State.Runs i strict w.state v.state := by
    rw [← hv]
    exact (State.Move.leaveUp z { (w.state.link z).stopTimers.cut with state := .failed, downCause := some cause } .linkDown
      z.val (downCauseCode cause).toNat (by simp)).runs
  exact hmove.trans (Work.runs_foldl _ (fun v q => Work.runs_lose z q v) _ v)

theorem State.runs_enterFailed {z : ZoneId} {s : State} (cause : DownCause) (h : (s.link z).state ≠ .up) :
    State.Runs i strict s (s.enterFailed z cause) := State.runs_setLink (.of_down h (by simp))

theorem State.runs_enterOff {z : ZoneId} {s : State} (h : (s.link z).state ≠ .up) :
    State.Runs i strict s (s.enterOff z) := State.runs_setLink (.of_down h (by simp))

theorem State.runs_enterHunt {z : ZoneId} {s : State} (h : (s.link z).state ≠ .up) :
    State.Runs i strict s (s.enterHunt z) := State.runs_setLink (.of_down h (by simp [Link.send_state]))

theorem Work.link_leaveUp (z : ZoneId) (cause : DownCause) (w : Work) :
    ((w.leaveUp z cause).state.link z).state = .failed := by
  rw [(Work.left_leaveUp z cause w).link]

theorem Work.runs_failUp (z : ZoneId) (cause : DownCause) (w : Work) : State.Runs i strict w.state (w.failUp z cause).state :=
  (Work.runs_leaveUp z cause w).trans (State.runs_enterFailed cause (by simp [Work.link_leaveUp]))

/-! ### The exchange -/

theorem Link.changeRate_profile (rate : Rate) (x : Link) : (x.changeRate rate).profile = x.profile := by
  unfold Link.changeRate
  dsimp only
  split_ifs <;> rfl

theorem Work.runs_enterUp (z : ZoneId) (p : Profile) (w : Work) : State.Runs i strict w.state (w.enterUp z p).state := by
  unfold Work.enterUp
  refine Relation.ReflTransGen.trans ?_ (Work.runs_resume z (w.map _))
  exact (State.runs_setLink (.of_entry (by rw [Link.changeRate_state]) (by rw [Link.changeRate_profile]; rfl))).trans
    (State.runs_post ..)

theorem Work.runs_evaluate {z : ZoneId} {w : Work} (page : SitePage) (h : (w.state.link z).state ≠ .up) :
    State.Runs i strict w.state (w.evaluate z page).state := by
  unfold Work.evaluate
  dsimp only
  split
  · exact State.runs_enterFailed _ h
  · split
    · exact State.runs_enterFailed _ h
    · have hpage : State.Runs i strict w.state (w.map fun s => s.setLink z ((s.link z).send (s.zone z).capPage)).state :=
        State.runs_setLink (Link.staysUp_send _ _)
      split
      · exact hpage.trans (State.runs_setLink (.of_eq (Link.send_state _ _) (Link.send_profile _ _)))
      · exact hpage.trans (Work.runs_enterUp ..)

theorem Work.runs_enterExchange {z : ZoneId} {w : Work} (page : SitePage) (h : (w.state.link z).state ≠ .up) :
    State.Runs i strict w.state (w.enterExchange z page).state := by
  refine (Work.runs_map _ w (State.runs_setLink (.of_down h ?_))).trans (Work.runs_evaluate page ?_)
  · simp
  · simp [Work.map]

end

end Sys2Proof.Machine
end

section
namespace Sys2Proof.Machine

section
variable {i : Instr} {strict : Prop}

/-! ### Retry, life and accounts -/

theorem State.runs_matchAck (t : AckTag) (s : State) : State.Runs i strict s (s.matchAck t) := by
  unfold State.matchAck
  split
  · exact .refl
  · split_ifs
    · exact .refl
    · exact .refl
    · exact .refl
    · split
      · exact State.runs_closeMessage ..
      · split_ifs
        · exact .refl
        · exact State.runs_post ..

theorem State.runs_seen (z : ZoneId) (a : PagerAddress) (s : State) : State.Runs i strict s (s.seen z a) := by
  unfold State.seen
  split
  · exact .refl
  · split
    · exact .refl
    · next h => exact (State.Move.entry h (by rfl) (by rfl) (by rfl)).runs

theorem State.runs_formAttempt {slot : SlotId} {m : Message} {s : State} (h : s.openMessage slot = some m) :
    State.Runs i strict s (s.formAttempt slot m) := by
  unfold State.formAttempt
  dsimp only
  generalize hv : s.setMessage slot _ = t
  have hset : State.Runs i strict s t := by rw [← hv]; exact State.runs_setMessage h ⟨rfl, rfl, rfl, rfl⟩
  exact hset.trans ((Work.runs_place slot t.begin).trans (Work.runs_finish _))

theorem State.runs_expireRetry (s : State) (slot : SlotId) : State.Runs i strict s (s.expireRetry slot) := by
  unfold State.expireRetry
  split
  · next h =>
    split
    · exact State.runs_formAttempt h
    · exact State.runs_closeMessage ..
  · exact .refl

theorem State.runs_expireLife (s : State) (slot : SlotId) : State.Runs i strict s (s.expireLife slot) := by
  unfold State.expireLife
  split
  · next m h =>
    refine Relation.ReflTransGen.trans ?_ (State.runs_closeMessage ..)
    exact State.runs_setMessage h ⟨rfl, rfl, rfl, rfl⟩
  · exact .refl

theorem State.runs_purge (j : AccountIndex) (s : State) : State.Runs i strict s (s.purge j) :=
  (Work.runs_foldl _ (fun w slot => State.runs_close slot .purged 0 w) _ s.begin).trans (Work.runs_finish _)

/-! ### The credit sweep -/

theorem State.runs_visit (j : AccountIndex) (s : State) : State.Runs i strict s (s.visit j) := by
  unfold State.visit
  split
  · exact .refl
  · next h =>
    dsimp only
    refine Relation.ReflTransGen.trans ?_ (State.runs_foldl _ (fun s ev => State.runs_post ..) _ _)
    exact (State.Move.entry h (by rfl) (by rfl) (by rfl)).runs

theorem State.runs_endPass (s : State) : State.Runs i strict s s.endPass := by
  unfold State.endPass
  dsimp only
  refine Relation.ReflTransGen.trans ?_ (State.runs_post ..)
  exact State.runs_aside ⟨rfl, rfl, rfl, rfl, rfl, rfl, rfl, rfl, rfl⟩

theorem State.runs_sweepVisit (s : State) : State.Runs i strict s s.sweepVisit := by
  unfold State.sweepVisit
  dsimp only
  refine (State.runs_visit s.sweep.position s).trans ?_
  split
  · exact State.runs_endPass _
  · exact State.runs_aside ⟨rfl, rfl, rfl, rfl, rfl, rfl, rfl, rfl, rfl⟩

theorem State.runs_sweepVisits (n : Nat) (s : State) : State.Runs i strict s (s.sweepVisits n) := by
  induction n generalizing s with
  | zero => exact .refl
  | succ n ih =>
    unfold State.sweepVisits
    split
    · exact (State.runs_sweepVisit s).trans (ih _)
    · exact (State.runs_sweepVisit s).trans (ih _)
    · exact .refl
    · exact .refl

theorem State.runs_sweepTick (s : State) : State.Runs i strict s s.sweepTick := by
  unfold State.sweepTick
  split
  · exact .refl
  · exact State.runs_sweepVisits ..
  · exact State.runs_sweepVisits ..
  · exact State.runs_visit ..

/-! ### Ticks and seconds -/

theorem Message.keeps_tick (m : Message) : m.Keeps m.tick := by
  rw [Message.tick_eq]
  exact ⟨rfl, rfl, rfl, rfl⟩

theorem Message.attempts_tick (m : Message) : m.tick.attempts = m.attempts := by rw [Message.tick_eq]

theorem Message.keeps_second (m : Message) : m.Keeps m.second := by
  unfold Message.second
  split <;> exact ⟨rfl, rfl, rfl, rfl⟩

theorem Message.attempts_second (m : Message) : m.second.attempts = m.attempts := by
  unfold Message.second
  split <;> rfl

/-- The counting of a tick, table by table. -/
theorem State.runs_count (s : State) : State.Runs i strict s s.count := by
  have hzones : State.Runs i strict s { s with zones := bankMap Zone.tick s.zones } := by
    refine (State.Move.zones _ fun _ z => .inr ⟨fun h => ?_, fun h => ?_⟩).runs
    · rw [bankGet_bankMap]; exact h
    · rw [bankGet_bankMap]; exact Option.map_eq_none_iff.mpr h
  have hlinks : ∀ u : State, State.Runs i strict u { u with links := bankMap Link.tick u.links } := fun u =>
    (State.Move.links _ fun _ z => by rw [bankGet_bankMap]; exact .of_eq rfl rfl).runs
  have hmessages : ∀ u : State, State.Runs i strict u { u with messages := tblMap (fun _ m => m.tick) u.messages } := fun u =>
    (State.Move.everyMessage Message.tick Message.keeps_tick Message.attempts_tick).runs
  exact ((hzones.trans (hlinks _)).trans (hmessages _)).trans
    (State.runs_aside ⟨rfl, rfl, rfl, rfl, rfl, rfl, rfl, rfl, rfl⟩)

theorem State.runs_tick (s : State) : State.Runs i strict s s.tick :=
  ((State.runs_count s).trans (State.runs_foldl _ State.runs_expireRetry _ _)).trans (State.runs_sweepTick _)

theorem State.runs_second (s : State) : State.Runs .oneSecondStep strict s s.second := by
  unfold State.second
  refine Relation.ReflTransGen.trans ?_ (State.runs_foldl _ State.runs_expireLife _ _)
  have hmessages : State.Runs .oneSecondStep strict s { s with messages := tblMap (fun _ m => m.second) s.messages } :=
    (State.Move.everyMessage Message.second Message.keeps_second Message.attempts_second).runs
  refine (hmessages.trans (State.Move.clock (s.clock + 1) (.inr rfl)).runs).trans ?_
  exact State.runs_aside ⟨rfl, rfl, rfl, rfl, rfl, rfl, rfl, rfl, rfl⟩

/-! ### Taking commands and blocks -/

theorem runs_takeCommand {s : State} {p : PortId} {roles : List Role} {owner : State → Reply}
    (h : State.Runs i strict s (owner s).state) : State.Runs i strict s (takeCommand p roles owner s) := by
  rcases takeCommand_cases s p roles owner with hs | ⟨st, hs⟩ | ⟨-, hs⟩
  · exact State.runs_of_eq hs
  · rw [hs]; exact State.runs_respond ..
  · rw [hs]; exact h.trans (State.runs_respond ..)

theorem runs_withLength {n : Nat} {body : List Byte} {owner : State → Reply} {s : State}
    (h : State.Runs i strict s (owner s).state) : State.Runs i strict s (withLength n body owner s).state := by
  unfold withLength
  split
  · exact h
  · exact .refl

theorem runs_withRange {α : Type} {fields : Option α} {owner : α → State → Reply} {s : State}
    (h : ∀ r, fields = some r → State.Runs i strict s (owner r s).state) :
    State.Runs i strict s (withRange fields owner s).state := by
  cases fields with
  | none => exact .refl
  | some r => exact h r rfl

/-- A command of fixed length with a RANGE check. -/
theorem runs_command {α : Type} {s : State} {p : PortId} {roles : List Role} {n : Nat} {body : List Byte} {fields : Option α}
    {owner : α → State → Reply} (h : ∀ r, State.Runs i strict s (owner r s).state) :
    State.Runs i strict s (takeCommand p roles (withLength n body (withRange fields owner)) s) :=
  runs_takeCommand (runs_withLength (runs_withRange fun r _ => h r))

theorem State.runs_takeValid (z : ZoneId) (s : State) : State.Runs i strict s (s.takeValid z) :=
  State.runs_setLink (.of_eq rfl rfl)

theorem State.runs_countBad (z : ZoneId) (s : State) : State.Runs i strict s (s.countBad z) := by
  unfold State.countBad
  split
  · exact .refl
  · exact State.runs_setLink (.of_eq rfl rfl)

/-- A block's handling starts in a state whose link stands as it did, the block taken. -/
theorem runs_receive {α : Type} {z : ZoneId} {fields : Option α} {handle : LinkState → α → State → State} {s : State}
    (h : ∀ x u, u = s.takeValid z → (u.link z).state = (s.link z).state →
      State.Runs i strict u (handle (s.link z).state x u)) :
    State.Runs i strict s (receive z fields handle s) := by
  unfold receive
  split
  · exact .refl
  · cases fields with
    | none => exact State.runs_countBad ..
    | some x => exact (State.runs_takeValid z s).trans (h x _ rfl (by simp [State.link_takeValid]))

end

/-! ### Each command -/

section
variable {i : Instr} {strict : Prop}

theorem runs_subscriberWrite (r : SubscriberWriteReq) (s : State) : State.Runs i strict s (subscriberWrite r s).state := by
  unfold subscriberWrite
  split
  · exact .refl
  · next hfree =>
    have hmap : ∀ j, s.mapped r.address = some j → j = r.index := by
      intro j hj
      by_contra hne
      exact hfree (by simp [hj, hne])
    split
    · next h => exact (State.Move.createEntry h hmap).runs
    · next h =>
      split
      · exact .refl
      · exact (State.Move.changeEntry h hmap).runs

theorem runs_subscriberDelete (j : AccountIndex) (s : State) : State.Runs i strict s (subscriberDelete j s).state := by
  unfold subscriberDelete
  split
  · exact .refl
  · next h =>
    split_ifs with hopen hbalance
    · exact .refl
    · exact .refl
    · exact (State.Move.deleteEntry h (by omega)).runs

/-- An admission takes a FREE slot and places its hold on the billed entry. -/
theorem State.runs_admitted {s : State} {a : Admission} {p : PortId} {slot : SlotId} (hi : ∃ q body, i = .submit q body)
    (hbilled : s.entry a.req.billed = some a.billed) (hfree : s.message slot = none) (hroom : s.journalFull = false) :
    State.Runs i strict s (s.admitted a p slot) := by
  have hadmit : State.Runs i strict s ((s.setMessage slot (a.message p)).setEntry a.req.billed
      { a.billed with held := a.billed.held + a.hold, openCount := a.billed.openCount + 1 }) :=
    (State.Move.takeSlot (m := a.message p) hi hfree hroom rfl hbilled).runs
  exact hadmit.trans ((Work.runs_place slot (State.begin _)).trans (Work.runs_finish _))

theorem lowestFree_free {t : Tbl SlotId Message} {fuel n : Nat} {slot : SlotId} (h : lowestFree t fuel n = some slot) :
    tblGet slot t = none := by
  induction fuel generalizing n with
  | zero => cases h
  | succ fuel ih =>
    unfold lowestFree at h
    split at h
    · split at h
      · next hfree => cases h; exact hfree
      · exact ih h
    · cases h

theorem State.admissionRefusal_none {s : State} {a : Admission} (h : s.admissionRefusal a = none) : s.journalFull = false := by
  unfold State.admissionRefusal at h
  split_ifs at h with _ _ _ _ hfull
  exact Bool.eq_false_iff.mpr hfull

theorem runs_decideAdmission {p : PortId} {a : Admission} {s : State} (hi : ∃ q body, i = .submit q body)
    (hbilled : s.entry a.req.billed = some a.billed) : State.Runs i strict s (decideAdmission p a s).state := by
  unfold decideAdmission
  split
  · exact .refl
  · next hrefusal =>
    split
    · exact .refl
    · next hslot => exact State.runs_admitted hi hbilled (lowestFree_free hslot) (State.admissionRefusal_none hrefusal)

theorem runs_submit (p : PortId) (r : SubmitReq) (s : State) (hi : ∃ q body, i = .submit q body) :
    State.Runs i strict s (submit p r s).state := by
  unfold submit
  split
  · exact .refl
  · next hbilled =>
    dsimp only
    split
    · exact .refl
    · exact runs_decideAdmission hi hbilled
    · split
      · exact .refl
      · split
        · exact .refl
        · exact runs_decideAdmission hi hbilled

theorem runs_cancel (p : PortId) (id : SlotId × Epoch) (s : State) : State.Runs i strict s (cancel p id s).state := by
  unfold cancel
  split
  · exact .refl
  · split
    · exact .refl
    · split
      · exact .refl
      · exact State.runs_closeMessage ..

theorem runs_airHold (s : State) : State.Runs i strict s (airHold s).state := by
  unfold airHold
  dsimp only
  split
  · exact .refl
  · have hfreeze : ∀ u : State, State.Runs i strict u { u with
        messages := tblMap (fun _ (m : Message) => if m.inWait then ({ m with frozen := true } : Message) else m) u.messages } :=
      fun u => (State.Move.everyMessage (fun m => if m.inWait then ({ m with frozen := true } : Message) else m)
        (fun m => by split <;> exact ⟨rfl, rfl, rfl, rfl⟩) (fun m => by split <;> rfl)).runs
    exact (hfreeze s).trans (State.runs_aside ⟨rfl, rfl, rfl, rfl, rfl, rfl, rfl, rfl, rfl⟩)

theorem runs_airRelease (s : State) : State.Runs i strict s (airRelease s).state := by
  unfold airRelease
  dsimp only
  split
  · refine Relation.ReflTransGen.trans ?_ (Work.runs_finish _)
    have hthaw : State.Runs i strict s { s with
        messages := tblMap (fun _ (m : Message) => ({ m with frozen := false } : Message)) s.messages } :=
      (State.Move.everyMessage (fun m => ({ m with frozen := false } : Message)) (fun m => ⟨rfl, rfl, rfl, rfl⟩)
        (fun m => rfl)).runs
    exact hthaw.trans (State.runs_aside ⟨rfl, rfl, rfl, rfl, rfl, rfl, rfl, rfl, rfl⟩)
  · exact .refl

theorem runs_linkEnable (r : ZoneId × Bool) (s : State) : State.Runs i strict s (linkEnable r s).state := by
  obtain ⟨z, on⟩ := r
  show State.Runs i strict s (s.linkEnable z on)
  unfold State.linkEnable
  split
  · next h => exact State.runs_enterHunt (by simp [h])
  · exact .refl
  · exact .refl
  · refine ((Work.runs_leaveUp z .restart s.begin).trans ?_).trans (Work.runs_finish _)
    exact State.runs_enterOff (by simp [Work.link_leaveUp])
  · next h => exact State.runs_enterOff (by simpa using h)

theorem runs_linkRestart (z : ZoneId) (s : State) : State.Runs i strict s (linkRestart z s).state := by
  show State.Runs i strict s (s.linkRestart z)
  unfold State.linkRestart
  split
  · exact (Work.runs_failUp z .restart s.begin).trans (Work.runs_finish _)
  · next h => exact State.runs_enterFailed _ (by simp [h])
  · next h => exact State.runs_enterFailed _ (by simp [h])
  · exact State.runs_setLink (.of_eq rfl rfl)
  · exact .refl

theorem runs_accountAdjust (r : AccountIndex × Int × Nat) (s : State) : State.Runs i strict s (accountAdjust r s).state := by
  unfold accountAdjust
  split
  · exact .refl
  · next h =>
    split
    · exact .refl
    · next hfull =>
      dsimp only
      refine Relation.ReflTransGen.trans ?_ (State.runs_appendRecord _ ?_)
      · exact (State.Move.entry h (by rfl) (by rfl) (by rfl)).runs
      · exact Bool.eq_false_iff.mpr hfull

theorem runs_accountLimit (r : AccountIndex × Nat) (s : State) : State.Runs i strict s (accountLimit r s).state := by
  unfold accountLimit
  split
  · exact .refl
  · next h => exact (State.Move.entry h (by rfl) (by rfl) (by rfl)).runs

theorem runs_accountState (r : AccountIndex × EntryState × Bool) (s : State) :
    State.Runs i strict s (accountState r s).state := by
  unfold accountState
  split
  · exact .refl
  · next e h =>
    have hwrite : State.Runs i strict s (s.setEntry r.1 { e with state := r.2.1 }) :=
      (State.Move.entry h (by rfl) (by rfl) (by rfl)).runs
    dsimp only
    split
    · exact hwrite.trans (State.runs_purge ..)
    · exact hwrite

theorem runs_setRole (r : PortId × Role) (s : State) : State.Runs i strict s (setRole r s).state := by
  unfold setRole
  split
  · exact .refl
  · next h => exact (State.Move.role r.1 r.2 h).runs

theorem State.runs_batchTimerExpiry (z : ZoneId) (s : State) : State.Runs i strict s (s.batchTimerExpiry z) := by
  unfold State.batchTimerExpiry
  refine ((Work.runs_form z s.begin).trans (Work.runs_map _ _ ?_)).trans (Work.runs_finish _)
  exact State.runs_setZone_same rfl rfl

theorem State.runs_capNext {z : ZoneId} (identity : Nat) {s : State} (h : (s.link z).state = .exchange) :
    State.Runs i strict s (s.capNext z identity) := by
  unfold State.capNext
  split
  · exact .refl
  · dsimp only
    split
    · exact State.runs_enterFailed _ (by simp [h])
    · exact (Work.runs_enterUp z _ s.begin).trans (Work.runs_finish _)

theorem State.runs_siteStatus {z : ZoneId} {st : LinkState} (fault : Option RemoteFault) {s : State}
    (h : (s.link z).state = st) : State.Runs i strict s (s.siteStatus z st fault) := by
  unfold State.siteStatus
  split
  · exact State.runs_enterFailed _ (by simp [h])
  · exact (Work.runs_failUp z .remote s.begin).trans (Work.runs_finish _)
  · exact State.runs_setLink (.of_eq rfl rfl)
  · exact State.runs_setLink ⟨id, fun hup => .inr ⟨hup, fun k => by simpa using k⟩⟩
  · exact .refl
  · exact .refl
  · exact .refl

theorem Link.blockSent_state (x : Link) : x.blockSent.state = x.state := by
  unfold Link.blockSent
  dsimp only
  split
  · split <;> rfl
  · rfl

theorem Link.blockSent_profile (x : Link) : x.blockSent.profile = x.profile := by
  unfold Link.blockSent
  dsimp only
  split
  · split <;> rfl
  · rfl

theorem State.runs_answerEnded (s : State) (p : PortId) (bits : List Bool) : State.Runs i strict s (s.answerEnded p bits) := by
  have hport : State.Runs i strict s (s.setPort p { s.port p with
      receiver := .listening, frame := [], answer := none, unsent := bits, resetAfter := false }) :=
    (State.Move.port p _ (by rfl) (by rfl) (by rfl) (by rfl)).runs
  exact hport.trans (State.runs_aside ⟨rfl, rfl, rfl, rfl, rfl, rfl, rfl, rfl, rfl⟩)

theorem State.runs_frameDropped (s : State) (p : PortId) : State.Runs i strict s (s.frameDropped p) := by
  unfold State.frameDropped
  split
  · exact (State.Move.port p _ (by rfl) (by rfl) (by rfl) (by rfl)).runs
  · exact .refl

theorem State.answeredBatch_some {s : State} {z : ZoneId} {n : BitVec 8} {b : Batch} (h : s.answeredBatch z n = some b) :
    (s.zone z).inFlight = some b ∧ b.number = n := by
  simpa [State.answeredBatch, Option.filter_eq_some_iff] using h

end
end Sys2Proof.Machine
end

section
namespace Sys2Proof.Machine

theorem runs_of_exec {i : Instr} {strict : Prop} {s t : State} (h : exec i s = .next t) (ht : State.Runs i strict s t) :
    State.Runs i strict s (s.after i) := by
  rw [exec_after] at h
  cases h
  exact ht

/-- Every command is a chain of moves; under `strict`, from a state whose zones are empty where their link is not UP. -/
theorem runs_after (i : Instr) (strict : Prop) (s : State) (hdown : strict → s.downZonesEmpty) :
    State.Runs i strict s (s.after i) := by
  cases i with
  | subscriberWrite p body => exact runs_command fun r => runs_subscriberWrite r s
  | subscriberRead p body =>
    refine runs_command fun r => ?_
    unfold subscriberRead
    split <;> exact .refl
  | subscriberDelete p body => exact runs_command fun r => runs_subscriberDelete r s
  | planWrite p body => exact runs_command fun r => State.runs_aside ⟨rfl, rfl, rfl, rfl, rfl, rfl, rfl, rfl, rfl⟩
  | planRead p body => exact runs_command fun r => .refl
  | classifierWrite p body => exact runs_command fun r => State.runs_aside ⟨rfl, rfl, rfl, rfl, rfl, rfl, rfl, rfl, rfl⟩
  | classifierDefault p body =>
    refine runs_command fun r => ?_
    unfold classifierDefault
    dsimp only
    split <;> exact State.runs_aside ⟨rfl, rfl, rfl, rfl, rfl, rfl, rfl, rfl, rfl⟩
  | classifierRead p body =>
    refine runs_command fun r => ?_
    unfold classifierRead
    split <;> exact .refl
  | rangeWrite p body => exact runs_command fun r => State.runs_aside ⟨rfl, rfl, rfl, rfl, rfl, rfl, rfl, rfl, rfl⟩
  | rangeRead p body => exact runs_takeCommand (runs_withLength .refl)
  | classifyProbe p body =>
    refine runs_of_exec rfl ?_
    refine runs_takeCommand ?_
    split
    · refine runs_withRange fun r _ => ?_
      unfold classifyProbe
      split <;> exact .refl
    · exact .refl
  | submit p body =>
    refine runs_of_exec rfl ?_
    refine runs_takeCommand ?_
    split
    · exact runs_withRange fun r _ => runs_submit p r s ⟨p, body, rfl⟩
    · exact .refl
  | cancel p body => exact runs_command fun r => runs_cancel p r s
  | queryMessage p body =>
    refine runs_command fun r => ?_
    unfold queryMessage
    split <;> exact .refl
  | fetchOutcomes p body =>
    exact runs_takeCommand (runs_withLength (State.Move.takeOutcomes p 6 ⟨p, body, rfl⟩).runs)
  | zoneConfig p body => exact runs_command fun r => State.runs_setZone_same rfl rfl
  | readZone p body => exact runs_command fun r => .refl
  | airHold p body => exact runs_takeCommand (runs_withLength (runs_airHold s))
  | airRelease p body => exact runs_takeCommand (runs_withLength (runs_airRelease s))
  | linkEnable p body => exact runs_command fun r => runs_linkEnable r s
  | linkRestart p body => exact runs_command fun r => runs_linkRestart r s
  | readLink p body => exact runs_command fun r => State.runs_setLink (.of_eq rfl rfl)
  | retryStatus p body =>
    refine runs_command fun r => ?_
    unfold retryStatus
    split <;> exact .refl
  | accountRead p body =>
    refine runs_command fun r => ?_
    unfold accountRead
    split <;> exact .refl
  | accountAdjust p body => exact runs_command fun r => runs_accountAdjust r s
  | accountLimit p body => exact runs_command fun r => runs_accountLimit r s
  | accountState p body => exact runs_command fun r => runs_accountState r s
  | journalFetch p body =>
    refine runs_takeCommand (runs_withLength ?_)
    exact (State.Move.journal _ (by simp)).runs.trans (State.runs_highWaterTest _)
  | journalConfig p body =>
    refine runs_command fun r => ?_
    exact (State.Move.journal _ (Nat.le_of_eq (by rfl))).runs.trans (State.runs_highWaterTest _)
  | sweepStart p body => exact runs_command fun r => State.runs_aside ⟨rfl, rfl, rfl, rfl, rfl, rfl, rfl, rfl, rfl⟩
  | sweepStatus p body => exact runs_takeCommand (runs_withLength .refl)
  | fetchEvents p body => exact runs_takeCommand (runs_withLength (State.Move.takeEvents p 8).runs)
  | setRole p body => exact runs_command fun r => runs_setRole r s
  | portConfig p body => exact runs_command fun r => (State.Move.port r.1 _ (by rfl) (by rfl) (by rfl) (by rfl)).runs
  | portRead p body => exact runs_takeCommand (runs_withLength .refl)
  | readClock p body => exact runs_takeCommand (runs_withLength .refl)
  | clockSet p body => exact runs_takeCommand (runs_withLength (State.Move.clock _ (.inl ⟨p, body, rfl⟩)).runs)
  | officeReset p body =>
    exact runs_takeCommand (runs_withLength (State.Move.port p _ (by rfl) (by rfl) (by rfl) (by rfl)).runs)
  | unknownCommand p code body =>
    refine runs_of_exec rfl ?_
    split
    · exact State.runs_respond ..
    · exact .refl
  | commandFrameBadCrc p frame =>
    refine runs_of_exec rfl ?_
    split
    · exact .refl
    · exact State.runs_frameDropped ..
  | frameAbandoned p => exact State.runs_frameDropped s p
  | turnAroundGapExpiry p =>
    refine runs_of_exec rfl ?_
    split
    · exact (State.Move.port p _ (by rfl) (by rfl) (by rfl) (by rfl)).runs
    · exact .refl
  | responseSent p =>
    refine runs_of_exec rfl ?_
    split
    · exact State.runs_answerEnded ..
    · exact .refl
  | lineBreak p =>
    refine runs_of_exec rfl ?_
    split
    · exact State.runs_answerEnded ..
    · exact .refl
  | officeResetTakesEffect a b =>
    refine runs_of_exec rfl ?_
    split
    · exact (State.Move.reset a b _ (.inl ⟨a, b, rfl⟩)).runs
    · exact .refl
  | powerOn a b => exact (State.Move.reset a b _ (.inr (.inl ⟨a, b, rfl⟩))).runs
  | resetNLow a b => exact (State.Move.reset a b _ (.inr (.inr ⟨a, b, rfl⟩))).runs
  | resetNHigh =>
    refine runs_of_exec rfl ?_
    split
    · exact State.runs_aside ⟨rfl, rfl, rfl, rfl, rfl, rfl, rfl, rfl, rfl⟩
    · exact .refl
  | initialisationPassEnd =>
    refine runs_of_exec rfl ?_
    split
    · have htimers : State.Runs .initialisationPassEnd strict s
          { s with zones := bankMap (fun (x : Zone) => ({ x with batchTimer := 50 } : Zone)) s.zones } :=
        (State.Move.zones _ fun _ z => by rw [bankGet_bankMap]; exact .inr ⟨id, id⟩).runs
      exact htimers.trans (State.runs_aside ⟨rfl, rfl, rfl, rfl, rfl, rfl, rfl, rfl, rfl⟩)
    · exact .refl
  | tick =>
    refine runs_of_exec rfl ?_
    split
    · exact State.runs_tick s
    · exact .refl
  | oneSecondStep =>
    refine runs_of_exec rfl ?_
    split
    · exact State.runs_second s
    · exact .refl
  | lifeExpiry slot =>
    refine runs_of_exec rfl ?_
    split
    · exact State.runs_expireLife ..
    · exact .refl
  | batchTimerExpiry z =>
    refine runs_of_exec rfl ?_
    split
    · exact State.runs_batchTimerExpiry ..
    · exact .refl
  | acceptDeadlineExpiry z =>
    refine runs_of_exec rfl ?_
    split
    · exact (Work.runs_failUp z .noAccept s.begin).trans (Work.runs_finish _)
    · exact .refl
  | huntTimerExpiry z =>
    refine runs_of_exec rfl ?_
    split
    · exact State.runs_setLink (.of_eq (Link.send_state _ _) (Link.send_profile _ _))
    · exact .refl
  | exchangeTimerExpiry z =>
    refine runs_of_exec rfl ?_
    split
    · next h => exact State.runs_enterFailed _ (by simp [h.2.1])
    · exact .refl
  | silenceTimerExpiry z =>
    refine runs_of_exec rfl ?_
    split
    · exact (Work.runs_failUp z .silence s.begin).trans (Work.runs_finish _)
    · exact .refl
  | idleTimerExpiry z =>
    refine runs_of_exec rfl ?_
    split
    · exact State.runs_setLink (Link.staysUp_send _ _)
    · exact .refl
  | holdOffTimerExpiry z =>
    refine runs_of_exec rfl ?_
    split
    · next h => exact State.runs_enterHunt (by simp [h.2.1])
    · exact .refl
  | retryExpiry slot =>
    refine runs_of_exec rfl ?_
    split
    · exact State.runs_expireRetry ..
    · exact .refl
  | repeatExpiry slot =>
    refine runs_of_exec rfl ?_
    split
    · exact State.runs_expireRetry ..
    · exact .refl
  | capBase z body =>
    refine runs_of_exec rfl ?_
    refine runs_receive fun page u _ hlink => ?_
    split
    · next h => exact (Work.runs_enterExchange (w := u.begin) page (by simp [State.begin, hlink, h])).trans (Work.runs_finish _)
    · next h => exact (Work.runs_evaluate (w := u.begin) page (by simp [State.begin, hlink, h])).trans (Work.runs_finish _)
    · refine ((Work.runs_leaveUp z .renegotiate u.begin).trans ?_).trans (Work.runs_finish _)
      exact Work.runs_enterExchange page (by simp [Work.link_leaveUp])
    · exact .refl
    · exact .refl
  | capNext z body =>
    refine runs_of_exec rfl ?_
    refine runs_receive fun identity u _ hlink => ?_
    split
    · next h => exact State.runs_capNext identity (hlink.trans h)
    · exact .refl
  | idle z body =>
    refine runs_of_exec rfl ?_
    exact runs_receive fun _ u _ _ => .refl
  | batchAccept z body =>
    refine runs_of_exec rfl ?_
    refine runs_receive fun n u _ _ => ?_
    split
    · split
      · exact (Work.runs_accepted z _ u.begin).trans (Work.runs_finish _)
      · exact .refl
    · exact .refl
  | batchRefuse z body =>
    refine runs_of_exec rfl ?_
    refine runs_receive fun n u hu hlink => ?_
    split
    · split
      · next b hb =>
        refine (Work.runs_refused z b u.begin fun hstrict => ?_).trans (Work.runs_finish _)
        have hflight : (s.zone z).inFlight = some b := by rw [hu] at hb; exact (State.answeredBatch_some hb).1
        by_contra hne
        have hempty := ((hdown hstrict z).1 (by rwa [← hlink])).2
        simp [hflight] at hempty
      · exact .refl
    · exact .refl
  | pagerAck z body =>
    refine runs_of_exec rfl ?_
    refine runs_receive fun tag u _ _ => ?_
    split
    · exact (State.runs_seen ..).trans (State.runs_matchAck ..)
    · exact .refl
  | pagerLocate z body =>
    refine runs_of_exec rfl ?_
    refine runs_receive fun a u _ _ => ?_
    split
    · exact State.runs_seen ..
    · exact .refl
  | siteStatus z body =>
    refine runs_of_exec rfl ?_
    exact runs_receive fun fault u _ hlink => State.runs_siteStatus fault hlink
  | badBlock z block =>
    refine runs_of_exec rfl ?_
    split
    · exact .refl
    · exact State.runs_countBad ..
  | linkBlockSent z =>
    refine runs_of_exec rfl ?_
    split
    · exact .refl
    · exact State.runs_setLink (.of_eq (Link.blockSent_state _) (Link.blockSent_profile _))

/-- A command's result is reached by its moves. -/
theorem State.runs_exec {i : Instr} {s t : State} (h : exec i s = .next t) (strict : Prop) (hdown : strict → s.downZonesEmpty) :
    State.Runs i strict s t := by
  rw [exec_after] at h
  cases h
  exact runs_after i strict s hdown

/-- A step of the part idles, or takes the front command off the queue and runs it. -/
theorem step_cases {s t : State} (h : step s = .next t) :
    t = s ∨ ∃ i u, s.Alike u ∧ exec i u = .next t := by
  unfold step at h
  split at h
  · cases h; exact .inl rfl
  · next c rest _ => exact .inr ⟨c, { s with pending := rest }, ⟨rfl, rfl, rfl, rfl, rfl, rfl, rfl, rfl, rfl⟩, h⟩

/-- What the moves of every command keep, every step keeps. -/
theorem step_keeps {P : State → Prop} (hP : ∀ {i s t}, State.Move i False s t → P s → P t) {s t : State}
    (h : step s = .next t) (hs : P s) : P t := by
  rcases step_cases h with rfl | ⟨i, u, halike, hexec⟩
  · exact hs
  · exact (State.runs_exec hexec False False.elim).keeps hP (hP (i := i) (.aside halike) hs)

end Sys2Proof.Machine
end

/-! ## The tables stay canonical and the address map stays in agreement (R6) -/

section
namespace Sys2Proof.Machine

/-! ### Addresses as keys of a table -/

/-- Addresses in the order of their numbers, which the model's address map is kept in. -/
@[reducible] def pagerAddressOrder : LinearOrder PagerAddress where
  le_refl _ := Nat.le_refl _
  le_trans _ _ _ := Nat.le_trans
  lt_iff_le_not_ge _ _ := Nat.lt_iff_le_and_not_ge
  le_antisymm _ _ h k := BitVec.eq_of_toNat_eq (Nat.le_antisymm h k)
  le_total a b := Nat.le_total a.toNat b.toNat
  toDecidableLE := inferInstance
  toDecidableEq := inferInstance
  toDecidableLT := inferInstance

section
variable (a b : PagerAddress) (j : AccountIndex) {map : Tbl PagerAddress AccountIndex}

theorem mapGet_tblSet : tblGet b (tblSet a j map) = if b = a then some j else tblGet b map :=
  @tblGet_tblSet _ _ pagerAddressOrder a b j map

theorem mapGet_tblErase : tblGet b (tblErase a map) = if b = a then none else tblGet b map :=
  @tblGet_tblErase _ _ pagerAddressOrder a b map

theorem mapSorted_tblSet (h : tblSorted map) : tblSorted (tblSet a j map) := @tblSorted_tblSet _ _ pagerAddressOrder a j map h

theorem mapSorted_tblErase (h : tblSorted map) : tblSorted (tblErase a map) := List.Pairwise.filter _ h

end

/-! ### The canonical form -/

section
variable {i : Instr} {strict : Prop} {s t : State}

theorem State.canonical_reset (s : State) (a b : Bool) (ph : Phase) : (s.deviceReset a b ph).canonical :=
  ⟨.nil, .nil, .nil, .nil, fun _ h => nomatch h⟩

theorem State.canonical.setEntry (h : s.canonical) (j : AccountIndex) (e : Entry) : (s.setEntry j e).canonical :=
  ⟨tblSorted_tblSet _ _ h.directory, h.addressMap, h.epochs, h.messages, h.noZero⟩

theorem State.canonical.setMessage (h : s.canonical) (slot : SlotId) (m : Message) : (s.setMessage slot m).canonical :=
  ⟨h.directory, h.addressMap, h.epochs, tblSorted_tblSet _ _ h.messages, h.noZero⟩

theorem State.canonical.congr (h : s.canonical) (hd : t.directory = s.directory) (ha : t.addressMap = s.addressMap)
    (he : t.epochs = s.epochs) (hm : t.messages = s.messages) : t.canonical := by
  obtain ⟨h1, h2, h3, h4, h5⟩ := h
  exact ⟨hd ▸ h1, ha ▸ h2, he ▸ h3, hm ▸ h4, he ▸ h5⟩

/-- An epoch of 0 is not listed, so a freed slot leaves the epochs canonical. -/
theorem State.canonical.freeSlotOf (h : s.canonical) (slot : SlotId) : (s.freeSlotOf slot).canonical := by
  refine ⟨h.directory, h.addressMap, ?sorted, tblSorted_tblErase _ h.messages, ?noZero⟩
  case sorted =>
    show tblSorted (if s.epoch slot + 1 = 0 then _ else _)
    split
    · exact tblSorted_tblErase _ h.epochs
    · exact tblSorted_tblSet _ _ h.epochs
  case noZero =>
    show ∀ p ∈ (if s.epoch slot + 1 = 0 then tblErase slot s.epochs else tblSet slot (s.epoch slot + 1) s.epochs), p.2 ≠ 0
    split
    · exact fun p hp => h.noZero p (List.mem_of_mem_filter hp)
    · next hne =>
      intro p hp
      rcases mem_tblSet hp with rfl | hp
      · exact hne
      · exact h.noZero p hp

theorem State.canonical.freeSlots (h : s.canonical) (l : List SlotId) : (l.foldl State.freeSlotOf s).canonical := by
  induction l generalizing s with
  | nil => exact h
  | cons slot rest ih => exact ih (h.freeSlotOf slot)

theorem State.canonical.settle (h : s.canonical) (slot : SlotId) (m : Message) (o : MsgOutcome) (k : Nat) :
    (s.settle slot m o k).canonical := by
  cases he : s.entry m.billed with
  | none => rwa [State.settle_unbilled slot o k he]
  | some e =>
    refine (h.setEntry m.billed { e with
      balance := clampSigned (e.balance - m.settlementAmount o k), held := e.held - m.hold
      openCount := e.openCount - 1 }).congr (State.directory_settle slot o k he) ?_ ?_ ?_ <;>
      rw [State.settle_rest] <;> rfl

theorem State.canonical.close {w : Work} (h : w.state.canonical) (slot : SlotId) (o : MsgOutcome) (k : Nat) :
    (w.close slot o k).state.canonical := by
  cases hm : w.state.openMessage slot with
  | none => rwa [Work.close_closed o k hm]
  | some m =>
    rw [Work.close_of o k hm]
    refine State.canonical.congr (State.canonical.settle (State.canonical.setMessage ?_ slot _) slot m o k) rfl rfl rfl rfl
    exact h.congr rfl rfl rfl rfl

theorem State.Move.canonical (h : State.Move i strict s t) (hs : s.canonical) : t.canonical := by
  cases h with
  | aside alike => exact hs.congr alike.directory alike.addressMap alike.epochs alike.messages
  | reset a b ph _ => exact State.canonical_reset ..
  | entry used address held openCount => exact hs.setEntry _ _
  | createEntry unused free =>
    exact ⟨tblSorted_tblSet _ _ hs.directory, mapSorted_tblSet _ _ hs.addressMap, hs.epochs, hs.messages, hs.noZero⟩
  | changeEntry used free =>
    exact ⟨tblSorted_tblSet _ _ hs.directory, mapSorted_tblSet _ _ (mapSorted_tblErase _ hs.addressMap), hs.epochs,
      hs.messages, hs.noZero⟩
  | deleteEntry used idle =>
    exact ⟨tblSorted_tblErase _ hs.directory, mapSorted_tblErase _ hs.addressMap, hs.epochs, hs.messages, hs.noZero⟩
  | everyMessage f keeps attempts => 
    exact ⟨hs.directory, hs.addressMap, hs.epochs, tblSorted_tblMap (fun _ m => f m) hs.messages, hs.noZero⟩
  | openMessage isOpen keeps => exact hs.setMessage _ _
  | takeSlot submits free room isOpen billed => exact (hs.setMessage _ _).setEntry _ _
  | close w slot o k => exact hs.close slot o k
  | takeOutcomes p n fetches => exact State.canonical.freeSlots (hs.congr (by rfl) (by rfl) (by rfl) (by rfl)) _
  | clock | port | role | takeEvents | post | journal | record | zones | links | leaveUp => exact hs.congr rfl rfl rfl rfl

/-! ### The pager address map -/

/-- The map agrees with the addresses of the entries, and with nothing else of them. -/
theorem State.mapAgrees.congr (h : s.mapAgrees) (hm : t.addressMap = s.addressMap)
    (he : ∀ j, (t.entry j).map Entry.address = (s.entry j).map Entry.address) : t.mapAgrees := by
  intro a j
  have hiff : ∀ u : State, (∃ e, u.entry j = some e ∧ e.address = a) ↔ (u.entry j).map Entry.address = some a := by
    intro u; simp
  rw [hiff, he, ← hiff, ← h a j, State.mapped, State.mapped, hm]

theorem State.mapAgrees.setEntry (h : s.mapAgrees) {j : AccountIndex} {e e' : Entry} (hj : s.entry j = some e)
    (ha : e'.address = e.address) : (s.setEntry j e').mapAgrees := by
  refine h.congr rfl fun k => ?_
  by_cases hk : k = j
  · subst hk; simp [hj, ha]
  · rw [State.entry_setEntry_ne _ _ hk]

theorem State.mapAgrees.pages (h : s.mapAgrees) (hp : s.pages t) : t.mapAgrees := by
  refine h.congr (by rw [hp.rest]) fun j => ?_
  have hterms := congrArg (Option.map Entry.address) (hp.terms j)
  simpa only [Option.map_map, Function.comp_def, Entry.terms] using hterms

/-- The pair of an entry written at a free address, its old pair gone. -/
theorem State.mapAgrees.write (h : s.mapAgrees) {r : SubscriberWriteReq} {e : Entry} {old : Tbl PagerAddress AccountIndex}
    (free : ∀ j, s.mapped r.address = some j → j = r.index) (he : e.address = r.address)
    (hold : ∀ a j, a ≠ r.address → (tblGet a old = some j ↔ j ≠ r.index ∧ s.mapped a = some j)) :
    ({ s.setEntry r.index e with addressMap := tblSet r.address r.index old } : State).mapAgrees := by
  intro a j
  show tblGet a (tblSet r.address r.index old) = some j ↔ ∃ e', (s.setEntry r.index e).entry j = some e' ∧ e'.address = a
  rw [mapGet_tblSet, State.entry_setEntry]
  by_cases ha : a = r.address
  · subst ha
    by_cases hj : j = r.index
    · simp [hj, he]
    · have hno : ¬ s.mapped r.address = some j := fun hm => hj (free j hm)
      rw [h] at hno
      simpa [hj, Ne.symm hj] using hno
  · rw [if_neg ha, hold a j ha, h]
    by_cases hj : j = r.index
    · simp [hj, he, Ne.symm ha]
    · simp [hj]

theorem State.mapAgrees.deleteEntry (h : s.mapAgrees) {j : AccountIndex} {e : Entry} (used : s.entry j = some e) :
    ({ s with directory := tblErase j s.directory, addressMap := tblErase e.address s.addressMap } : State).mapAgrees := by
  intro a k
  show tblGet a (tblErase e.address s.addressMap) = some k ↔ ∃ e', tblGet k (tblErase j s.directory) = some e' ∧ e'.address = a
  rw [mapGet_tblErase, tblGet_tblErase]
  have hj : s.mapped e.address = some j := (h _ _).mpr ⟨e, used, rfl⟩
  by_cases hk : k = j
  · subst hk
    have hother : a ≠ e.address → ¬ s.mapped a = some k := by
      intro ha hm
      obtain ⟨e', he', rfl⟩ := (h _ _).mp hm
      rw [used] at he'
      cases he'
      exact ha rfl
    by_cases ha : a = e.address
    · simp [ha]
    · simpa [ha, State.mapped] using hother ha
  · rw [if_neg hk]
    by_cases ha : a = e.address
    · subst ha
      have hno : ¬ ∃ e', s.entry k = some e' ∧ e'.address = e.address := by
        rw [← h, hj]
        simpa using Ne.symm hk
      simpa [State.entry] using hno
    · rw [if_neg ha]
      exact h a k

theorem State.freeSlots_rest (l : List SlotId) (s : State) :
    l.foldl State.freeSlotOf s = { s with
      messages := (l.foldl State.freeSlotOf s).messages, epochs := (l.foldl State.freeSlotOf s).epochs } := by
  induction l generalizing s with
  | nil => rfl
  | cons slot rest ih => rw [List.foldl_cons, ih]; rfl

theorem State.Move.mapAgrees (h : State.Move i strict s t) (hs : s.mapAgrees) : t.mapAgrees := by
  cases h with
  | aside alike => exact hs.congr alike.addressMap fun j => by rw [State.entry, alike.directory, State.entry]
  | reset a b ph _ => intro a j; exact ⟨nofun, nofun⟩
  | entry used address held openCount => exact hs.setEntry used address
  | @createEntry _ r unused free =>
    refine hs.write free rfl fun a j _ => ?_
    have hnew : s.mapped a = some j → j ≠ r.index := by
      rintro hm rfl
      obtain ⟨e, he, -⟩ := (hs _ _).mp hm
      simp [unused] at he
    exact ⟨fun hm => ⟨hnew hm, hm⟩, And.right⟩
  | @changeEntry _ r e used free =>
    refine hs.write free rfl fun a j _ => ?_
    have hown : s.mapped a = some r.index ↔ e.address = a := by rw [hs]; simp [used]
    have hmapped : s.mapped e.address = some r.index := (hs _ _).mpr ⟨e, used, rfl⟩
    rw [mapGet_tblErase]
    by_cases ha : a = e.address
    · subst ha
      simp [hmapped, eq_comm]
    · rw [if_neg ha]
      refine ⟨fun hm => ⟨?_, hm⟩, And.right⟩
      rintro rfl
      exact ha (hown.mp hm).symm
  | deleteEntry used idle => exact hs.deleteEntry used
  | takeSlot submits free room isOpen billed => exact State.mapAgrees.setEntry (hs.congr rfl fun _ => rfl) billed rfl
  | close w slot o k => exact hs.pages (Work.pages_close slot o k w)
  | takeOutcomes p n fetches => rw [State.freeSlots_rest]; exact hs.congr rfl fun _ => rfl
  | clock | port | role | takeEvents | post | journal | record | zones | links | leaveUp | everyMessage | openMessage =>
    exact hs.congr rfl fun _ => rfl

end

/-- Settles O55: every move keeps the four tables sorted and the address map in agreement with the directory. -/
theorem stepKeepsTheTables : Obligations.StepKeepsTheTables :=
  ⟨fun _ _ hs h => step_keeps State.Move.canonical h hs, fun _ _ hs h => step_keeps State.Move.mapAgrees h hs⟩

end Sys2Proof.Machine
end

/-! ## A SUPERVISOR port and bounded event queues (R164, R166, R167) -/

section
namespace Sys2Proof.Machine

section
variable {i : Instr} {strict : Prop} {s t : State}

theorem State.supervised.congr (h : s.supervised) (hr : ∀ p, (t.port p).role = (s.port p).role) : t.supervised := by
  obtain ⟨p, hp⟩ := h
  exact ⟨p, (hr p).trans hp⟩

theorem State.role_of_pages (h : s.pages t) (p : PortId) : (t.port p).role = (s.port p).role := by
  have := congrArg Port.role (h.line p)
  exact this

theorem State.port_congr (h : t.ports = s.ports) (p : PortId) : t.port p = s.port p := by rw [State.port, h, State.port]

theorem State.onlySupervisor_iff {p : PortId} :
    s.onlySupervisor p = true ↔ (s.port p).role = .supervisor ∧ ∀ q, q ≠ p → (s.port q).role ≠ .supervisor := by
  simp only [State.onlySupervisor, Bool.and_eq_true, decide_eq_true_eq, List.all_eq_true, mem_allPorts, true_implies,
    or_iff_not_imp_left, ne_eq]

/-- A port that gives up the role is not the last SUPERVISOR. -/
theorem State.supervised.setRole (h : s.supervised) {p : PortId} {r : Role} (other : ¬ (s.onlySupervisor p ∧ r ≠ .supervisor)) :
    (s.setPort p { s.port p with role := r }).supervised := by
  by_cases hr : r = .supervisor
  · exact ⟨p, by simp [hr]⟩
  · obtain ⟨q, hq⟩ := h
    by_cases hqp : q = p
    · subst hqp
      have hothers : ¬ ∀ u, u ≠ q → (s.port u).role ≠ .supervisor :=
        fun hall => other ⟨State.onlySupervisor_iff.mpr ⟨hq, hall⟩, hr⟩
      push Not at hothers
      obtain ⟨u, hu, hrole⟩ := hothers
      exact ⟨u, by rw [State.port_setPort_ne _ _ hu, hrole]⟩
    · exact ⟨q, by rw [State.port_setPort_ne _ _ hqp, hq]⟩

/-- A freed slot is no part of a port. -/
theorem State.ports_freeSlots (l : List SlotId) (s : State) : (l.foldl State.freeSlotOf s).ports = s.ports := by
  rw [State.freeSlots_rest]

theorem State.role_setPort {p : PortId} {x : Port} (h : x.role = (s.port p).role) (q : PortId) :
    ((s.setPort p x).port q).role = (s.port q).role := by
  by_cases hq : q = p
  · subst hq; rw [State.port_setPort_self, h]
  · rw [State.port_setPort_ne _ _ hq]

theorem State.Move.supervised (h : State.Move i strict s t) (hs : s.supervised) : t.supervised := by
  cases h with
  | aside alike => exact hs.congr fun p => by rw [State.port_congr alike.ports]
  | reset a b ph _ => exact ⟨0, rfl⟩
  | port p x role _ _ _ => exact hs.congr (State.role_setPort role)
  | role p r other => exact hs.setRole other
  | takeEvents p n => exact hs.congr (State.role_setPort rfl)
  | post kind subject detail => exact hs.congr (State.role_of_pages (State.pages_post kind subject detail s))
  | close w slot o k => exact hs.congr (State.role_of_pages (Work.pages_close slot o k w))
  | takeOutcomes p n _ =>
    refine hs.congr fun q => ?_
    rw [State.port_congr (State.ports_freeSlots _ _)]
    exact State.role_setPort (by rfl) q
  | leaveUp z x kind subject detail down =>
    exact hs.congr fun p => State.role_of_pages (State.pages_post kind subject detail (s.setLink z x)) p
  | clock | entry | createEntry | changeEntry | deleteEntry | everyMessage | openMessage | takeSlot | journal | record | zones
  | links => exact hs.congr fun _ => rfl

/-! ### Event queues -/

/-- R166, R167, one port: a queue of at most 32 records, full beside a set lost flag. -/
def Port.bounded (x : Port) : Prop := x.events.length ≤ 32 ∧ (x.lost = true → x.events.length = 32)

theorem Port.bounded.congr {x y : Port} (h : x.bounded) (he : y.events = x.events) (hl : y.lost = x.lost) : y.bounded := by
  rw [Port.bounded, he, hl]
  exact h

theorem Port.bounded.offer {x : Port} (h : x.bounded) (r : EventRecord) : (x.offer r).bounded := by
  obtain ⟨hlen, hlost⟩ := h
  unfold Port.offer
  split
  · next hroom =>
    have hroom : x.events.length < 32 := hroom
    refine ⟨by simpa using hroom, fun hl => ?_⟩
    have := hlost hl
    omega
  · next hfull =>
    have hfull : ¬ x.events.length < 32 := hfull
    exact ⟨hlen, fun _ => by simp only; omega⟩

theorem Port.bounded.takes {x : Port} (h : x.bounded) (rs : List EventRecord) : (x.takes rs).bounded := by
  induction rs generalizing x with
  | nil => exact h
  | cons r rest ih =>
    rw [Port.takes_cons, Port.takes_one]
    split
    · exact ih (h.offer r)
    · exact ih h

theorem State.eventsBounded.congr (h : s.eventsBounded) (he : ∀ p, (t.port p).events = (s.port p).events)
    (hl : ∀ p, (t.port p).lost = (s.port p).lost) : t.eventsBounded :=
  fun p => Port.bounded.congr (h p) (he p) (hl p)

theorem State.eventsBounded.setPort (h : s.eventsBounded) {p : PortId} {x : Port} (hx : x.bounded) :
    (s.setPort p x).eventsBounded := by
  intro q
  by_cases hq : q = p
  · subst hq; rw [State.port_setPort_self]; exact hx
  · rw [State.port_setPort_ne _ _ hq]; exact h q

theorem State.eventsBounded.post (h : s.eventsBounded) (kind : EventKind) (subject : Nat) (detail : Int) :
    (s.post kind subject detail).eventsBounded := by
  intro p
  rw [State.port_post_takes]
  exact Port.bounded.takes (h p) _

theorem State.eventsBounded.shuts (h : s.eventsBounded) {slot : SlotId} {m : Message} {o : MsgOutcome} {k : Nat}
    (hs : s.shuts t slot m o k) : t.eventsBounded := by
  intro p
  rw [hs.ports p]
  exact Port.bounded.takes (Port.bounded.congr (h p) (by rfl) (by rfl)) _

theorem State.Move.eventsBounded (h : State.Move i strict s t) (hs : s.eventsBounded) : t.eventsBounded := by
  cases h with
  | aside alike =>
    have hp := State.port_congr alike.ports
    exact hs.congr (fun p => by rw [hp]) fun p => by rw [hp]
  | reset a b ph _ =>
    have hreset : ∀ p : PortId, ((s.deviceReset a b ph).port p).events = [] ∧ ((s.deviceReset a b ph).port p).lost = false := by
      intro p
      fin_cases p <;> exact ⟨rfl, rfl⟩
    intro p
    obtain ⟨hevents, hlost⟩ := hreset p
    simp [hevents, hlost]
  | port p x _ events lost _ => exact hs.setPort (Port.bounded.congr (hs p) events lost)
  | role p r other => exact hs.setPort (Port.bounded.congr (hs p) rfl rfl)
  | takeEvents p n =>
    refine hs.setPort ⟨?_, fun hl => by cases hl⟩
    have := (hs p).1
    simp only [List.length_drop]
    omega
  | post kind subject detail => exact hs.post kind subject detail
  | close w slot o k =>
    cases hm : w.state.openMessage slot with
    | none => rwa [Work.close_closed o k hm]
    | some m =>
      obtain ⟨hmsg, hopen⟩ := State.openMessage_eq_some.mp hm
      exact hs.shuts (Work.shuts_close o k hmsg hopen)
  | takeOutcomes p n _ =>
    have hp := State.port_congr (State.ports_freeSlots ((s.port p).outcomes.take n)
      (s.setPort p { s.port p with outcomes := (s.port p).outcomes.drop n }))
    refine State.eventsBounded.congr (State.eventsBounded.setPort (p := p)
      (x := { s.port p with outcomes := (s.port p).outcomes.drop n }) hs (Port.bounded.congr (hs p) rfl rfl))
      (fun q => by rw [hp]) fun q => by rw [hp]
  | leaveUp z x kind subject detail down => exact State.eventsBounded.post (s := s.setLink z x) hs kind subject detail
  | clock | entry | createEntry | changeEntry | deleteEntry | everyMessage | openMessage | takeSlot | journal | record | zones
  | links => exact hs

end

/-- Settles O56: only a role move can take the SUPERVISOR role away, and it leaves another port with it; records are
stored below 32 only, and the lost flag is set at 32. -/
theorem stepKeepsThePorts : Obligations.StepKeepsThePorts :=
  ⟨fun _ _ hs h => step_keeps State.Move.supervised h hs, fun _ _ hs h => step_keeps State.Move.eventsBounded h hs⟩

end Sys2Proof.Machine
end

/-! ## The journal's reserve, the outcome lists and the account law (R5, R88, R146) -/

section
namespace Sys2Proof.Machine

/-! ### The open messages of a table as one message is written or erased -/

section
variable {κ α : Type} [LinearOrder κ]

theorem tblErase_of_none {k : κ} {t : Tbl κ α} (h : tblGet k t = none) : tblErase k t = t := by
  induction t with
  | nil => rfl
  | cons p rest ih =>
    obtain ⟨j, v⟩ := p
    simp only [tblGet] at h
    split at h
    · cases h
    · next hj =>
      rw [tblErase, List.filter_cons_of_pos (by simpa using hj)]
      exact congrArg _ (ih h)

/-- A table with a key written lists the key's pair and, for the rest, what it lists without the key. -/
theorem tblSet_perm (k : κ) (v : α) {t : Tbl κ α} (h : tblSorted t) : List.Perm (tblSet k v t) ((k, v) :: tblErase k t) := by
  have hnodup : ∀ {u : Tbl κ α}, tblSorted u → u.Nodup := fun hu => hu.imp fun hlt heq => by
    rw [heq] at hlt
    exact lt_irrefl _ hlt
  refine (List.perm_ext_iff_of_nodup (hnodup (tblSorted_tblSet k v h)) ?_).mpr fun p => ?_
  · refine List.nodup_cons.mpr ⟨?_, hnodup (tblSorted_tblErase k h)⟩
    simp [tblErase]
  · obtain ⟨j, w⟩ := p
    rw [List.mem_cons, mem_iff_tblGet (tblSorted_tblSet k v h), mem_iff_tblGet (tblSorted_tblErase k h), tblGet_tblSet,
      tblGet_tblErase]
    by_cases hj : j = k
    · subst hj; simp [eq_comm]
    · simp [hj]

theorem tblSet_of_get {k : κ} {v : α} {t : Tbl κ α} (h : tblSorted t) (hk : tblGet k t = some v) : tblSet k v t = t := by
  induction t with
  | nil => cases hk
  | cons p rest ih =>
    obtain ⟨j, w⟩ := p
    rw [tblSorted, List.pairwise_cons] at h
    obtain ⟨hfirst, hrest⟩ := h
    simp only [tblGet] at hk
    split at hk
    · next hj => cases hk; subst hj; simp [tblSet]
    · next hj =>
      have hlt : j < k := hfirst _ ((mem_iff_tblGet hrest k v).mpr hk)
      simp only [tblSet, if_neg hj, if_neg (not_lt.mpr hlt.le), ih hrest hk]

/-- A table lists the pair of a key it holds and, for the rest, what it lists without the key. -/
theorem perm_of_tblGet {k : κ} {v : α} {t : Tbl κ α} (h : tblSorted t) (hk : tblGet k t = some v) :
    List.Perm t ((k, v) :: tblErase k t) := by
  simpa only [tblSet_of_get h hk] using tblSet_perm k v h

end

/-- The holds of the messages of a table that pass a test. -/
def holdsOf (f : Message → Bool) (table : Tbl SlotId Message) : Multiset Nat :=
  Multiset.ofList (((table.map Prod.snd).filter f).map Message.hold)

/-- What one message adds to the holds. -/
def holdOf (f : Message → Bool) (m : Message) : Multiset Nat := if f m then {m.hold} else 0

section
variable {f : Message → Bool} {table : Tbl SlotId Message} {slot : SlotId} {m : Message}

theorem holdsOf_cons (f : Message → Bool) (slot : SlotId) (m : Message) (table : Tbl SlotId Message) :
    holdsOf f ((slot, m) :: table) = holdOf f m + holdsOf f table := by
  unfold holdsOf holdOf
  cases hf : f m <;> simp [hf]

theorem holdsOf_perm {u v : Tbl SlotId Message} (h : List.Perm u v) : holdsOf f u = holdsOf f v :=
  Multiset.coe_eq_coe.mpr (((h.map _).filter _).map _)

theorem holdsOf_set (h : tblSorted table) (f : Message → Bool) (slot : SlotId) (m : Message) :
    holdsOf f (tblSet slot m table) = holdOf f m + holdsOf f (tblErase slot table) := by
  rw [← holdsOf_cons f slot]
  exact holdsOf_perm (tblSet_perm slot m h)

theorem holdsOf_get (h : tblSorted table) (f : Message → Bool) (hm : tblGet slot table = some m) :
    holdsOf f table = holdOf f m + holdsOf f (tblErase slot table) := by
  rw [← holdsOf_cons f slot]
  exact holdsOf_perm (perm_of_tblGet h hm)

theorem holdsOf_set_new (h : tblSorted table) (f : Message → Bool) (m : Message) (hnew : tblGet slot table = none) :
    holdsOf f (tblSet slot m table) = holdOf f m + holdsOf f table := by
  rw [holdsOf_set h, tblErase_of_none hnew]

theorem holdsOf_set_same {m' : Message} (h : tblSorted table) (hm : tblGet slot table = some m)
    (hf : holdOf f m' = holdOf f m) : holdsOf f (tblSet slot m' table) = holdsOf f table := by
  rw [holdsOf_set h, holdsOf_get h f hm, hf]

/-- A message that fails the test may leave the table. -/
theorem holdsOf_erase (h : tblSorted table) (hm : ∀ m, tblGet slot table = some m → f m = false) :
    holdsOf f (tblErase slot table) = holdsOf f table := by
  cases hg : tblGet slot table with
  | none => rw [tblErase_of_none hg]
  | some m => rw [holdsOf_get h f hg, holdOf, hm m hg]; simp

theorem holdsOf_map (g : Message → Message) (hf : ∀ m, f (g m) = f m) (hh : ∀ m, (g m).hold = m.hold)
    (table : Tbl SlotId Message) : holdsOf f (tblMap (fun _ m => g m) table) = holdsOf f table := by
  induction table with
  | nil => rfl
  | cons p rest ih =>
    obtain ⟨slot, m⟩ := p
    have hg : holdOf f (g m) = holdOf f m := by rw [holdOf, holdOf, hf, hh]
    rw [holdsOf_cons, ← ih, ← hg, ← holdsOf_cons f slot]
    rfl

end

/-- Whether a message is open and billed to an entry. -/
def Message.openBilledTo (j : AccountIndex) (m : Message) : Bool := m.closing.isNone && decide (m.billed = j)

section
variable {i : Instr} {strict : Prop} {s t : State} {slot : SlotId} {m m' : Message} {o : MsgOutcome} {k : Nat}

theorem Message.Keeps.isOpen {m m' : Message} (h : m.Keeps m') : m'.isOpen = m.isOpen := by
  rw [Message.isOpen, h.closing, Message.isOpen]

theorem Message.Keeps.openBilledTo {m m' : Message} (h : m.Keeps m') (j : AccountIndex) :
    m'.openBilledTo j = m.openBilledTo j := by
  rw [Message.openBilledTo, h.closing, h.billed, Message.openBilledTo]

theorem Message.Keeps.holdOf {m m' : Message} (h : m.Keeps m') {f : Message → Bool} (hf : f m' = f m) :
    Machine.holdOf f m' = Machine.holdOf f m := by
  rw [Machine.holdOf, hf, h.hold, Machine.holdOf]

/-- The messages of a closing event: the slot's message, closed, and every other one as it stood. -/
theorem State.messages_close {w : Work} (hm : w.state.openMessage slot = some m) (o : MsgOutcome) (k : Nat) :
    (w.close slot o k).state.messages = tblSet slot
      { m with closing := some ⟨o, m.settlementAmount o k⟩, retryTimer := none, frozen := false } w.state.messages := by
  rw [Work.close_of o k hm]
  show (State.settle _ _ _ _ _).messages = _
  rw [State.settle_rest]
  rfl

/-! ### The reserve (R146) -/

theorem State.openMessages_eq (s : State) : s.openMessages = (holdsOf Message.isOpen s.messages).card := by
  simp [State.openMessages, holdsOf, List.filter_map, Function.comp_def]

theorem State.reserved.congr (h : s.reserved) (hm : t.messages = s.messages)
    (hj : t.journal.records.length ≤ s.journal.records.length) : t.reserved := by
  obtain ⟨hsorted, hroom⟩ := h
  refine ⟨hm ▸ hsorted, ?_⟩
  rw [State.openMessages, hm, ← State.openMessages]
  omega

/-- A message that joins or changes, against the open messages before and after it. -/
theorem State.reserved.setMessage (h : s.reserved) (hc : (holdsOf Message.isOpen (tblSet slot m s.messages)).card
    ≤ s.openMessages) : (s.setMessage slot m).reserved := by
  obtain ⟨hsorted, hroom⟩ := h
  refine ⟨tblSorted_tblSet _ _ hsorted, ?_⟩
  have hlen : (s.setMessage slot m).openMessages = (holdsOf Message.isOpen (tblSet slot m s.messages)).card :=
    State.openMessages_eq _
  show s.journal.records.length + _ ≤ 1024
  omega

theorem State.journalFull_room (h : s.journalFull = false) : s.journal.records.length + s.openMessages + 1 ≤ 1024 := by
  have hroom : ¬ s.freeRecords < s.openMessages + 1 := of_decide_eq_false h
  have hfree : s.freeRecords = 1024 - s.journal.records.length := rfl
  omega

/-- A closing writes one record and closes one message. -/
theorem State.reserved.close {w : Work} (h : w.state.reserved) (slot : SlotId) (o : MsgOutcome) (k : Nat) :
    (w.close slot o k).state.reserved := by
  cases hm : w.state.openMessage slot with
  | none => rwa [Work.close_closed o k hm]
  | some m =>
    obtain ⟨hmsg, hopen⟩ := State.openMessage_eq_some.mp hm
    obtain ⟨hsorted, hroom⟩ := h
    have hmessages := State.messages_close hm o k
    have hshuts := Work.shuts_close o k hmsg hopen
    have hbefore : w.state.openMessages = (holdsOf Message.isOpen (tblErase slot w.state.messages)).card + 1 := by
      rw [State.openMessages_eq, holdsOf_get hsorted _ hmsg, holdOf, Message.isOpen, hopen]
      simp [Nat.add_comm]
    have hafter : (w.close slot o k).state.openMessages = (holdsOf Message.isOpen (tblErase slot w.state.messages)).card := by
      rw [State.openMessages_eq, hmessages, holdsOf_set hsorted, holdOf, Message.isOpen]
      simp
    have hrecords : (w.close slot o k).state.journal.records.length ≤ w.state.journal.records.length + 1 := by
      cases he : w.state.entry m.billed with
      | none => rw [(hshuts.unbilled he).2]; omega
      | some e => rw [hshuts.record e he]; simp
    exact ⟨hmessages ▸ tblSorted_tblSet _ _ hsorted, by omega⟩

theorem tblErase_subset_reserved (h : s.reserved) (l : List SlotId) : (l.foldl State.freeSlotOf s).reserved := by
  induction l generalizing s with
  | nil => exact h
  | cons slot rest ih =>
    refine ih ⟨tblSorted_tblErase _ h.1, ?_⟩
    have hle : (s.freeSlotOf slot).openMessages ≤ s.openMessages :=
      (List.Sublist.filter _ List.filter_sublist).length_le
    exact le_trans (Nat.add_le_add_left hle _) h.2

theorem State.Move.reserved (h : State.Move i strict s t) (hs : s.reserved) : t.reserved := by
  cases h with
  | aside alike => exact hs.congr alike.messages (by rw [alike.journal])
  | reset a b ph _ => exact ⟨.nil, Nat.zero_le 1024⟩
  | everyMessage f keeps _ =>
    refine ⟨tblSorted_tblMap (fun _ m => f m) hs.1, ?_⟩
    have hcount : holdsOf Message.isOpen (tblMap (fun _ m => f m) s.messages) = holdsOf Message.isOpen s.messages :=
      holdsOf_map f (fun m => (keeps m).isOpen) (fun m => (keeps m).hold) _
    have hroom := hs.2
    rw [State.openMessages_eq] at hroom ⊢
    exact hcount ▸ hroom
  | @openMessage _ slot m m' isOpen keeps =>
    refine hs.setMessage (Nat.le_of_eq ?_)
    rw [State.openMessages_eq, holdsOf_set_same hs.1 (State.openMessage_eq_some.mp isOpen).1 (keeps.holdOf keeps.isOpen)]
  | @takeSlot _ slot m e _ free room isOpen _ =>
    refine ⟨tblSorted_tblSet _ _ hs.1, ?_⟩
    have hopen : State.openMessages ((s.setMessage slot m).setEntry m.billed
        { e with held := e.held + m.hold, openCount := e.openCount + 1 }) = s.openMessages + 1 := by
      rw [State.openMessages_eq, State.openMessages_eq]
      show (holdsOf Message.isOpen (tblSet slot m s.messages)).card = _
      rw [holdsOf_set_new hs.1 _ _ free, holdOf, Message.isOpen, isOpen]
      simp [Nat.add_comm]
    rw [hopen]
    exact State.journalFull_room room
  | close w slot o k => exact hs.close slot o k
  | takeOutcomes p n _ => exact tblErase_subset_reserved (hs.congr (by rfl) (by exact le_rfl)) _
  | journal j shorter => exact hs.congr rfl shorter
  | record r room =>
    refine ⟨hs.1, ?_⟩
    have := State.journalFull_room room
    show (s.journal.records ++ [r]).length + s.openMessages ≤ 1024
    rw [List.length_append, List.length_singleton]
    omega
  | clock | port | role | takeEvents | post | entry | createEntry | changeEntry | deleteEntry | zones | links | leaveUp =>
    exact hs.congr rfl le_rfl

/-! ### The outcome lists (R88) -/

theorem State.outcomesListed.congr (h : s.outcomesListed) (ho : ∀ p, (t.port p).outcomes = (s.port p).outcomes)
    (hm : ∀ j, t.message j = s.message j) : t.outcomesListed := by
  intro p
  simp only [ho, hm]
  exact h p

theorem State.outcomes_setPort {p : PortId} {x : Port} (h : x.outcomes = (s.port p).outcomes) (q : PortId) :
    ((s.setPort p x).port q).outcomes = (s.port q).outcomes := by
  by_cases hq : q = p
  · subst hq; rw [State.port_setPort_self, h]
  · rw [State.port_setPort_ne _ _ hq]

theorem State.outcomes_post (kind : EventKind) (subject : Nat) (detail : Int) (s : State) (p : PortId) :
    ((s.post kind subject detail).port p).outcomes = (s.port p).outcomes := by
  rw [State.port_post_takes, Port.takes_outcomes]

/-- A message that is not CLOSED, in a slot that held none that was, is on no list before and after it. -/
theorem State.outcomesListed.setMessage (h : s.outcomesListed) (hs : ∀ n, s.message slot = some n → n.closing = none)
    (hm : m.closing = none) : (s.setMessage slot m).outcomesListed := by
  intro p
  refine ⟨(h p).1, fun j => ?_⟩
  rw [State.port_setMessage', (h p).2 j]
  by_cases hj : j = slot
  · subst hj
    have hbefore : ¬ ∃ n, s.message j = some n ∧ n.closing.isSome ∧ n.port = p := by
      rintro ⟨n, hn, hc, -⟩
      simp [hs n hn] at hc
    have hafter : ¬ ∃ n, (s.setMessage j m).message j = some n ∧ n.closing.isSome ∧ n.port = p := by
      rintro ⟨n, hn, hc, -⟩
      rw [State.message_setMessage_self] at hn
      cases hn
      simp [hm] at hc
    exact iff_of_false hbefore hafter
  · rw [State.message_setMessage_ne _ _ hj]

/-- A closed message joins the end of its port's list, on which no open slot stands. -/
theorem State.outcomesListed.shuts (h : s.outcomesListed) (hm : s.message slot = some m) (hopen : m.closing = none)
    (hs : s.shuts t slot m o k) : t.outcomesListed := by
  have houtcomes : ∀ p, (t.port p).outcomes = if p = m.port then (s.port p).outcomes ++ [slot] else (s.port p).outcomes := by
    intro p
    rw [hs.ports, Port.takes_outcomes]
  have hnew : ∀ p, slot ∉ (s.port p).outcomes := by
    intro p hp
    obtain ⟨n, hn, hc, -⟩ := ((h p).2 slot).mp hp
    rw [hm] at hn
    cases hn
    simp [hopen] at hc
  intro p
  rw [houtcomes]
  refine ⟨?_, fun j => ?_⟩
  · split
    · exact List.Nodup.append (h p).1 (List.nodup_singleton _) (by simpa using hnew p)
    · exact (h p).1
  · by_cases hj : j = slot
    · subst hj
      simp only [hs.message, Option.some.injEq, exists_eq_left', Option.isSome_some, true_and]
      split
      · next hp => simp [hp]
      · next hp => exact iff_of_false (hnew p) (Ne.symm hp)
    · rw [hs.others j hj, ← (h p).2 j]
      split
      · simp [hj]
      · rfl

theorem State.message_freeSlots (l : List SlotId) (s : State) (j : SlotId) :
    (l.foldl State.freeSlotOf s).message j = if j ∈ l then none else s.message j := by
  induction l generalizing s with
  | nil => simp
  | cons slot rest ih =>
    have hone : (s.freeSlotOf slot).message j = if j = slot then none else s.message j := tblGet_tblErase slot j s.messages
    rw [List.foldl_cons, ih, hone]
    by_cases hrest : j ∈ rest <;> by_cases hj : j = slot <;> simp [hrest, hj]

theorem State.outcomes_freeSlots (l : List SlotId) (s : State) (p : PortId) :
    ((l.foldl State.freeSlotOf s).port p).outcomes = (s.port p).outcomes := by
  rw [State.port_congr (State.ports_freeSlots l s)]

/-- The slots fetched leave the list and the store together. -/
theorem State.outcomesListed.fetch (h : s.outcomesListed) (p : PortId) (n : Nat) :
    (((s.port p).outcomes.take n).foldl State.freeSlotOf
      (s.setPort p { s.port p with outcomes := (s.port p).outcomes.drop n })).outcomesListed := by
  have hsplit : ∀ j, j ∈ (s.port p).outcomes ↔ j ∈ (s.port p).outcomes.take n ∨ j ∈ (s.port p).outcomes.drop n := by
    intro j
    rw [← List.mem_append, List.take_append_drop]
  have hapart : ∀ j, j ∈ (s.port p).outcomes.take n → j ∉ (s.port p).outcomes.drop n := by
    have hnodup := (h p).1
    rw [← List.take_append_drop n (s.port p).outcomes] at hnodup
    exact fun j h1 h2 => (List.disjoint_of_nodup_append hnodup) h1 h2
  intro q
  simp only [State.outcomes_freeSlots, State.message_freeSlots, State.message_setPort']
  have hother : q ≠ p → ∀ j, j ∈ (s.port q).outcomes → j ∉ (s.port p).outcomes := by
    intro hq j hjq hjp
    obtain ⟨m, hm, -, rfl⟩ := ((h q).2 j).mp hjq
    obtain ⟨m', hm', -, rfl⟩ := ((h p).2 j).mp hjp
    rw [hm] at hm'
    cases hm'
    exact hq rfl
  by_cases hq : q = p
  · subst hq
    rw [State.port_setPort_self]
    refine ⟨(List.drop_sublist _ _).nodup (h q).1, fun j => ?_⟩
    have hlisted := (h q).2 j
    rw [hsplit] at hlisted
    by_cases hj : j ∈ (s.port q).outcomes.take n
    · simpa [hj] using hapart j hj
    · simpa [hj] using hlisted
  · rw [State.port_setPort_ne _ _ hq]
    refine ⟨(h q).1, fun j => ?_⟩
    by_cases hj : j ∈ (s.port p).outcomes.take n
    · simpa [hj] using fun hjq => hother hq j hjq (List.mem_of_mem_take hj)
    · simpa [hj] using (h q).2 j

theorem State.Move.outcomesListed (h : State.Move i strict s t) (hs : s.outcomesListed) : t.outcomesListed := by
  cases h with
  | aside alike =>
    exact hs.congr (fun p => by rw [State.port_congr alike.ports]) fun j => by rw [State.message, alike.messages, State.message]
  | reset a b ph _ =>
    have hnone : ∀ p : PortId, ((s.deviceReset a b ph).port p).outcomes = [] := by
      intro p
      fin_cases p <;> rfl
    intro p
    rw [hnone]
    exact ⟨List.nodup_nil, fun j => iff_of_false List.not_mem_nil (by rintro ⟨m, hm, -⟩; cases hm)⟩
  | port p x _ _ _ outcomes => exact hs.congr (State.outcomes_setPort outcomes) fun _ => rfl
  | role p r _ => exact hs.congr (State.outcomes_setPort rfl) fun _ => rfl
  | takeEvents p n => exact hs.congr (State.outcomes_setPort rfl) fun _ => rfl
  | post kind subject detail => exact hs.congr (State.outcomes_post kind subject detail s) fun _ => rfl
  | everyMessage f keeps _ =>
    intro p
    refine ⟨(hs p).1, fun j => ((hs p).2 j).trans ?_⟩
    show _ ↔ ∃ m, tblGet j (tblMap (fun _ m => f m) s.messages) = some m ∧ _
    rw [tblGet_tblMap]
    show (∃ m, s.message j = some m ∧ _) ↔ ∃ m, (s.message j).map f = some m ∧ _
    cases s.message j with
    | none => simp
    | some m => simp [(keeps m).closing, (keeps m).port]
  | openMessage isOpen keeps =>
    obtain ⟨hm, hopen⟩ := State.openMessage_eq_some.mp isOpen
    refine hs.setMessage (fun n hn => ?_) (keeps.closing.trans hopen)
    rw [hm] at hn
    cases hn
    exact hopen
  | takeSlot _ free _ isOpen _ =>
    refine State.outcomesListed.congr (State.outcomesListed.setMessage hs (fun n hn => ?_) isOpen) (fun _ => rfl) fun _ => rfl
    rw [free] at hn
    cases hn
  | close w slot o k =>
    cases hm : w.state.openMessage slot with
    | none => rwa [Work.close_closed o k hm]
    | some m =>
      obtain ⟨hmsg, hopen⟩ := State.openMessage_eq_some.mp hm
      exact hs.shuts hmsg hopen (Work.shuts_close o k hmsg hopen)
  | takeOutcomes p n _ => exact hs.fetch p n
  | leaveUp z x kind subject detail _ =>
    exact hs.congr (State.outcomes_post kind subject detail (s.setLink z x)) fun _ => rfl
  | clock | entry | createEntry | changeEntry | deleteEntry | journal | record | zones | links =>
    exact hs.congr (fun _ => rfl) fun _ => rfl

/-! ### The account law (R5) -/

/-- The law of one index: its entry against the holds of the open messages billed to it. -/
def lawOf (holds : Multiset Nat) : Option Entry → Prop
  | some e => e.held = holds.sum ∧ e.openCount = holds.card
  | none => holds = 0

theorem State.accountLaw_iff : s.accountLaw ↔ ∀ j, lawOf (holdsOf (Message.openBilledTo j) s.messages) (s.entry j) := by
  refine forall_congr' fun j => ?_
  have hholds : holdsOf (Message.openBilledTo j) s.messages = Multiset.ofList ((s.openBilled j).map Message.hold) := rfl
  rw [hholds]
  cases s.entry j with
  | none => simp [lawOf]
  | some e => simp [lawOf]

/-- What the law of an index turns on. -/
theorem lawOf_congr {holds : Multiset Nat} {x y : Option Entry} (h : lawOf holds x)
    (hxy : y.map (fun e => (e.held, e.openCount)) = x.map fun e => (e.held, e.openCount)) : lawOf holds y := by
  cases x <;> cases y <;> simp_all [lawOf]

theorem State.accountLaw.congr (h : s.accountLaw) (hm : t.messages = s.messages)
    (he : ∀ j, (t.entry j).map (fun e => (e.held, e.openCount)) = (s.entry j).map fun e => (e.held, e.openCount)) :
    t.accountLaw := by
  rw [State.accountLaw_iff] at h ⊢
  intro j
  rw [hm]
  exact lawOf_congr (h j) (he j)

theorem State.accountLaw.setEntry (h : s.accountLaw) {j : AccountIndex} {e e' : Entry} (hj : s.entry j = some e)
    (hheld : e'.held = e.held) (hopen : e'.openCount = e.openCount) : (s.setEntry j e').accountLaw := by
  refine h.congr rfl fun k => ?_
  by_cases hk : k = j
  · subst hk; simp [hj, hheld, hopen]
  · rw [State.entry_setEntry_ne _ _ hk]

theorem holdOf_openBilledTo (hopen : m.closing = none) (j : AccountIndex) :
    holdOf (Message.openBilledTo j) m = if j = m.billed then {m.hold} else 0 := by
  simp [holdOf, Message.openBilledTo, hopen, eq_comm]

theorem State.accountLaw.createEntry (h : s.accountLaw) {r : SubscriberWriteReq} (unused : s.entry r.index = none) :
    (s.setEntry r.index (createdEntry r)).accountLaw := by
  rw [State.accountLaw_iff] at h ⊢
  intro j
  rw [State.entry_setEntry]
  split
  · next hj =>
    have hnone := h j
    rw [hj, unused] at hnone
    have hholds : holdsOf (Message.openBilledTo j) s.messages = 0 := hj ▸ hnone
    show lawOf (holdsOf _ s.messages) _
    simp [hholds, lawOf, createdEntry]
  · exact h j

theorem State.accountLaw.deleteEntry (h : s.accountLaw) {j : AccountIndex} {e : Entry} (used : s.entry j = some e)
    (idle : e.openCount = 0) : ({ s with directory := tblErase j s.directory } : State).accountLaw := by
  rw [State.accountLaw_iff] at h ⊢
  intro k
  show lawOf _ (tblGet k (tblErase j s.directory))
  rw [tblGet_tblErase]
  split
  · next hk =>
    subst hk
    have hlaw := h k
    rw [used] at hlaw
    exact Multiset.card_eq_zero.mp (hlaw.2.symm.trans idle)
  · exact h k

/-- The hold of an admitted message joins the held of its billed entry. -/
theorem State.accountLaw.takeSlot (h : s.accountLaw) (hsorted : tblSorted s.messages) {e : Entry} (free : s.message slot = none)
    (isOpen : m.closing = none) (billed : s.entry m.billed = some e) :
    ((s.setMessage slot m).setEntry m.billed
      { e with held := e.held + m.hold, openCount := e.openCount + 1 }).accountLaw := by
  rw [State.accountLaw_iff] at h ⊢
  intro j
  show lawOf (holdsOf _ (tblSet slot m s.messages)) _
  rw [holdsOf_set_new hsorted _ _ free, holdOf_openBilledTo isOpen, State.entry_setEntry]
  split
  · next hj =>
    have hlaw := h j
    rw [hj, billed] at hlaw
    obtain ⟨hheld, hcount⟩ := hlaw
    subst hj
    simp only [lawOf, Multiset.sum_add, Multiset.sum_singleton, Multiset.card_add, Multiset.card_singleton]
    omega
  · simpa using h j

/-- A settlement takes the hold of the closed message off the held of its billed entry. -/
theorem State.accountLaw.close {w : Work} (h : w.state.accountLaw) (hsorted : tblSorted w.state.messages) (slot : SlotId)
    (o : MsgOutcome) (k : Nat) : (w.close slot o k).state.accountLaw := by
  cases hm : w.state.openMessage slot with
  | none => rwa [Work.close_closed o k hm]
  | some m =>
    obtain ⟨hmsg, hopen⟩ := State.openMessage_eq_some.mp hm
    have hshuts := Work.shuts_close o k hmsg hopen
    rw [State.accountLaw_iff] at h ⊢
    intro j
    have hlaw := h j
    rw [holdsOf_get hsorted _ hmsg, holdOf_openBilledTo hopen] at hlaw
    rw [State.messages_close hm, holdsOf_set hsorted]
    have hclosed : holdOf (Message.openBilledTo j)
        { m with closing := some ⟨o, m.settlementAmount o k⟩, retryTimer := none, frozen := false } = 0 := by
      simp [holdOf, Message.openBilledTo]
    rw [hclosed, zero_add]
    by_cases hj : j = m.billed
    · subst hj
      rw [if_pos rfl] at hlaw
      cases he : w.state.entry m.billed with
      | none => rw [he] at hlaw; simp [lawOf] at hlaw
      | some e =>
        rw [he] at hlaw
        obtain ⟨hheld, hcount⟩ := hlaw
        rw [Multiset.sum_add, Multiset.sum_singleton] at hheld
        rw [Multiset.card_add, Multiset.card_singleton] at hcount
        rw [hshuts.account e he]
        exact ⟨by simp only; omega, by simp only; omega⟩
    · rw [hshuts.accounts j hj]
      simpa [hj] using hlaw

/-- Freed slots hold CLOSED messages, which no entry is billed for. -/
theorem State.accountLaw.freeSlots (l : List SlotId) (hsorted : tblSorted s.messages) (h : s.accountLaw)
    (hclosed : ∀ slot ∈ l, ∀ m, s.message slot = some m → m.closing.isSome) : (l.foldl State.freeSlotOf s).accountLaw := by
  induction l generalizing s with
  | nil => exact h
  | cons slot rest ih =>
    refine ih (tblSorted_tblErase slot hsorted) ?law fun j hj m hm => ?still
    case law =>
      rw [State.accountLaw_iff] at h ⊢
      intro j
      show lawOf (holdsOf _ (tblErase slot s.messages)) _
      rw [holdsOf_erase hsorted fun m hm => ?_]
      · exact h j
      · have := hclosed slot List.mem_cons_self m hm
        simp [Message.openBilledTo, Option.isSome_iff_ne_none.mp this]
    case still =>
      have hm : tblGet j (tblErase slot s.messages) = some m := hm
      rw [tblGet_tblErase] at hm
      split at hm
      · cases hm
      · exact hclosed j (List.mem_cons_of_mem _ hj) m hm

/-- The account law, with the two invariants that its moves rest on. -/
structure State.Accounted (s : State) : Prop where
  canonical : s.canonical
  listed : s.outcomesListed
  law : s.accountLaw

theorem State.Move.accountLaw (h : State.Move i strict s t) (hs : s.Accounted) : t.accountLaw := by
  obtain ⟨hcanonical, hlisted, hlaw⟩ := hs
  have hsorted := hcanonical.messages
  cases h with
  | aside alike => exact hlaw.congr alike.messages fun j => by rw [State.entry, alike.directory, State.entry]
  | reset a b ph _ => exact fun j => rfl
  | entry used _ held openCount => exact hlaw.setEntry used held openCount
  | createEntry unused _ => exact State.accountLaw.congr (hlaw.createEntry unused) rfl fun _ => rfl
  | changeEntry used _ => exact State.accountLaw.congr (hlaw.setEntry used (by rfl) (by rfl)) rfl fun _ => rfl
  | deleteEntry used idle => exact State.accountLaw.congr (hlaw.deleteEntry used idle) rfl fun _ => rfl
  | everyMessage f keeps _ =>
    rw [State.accountLaw_iff] at hlaw ⊢
    intro j
    show lawOf (holdsOf _ (tblMap (fun _ m => f m) s.messages)) _
    rw [holdsOf_map f (fun m => (keeps m).openBilledTo j) fun m => (keeps m).hold]
    exact hlaw j
  | @openMessage _ slot m m' isOpen keeps =>
    rw [State.accountLaw_iff] at hlaw ⊢
    intro j
    show lawOf (holdsOf _ (tblSet slot m' s.messages)) _
    rw [holdsOf_set_same hsorted (State.openMessage_eq_some.mp isOpen).1 (keeps.holdOf (keeps.openBilledTo j))]
    exact hlaw j
  | takeSlot _ free _ isOpen billed => exact hlaw.takeSlot hsorted free isOpen billed
  | close w slot o k => exact hlaw.close hsorted slot o k
  | takeOutcomes p n _ =>
    refine State.accountLaw.freeSlots _ hsorted (hlaw.congr rfl fun _ => rfl) fun slot hslot m hm => ?_
    obtain ⟨m', hm', hclosed, -⟩ := ((hlisted p).2 slot).mp (List.mem_of_mem_take hslot)
    have hm : s.message slot = some m := hm
    rw [hm] at hm'
    cases hm'
    exact hclosed
  | clock | port | role | takeEvents | post | journal | record | zones | links | leaveUp => exact hlaw.congr rfl fun _ => rfl

theorem State.Move.accounted (h : State.Move i strict s t) (hs : s.Accounted) : t.Accounted :=
  ⟨h.canonical hs.canonical, h.outcomesListed hs.listed, h.accountLaw hs⟩

end

/-- Settles O57: a record is written only with a message closed, or while the journal has one to spare. -/
theorem stepKeepsTheJournalReserve : Obligations.StepKeepsTheJournalReserve :=
  fun _ _ hs h => step_keeps State.Move.reserved h hs

/-- Settles O58: a closing lists its slot, a fetch frees what it takes from the list, and no other move closes or frees. -/
theorem stepKeepsTheOutcomeLists : Obligations.StepKeepsTheOutcomeLists :=
  fun _ _ hs h => step_keeps State.Move.outcomesListed h hs

/-- Settles O59: an admission adds its hold, a closing takes it off again, and every other move leaves both sides alone. -/
theorem stepKeepsTheAccountLaw : Obligations.StepKeepsTheAccountLaw :=
  fun _ _ hcanonical hlisted hlaw h => (step_keeps State.Move.accounted h ⟨hcanonical, hlisted, hlaw⟩).law

end Sys2Proof.Machine
end

/-! ## Zones whose link is not UP, queue order and the congested flags (R94, R96, R107, R120) -/

section
namespace Sys2Proof.Machine

section
variable {i : Instr} {s t : State}

theorem State.downZonesEmpty.congr (h : s.downZonesEmpty) (hz : ∀ z, t.zone z = s.zone z) (hl : ∀ z, t.link z = s.link z) :
    t.downZonesEmpty := by
  intro z
  rw [hz, hl]
  exact h z

theorem State.downZonesEmpty.zones (h : s.downZonesEmpty) {v : Vector Zone 8}
    (fills : ∀ z, (s.zone z).fillsOnlyUp (s.link z).state (bankGet v z)) : ({ s with zones := v } : State).downZonesEmpty := by
  intro z
  obtain ⟨hempty, hprofile⟩ := h z
  refine ⟨fun hdown => ?_, hprofile⟩
  obtain ⟨hqueue, hflight⟩ := hempty hdown
  rcases fills z with hup | ⟨hq, hf⟩
  · exact absurd hup hdown
  · exact ⟨hq hqueue, hf hflight⟩

theorem State.downZonesEmpty.links (h : s.downZonesEmpty) {v : Vector Link 8} (stays : ∀ z, (s.link z).StaysUp (bankGet v z)) :
    ({ s with links := v } : State).downZonesEmpty := by
  intro z
  obtain ⟨hempty, hprofile⟩ := h z
  refine ⟨fun hdown => hempty fun hup => hdown ((stays z).up hup), fun hup => ?_⟩
  rcases (stays z).profile hup with hentry | ⟨hbefore, hkept⟩
  · exact hentry
  · exact hkept (hprofile hbefore)

/-- A departure from UP leaves its own zone empty, and the others as they were. -/
theorem State.downZonesEmpty.leaveUp (h : s.downZonesEmpty) (z : ZoneId) {x : Link} (kind : EventKind) (subject : Nat)
    (detail : Int) (down : x.state ≠ .up) :
    (((s.setLink z x).post kind subject detail).setZone z { s.zone z with queue := [], inFlight := none }).downZonesEmpty := by
  intro y
  by_cases hy : y = z
  · subst hy
    simp [down]
  · simp only [State.zone_setZone_ne _ _ hy, State.link_setZone', State.link_post', State.link_setLink_ne _ _ hy,
      State.zone_post', State.zone_setLink']
    exact h y

theorem State.Move.downZonesEmpty (h : State.Move i True s t) (hs : s.downZonesEmpty) : t.downZonesEmpty := by
  cases h with
  | aside alike =>
    exact hs.congr (fun z => by rw [State.zone, alike.zones, State.zone]) fun z => by rw [State.link, alike.links, State.link]
  | reset a b ph _ =>
    intro z
    have hzone : (s.deviceReset a b ph).zone z = Zone.reset := bankGet_replicate Zone.reset z
    have hlink : (s.deviceReset a b ph).link z = Link.reset := bankGet_replicate Link.reset z
    rw [hzone, hlink]
    exact ⟨fun _ => ⟨rfl, rfl⟩, nofun⟩
  | close w slot o k =>
    cases hm : w.state.openMessage slot with
    | none => rwa [Work.close_closed o k hm]
    | some m =>
      obtain ⟨hmsg, hopen⟩ := State.openMessage_eq_some.mp hm
      have hshuts := Work.shuts_close o k hmsg hopen
      have hlinks : (w.close slot o k).state.links = w.state.links := by rw [hshuts.rest]
      intro z
      obtain ⟨hempty, hprofile⟩ := hs z
      rw [State.link, hlinks, hshuts.queues, hshuts.inFlight]
      refine ⟨fun hdown => ?_, hprofile⟩
      obtain ⟨hqueue, hflight⟩ := hempty hdown
      simp [hqueue, hflight]
  | takeOutcomes p n _ =>
    rw [State.freeSlots_rest]
    exact hs.congr (fun _ => rfl) fun _ => rfl
  | zones v fills => exact hs.zones (fills trivial)
  | links v stays => exact hs.links (stays trivial)
  | leaveUp z x kind subject detail down => exact hs.leaveUp z kind subject detail down
  | clock | port | role | takeEvents | post | entry | createEntry | changeEntry | deleteEntry | everyMessage | openMessage
  | takeSlot | journal | record => exact hs.congr (fun _ => rfl) fun _ => rfl

theorem step_keeps_downZonesEmpty (h : step s = .next t) (hs : s.downZonesEmpty) : t.downZonesEmpty := by
  rcases step_cases h with rfl | ⟨i, u, halike, hexec⟩
  · exact hs
  · have hu : u.downZonesEmpty := State.Move.downZonesEmpty (i := i) (.aside halike) hs
    exact (State.runs_exec hexec True fun _ => hu).keeps State.Move.downZonesEmpty hu

end

/-! ### Queue order and the flags -/

/-- Queue order and the agreement of the flags carry over from one state to the other. -/
structure State.Settles (s t : State) : Prop where
  ordered : s.queuesOrdered → t.queuesOrdered
  agrees : s.congestionAgrees → t.congestionAgrees

section
variable {s t u : State}

theorem State.Settles.refl (s : State) : s.Settles s := ⟨id, id⟩

theorem State.Settles.trans (h : s.Settles t) (k : t.Settles u) : s.Settles u := ⟨k.ordered ∘ h.ordered, k.agrees ∘ h.agrees⟩

theorem State.Settles.foldl {α : Type} (f : State → α → State) (hf : ∀ (s : State) (a : α), s.Settles (f s a)) (l : List α) (s : State) :
    s.Settles (l.foldl f s) := by
  induction l generalizing s with
  | nil => exact .refl s
  | cons a rest ih => exact (hf s a).trans (ih _)

/-- What a zone's order and flag turn on: its queue, its flag and its settings in force. -/
theorem State.Settles.of_zones (h : ∀ z, (t.zone z).queue = (s.zone z).queue ∧ (t.zone z).congested = (s.zone z).congested
    ∧ (t.zone z).force = (s.zone z).force) : s.Settles t := by
  refine ⟨fun ho z => ?_, fun ha z => ?_⟩
  · rw [Zone.ordered, (h z).1]
    exact ho z
  · obtain ⟨hq, hc, hf⟩ := h z
    rw [hq, hc, hf]
    exact ha z

theorem State.Settles.of_eq (h : ∀ z, t.zone z = s.zone z) : s.Settles t :=
  .of_zones fun z => by rw [h z]; exact ⟨rfl, rfl, rfl⟩

theorem State.Settles.of_same (h : t.zones = s.zones) : s.Settles t := .of_eq fun z => by rw [State.zone, h, State.zone]

theorem State.Settles.setZone {z : ZoneId} {x : Zone} (hq : x.queue = (s.zone z).queue)
    (hc : x.congested = (s.zone z).congested) (hf : x.force = (s.zone z).force) : s.Settles (s.setZone z x) := by
  refine .of_zones fun y => ?_
  by_cases hy : y = z
  · subst hy; rw [State.zone_setZone_self]; exact ⟨hq, hc, hf⟩
  · rw [State.zone_setZone_ne _ _ hy]; exact ⟨rfl, rfl, rfl⟩

/-- An event that marks what it changes, and then ends. -/
theorem Work.Marks.settles {w : Work} (h : s.begin.Marks w) : s.Settles w.finish :=
  ⟨(Work.Marks.finish h).1, (Work.Marks.finish h).2⟩

theorem State.settles_closeMessage (slot : SlotId) (o : MsgOutcome) (k : Nat) (s : State) :
    s.Settles (s.closeMessage slot o k) := (Work.marks_close slot o k s.begin).settles

theorem State.settles_expireRetry (s : State) (slot : SlotId) : s.Settles (s.expireRetry slot) := by
  unfold State.expireRetry
  split
  · next m h =>
    split
    · refine .trans (t := s.setMessage slot _) (.of_same rfl) (Work.marks_place slot (State.begin _)).settles
    · exact State.settles_closeMessage ..
  · exact .refl s

theorem State.settles_expireLife (s : State) (slot : SlotId) : s.Settles (s.expireLife slot) := by
  unfold State.expireLife
  split
  · next m h => exact .trans (t := s.setMessage slot { m with life := 0 }) (.of_same rfl) (State.settles_closeMessage ..)
  · exact .refl s

theorem State.zones_visit (j : AccountIndex) (s : State) : (s.visit j).zones = s.zones := by
  unfold State.visit
  split
  · rfl
  · dsimp only
    refine List.foldlRecOn (motive := fun t : State => t.zones = s.zones) _ _ rfl fun t ht ev _ => ht

theorem State.zones_sweepVisit (s : State) : s.sweepVisit.zones = s.zones := by
  unfold State.sweepVisit
  dsimp only
  split <;> exact State.zones_visit ..

theorem State.zones_sweepVisits (n : Nat) (s : State) : (s.sweepVisits n).zones = s.zones := by
  induction n generalizing s with
  | zero => rfl
  | succ n ih =>
    unfold State.sweepVisits
    split
    · rw [ih, State.zones_sweepVisit]
    · rw [ih, State.zones_sweepVisit]
    · rfl
    · rfl

theorem State.zones_sweepTick (s : State) : s.sweepTick.zones = s.zones := by
  unfold State.sweepTick
  split
  · rfl
  · exact State.zones_sweepVisits ..
  · exact State.zones_sweepVisits ..
  · exact State.zones_visit ..

theorem State.settles_tick (s : State) : s.Settles s.tick := by
  have hcount : s.Settles s.count := .of_zones fun z => by
    have hzone : s.count.zone z = (s.zone z).tick := bankGet_bankMap Zone.tick s.zones z
    rw [hzone]
    exact ⟨rfl, rfl, rfl⟩
  exact (hcount.trans (.foldl _ State.settles_expireRetry _ _)).trans (.of_same (State.zones_sweepTick _))

theorem State.settles_second (s : State) : s.Settles s.second := by
  unfold State.second
  exact .trans (.of_same (by rfl)) (.foldl _ State.settles_expireLife _ _)

theorem State.settles_matchAck (tag : AckTag) (s : State) : s.Settles (s.matchAck tag) := by
  unfold State.matchAck
  split
  · exact .refl s
  · split_ifs
    · exact .refl s
    · exact .refl s
    · exact .refl s
    · split
      · exact State.settles_closeMessage ..
      · split_ifs
        · exact .refl s
        · exact .of_same rfl

theorem State.zones_seen (z : ZoneId) (a : PagerAddress) (s : State) : (s.seen z a).zones = s.zones := by
  unfold State.seen
  split
  · rfl
  · split <;> rfl

theorem State.zones_countBad (z : ZoneId) (s : State) : (s.countBad z).zones = s.zones := by
  unfold State.countBad
  split <;> rfl

theorem State.zones_frameDropped (p : PortId) (s : State) : (s.frameDropped p).zones = s.zones := by
  unfold State.frameDropped
  split <;> rfl

theorem State.zones_highWaterTest (s : State) : s.highWaterTest.zones = s.zones := by
  unfold State.highWaterTest
  dsimp only
  split_ifs <;> rfl

theorem State.settles_failUp (z : ZoneId) (cause : DownCause) (s : State) : s.Settles (s.begin.failUp z cause).finish :=
  Work.Marks.settles ((Work.marks_leaveUp z cause s.begin).trans (Work.marks_map fun _ => ⟨rfl, rfl, rfl⟩))

theorem State.settles_deviceReset (s : State) (a b : Bool) (ph : Phase) : s.Settles (s.deviceReset a b ph) := by
  have hzone : ∀ z, (s.deviceReset a b ph).zone z = Zone.reset := fun z => bankGet_replicate Zone.reset z
  refine ⟨fun _ z => ?_, fun _ z => ?_⟩
  · rw [hzone]
    exact List.Pairwise.nil
  · rw [hzone]
    exact ⟨fun h => absurd rfl h, nofun⟩

/-! ### Taking commands and blocks -/

theorem settles_takeCommand {p : PortId} {roles : List Role} {owner : State → Reply} (h : s.Settles (owner s).state) :
    s.Settles (takeCommand p roles owner s) := by
  rcases takeCommand_cases s p roles owner with hs | ⟨st, hs⟩ | ⟨-, hs⟩
  · rw [hs]; exact .refl s
  · rw [hs]; exact .of_same rfl
  · rw [hs]; exact h.trans (.of_same rfl)

theorem settles_withLength {n : Nat} {body : List Byte} {owner : State → Reply} (h : s.Settles (owner s).state) :
    s.Settles (withLength n body owner s).state := by
  unfold withLength
  split
  · exact h
  · exact .refl s

theorem settles_withRange {α : Type} {fields : Option α} {owner : α → State → Reply} (h : ∀ r, s.Settles (owner r s).state) :
    s.Settles (withRange fields owner s).state := by
  cases fields with
  | none => exact .refl s
  | some r => exact h r

theorem settles_command {α : Type} {p : PortId} {roles : List Role} {n : Nat} {body : List Byte} {fields : Option α}
    {owner : α → State → Reply} (h : ∀ r, s.Settles (owner r s).state) :
    s.Settles (takeCommand p roles (withLength n body (withRange fields owner)) s) :=
  settles_takeCommand (settles_withLength (settles_withRange h))

/-- A command whose owner leaves the zones alone. -/
theorem settles_command_same {α : Type} {p : PortId} {roles : List Role} {n : Nat} {body : List Byte} {fields : Option α}
    {owner : α → State → Reply} (h : ∀ r, (owner r s).state.zones = s.zones) :
    s.Settles (takeCommand p roles (withLength n body (withRange fields owner)) s) :=
  settles_command fun r => .of_same (h r)

theorem settles_receive {α : Type} {z : ZoneId} {fields : Option α} {handle : LinkState → α → State → State}
    (h : ∀ x u, State.Settles u (handle (s.link z).state x u)) : s.Settles (receive z fields handle s) := by
  unfold receive
  split
  · exact .refl s
  · cases fields with
    | none => exact .of_same (State.zones_countBad ..)
    | some x => exact .trans (t := s.takeValid z) (.of_same rfl) (h x _)

/-! ### Each command -/

theorem settles_submit (p : PortId) (r : SubmitReq) (s : State) : s.Settles (submit p r s).state := by
  have hdecide : ∀ a : Admission, s.Settles (decideAdmission p a s).state := by
    intro a
    unfold decideAdmission
    split
    · exact .refl s
    · split
      · exact .refl s
      · next slot _ =>
        exact .trans (t := (s.setMessage slot (a.message p)).setEntry a.req.billed
            { a.billed with held := a.billed.held + a.hold, openCount := a.billed.openCount + 1 })
          (.of_same rfl) (Work.marks_place slot (State.begin _)).settles
  unfold submit
  split
  · exact .refl s
  · dsimp only
    split
    · exact .refl s
    · exact hdecide _
    · split
      · exact .refl s
      · split
        · exact .refl s
        · exact hdecide _

theorem settles_linkEnable (r : ZoneId × Bool) (s : State) : s.Settles (linkEnable r s).state := by
  obtain ⟨z, on⟩ := r
  show s.Settles (s.linkEnable z on)
  unfold State.linkEnable
  split
  · exact .of_same rfl
  · exact .refl s
  · exact .refl s
  · exact Work.Marks.settles ((Work.marks_leaveUp z .restart s.begin).trans (Work.marks_map fun _ => ⟨rfl, rfl, rfl⟩))
  · exact .of_same rfl

theorem settles_linkRestart (z : ZoneId) (s : State) : s.Settles (linkRestart z s).state := by
  show s.Settles (s.linkRestart z)
  unfold State.linkRestart
  split
  · exact State.settles_failUp ..
  · exact .of_same rfl
  · exact .of_same rfl
  · exact .of_same rfl
  · exact .refl s

theorem settles_accountState (r : AccountIndex × EntryState × Bool) (s : State) : s.Settles (accountState r s).state := by
  unfold accountState
  split
  · exact .refl s
  · next e _ =>
    have hwrite : s.Settles (s.setEntry r.1 { e with state := r.2.1 }) := .of_same rfl
    dsimp only
    split
    · exact hwrite.trans (Work.marks_foldl _ (fun w slot => Work.marks_close slot .purged 0 w) _ (State.begin _)).settles
    · exact hwrite

theorem settles_airRelease (s : State) : s.Settles (airRelease s).state := by
  unfold airRelease
  dsimp only
  split
  · refine State.Settles.trans (t := _) ?_ (Work.Marks.settles ⟨fun _ h => h, fun _ => .refl _ _⟩)
    exact .of_same rfl
  · exact .refl s

theorem settles_batchTimerExpiry (z : ZoneId) (s : State) : s.Settles (s.batchTimerExpiry z) := by
  unfold State.batchTimerExpiry
  refine Work.Marks.settles ((Work.marks_form z s.begin).trans (Work.marks_map fun y => ?_))
  rw [State.zone_setZone]
  split
  · next hy => subst hy; exact ⟨rfl, rfl, rfl⟩
  · exact ⟨rfl, rfl, rfl⟩

theorem settles_capNext (z : ZoneId) (identity : Nat) (s : State) : s.Settles (s.capNext z identity) := by
  unfold State.capNext
  split
  · exact .refl s
  · dsimp only
    split
    · exact .of_same rfl
    · exact (Work.marks_enterUp z _ s.begin).settles

theorem settles_siteStatus (z : ZoneId) (st : LinkState) (fault : Option RemoteFault) (s : State) :
    s.Settles (s.siteStatus z st fault) := by
  unfold State.siteStatus
  split
  · exact .of_same rfl
  · exact State.settles_failUp ..
  · exact .of_same rfl
  · exact .of_same rfl
  · exact .refl s
  · exact .refl s
  · exact .refl s

theorem settles_of_exec {i : Instr} (h : exec i s = .next t) (ht : s.Settles t) : s.Settles (s.after i) := by
  rw [exec_after] at h
  cases h
  exact ht

/-- Every command carries the order of the queues and the agreement of the flags over. -/
theorem settles_after (i : Instr) (s : State) : s.Settles (s.after i) := by
  cases i with
  | subscriberWrite p body =>
    refine settles_command_same fun r => ?_
    unfold subscriberWrite
    repeat' split
    all_goals rfl
  | subscriberRead p body =>
    refine settles_command_same fun r => ?_
    unfold subscriberRead
    split <;> rfl
  | subscriberDelete p body =>
    refine settles_command_same fun r => ?_
    unfold subscriberDelete
    repeat' split
    all_goals rfl
  | planWrite p body => exact settles_command_same fun r => rfl
  | planRead p body => exact settles_command_same fun r => rfl
  | classifierWrite p body => exact settles_command_same fun r => rfl
  | classifierDefault p body =>
    refine settles_command_same fun r => ?_
    unfold classifierDefault
    dsimp only
    split <;> rfl
  | classifierRead p body =>
    refine settles_command_same fun r => ?_
    unfold classifierRead
    split <;> rfl
  | rangeWrite p body => exact settles_command_same fun r => rfl
  | rangeRead p body => exact settles_takeCommand (settles_withLength (.refl s))
  | classifyProbe p body =>
    refine settles_of_exec rfl (settles_takeCommand ?_)
    split
    · refine settles_withRange fun r => ?_
      unfold classifyProbe
      split <;> exact .refl s
    · exact .refl s
  | submit p body =>
    refine settles_of_exec rfl (settles_takeCommand ?_)
    split
    · exact settles_withRange fun r => settles_submit p r s
    · exact .refl s
  | cancel p body =>
    refine settles_command fun r => ?_
    unfold cancel
    repeat' split
    · exact .refl s
    · exact .refl s
    · exact .refl s
    · exact State.settles_closeMessage ..
  | queryMessage p body =>
    refine settles_command_same fun r => ?_
    unfold queryMessage
    split <;> rfl
  | fetchOutcomes p body =>
    refine settles_takeCommand (settles_withLength (.of_same ?_))
    unfold fetchOutcomes
    dsimp only
    rw [State.freeSlots_rest]
    rfl
  | zoneConfig p body => exact settles_command fun r => .setZone rfl rfl rfl
  | readZone p body => exact settles_command_same fun r => rfl
  | airHold p body =>
    refine settles_takeCommand (settles_withLength ?_)
    unfold airHold
    split <;> exact .of_same rfl
  | airRelease p body => exact settles_takeCommand (settles_withLength (settles_airRelease s))
  | linkEnable p body => exact settles_command fun r => settles_linkEnable r s
  | linkRestart p body => exact settles_command fun r => settles_linkRestart r s
  | readLink p body => exact settles_command_same fun r => rfl
  | retryStatus p body =>
    refine settles_command_same fun r => ?_
    unfold retryStatus
    split <;> rfl
  | accountRead p body =>
    refine settles_command_same fun r => ?_
    unfold accountRead
    split <;> rfl
  | accountAdjust p body =>
    refine settles_command_same fun r => ?_
    unfold accountAdjust
    repeat' split
    · rfl
    · rfl
    · exact State.zones_highWaterTest _
  | accountLimit p body =>
    refine settles_command_same fun r => ?_
    unfold accountLimit
    split <;> rfl
  | accountState p body => exact settles_command fun r => settles_accountState r s
  | journalFetch p body => exact settles_takeCommand (settles_withLength (.of_same (State.zones_highWaterTest _)))
  | journalConfig p body => exact settles_command_same fun r => State.zones_highWaterTest _
  | sweepStart p body => exact settles_command_same fun r => rfl
  | sweepStatus p body => exact settles_takeCommand (settles_withLength (.refl s))
  | fetchEvents p body => exact settles_takeCommand (settles_withLength (.of_same rfl))
  | setRole p body =>
    refine settles_command_same fun r => ?_
    unfold setRole
    split <;> rfl
  | portConfig p body => exact settles_command_same fun r => rfl
  | portRead p body => exact settles_takeCommand (settles_withLength (.refl s))
  | readClock p body => exact settles_takeCommand (settles_withLength (.refl s))
  | clockSet p body => exact settles_takeCommand (settles_withLength (.of_same rfl))
  | officeReset p body => exact settles_takeCommand (settles_withLength (.of_same rfl))
  | unknownCommand p code body =>
    refine settles_of_exec rfl ?_
    split <;> exact .of_same rfl
  | commandFrameBadCrc p frame =>
    refine settles_of_exec rfl ?_
    split
    · exact .refl s
    · exact .of_same (State.zones_frameDropped ..)
  | frameAbandoned p => exact .of_same (State.zones_frameDropped ..)
  | turnAroundGapExpiry p =>
    refine settles_of_exec rfl ?_
    split <;> exact .of_same rfl
  | responseSent p =>
    refine settles_of_exec rfl ?_
    split <;> exact .of_same rfl
  | lineBreak p =>
    refine settles_of_exec rfl ?_
    split <;> exact .of_same rfl
  | officeResetTakesEffect a b =>
    refine settles_of_exec rfl ?_
    split
    · exact State.settles_deviceReset ..
    · exact .refl s
  | powerOn a b => exact State.settles_deviceReset ..
  | resetNLow a b => exact State.settles_deviceReset ..
  | resetNHigh =>
    refine settles_of_exec rfl ?_
    split <;> exact .of_same rfl
  | initialisationPassEnd =>
    refine settles_of_exec rfl ?_
    split
    · refine .of_zones fun z => ?_
      rw [State.zone, bankGet_bankMap]
      exact ⟨rfl, rfl, rfl⟩
    · exact .refl s
  | tick =>
    refine settles_of_exec rfl ?_
    split
    · exact State.settles_tick s
    · exact .refl s
  | oneSecondStep =>
    refine settles_of_exec rfl ?_
    split
    · exact State.settles_second s
    · exact .refl s
  | lifeExpiry slot =>
    refine settles_of_exec rfl ?_
    split
    · exact State.settles_expireLife ..
    · exact .refl s
  | batchTimerExpiry z =>
    refine settles_of_exec rfl ?_
    split
    · exact settles_batchTimerExpiry ..
    · exact .refl s
  | acceptDeadlineExpiry z =>
    refine settles_of_exec rfl ?_
    split
    · exact State.settles_failUp ..
    · exact .refl s
  | huntTimerExpiry z =>
    refine settles_of_exec rfl ?_
    split <;> exact .of_same rfl
  | exchangeTimerExpiry z =>
    refine settles_of_exec rfl ?_
    split <;> exact .of_same rfl
  | silenceTimerExpiry z =>
    refine settles_of_exec rfl ?_
    split
    · exact State.settles_failUp ..
    · exact .refl s
  | idleTimerExpiry z =>
    refine settles_of_exec rfl ?_
    split <;> exact .of_same rfl
  | holdOffTimerExpiry z =>
    refine settles_of_exec rfl ?_
    split <;> exact .of_same rfl
  | retryExpiry slot =>
    refine settles_of_exec rfl ?_
    split
    · exact State.settles_expireRetry ..
    · exact .refl s
  | repeatExpiry slot =>
    refine settles_of_exec rfl ?_
    split
    · exact State.settles_expireRetry ..
    · exact .refl s
  | capBase z body =>
    refine settles_of_exec rfl (settles_receive fun page u => ?_)
    split
    · exact (Work.marks_enterExchange z page u.begin).settles
    · exact (Work.marks_evaluate z page u.begin).settles
    · exact ((Work.marks_leaveUp z .renegotiate u.begin).trans (Work.marks_enterExchange z page _)).settles
    · exact .refl u
    · exact .refl u
  | capNext z body =>
    refine settles_of_exec rfl (settles_receive fun identity u => ?_)
    split
    · exact settles_capNext ..
    · exact .refl u
  | idle z body => exact settles_of_exec rfl (settles_receive fun _ u => .refl u)
  | batchAccept z body =>
    refine settles_of_exec rfl (settles_receive fun n u => ?_)
    split
    · split
      · exact (Work.marks_accepted z _ u.begin).settles
      · exact .refl u
    · exact .refl u
  | batchRefuse z body =>
    refine settles_of_exec rfl (settles_receive fun n u => ?_)
    split
    · split
      · exact (Work.marks_refused z _ u.begin).settles
      · exact .refl u
    · exact .refl u
  | pagerAck z body =>
    refine settles_of_exec rfl (settles_receive fun tag u => ?_)
    split
    · exact (State.Settles.of_same (State.zones_seen ..)).trans (State.settles_matchAck ..)
    · exact .refl u
  | pagerLocate z body =>
    refine settles_of_exec rfl (settles_receive fun a u => ?_)
    split
    · exact .of_same (State.zones_seen ..)
    · exact .refl u
  | siteStatus z body => exact settles_of_exec rfl (settles_receive fun fault u => settles_siteStatus z _ fault u)
  | badBlock z block =>
    refine settles_of_exec rfl ?_
    split
    · exact .refl s
    · exact .of_same (State.zones_countBad ..)
  | linkBlockSent z =>
    refine settles_of_exec rfl ?_
    split <;> exact .of_same rfl

end

/-- Settles O60: the zones by the moves of a step, the queues and the flags by what each command settles. -/
theorem stepKeepsDownZonesEmpty : Obligations.StepKeepsDownZonesEmpty := by
  have hstep : ∀ s t, step s = .next t → s.Settles t := by
    intro s t h
    rcases step_cases h with rfl | ⟨i, u, halike, hexec⟩
    · exact .refl _
    · rw [exec_after] at hexec
      cases hexec
      exact (State.Settles.of_same halike.zones).trans (settles_after i u)
  exact ⟨fun _ _ hs h => step_keeps_downZonesEmpty h hs, fun s t hs h => (hstep s t h).ordered hs,
    fun s t hs h => (hstep s t h).agrees hs⟩

end Sys2Proof.Machine
end

/-! ## What only some commands change, and the machine after reset (R171, R83) -/

section
namespace Sys2Proof.Machine

/-! ### The office clock (R171) -/

/-- A move that is not a setting of the clock or a device reset keeps the clock. -/
theorem State.Move.clock_eq {i : Instr} {strict : Prop} {s t : State} (h : State.Move i strict s t)
    (hsets : ¬ ((∃ p body, i = .clockSet p body) ∨ i = .oneSecondStep)) (hresets : ¬ takesReset i) : t.clock = s.clock := by
  cases h with
  | aside alike => exact alike.clock
  | clock c sets => exact absurd sets hsets
  | reset a b ph resets => exact absurd resets hresets
  | close w slot o k => rw [(Work.pages_close slot o k w).rest]
  | takeOutcomes p n fetches => rw [State.freeSlots_rest]; rfl
  | port | role | takeEvents | post | entry | createEntry | changeEntry | deleteEntry | everyMessage | openMessage | takeSlot
  | journal | record | zones | links | leaveUp => rfl

/-- Settles O52, by the moves of a command. -/
theorem onlyFiveCommandsChangeTheClock : Obligations.OnlyFiveCommandsChangeTheClock := by
  intro i s t h hclock
  by_contra hother
  have hsets : ¬ ((∃ p body, i = .clockSet p body) ∨ i = .oneSecondStep) := fun h => hother (h.imp_right .inl)
  have hresets : ¬ takesReset i := fun h => hother (.inr (.inr h))
  exact hclock ((State.runs_exec h False False.elim).keeps (P := fun u => u.clock = s.clock)
    (fun move hu => (move.clock_eq hsets hresets).trans hu) rfl)

/-! ### Closed messages (R83) -/

/-- The slot still holds what the closed message stood for. -/
def State.holdsClosed (slot : SlotId) (m : Message) (s : State) : Prop :=
  ∃ n, s.message slot = some n ∧ m.Keeps n ∧ n.attempts = m.attempts

/-- The commands that may free a slot: FETCH_OUTCOMES and the device resets. -/
def freesSlots (i : Instr) : Prop := (∃ p body, i = .fetchOutcomes p body) ∨ takesReset i

section
variable {i : Instr} {strict : Prop} {s t : State} {slot : SlotId} {m : Message}

theorem State.holdsClosed.congr (h : s.holdsClosed slot m) (heq : t.message slot = s.message slot) : t.holdsClosed slot m := by
  obtain ⟨n, hn, hkeeps⟩ := h
  exact ⟨n, heq.trans hn, hkeeps⟩

/-- No move writes a closed message; only a fetch or a reset takes it out of its slot. -/
theorem State.Move.holdsClosed (h : State.Move i strict s t) (hm : m.closing.isSome) (hs : s.holdsClosed slot m) :
    t.holdsClosed slot m ∨ t.message slot = none ∧ freesSlots i := by
  obtain ⟨n, hn, hkeeps, hattempts⟩ := id hs
  have hclosed : n.closing.isSome := hkeeps.closing ▸ hm
  have hother : ∀ {j : SlotId} {x : Message}, (∀ y, s.message j = some y → y.closing = none) →
      (s.setMessage j x).holdsClosed slot m := by
    intro j x hopen
    refine hs.congr (State.message_setMessage_ne _ _ ?_)
    rintro rfl
    rw [hopen n hn] at hclosed
    cases hclosed
  cases h with
  | aside alike => exact .inl (hs.congr (by rw [State.message, alike.messages, State.message]))
  | reset a b ph resets => exact .inr ⟨rfl, .inr resets⟩
  | everyMessage f keeps attempts =>
    refine .inl ⟨f n, ?_, ?_, (attempts n).trans hattempts⟩
    · show tblGet slot (tblMap (fun _ m => f m) s.messages) = _
      rw [tblGet_tblMap]
      exact congrArg (Option.map f) hn
    · obtain ⟨hc, hh, hb, hp⟩ := keeps n
      exact ⟨hc.trans hkeeps.closing, hh.trans hkeeps.hold, hb.trans hkeeps.billed, hp.trans hkeeps.port⟩
  | openMessage isOpen keeps =>
    obtain ⟨hmsg, hopen⟩ := State.openMessage_eq_some.mp isOpen
    refine .inl (hother fun y hy => ?_)
    rw [hmsg] at hy
    cases hy
    exact hopen
  | @takeSlot _ j x e submits free room isOpen billed =>
    exact .inl ((hother (j := j) (x := x) (by simp [free])).congr rfl)
  | close w j o k => exact .inl (hs.congr (((Work.pages_close j o k w).closed slot n hn hclosed).trans hn.symm))
  | takeOutcomes p k fetches =>
    have hmsg := State.message_freeSlots ((s.port p).outcomes.take k)
      (s.setPort p { s.port p with outcomes := (s.port p).outcomes.drop k }) slot
    split at hmsg
    · exact .inr ⟨hmsg, .inl fetches⟩
    · exact .inl (hs.congr hmsg)
  | clock | port | role | takeEvents | post | entry | createEntry | changeEntry | deleteEntry | journal | record | zones | links
  | leaveUp => exact .inl (hs.congr rfl)

/-- A FREE slot of a fetch or a reset stays FREE: only a SUBMIT fills one. -/
theorem State.Move.message_none (h : State.Move i strict s t) (hi : freesSlots i) (hs : s.message slot = none) :
    t.message slot = none := by
  cases h with
  | aside alike => rw [State.message, alike.messages]; exact hs
  | reset a b ph resets => rfl
  | everyMessage f keeps attempts =>
    show tblGet slot (tblMap (fun _ m => f m) s.messages) = _
    rw [tblGet_tblMap]
    exact congrArg (Option.map f) hs
  | openMessage isOpen keeps =>
    obtain ⟨hmsg, -⟩ := State.openMessage_eq_some.mp isOpen
    refine (State.message_setMessage_ne _ _ ?_).trans hs
    rintro rfl
    rw [hs] at hmsg
    cases hmsg
  | takeSlot submits free room isOpen billed =>
    obtain ⟨p, body, rfl⟩ := submits
    rcases hi with ⟨_, _, h⟩ | ⟨_, _, h⟩ | ⟨_, _, h⟩ | ⟨_, _, h⟩ <;> cases h
  | close w j o k =>
    have hterms := (Work.pages_close j o k w).messages slot
    rw [hs] at hterms
    simpa using hterms
  | takeOutcomes p k fetches =>
    rw [State.message_freeSlots]
    split
    · rfl
    · exact hs
  | clock | port | role | takeEvents | post | entry | createEntry | changeEntry | deleteEntry | journal | record | zones | links
  | leaveUp => exact hs

end

/-- Settles O53, by the moves of a command. -/
theorem closedMessagesStandUntilFreed : Obligations.ClosedMessagesStandUntilFreed := by
  intro i s t slot m h hm hclosed
  have hkeeps : t.holdsClosed slot m ∨ t.message slot = none ∧ freesSlots i := by
    refine (State.runs_exec h False False.elim).keeps
      (P := fun u => u.holdsClosed slot m ∨ u.message slot = none ∧ freesSlots i) ?_ (.inl ⟨m, hm, .refl m, rfl⟩)
    rintro u v move (hu | ⟨hu, hi⟩)
    · exact move.holdsClosed hclosed hu
    · exact .inr ⟨move.message_none hi hu, hi⟩
  rcases hkeeps with ⟨n, hn, keeps, hattempts⟩ | hfree
  · exact .inl ⟨n, hn, keeps.closing, hattempts, keeps.hold, keeps.billed, keeps.port⟩
  · exact .inr hfree

/-! ### The machine after reset -/

theorem State.zone_reset (z : ZoneId) : State.reset.zone z = Zone.reset := bankGet_replicate Zone.reset z

theorem State.link_reset (z : ZoneId) : State.reset.link z = Link.reset := bankGet_replicate Link.reset z

/-- Settles O54: empty tables, lists and queues, one SUPERVISOR port and links in OFF. -/
theorem resetMeetsTheInvariants : Obligations.ResetMeetsTheInvariants := by
  have hport : ∀ p : PortId, (State.reset.port p).events = [] ∧ (State.reset.port p).lost = false
      ∧ (State.reset.port p).outcomes = [] := by
    intro p
    fin_cases p <;> exact ⟨rfl, rfl, rfl⟩
  refine ⟨⟨.nil, .nil, .nil, .nil, nofun⟩, ?_, ⟨0, rfl⟩, ?_, ⟨.nil, ?_⟩, ?_, ?_, ?_, ?_, ?_⟩
  · intro a j
    exact ⟨nofun, nofun⟩
  · intro p
    obtain ⟨hevents, hlost, -⟩ := hport p
    simp [hevents, hlost]
  · decide
  · intro p
    obtain ⟨-, -, hlist⟩ := hport p
    rw [hlist]
    exact ⟨List.nodup_nil, fun j => iff_of_false List.not_mem_nil (by rintro ⟨m, hm, -⟩; cases hm)⟩
  · intro j
    exact rfl
  · intro z
    rw [State.zone_reset, State.link_reset]
    exact ⟨fun _ => ⟨rfl, rfl⟩, nofun⟩
  · intro z
    rw [State.zone_reset]
    exact List.Pairwise.nil
  · intro z
    rw [State.zone_reset]
    exact ⟨fun h => absurd rfl h, nofun⟩

/-! ### The step, and the word count of a class (R26) -/

/-- Settles O1, by the definition of a step. -/
theorem stepRunsTheFrontCommand : Obligations.StepRunsTheFrontCommand := fun _ _ _ => rfl

/-- Settles O12: a payload word holds six digits or three characters. -/
theorem wordCountByClass : Obligations.WordCountByClass := by
  intro cls l hl
  cases cls with
  | tone =>
    have hzero : l = 0 := Nat.le_zero.mp hl
    exact ⟨⟨hzero, rfl⟩, Nat.le_refl 2, Nat.le_add_right 2 80⟩
  | numeric =>
    have hmost : l ≤ 96 := hl
    have hwords : wordCount .numeric l = 2 + (l + 5) / 6 := rfl
    refine ⟨⟨?_, ?_, ?_⟩, ?_, ?_⟩ <;> omega
  | text =>
    have hmost : l ≤ 240 := hl
    have hwords : wordCount .text l = 2 + (l + 2) / 3 := rfl
    refine ⟨⟨?_, ?_, ?_⟩, ?_, ?_⟩ <;> omega

end Sys2Proof.Machine
end

/-! ## The fields of a command body (Tables 10-8 and 10-9) -/

section
namespace Sys2Proof.Machine

/-! ### Numbers in range -/

theorem finBelow_eq_some {n v : Nat} {i : Fin n} : finBelow n v = some i ↔ v = i.val := by
  refine ⟨fun h => ?_, finBelow_of⟩
  unfold finBelow at h
  split at h
  · cases h; rfl
  · cases h

theorem within_eq_some {low high v w : Nat} : within low high v = some w ↔ v = w ∧ low ≤ v ∧ v ≤ high := by
  unfold within
  split
  · next h => simp [h]
  · next h => simp [h]

/-- A byte of a body as a set of bits. -/
theorem toNat_ofNat_fieldAt (b : List Byte) (off : Nat) : (BitVec.ofNat 8 (fieldAt b off 1)).toNat = fieldAt b off 1 := by
  rw [BitVec.toNat_ofNat]
  exact Nat.mod_eq_of_lt (fieldAt_lt b off 1)

theorem ofNat_fieldAt_eq_zero (b : List Byte) (off : Nat) : BitVec.ofNat 8 (fieldAt b off 1) = 0 ↔ fieldAt b off 1 = 0 := by
  rw [← BitVec.toNat_inj, toNat_ofNat_fieldAt]
  rfl

/-! ### Fields one after another -/

/-- The bytes of numbers one after another, each of its length. -/
def fieldsBytes (l : List (Nat × Nat)) : List Byte := l.flatMap fun f => bytesOf f.1 f.2

@[simp] theorem fieldsBytes_cons (f : Nat × Nat) (l : List (Nat × Nat)) :
    fieldsBytes (f :: l) = bytesOf f.1 f.2 ++ fieldsBytes l := rfl

@[simp] theorem fieldsBytes_nil : fieldsBytes [] = [] := rfl

@[simp] theorem fieldsBytes_length (l : List (Nat × Nat)) : (fieldsBytes l).length = (l.map Prod.fst).sum := by
  induction l with
  | nil => rfl
  | cons f rest ih => simp [ih]

/-- The field at a place stands after the lengths of those before it. -/
theorem fieldAt_fields {l : List (Nat × Nat)} {rest : List Byte} {off len v : Nat} (k : Nat) (h : l[k]? = some (len, v))
    (hoff : off = ((l.take k).map Prod.fst).sum) : fieldAt (fieldsBytes l ++ rest) off len = v % 256 ^ len := by
  induction l generalizing k off with
  | nil => simp at h
  | cons f tail ih =>
    cases k with
    | zero =>
      simp only [List.getElem?_cons_zero, Option.some.injEq] at h
      subst h hoff
      rw [fieldsBytes_cons, List.append_assoc]
      exact fieldAt_bytesOf len v _
    | succ k =>
      rw [List.take_succ_cons, List.map_cons, List.sum_cons] at hoff
      rw [fieldsBytes_cons, List.append_assoc, fieldAt_append (k := ((tail.take k).map Prod.fst).sum) (by simpa using hoff)]
      exact ih k (by simpa using h) rfl

theorem fieldAt_fields_nil {l : List (Nat × Nat)} {off len v : Nat} (k : Nat) (h : l[k]? = some (len, v))
    (hoff : off = ((l.take k).map Prod.fst).sum) : fieldAt (fieldsBytes l) off len = v % 256 ^ len := by
  simpa using fieldAt_fields (rest := []) k h hoff

/-- One byte as a number of one byte. -/
theorem bytesOf_one_toNat (b : Byte) : bytesOf 1 b.toNat = [b] := by
  simp [bytesOf]

/-! ### Codes -/

theorem roleOfCode_eq_some {v : Nat} {r : Role} : roleOfCode v = some r ↔ v = (roleCode r).toNat := by
  unfold roleOfCode
  split <;> cases r <;> simp_all [roleCode]

theorem pagerKindOfCode_eq_some {v : Nat} {k : PagerKind} : pagerKindOfCode v = some k ↔ v = (pagerKindCode k).toNat := by
  unfold pagerKindOfCode
  split <;> cases k <;> simp_all [pagerKindCode]

theorem classOfCode_eq_some {v : Nat} {c : MsgClass} : classOfCode v = some c ↔ v = (classCode c).toNat := by
  unfold classOfCode
  split <;> cases c <;> simp_all [classCode]

theorem dispositionOfCode_eq_some {v : Nat} {d : Disposition} :
    dispositionOfCode v = some d ↔ v = (dispositionCode d).toNat := by
  unfold dispositionOfCode
  split <;> cases d <;> simp_all [dispositionCode]

theorem rangeSourceOfCode_eq_some {v : Nat} {r : RangeSource} :
    rangeSourceOfCode v = some r ↔ v = (rangeSourceCode r).toNat := by
  unfold rangeSourceOfCode
  split <;> cases r <;> simp_all [rangeSourceCode]

theorem initialStateOfCode_eq_some {v : Nat} {e : EntryState} :
    initialStateOfCode v = some e ↔ v = 1 ∧ e = .active ∨ v = 2 ∧ e = .suspended .accounts := by
  unfold initialStateOfCode
  split <;> simp_all [eq_comm]

end Sys2Proof.Machine
end

/-! ## Subscriber directory: SUBSCRIBER_WRITE, SUBSCRIBER_DELETE, SUBSCRIBER_READ (R10 to R17) -/

section
namespace Sys2Proof.Machine

/-! ### The SUBSCRIBER_WRITE body (Tables 1-3 and 10-9) -/

theorem readSubscriberWrite_eq_some {body : List Byte} {r : SubscriberWriteReq} :
    readSubscriberWrite body = some r ↔ fieldAt body 0 2 = r.index.val
      ∧ initialStateOfCode (fieldAt body 2 1) = some r.initial ∧ fieldAt body 3 3 = r.address.toNat
      ∧ fieldAt body 6 1 = (pagerKindCode r.kind).toNat ∧ fieldAt body 7 1 = r.plan.val
      ∧ r.home = BitVec.ofNat 8 (fieldAt body 8 1) ∧ r.home ≠ 0 ∧ r.region = BitVec.ofNat 8 (fieldAt body 9 1)
      ∧ r.limit = fieldAt body 10 1 ∧ 1 ≤ r.limit ∧ r.limit ≤ 15 := by
  unfold readSubscriberWrite readIndex
  simp only [Option.bind_eq_bind, Option.bind_eq_some_iff, finBelow_eq_some, within_eq_some, pagerKindOfCode_eq_some]
  constructor
  · rintro ⟨index, hindex, initial, hinitial, address, haddress, kind, hkind, plan, hplan, limit, ⟨rfl, hlow, hhigh⟩, h⟩
    split at h
    · cases h
    · next hhome =>
      cases h
      refine ⟨hindex, hinitial, ?_, hkind, hplan, rfl, hhome, rfl, rfl, hlow, hhigh⟩
      rw [BitVec.toNat_ofNat, Nat.mod_eq_of_lt address.isLt]
      exact haddress
  · rintro ⟨hindex, hinitial, haddress, hkind, hplan, hhome, hne, hregion, hlimit, hlow, hhigh⟩
    refine ⟨r.index, hindex, r.initial, hinitial, ⟨r.address.toNat, r.address.isLt⟩, haddress, r.kind, hkind, r.plan, hplan,
      r.limit, ⟨hlimit.symm, hlimit ▸ hlow, hlimit ▸ hhigh⟩, ?_⟩
    rw [if_neg (hhome ▸ hne), ← hhome, ← hregion, BitVec.ofNat_toNat, BitVec.setWidth_eq]
    rfl

theorem readSubscriberWrite_none {body : List Byte} (h : fieldAt body 0 2 > 8191
    ∨ (fieldAt body 2 1 ≠ 1 ∧ fieldAt body 2 1 ≠ 2) ∨ fieldAt body 3 3 > 4194303 ∨ fieldAt body 6 1 > 1
    ∨ fieldAt body 7 1 > 15 ∨ fieldAt body 8 1 = 0 ∨ fieldAt body 10 1 = 0 ∨ fieldAt body 10 1 > 15) :
    readSubscriberWrite body = none := by
  cases hread : readSubscriberWrite body with
  | none => rfl
  | some r =>
    exfalso
    obtain ⟨hindex, hinitial, haddress, hkind, hplan, hhome, hne, -, hlimit, hlow, hhigh⟩ :=
      readSubscriberWrite_eq_some.mp hread
    have hkind1 : fieldAt body 6 1 ≤ 1 := by rw [hkind]; cases r.kind <;> decide
    have hinitial12 : fieldAt body 2 1 = 1 ∨ fieldAt body 2 1 = 2 := by
      rcases initialStateOfCode_eq_some.mp hinitial with ⟨hv, -⟩ | ⟨hv, -⟩
      · exact .inl hv
      · exact .inr hv
    have hhome0 : fieldAt body 8 1 ≠ 0 := fun hz => hne (hhome.trans ((ofNat_fieldAt_eq_zero body 8).mpr hz))
    have := r.index.isLt
    have := r.address.isLt
    have := r.plan.isLt
    omega

/-! ### SUBSCRIBER_WRITE -/

section
variable {s : State} {r : SubscriberWriteReq} {e : Entry}

theorem exec_subscriberWrite (p : PortId) (body : List Byte) (s : State) :
    exec (.subscriberWrite p body) s
      = .next (takeCommand p [.supervisor] (withLength 11 body (withRange (readSubscriberWrite body) subscriberWrite)) s) := rfl

/-- The uniqueness check of R11: the address is mapped to another index. -/
theorem mapped_any_ne : ((s.mapped r.address).any fun j => decide (j ≠ r.index)) = true
    ↔ ∃ j, s.mapped r.address = some j ∧ j ≠ r.index := by
  cases s.mapped r.address <;> simp

theorem subscriberWrite_taken (h : ∃ j, s.mapped r.address = some j ∧ j ≠ r.index) :
    subscriberWrite r s = refuse .addressInUse s := by
  unfold subscriberWrite
  rw [if_pos (mapped_any_ne.mpr h)]

theorem not_mapped_any (h : ∀ j, s.mapped r.address = some j → j = r.index) :
    ¬ ((s.mapped r.address).any fun j => decide (j ≠ r.index)) = true := by
  rw [mapped_any_ne]
  rintro ⟨j, hj, hne⟩
  exact hne (h j hj)

theorem subscriberWrite_create (free : ∀ j, s.mapped r.address = some j → j = r.index) (he : s.entry r.index = none) :
    subscriberWrite r s = ⟨.ok, writtenBytes r.index r.initial,
      { s.setEntry r.index (createdEntry r) with addressMap := tblSet r.address r.index s.addressMap }⟩ := by
  unfold subscriberWrite
  rw [if_neg (not_mapped_any free)]
  simp only [he]

theorem subscriberWrite_inUse (free : ∀ j, s.mapped r.address = some j → j = r.index) (he : s.entry r.index = some e)
    (haddress : e.address ≠ r.address) (hopen : 0 < e.openCount) : subscriberWrite r s = refuse .inUse s := by
  unfold subscriberWrite
  rw [if_neg (not_mapped_any free)]
  simp only [he]
  rw [if_pos ⟨haddress, hopen⟩]

theorem subscriberWrite_change (free : ∀ j, s.mapped r.address = some j → j = r.index) (he : s.entry r.index = some e)
    (h : e.address = r.address ∨ e.openCount = 0) :
    subscriberWrite r s = ⟨.ok, writtenBytes r.index e.state,
      { s.setEntry r.index (changedEntry r e) with
        addressMap := tblSet r.address r.index (tblErase e.address s.addressMap) }⟩ := by
  unfold subscriberWrite
  rw [if_neg (not_mapped_any free)]
  simp only [he]
  rw [if_neg]
  rintro ⟨haddress, hopen⟩
  rcases h with h | h
  · exact haddress h
  · omega

end

/-- Settles O7: the body read back through `readSubscriberWrite_eq_some`, and the entry and the pair of the map as the tables
read after the write. -/
theorem subscriberWriteWritesTheEntry : Obligations.SubscriberWriteWritesTheEntry := by
  refine ⟨?reads, ?writes⟩
  case reads =>
    intro body hindex hinitial haddress hkind hplan hhome hlow hhigh
    refine ⟨{
        index := ⟨fieldAt body 0 2, by omega⟩
        initial := if fieldAt body 2 1 = 1 then .active else .suspended .accounts
        address := BitVec.ofNat 22 (fieldAt body 3 3)
        kind := if fieldAt body 6 1 = 0 then .oneWay else .twoWay
        plan := ⟨fieldAt body 7 1, by omega⟩
        home := BitVec.ofNat 8 (fieldAt body 8 1)
        region := BitVec.ofNat 8 (fieldAt body 9 1)
        limit := fieldAt body 10 1 },
      readSubscriberWrite_eq_some.mpr ⟨rfl, ?_, ?_, ?_, rfl, rfl, ?_, rfl, rfl, hlow, hhigh⟩, rfl, rfl, ?_, rfl, rfl,
      toNat_ofNat_fieldAt body 8, toNat_ofNat_fieldAt body 9, rfl⟩
    · rcases hinitial with h | h <;> simp [h, initialStateOfCode]
    · exact (Nat.mod_eq_of_lt (by omega)).symm
    · have : fieldAt body 6 1 = 0 ∨ fieldAt body 6 1 = 1 := by omega
      rcases this with h | h <;> simp [h, pagerKindCode]
    · exact fun h => hhome ((ofNat_fieldAt_eq_zero body 8).mp h)
    · exact Nat.mod_eq_of_lt (by omega)
  case writes =>
    intro s p body r hs hb hread free hchange
    rw [exec_subscriberWrite]
    cases he : s.entry r.index with
    | none =>
      refine ⟨_, congrArg _ (takeCommand_answers hs hb hread (subscriberWrite_create free he) rfl), ⟨?_, ?_, rfl⟩, ?_, rfl⟩
      · exact State.entry_setEntry_self s r.index (createdEntry r)
      · exact fun a => mapGet_tblSet ..
      · exact fun j hj => State.entry_setEntry_ne s (createdEntry r) hj
    | some e =>
      refine ⟨_, congrArg _ (takeCommand_answers hs hb hread (subscriberWrite_change free he (hchange e he)) rfl),
        ⟨?_, ?_, rfl⟩, ?_, rfl⟩
      · exact State.entry_setEntry_self s r.index (changedEntry r e)
      · intro a
        refine (mapGet_tblSet ..).trans ?_
        rw [mapGet_tblErase, State.mapped]
      · exact fun j hj => State.entry_setEntry_ne s (changedEntry r e) hj

/-- Settles O8: each refusal by the check that makes it. -/
theorem subscriberWriteRefusals : Obligations.SubscriberWriteRefusals := by
  intro s p body hs hb
  simp only [exec_subscriberWrite]
  refine ⟨fun h => congrArg _ (takeCommand_range _ hs hb (readSubscriberWrite_none h)), fun r hread => ⟨fun h => ?_, ?_⟩⟩
  · exact congrArg _ (takeCommand_refused hs hb hread (subscriberWrite_taken h))
  · intro e he free haddress hopen
    exact congrArg _ (takeCommand_refused hs hb hread (subscriberWrite_inUse free he haddress hopen))

/-! ### SUBSCRIBER_DELETE -/

theorem exec_subscriberDelete (p : PortId) (body : List Byte) (s : State) :
    exec (.subscriberDelete p body) s
      = .next (takeCommand p [.supervisor] (withLength 2 body (withRange (readIndex body) subscriberDelete)) s) := rfl

/-- Settles O9: the checks in the order of the definition, and the two tables after the delete. -/
theorem subscriberDeleteFreesTheAddress : Obligations.SubscriberDeleteFreesTheAddress := by
  intro s p body hs hb
  simp only [exec_subscriberDelete]
  refine ⟨fun h => congrArg _ (takeCommand_range _ hs hb (readIndex_none h)), fun i hi => ?_⟩
  have hread := readIndex_of hi
  cases he : s.entry i with
  | none => exact congrArg _ (takeCommand_refused hs hb hread (by simp only [subscriberDelete, he]))
  | some e =>
    dsimp only
    split
    · next hopen =>
      exact congrArg _ (takeCommand_refused hs hb hread (by simp only [subscriberDelete, he, hopen, if_true]))
    · next hopen =>
      split
      · next hbalance =>
        exact congrArg _ (takeCommand_refused hs hb hread (by simp only [subscriberDelete, he, if_neg hopen, if_pos hbalance]))
      · next hbalance =>
        have hdelete : subscriberDelete i s = ⟨.ok, bytesOf 2 i.val,
            { s with directory := tblErase i s.directory, addressMap := tblErase e.address s.addressMap }⟩ := by
          simp only [subscriberDelete, he, if_neg hopen, if_neg hbalance]
        rw [bytesOf_fieldAt hb hi] at hdelete
        refine ⟨_, congrArg _ (takeCommand_answers hs hb hread hdelete rfl), ?_, ?_, rfl, rfl⟩
        · exact fun j => tblGet_tblErase i j s.directory
        · exact fun a => mapGet_tblErase ..

/-! ### SUBSCRIBER_READ -/

theorem exec_subscriberRead (p : PortId) (body : List Byte) (s : State) :
    exec (.subscriberRead p body) s
      = .next (takeCommand p anyRole (withLength 2 body (withRange (readIndex body) subscriberRead)) s) := rfl

/-- The six bytes of last-seen (Table 10-8): presence, zone and time. -/
def lastSeenBytes : Option LastSeen → List Byte
  | some l => 1 :: bytesOf 1 l.zone.val ++ bytesOf 4 l.time.toNat
  | none => 0 :: bytesOf 5 0

theorem lastSeenBytes_length (l : Option LastSeen) : (lastSeenBytes l).length = 6 := by
  cases l <;> simp [lastSeenBytes]

/-- The response of a SUBSCRIBER_READ, cut at its last-seen field. -/
theorem entryBytes_eq (i : AccountIndex) (e : Entry) : entryBytes i e
    = (bytesOf 2 i.val ++ ([entryStateCode e.state, suspendCauseCode e.state] ++ (bytesOf 3 e.address.toNat
        ++ ([pagerKindCode e.kind] ++ (bytesOf 1 e.plan.val ++ [e.home, e.region])))))
      ++ (lastSeenBytes e.lastSeen ++ (bytesOf 1 e.outstandingLimit ++ (bytesOfInt e.balance ++ (bytesOf 4 e.creditLimit
        ++ (bytesOf 4 e.held ++ (bytesOf 1 e.openCount ++ [creditFlagsByte e.low e.exhausted])))))) := by
  unfold entryBytes
  cases e.lastSeen <;> simp [lastSeenBytes]

theorem entryBytes_length (i : AccountIndex) (e : Entry) : (entryBytes i e).length = 32 := by
  simp [entryBytes_eq, lastSeenBytes_length]

/-- The fields of a SUBSCRIBER_READ response before and after last-seen, at their offsets in Table 10-9. -/
theorem fieldAt_entryBytes (i : AccountIndex) (e : Entry) :
    fieldAt (entryBytes i e) 0 2 = i.val
    ∧ fieldAt (entryBytes i e) 2 1 = (entryStateCode e.state).toNat
    ∧ fieldAt (entryBytes i e) 3 1 = (suspendCauseCode e.state).toNat
    ∧ fieldAt (entryBytes i e) 4 3 = e.address.toNat
    ∧ fieldAt (entryBytes i e) 7 1 = (pagerKindCode e.kind).toNat
    ∧ fieldAt (entryBytes i e) 8 1 = e.plan.val
    ∧ fieldAt (entryBytes i e) 9 1 = e.home.toNat
    ∧ fieldAt (entryBytes i e) 10 1 = e.region.toNat
    ∧ fieldAt (entryBytes i e) 17 1 = e.outstandingLimit % 256
    ∧ fieldAt (entryBytes i e) 18 4 = (BitVec.ofInt 32 e.balance).toNat
    ∧ fieldAt (entryBytes i e) 22 4 = e.creditLimit % 4294967296
    ∧ fieldAt (entryBytes i e) 26 4 = e.held % 4294967296
    ∧ fieldAt (entryBytes i e) 30 1 = e.openCount % 256
    ∧ fieldAt (entryBytes i e) 31 1 = (creditFlagsByte e.low e.exhausted).toNat := by
  have hi : i.val % 65536 = i.val := Nat.mod_eq_of_lt (by have := i.isLt; omega)
  have haddress : e.address.toNat % 16777216 = e.address.toNat := Nat.mod_eq_of_lt (by have := e.address.isLt; omega)
  have hplan : e.plan.val % 256 = e.plan.val := Nat.mod_eq_of_lt (by have := e.plan.isLt; omega)
  simp [entryBytes_eq, lastSeenBytes_length, fieldAt_cons_zero, fieldAt_cons_skip, fieldAt_skip, fieldAt_bytesOf,
    fieldAt_bytesOfInt, hi, haddress, hplan]

/-- The last-seen field of a SUBSCRIBER_READ response. -/
theorem fieldAt_entryBytes_lastSeen (i : AccountIndex) (e : Entry) :
    match e.lastSeen with
    | some l => fieldAt (entryBytes i e) 11 1 = 1 ∧ fieldAt (entryBytes i e) 12 1 = l.zone.val
      ∧ fieldAt (entryBytes i e) 13 4 = l.time.toNat
    | none => fieldAt (entryBytes i e) 11 6 = 0 := by
  rw [entryBytes_eq]
  cases e.lastSeen with
  | none =>
    have habsent : lastSeenBytes none = bytesOf 6 0 := rfl
    simp [habsent, fieldAt_cons_skip, fieldAt_skip, fieldAt_bytesOf]
  | some l =>
    have hzone : l.zone.val % 256 = l.zone.val := Nat.mod_eq_of_lt (by have := l.zone.isLt; omega)
    have htime : l.time.toNat % 4294967296 = l.time.toNat := Nat.mod_eq_of_lt l.time.isLt
    simp [lastSeenBytes, fieldAt_cons_zero, fieldAt_cons_skip, fieldAt_skip, fieldAt_bytesOf, hzone, htime]

/-- Settles O10: the codes by their cases, and the response by the layout of its bytes. -/
theorem subscriberReadShowsTheEntry : Obligations.SubscriberReadShowsTheEntry := by
  refine ⟨fun st => ⟨?_, ?_⟩, rfl, rfl, fun s p body hs hb => ?_⟩
  · cases st <;> rfl
  · rcases st with _ | (_ | _) | _ <;> rfl
  simp only [exec_subscriberRead]
  refine ⟨fun h => congrArg _ (takeCommand_range _ hs hb (readIndex_none h)), fun i hi => ?_⟩
  have hread := readIndex_of hi
  cases he : s.entry i with
  | none =>
    have hunused : subscriberRead i s = ⟨.ok, bytesOf 2 i.val ++ [0], s⟩ := by simp only [subscriberRead, he]
    rw [bytesOf_fieldAt hb hi] at hunused
    exact congrArg _ (takeCommand_answers hs hb hread hunused rfl)
  | some e =>
    have hused : subscriberRead i s = ⟨.ok, entryBytes i e, s⟩ := by simp only [subscriberRead, he]
    obtain ⟨h0, h2, h3, h4, h7, h8, h9, h10, h17, h18, h22, h26, h30, h31⟩ := fieldAt_entryBytes i e
    exact ⟨entryBytes i e, congrArg _ (takeCommand_answers hs hb hread hused rfl), entryBytes_length i e,
      h0, h2, h3, h4, h7, h8, h9, h10, fieldAt_entryBytes_lastSeen i e, h17, h18, h22, h26, h30,
      h31.trans (creditFlagsByte_toNat ..)⟩

end Sys2Proof.Machine
end

/-! ## Tariff plans: PLAN_WRITE and PLAN_READ (R20, R21) -/

section
namespace Sys2Proof.Machine

/-! ### The PLAN_WRITE body (Tables 2-1 and 10-9) -/

/-- A field of two bytes, and one of three, is below its power. -/
theorem fieldAt_two_le (b : List Byte) (off : Nat) : fieldAt b off 2 ≤ 65535 := Nat.le_of_lt_succ (fieldAt_lt b off 2)

theorem fieldAt_three_le (b : List Byte) (off : Nat) : fieldAt b off 3 ≤ 16777215 := Nat.le_of_lt_succ (fieldAt_lt b off 3)

theorem within_bind {α : Type} {low high v : Nat} {f : Nat → Option α} {r : α} (h : (within low high v >>= f) = some r) :
    (low ≤ v ∧ v ≤ high) ∧ f v = some r := by
  obtain ⟨w, hw, hr⟩ := Option.bind_eq_some_iff.mp h
  obtain ⟨rfl, hrange⟩ := within_eq_some.mp hw
  exact ⟨hrange, hr⟩

theorem readPlanWrite_of {body : List Byte} {i : PlanIndex} (hi : fieldAt body 0 1 = i.val) (h : (planAt body).legal) :
    readPlanWrite body = some (i, planAt body) := by
  obtain ⟨-, -, -, hword, hzone, ⟨h0, h0'⟩, ⟨h1, h1'⟩, ⟨h2, h2'⟩, ⟨h3, h3'⟩, hfee, -, ⟨hcap, hcap'⟩, hretries, hrepeats,
    ⟨hbase, hbase'⟩, ⟨hceiling, hceiling'⟩, ⟨hlife, hlife'⟩, -, -⟩ := h
  dsimp only [planAt] at *
  unfold readPlanWrite
  rw [finBelow_of hi, within_of (Nat.zero_le _) hword, within_of (Nat.zero_le _) hzone, within_of h0 h0', within_of h1 h1',
    within_of h2 h2', within_of h3 h3', within_of (Nat.zero_le _) hfee, within_of hcap hcap',
    within_of (Nat.zero_le _) hretries, within_of (Nat.zero_le _) hrepeats, within_of hbase hbase',
    within_of hceiling hceiling', within_of hlife hlife']
  rfl

theorem legal_of_readPlanWrite {body : List Byte} {r : PlanIndex × Plan} (h : readPlanWrite body = some r) :
    fieldAt body 0 1 ≤ 15 ∧ (planAt body).legal := by
  unfold readPlanWrite at h
  obtain ⟨i, hi, h⟩ := Option.bind_eq_some_iff.mp h
  obtain ⟨hword, h⟩ := within_bind h
  obtain ⟨hzone, h⟩ := within_bind h
  obtain ⟨h0, h⟩ := within_bind h
  obtain ⟨h1, h⟩ := within_bind h
  obtain ⟨h2, h⟩ := within_bind h
  obtain ⟨h3, h⟩ := within_bind h
  obtain ⟨hfee, h⟩ := within_bind h
  obtain ⟨hcap, h⟩ := within_bind h
  obtain ⟨hretries, h⟩ := within_bind h
  obtain ⟨hrepeats, h⟩ := within_bind h
  obtain ⟨hbase, h⟩ := within_bind h
  obtain ⟨hceiling, h⟩ := within_bind h
  obtain ⟨hlife, -⟩ := within_bind h
  have hindex : fieldAt body 0 1 ≤ 15 := by
    have := finBelow_eq_some.mp hi
    have := i.isLt
    omega
  exact ⟨hindex, fieldAt_two_le .., fieldAt_two_le .., fieldAt_two_le .., hword.2, hzone.2, h0, h1, h2, h3, hfee.2,
    fieldAt_two_le .., hcap, hretries.2, hrepeats.2, hbase, hceiling, hlife, fieldAt_two_le .., fieldAt_three_le ..⟩

theorem readPlanWrite_none {body : List Byte} (h : 15 < fieldAt body 0 1 ∨ ¬ (planAt body).legal) :
    readPlanWrite body = none := by
  cases hread : readPlanWrite body with
  | none => rfl
  | some r =>
    obtain ⟨hi, hlegal⟩ := legal_of_readPlanWrite hread
    rcases h with h | h
    · omega
    · exact absurd hlegal h

/-! ### The bytes of a plan -/

/-- The fields of a plan in the order of Table 10-9. -/
def planFields (i : PlanIndex) (x : Plan) : List (Nat × Nat) :=
  [(1, i.val), (2, x.baseTone), (2, x.baseNumeric), (2, x.baseText), (2, x.wordRate), (2, x.zoneRate), (1, x.m0), (1, x.m1),
    (1, x.m2), (1, x.m3), (2, x.retryFee), (2, x.failFee), (3, x.cap), (1, x.retries), (1, x.repeats), (1, x.retryBase),
    (2, x.retryCeiling), (2, x.defaultLife), (2, x.focusAge), (3, x.lowWater), (1, (flagByte x.emergencyOverride).toNat)]

theorem planBytes_eq (i : PlanIndex) (x : Plan) : planBytes i x = fieldsBytes (planFields i x) := by
  unfold planBytes planFields
  simp only [fieldsBytes_cons, fieldsBytes_nil, List.append_assoc, List.append_nil]
  rw [bytesOf_one_toNat]

theorem planBytes_length (i : PlanIndex) (x : Plan) : (planBytes i x).length = 35 := by
  rw [planBytes_eq, fieldsBytes_length]
  simp [planFields]

theorem flagByte_ne_zero (b : Bool) : decide ((flagByte b).toNat ≠ 0) = b := by
  cases b <;> rfl

/-- A field of a plan's bytes whose value fits its length. -/
theorem fieldAt_planBytes {i : PlanIndex} {x : Plan} {off len v : Nat} (k : Nat) (h : (planFields i x)[k]? = some (len, v))
    (hoff : off = (((planFields i x).take k).map Prod.fst).sum) (hv : v < 256 ^ len) :
    fieldAt (planBytes i x) off len = v := by
  rw [planBytes_eq, fieldAt_fields_nil k h hoff, Nat.mod_eq_of_lt hv]

theorem fieldAt_planBytes_index (i : PlanIndex) (x : Plan) : fieldAt (planBytes i x) 0 1 = i.val :=
  fieldAt_planBytes 0 rfl rfl (by have := i.isLt; omega)

/-- The fields of a legal plan at their offsets in Table 10-9. -/
theorem fieldAt_planBytes_legal (i : PlanIndex) {x : Plan} (h : x.legal) :
    fieldAt (planBytes i x) 1 2 = x.baseTone ∧ fieldAt (planBytes i x) 3 2 = x.baseNumeric
    ∧ fieldAt (planBytes i x) 5 2 = x.baseText ∧ fieldAt (planBytes i x) 7 2 = x.wordRate
    ∧ fieldAt (planBytes i x) 9 2 = x.zoneRate ∧ fieldAt (planBytes i x) 11 1 = x.m0
    ∧ fieldAt (planBytes i x) 12 1 = x.m1 ∧ fieldAt (planBytes i x) 13 1 = x.m2
    ∧ fieldAt (planBytes i x) 14 1 = x.m3 ∧ fieldAt (planBytes i x) 15 2 = x.retryFee
    ∧ fieldAt (planBytes i x) 17 2 = x.failFee ∧ fieldAt (planBytes i x) 19 3 = x.cap
    ∧ fieldAt (planBytes i x) 22 1 = x.retries ∧ fieldAt (planBytes i x) 23 1 = x.repeats
    ∧ fieldAt (planBytes i x) 24 1 = x.retryBase ∧ fieldAt (planBytes i x) 25 2 = x.retryCeiling
    ∧ fieldAt (planBytes i x) 27 2 = x.defaultLife ∧ fieldAt (planBytes i x) 29 2 = x.focusAge
    ∧ fieldAt (planBytes i x) 31 3 = x.lowWater ∧ fieldAt (planBytes i x) 34 1 = (flagByte x.emergencyOverride).toNat := by
  obtain ⟨ht, hn, hx, hword, hzone, ⟨-, h0⟩, ⟨-, h1⟩, ⟨-, h2⟩, ⟨-, h3⟩, hfee, hfail, ⟨-, hcap⟩, hretries, hrepeats,
    ⟨-, hbase⟩, ⟨-, hceiling⟩, ⟨-, hlife⟩, hfocus, hlow⟩ := h
  have hflag : (flagByte x.emergencyOverride).toNat < 256 := BitVec.isLt _
  refine ⟨fieldAt_planBytes 1 rfl ?_ (by omega), fieldAt_planBytes 2 rfl ?_ (by omega), fieldAt_planBytes 3 rfl ?_ (by omega),
    fieldAt_planBytes 4 rfl ?_ (by omega), fieldAt_planBytes 5 rfl ?_ (by omega), fieldAt_planBytes 6 rfl ?_ (by omega),
    fieldAt_planBytes 7 rfl ?_ (by omega), fieldAt_planBytes 8 rfl ?_ (by omega), fieldAt_planBytes 9 rfl ?_ (by omega),
    fieldAt_planBytes 10 rfl ?_ (by omega), fieldAt_planBytes 11 rfl ?_ (by omega), fieldAt_planBytes 12 rfl ?_ (by omega),
    fieldAt_planBytes 13 rfl ?_ (by omega), fieldAt_planBytes 14 rfl ?_ (by omega), fieldAt_planBytes 15 rfl ?_ (by omega),
    fieldAt_planBytes 16 rfl ?_ (by omega), fieldAt_planBytes 17 rfl ?_ (by omega), fieldAt_planBytes 18 rfl ?_ (by omega),
    fieldAt_planBytes 19 rfl ?_ (by omega), fieldAt_planBytes 20 rfl ?_ (by omega)⟩ <;>
    simp [planFields]

theorem planAt_planBytes (i : PlanIndex) {x : Plan} (h : x.legal) : planAt (planBytes i x) = x := by
  obtain ⟨h1, h2, h3, h4, h5, h6, h7, h8, h9, h10, h11, h12, h13, h14, h15, h16, h17, h18, h19, h20⟩ := fieldAt_planBytes_legal i h
  unfold planAt
  rw [h1, h2, h3, h4, h5, h6, h7, h8, h9, h10, h11, h12, h13, h14, h15, h16, h17, h18, h19, h20, flagByte_ne_zero]

/-! ### The two commands -/

theorem exec_planWrite (p : PortId) (body : List Byte) (s : State) :
    exec (.planWrite p body) s = .next (takeCommand p [.accounts, .supervisor]
      (withLength 35 body (withRange (readPlanWrite body) planWrite)) s) := rfl

theorem exec_planRead (p : PortId) (body : List Byte) (s : State) :
    exec (.planRead p body) s = .next (takeCommand p anyRole
      (withLength 1 body (withRange (finBelow 16 (fieldAt body 0 1)) planRead)) s) := rfl

/-- A bank with one record replaced, by cases. -/
theorem bankGet_bankSet {α : Type} {n : Nat} (v : Vector α n) (i j : Fin n) (x : α) :
    bankGet (bankSet v i x) j = if j = i then x else bankGet v j := by
  split
  · next h => subst h; exact bankGet_bankSet_self v j x
  · next h => exact bankGet_bankSet_ne v x h

/-- Settles O11: the body read by its ranges, and the response read back through the layout of its bytes. -/
theorem planWriteAndPlanRead : Obligations.PlanWriteAndPlanRead := by
  intro s p body
  simp only [exec_planWrite, exec_planRead]
  refine ⟨fun hs hb => ⟨fun h => ?_, fun i hi hlegal => ?_⟩, fun hs hb => ⟨fun h => ?_, fun i hi => ?_⟩⟩
  · exact congrArg _ (takeCommand_range _ hs hb (readPlanWrite_none h))
  · exact ⟨_, congrArg _ (takeCommand_answers hs hb (readPlanWrite_of hi hlegal) rfl rfl),
      fun j => bankGet_bankSet s.plans i j (planAt body), rfl, rfl⟩
  · exact congrArg _ (takeCommand_range _ hs hb (finBelow_none h))
  · exact ⟨planBytes i (s.plan i), congrArg _ (takeCommand_answers hs hb (finBelow_of hi) rfl rfl),
      planBytes_length i _, fieldAt_planBytes_index i _, planAt_planBytes i⟩

end Sys2Proof.Machine
end

/-! ## Station ports: FETCH_EVENTS, SET_ROLE, PORT_CONFIG, PORT_READ (R164, R165, R167) -/

section
namespace Sys2Proof.Machine

/-! ### Records of equal length one after another -/

/-- A field within the front part of a body. -/
theorem fieldAt_append_left {a : List Byte} (b : List Byte) {off len : Nat} (h : off + len ≤ a.length) :
    fieldAt (a ++ b) off len = fieldAt a off len := by
  unfold fieldAt
  rw [List.drop_append_of_le_length (by omega), List.take_append_of_le_length (by simp; omega)]

section
variable {α : Type} {f : α → List Byte} {n : Nat}

theorem flatMap_length_of (hf : ∀ a, (f a).length = n) (l : List α) : (l.flatMap f).length = n * l.length := by
  simp [List.length_flatMap, hf, Nat.mul_comm]

/-- A field of the record at a place of a list. -/
theorem fieldAt_flatMap (hf : ∀ a, (f a).length = n) {l : List α} {i : Nat} {a : α} (h : l[i]? = some a) (off : Nat) {len : Nat}
    (hoff : off + len ≤ n) : fieldAt (l.flatMap f) (n * i + off) len = fieldAt (f a) off len := by
  induction l generalizing i with
  | nil => simp at h
  | cons b rest ih =>
    rw [List.flatMap_cons]
    cases i with
    | zero =>
      simp only [List.getElem?_cons_zero, Option.some.injEq] at h
      subst h
      rw [Nat.mul_zero, Nat.zero_add]
      exact fieldAt_append_left _ (by rw [hf]; exact hoff)
    | succ i =>
      rw [fieldAt_append (k := n * i + off) (by rw [hf, Nat.mul_succ]; omega)]
      exact ih (by simpa using h)

end

/-- A served command with no field whose owner keeps the port's gap is answered in the state its owner leaves. -/
theorem takeCommand_plain_answers {s t : State} {p : PortId} {roles : List Role} {n : Nat} {body b : List Byte} {st : Status}
    {owner : State → Reply} (h : s.serves p roles) (hb : body.length = n) (ho : owner s = ⟨st, b, t⟩)
    (hg : (t.port p).gap = (s.port p).gap) : takeCommand p roles (withLength n body owner) s = t.answers p st b := by
  rw [takeCommand_plain owner h hb, ho]
  exact State.respond_answers hg st b

/-- A body of two fields of one byte each. -/
theorem bytesOf_one_one {body : List Byte} {a b : Nat} (hb : body.length = 2) (h0 : fieldAt body 0 1 = a)
    (h1 : fieldAt body 1 1 = b) : bytesOf 1 a ++ bytesOf 1 b = body := by
  match body, hb with
  | [x, y], _ =>
    have hx : bytesOf 1 a = [x] := bytesOf_fieldAt rfl (by simpa [fieldAt] using h0)
    have hy : bytesOf 1 b = [y] := bytesOf_fieldAt rfl (by simpa [fieldAt] using h1)
    rw [hx, hy]
    rfl

theorem flagByte_toNat (b : Bool) : (flagByte b).toNat = if b then 1 else 0 := by
  cases b <;> rfl

/-! ### FETCH_EVENTS -/

@[simp] theorem eventBytes_length (r : EventRecord) : (eventBytes r).length = 11 := by
  simp [eventBytes]

/-- The fields of an event record (Table 10-4). -/
theorem fieldAt_eventBytes (r : EventRecord) :
    fieldAt (eventBytes r) 0 1 = (eventCode r.kind).toNat
    ∧ fieldAt (eventBytes r) 1 2 = r.subject % 65536
    ∧ fieldAt (eventBytes r) 3 4 = (BitVec.ofInt 32 r.detail).toNat
    ∧ fieldAt (eventBytes r) 7 4 = r.time.toNat := by
  have htime : r.time.toNat % 4294967296 = r.time.toNat := Nat.mod_eq_of_lt r.time.isLt
  simp [eventBytes, fieldAt_cons_zero, fieldAt_cons_skip, fieldAt_skip, fieldAt_bytesOf, fieldAt_bytesOf_nil,
    fieldAt_bytesOfInt, htime]

theorem exec_fetchEvents (p : PortId) (body : List Byte) (s : State) :
    exec (.fetchEvents p body) s = .next (takeCommand p anyRole (withLength 0 body (fetchEvents p)) s) := rfl

theorem mem_eventRoles (k : EventKind) (r : Role) : r ∈ eventRoles k ↔ r = .supervisor
    ∨ (match k with
        | .linkUp | .linkDown => r = .dispatch
        | .zoneCongested | .zoneClear => r = .dispatch ∨ r = .intake
        | .creditLow | .creditExhausted | .accountSuspended | .accountResumed | .sweepPassDone | .journalHigh
        | .lateAck => r = .accounts) := by
  cases k <;> simp [eventRoles] <;> tauto

/-- Settles O5: the records by the layout of a list of records of 11 bytes. -/
theorem fetchEventsTakesEight : Obligations.FetchEventsTakesEight := by
  refine ⟨rfl, mem_eventRoles, fun s p hs => ⟨((s.port p).events.take 8).flatMap eventBytes, ?_, ?_, ?_⟩⟩
  · rw [exec_fetchEvents]
    refine congrArg _ (takeCommand_plain_answers hs rfl ?_ ?_)
    · simp [fetchEvents, flagByte]
    · rw [State.port_setPort_self]
  · rw [flatMap_length_of eventBytes_length, List.length_take]
  · intro i r hi hr
    have htaken : ((s.port p).events.take 8)[i]? = some r := by rw [List.getElem?_take_of_lt hi, hr]
    obtain ⟨h0, h1, h3, h7⟩ := fieldAt_eventBytes r
    have hfield := fun (off len : Nat) (h : off + len ≤ 11) => fieldAt_flatMap eventBytes_length htaken off h
    exact ⟨(hfield 0 1 (by omega)).trans h0, (hfield 1 2 (by omega)).trans h1, (hfield 3 4 (by omega)).trans h3,
      (hfield 7 4 (by omega)).trans h7⟩

/-! ### SET_ROLE, PORT_CONFIG and PORT_READ -/

theorem exec_setRole (p : PortId) (body : List Byte) (s : State) :
    exec (.setRole p body) s
      = .next (takeCommand p [.supervisor] (withLength 2 body (withRange (readSetRole body) setRole)) s) := rfl

theorem exec_portConfig (p : PortId) (body : List Byte) (s : State) :
    exec (.portConfig p body) s
      = .next (takeCommand p [.supervisor] (withLength 2 body (withRange (readPortConfig body) portConfig)) s) := rfl

theorem readSetRole_eq_some {body : List Byte} {q : PortId} {r : Role} :
    readSetRole body = some (q, r) ↔ fieldAt body 0 1 = q.val ∧ fieldAt body 1 1 = (roleCode r).toNat := by
  unfold readSetRole
  simp only [Option.bind_eq_bind, Option.bind_eq_some_iff, finBelow_eq_some, roleOfCode_eq_some]
  constructor
  · rintro ⟨port, hport, role, hrole, h⟩
    cases h
    exact ⟨hport, hrole⟩
  · rintro ⟨hport, hrole⟩
    exact ⟨q, hport, r, hrole, rfl⟩

theorem readSetRole_none {body : List Byte} (h : 3 < fieldAt body 0 1 ∨ 3 < fieldAt body 1 1) : readSetRole body = none := by
  cases hread : readSetRole body with
  | none => rfl
  | some x =>
    obtain ⟨q, r⟩ := x
    obtain ⟨hq, hr⟩ := readSetRole_eq_some.mp hread
    have hcode : (roleCode r).toNat ≤ 3 := by cases r <;> decide
    have := q.isLt
    omega

theorem readPortConfig_of {body : List Byte} {q : PortId} (hq : fieldAt body 0 1 = q.val) (hlow : 2 ≤ fieldAt body 1 1)
    (hhigh : fieldAt body 1 1 ≤ 15) : readPortConfig body = some (q, fieldAt body 1 1) := by
  unfold readPortConfig
  rw [finBelow_of hq, within_of hlow hhigh]
  rfl

theorem readPortConfig_none {body : List Byte} (h : 3 < fieldAt body 0 1 ∨ fieldAt body 1 1 < 2 ∨ 15 < fieldAt body 1 1) :
    readPortConfig body = none := by
  unfold readPortConfig
  rcases h with h | h
  · rw [finBelow_none (n := 4) h]
    rfl
  · rw [within_none h]
    cases finBelow 4 (fieldAt body 0 1) <;> rfl

@[simp] theorem portBytes_length (x : Port) : (portBytes x).length = 6 := by
  simp [portBytes]

/-- The fields of a port in a PORT_READ response (Table 10-9). -/
theorem fieldAt_portBytes (x : Port) :
    fieldAt (portBytes x) 0 1 = (roleCode x.role).toNat
    ∧ fieldAt (portBytes x) 1 1 = x.gap % 256
    ∧ fieldAt (portBytes x) 2 1 = x.events.length % 256
    ∧ fieldAt (portBytes x) 3 1 = (if x.lost then 1 else 0)
    ∧ fieldAt (portBytes x) 4 2 = x.outcomes.length % 65536 := by
  simp [portBytes, fieldAt_cons_zero, fieldAt_cons_skip, fieldAt_skip, fieldAt_bytesOf, fieldAt_bytesOf_nil, flagByte_toNat]

theorem allPorts_get (q : PortId) : allPorts[q.val]? = some q := by
  revert q
  decide

/-- LAST_SUPERVISOR, and otherwise the write. -/
theorem setRole_last {s : State} {q : PortId} {r : Role} (h : s.onlySupervisor q ∧ r ≠ .supervisor) :
    setRole (q, r) s = refuse .lastSupervisor s := by
  unfold setRole
  rw [if_pos h]

theorem setRole_writes {s : State} {q : PortId} {r : Role} (h : ¬ (s.onlySupervisor q ∧ r ≠ .supervisor)) :
    setRole (q, r) s = ⟨.ok, allPorts.map fun u => roleCode ((s.setPort q { s.port q with role := r }).port u).role,
      s.setPort q { s.port q with role := r }⟩ := by
  unfold setRole
  rw [if_neg h]

/-- A write of a port's role keeps every port's gap. -/
theorem State.gap_setRole (s : State) (p q : PortId) (r : Role) :
    ((s.setPort q { s.port q with role := r }).port p).gap = (s.port p).gap := by
  rw [State.port_setPort]
  split
  · next h => subst h; rfl
  · rfl

/-- A PORT_CONFIG answers its own body and writes one gap. -/
theorem portConfig_writes (s : State) (q : PortId) {body : List Byte} (hb : body.length = 2) (hq : fieldAt body 0 1 = q.val) :
    ∃ w, portConfig (q, fieldAt body 1 1) s = ⟨.ok, body, w⟩
      ∧ (∀ u, w.port u = { s.port u with gap := if u = q then fieldAt body 1 1 else (s.port u).gap })
      ∧ w = { s with ports := w.ports } := by
  refine ⟨s.setPort q { s.port q with gap := fieldAt body 1 1 }, ?_, fun u => ?_, rfl⟩
  · unfold portConfig
    rw [bytesOf_one_one hb hq rfl]
  · rw [State.port_setPort]
    split
    · next h => subst h; rfl
    · rfl

/-- Settles O6, command by command. -/
theorem portCommands : Obligations.PortCommands := by
  refine ⟨⟨rfl, rfl, rfl, rfl⟩, fun s p => ⟨fun body hs hb => ⟨fun h => ?_, fun q r hq hr => ?_⟩,
    fun body hs hb => ⟨fun h => ?_, fun q hq hlow hhigh => ?_⟩, fun hs => ?_⟩⟩
  · exact congrArg _ (takeCommand_range _ hs hb (readSetRole_none h))
  · have hread := readSetRole_eq_some.mpr ⟨hq, hr⟩
    rw [exec_setRole]
    split
    · next h =>
      obtain ⟨hsup, hothers, hr⟩ := h
      exact congrArg _ (takeCommand_refused hs hb hread (setRole_last ⟨State.onlySupervisor_iff.mpr ⟨hsup, hothers⟩, hr⟩))
    · next h =>
      refine ⟨_, congrArg _ (takeCommand_answers hs hb hread (setRole_writes fun hlast => h ?_) (State.gap_setRole s p q r)), rfl⟩
      obtain ⟨honly, hr⟩ := hlast
      obtain ⟨hsup, hothers⟩ := State.onlySupervisor_iff.mp honly
      exact ⟨hsup, hothers, hr⟩
  · exact congrArg _ (takeCommand_range _ hs hb (readPortConfig_none h))
  · obtain ⟨w, hreply, hports, hrest⟩ := portConfig_writes s q hb hq
    rw [exec_portConfig, takeCommand_runs portConfig hs hb (readPortConfig_of hq hlow hhigh), hreply]
    refine ⟨_, rfl, fun u => ?_, State.answer_respond .., ?_, fun u hu => ?_, ?_, ?_⟩
    · rw [(State.respond_keeps ..).2.1, hports]
    · rw [State.port_respond, if_pos rfl]
    · rw [State.port_respond, if_neg hu, hports]
    · rw [State.port_respond, if_pos rfl, hports]
    · rw [hrest]; rfl
  · refine ⟨allPorts.flatMap fun q => portBytes (s.port q), ?_, ?_, fun q => ?_⟩
    · exact congrArg _ (takeCommand_plain_answers hs rfl rfl rfl)
    · exact flatMap_length_of (fun q => portBytes_length (s.port q)) allPorts
    · obtain ⟨h0, h1, h2, h3, h4⟩ := fieldAt_portBytes (s.port q)
      have hfield := fun (off len : Nat) (h : off + len ≤ 6) =>
        fieldAt_flatMap (fun q => portBytes_length (s.port q)) (allPorts_get q) off h
      exact ⟨(hfield 0 1 (by omega)).trans h0, (hfield 1 1 (by omega)).trans h1, (hfield 2 1 (by omega)).trans h2,
        (hfield 3 1 (by omega)).trans h3, (hfield 4 2 (by omega)).trans h4⟩

end Sys2Proof.Machine
end

/-! ## The settlement amount (R30, R31) -/

section
namespace Sys2Proof.Machine

theorem zoneCount_zero : zoneCount 0 = 0 := rfl

/-! ### The sent zones of an attempt -/

section
variable {m : Message} {a : Attempt}

/-- The record of an attempt number is the first with it. -/
theorem Message.sentOf_of {before after : List Attempt} (h : m.attempts = before ++ a :: after)
    (hfirst : ∀ b ∈ before, b.number ≠ a.number) : m.sentOf a.number = a.sent := by
  have hfind : m.attempts.find? (fun b => b.number = a.number) = some a := by
    rw [h, List.find?_append, List.find?_eq_none.mpr fun b hb => by simpa using hfirst b hb]
    simp
  unfold Message.sentOf
  rw [hfind]

/-- The sent zones of an attempt number are those of a record, or none. -/
theorem Message.sentOf_cases (m : Message) (n : Nat) : (∃ a ∈ m.attempts, m.sentOf n = a.sent) ∨ m.sentOf n = 0 := by
  unfold Message.sentOf
  split
  · next a h => exact .inl ⟨a, List.mem_of_find?_eq_some h, rfl⟩
  · exact .inr rfl

theorem Message.zoneCount_sentOf_le {c : Nat} (h : ∀ a ∈ m.attempts, zoneCount a.sent ≤ c) (n : Nat) :
    zoneCount (m.sentOf n) ≤ c := by
  rcases m.sentOf_cases n with ⟨a, ha, heq⟩ | heq
  · rw [heq]; exact h a ha
  · rw [heq, zoneCount_zero]; exact Nat.zero_le c

theorem Message.deliveredZones_le {c : Nat} (hc : 1 ≤ c) (h : ∀ a ∈ m.attempts, zoneCount a.sent ≤ c) (n : Nat) :
    m.deliveredZones n ≤ c := by
  unfold Message.deliveredZones
  split
  · exact hc
  · exact Message.zoneCount_sentOf_le h n

theorem Message.transmitted_iff : m.transmitted = true ↔ ∃ a ∈ m.attempts, a.transmitted.isSome = true := List.any_eq_true

theorem zoneIn_foldl_sent (z : ZoneId) (l : List Attempt) (zs : ZoneSet) :
    zoneIn z (l.foldl (fun zs a => zs ||| a.sent) zs) = true ↔ zoneIn z zs = true ∨ ∃ a ∈ l, zoneIn z a.sent = true := by
  induction l generalizing zs with
  | nil => simp
  | cons a rest ih => rw [List.foldl_cons, ih, zoneIn_or]; simp [or_assoc]

theorem Message.zoneIn_sentUnion (m : Message) (z : ZoneId) :
    zoneIn z m.sentUnion = true ↔ ∃ a ∈ m.attempts, zoneIn z a.sent = true := by
  rw [Message.sentUnion, zoneIn_foldl_sent]
  simp

/-! ### The amount and the hold -/

/-- R31: every amount is at most the hold, since a charge rises with its zones and its attempt number. -/
theorem Message.settlementAmount_le_hold {o : MsgOutcome} {k : Nat}
    (hold : m.hold = holdAmount m.tariff m.kind m.payload m.reach) (hreach : 1 ≤ zoneCount m.reach)
    (hsent : ∀ a ∈ m.attempts, zoneCount a.sent ≤ zoneCount m.reach) (hk : k ≤ effectiveRetries m.tariff m.kind) :
    m.settlementAmount o k ≤ m.hold := by
  have hfee : (if m.transmitted then min m.tariff.failFee m.hold else 0) ≤ m.hold := by
    split
    · exact Nat.min_le_right _ _
    · exact Nat.zero_le _
  cases o with
  | delivered =>
    rw [hold]
    exact attemptCharge_mono m.tariff le_rfl (Message.deliveredZones_le hreach hsent k) hk
  | sent =>
    rw [hold]
    exact attemptCharge_mono m.tariff le_rfl (Message.zoneCount_sentOf_le hsent 0) (Nat.zero_le _)
  | missed => exact Nat.min_le_right _ _
  | expired => exact hfee
  | cancelled => exact hfee
  | purged => exact Nat.zero_le _

end

/-- Settles O14: the amount of each outcome by the definition, and the bound by the monotone charge. -/
theorem settlementNeverExceedsTheHold : Obligations.SettlementNeverExceedsTheHold := by
  refine ⟨fun zs => ?_, fun t kind payload reach => rfl, fun m => ⟨rfl, ?_, fun k => ⟨rfl, fun h => ?_, fun h => ?_, rfl, ?_⟩⟩, ?_⟩
  · rw [List.countP_eq_length_filter]
    rfl
  · intro before after a hsplit hfirst
    have hsent := Message.sentOf_of hsplit hfirst
    refine ⟨?_, fun hzero k => ?_⟩
    · rintro _ rfl
      have hpaid : m.deliveredZones a.number = if a.sent = 0 then 1 else zoneCount a.sent := by
        rw [Message.deliveredZones, hsent]
      exact ⟨by rw [← hpaid]; rfl, hpaid⟩
    · have hsent0 : m.sentOf 0 = a.sent := hzero ▸ hsent
      exact ⟨by rw [← hsent0]; rfl, by rw [← hsent0]; rfl⟩
  · have hamount : (if m.transmitted then min m.tariff.failFee m.hold else 0) = min m.tariff.failFee m.hold :=
      if_pos (Message.transmitted_iff.mpr h)
    exact ⟨hamount, hamount⟩
  · have hamount : (if m.transmitted then min m.tariff.failFee m.hold else 0) = 0 := by
      refine if_neg fun ht => ?_
      obtain ⟨a, ha, hsome⟩ := Message.transmitted_iff.mp ht
      rw [h a ha] at hsome
      cases hsome
    exact ⟨hamount, hamount⟩
  · refine ⟨m.sentUnion, m.zoneIn_sentUnion, fun o hd hs => ?_⟩
    cases o with
    | delivered => exact absurd rfl hd
    | sent => exact absurd rfl hs
    | missed | expired | cancelled | purged => rfl
  · intro m o k _ hold hreach hsent hk
    exact Message.settlementAmount_le_hold hold hreach hsent hk

end Sys2Proof.Machine
end

/-! ## The classifier tables: CLASSIFIER_WRITE, CLASSIFIER_DEFAULT, RANGE_WRITE (R44, R47, R54, R55) -/

section
namespace Sys2Proof.Machine

/-! ### The 16 bytes of an action (Tables 3-8 and 10-8) -/

section
variable {body : List Byte} {off : Nat} {a : Action}

theorem flagAt_eq (body : List Byte) (off : Nat) : flagAt body off = decide (fieldAt body off 1 ≠ 0) := rfl

/-- A presence field reads as its value, or as absent. -/
theorem optionalField_of {α : Type} {flag : Nat} {value : Option α} {x : α} (h : flag ≠ 0 → value = some x) :
    optionalField (decide (flag ≠ 0)) value = some (if flag = 0 then none else some x) := by
  unfold optionalField
  by_cases hf : flag = 0
  · simp [hf]
  · simp [hf, h hf]

/-- A presence field that is present and read has its value in range. -/
theorem optionalField_present {α : Type} {flag : Nat} {value : Option α} {o : Option α}
    (h : optionalField (decide (flag ≠ 0)) value = some o) (hf : flag ≠ 0) : ∃ x, value = some x := by
  unfold optionalField at h
  rw [if_pos (by simpa using hf), Option.map_eq_some_iff] at h
  obtain ⟨x, hx, -⟩ := h
  exact ⟨x, hx⟩

theorem optionalField_fin {n flag v : Nat} (hn : 0 < n) (h : flag ≠ 0 → v < n) :
    ∃ o : Option (Fin n), optionalField (decide (flag ≠ 0)) (finBelow n v) = some o
      ∧ o.map Fin.val = if flag = 0 then none else some v := by
  refine ⟨_, optionalField_of (x := ⟨v % n, Nat.mod_lt v hn⟩) fun hf => finBelow_of (Nat.mod_eq_of_lt (h hf)).symm, ?_⟩
  by_cases hf : flag = 0
  · simp [hf]
  · simp [hf, Nat.mod_eq_of_lt (h hf)]

theorem dispositionOfCode_of {v : Nat} (h : v ≤ 2) : ∃ d, dispositionOfCode v = some d
    ∧ v = match d with | .pass => 0 | .refuse => 1 | .forward => 2 := by
  have hcases : v = 0 ∨ v = 1 ∨ v = 2 := by omega
  rcases hcases with rfl | rfl | rfl
  · exact ⟨.pass, rfl, rfl⟩
  · exact ⟨.refuse, rfl, rfl⟩
  · exact ⟨.forward, rfl, rfl⟩

/-- An action in range is read as what its bytes carry. -/
theorem readAction_of (h : actionInRange body off) : ∃ a, readAction body off = some a ∧ a.carriedBy body off := by
  obtain ⟨hdisposition, hreason, htarget, hpriority, hlife, hretries, hplan, hchain⟩ := h
  obtain ⟨d, hd, hdcode⟩ := dispositionOfCode_of hdisposition
  obtain ⟨priority, hp, hpval⟩ := optionalField_fin (n := 4) (by decide) fun hf => Nat.lt_succ_of_le (hpriority hf)
  obtain ⟨plan, hq, hqval⟩ := optionalField_fin (n := 16) (by decide) fun hf => Nat.lt_succ_of_le (hplan hf)
  have hl : optionalField (flagAt body (off + 8)) (within 1 65535 (fieldAt body (off + 9) 2)) = some _ :=
    optionalField_of fun hf => within_of (hlife hf) (fieldAt_two_le ..)
  have hr : optionalField (flagAt body (off + 11)) (within 0 7 (fieldAt body (off + 12) 1)) = some _ :=
    optionalField_of fun hf => within_of (Nat.zero_le _) (hretries hf)
  have hreason' : finBelow 16 (fieldAt body (off + 1) 1) = some ⟨_, Nat.lt_succ_of_le hreason⟩ := finBelow_of rfl
  have htarget' : finBelow 8192 (fieldAt body (off + 2) 2) = some ⟨_, Nat.lt_succ_of_le htarget⟩ := finBelow_of rfl
  have hchain' : finBelow 64 (fieldAt body (off + 15) 1) = some ⟨_, Nat.lt_succ_of_le hchain⟩ := finBelow_of rfl
  refine ⟨{
      disposition := d
      reason := BitVec.ofNat 4 (fieldAt body (off + 1) 1)
      target := ⟨_, Nat.lt_succ_of_le htarget⟩
      priority := priority
      coverage := if BitVec.ofNat 8 (fieldAt body (off + 6) 1) = 0 then none else some (BitVec.ofNat 8 (fieldAt body (off + 6) 1))
      noFocus := flagAt body (off + 7)
      life := if fieldAt body (off + 8) 1 = 0 then none else some (fieldAt body (off + 9) 2)
      retries := if fieldAt body (off + 11) 1 = 0 then none else some (fieldAt body (off + 12) 1)
      plan := plan
      chain := BitVec.ofNat 6 (fieldAt body (off + 15) 1) },
    ?reads, hdcode, (Nat.mod_eq_of_lt (Nat.lt_succ_of_le hreason)).symm, rfl, hpval, ?coverage, rfl, rfl, rfl, hqval,
    (Nat.mod_eq_of_lt (Nat.lt_succ_of_le hchain)).symm⟩
  case reads =>
    unfold readAction
    rw [hd, hreason', htarget', hl, hr, hchain', flagAt_eq body (off + 4), hp, flagAt_eq body (off + 13), hq]
    rfl
  case coverage => simp only [ofNat_fieldAt_eq_zero]

/-- An action that is read is in range. -/
theorem actionInRange_of_read (h : readAction body off = some a) : actionInRange body off := by
  unfold readAction at h
  obtain ⟨d, hd, h⟩ := Option.bind_eq_some_iff.mp h
  obtain ⟨reason, hreason, h⟩ := Option.bind_eq_some_iff.mp h
  obtain ⟨target, htarget, h⟩ := Option.bind_eq_some_iff.mp h
  obtain ⟨priority, hpriority, h⟩ := Option.bind_eq_some_iff.mp h
  obtain ⟨life, hlife, h⟩ := Option.bind_eq_some_iff.mp h
  obtain ⟨retries, hretries, h⟩ := Option.bind_eq_some_iff.mp h
  obtain ⟨plan, hplan, h⟩ := Option.bind_eq_some_iff.mp h
  obtain ⟨chain, hchain, -⟩ := Option.bind_eq_some_iff.mp h
  refine ⟨?_, ?_, ?_, fun hf => ?_, fun hf => ?_, fun hf => ?_, fun hf => ?_, ?_⟩
  · rw [dispositionOfCode_eq_some.mp hd]
    cases d <;> decide
  · rw [finBelow_eq_some.mp hreason]; omega
  · rw [finBelow_eq_some.mp htarget]; omega
  · obtain ⟨x, hx⟩ := optionalField_present hpriority hf
    rw [finBelow_eq_some.mp hx]; omega
  · obtain ⟨x, hx⟩ := optionalField_present hlife hf
    exact (within_eq_some.mp hx).2.1
  · obtain ⟨x, hx⟩ := optionalField_present hretries hf
    exact (within_eq_some.mp hx).2.2
  · obtain ⟨x, hx⟩ := optionalField_present hplan hf
    rw [finBelow_eq_some.mp hx]; omega
  · rw [finBelow_eq_some.mp hchain]; omega

theorem readAction_none (h : ¬ actionInRange body off) : readAction body off = none := by
  cases hread : readAction body off with
  | none => rfl
  | some a => exact absurd (actionInRange_of_read hread) h

end

/-! ### The three writes -/

section
variable {body : List Byte}

theorem readClassifierWrite_of {i : Fin 64} (hi : fieldAt body 0 1 = i.val) (h : actionInRange body 16) :
    ∃ c : ClassifierEntry, readClassifierWrite body = some (i, c) ∧ c.carriedBy body := by
  obtain ⟨a, ha, hcarried⟩ := readAction_of h
  refine ⟨{ valid := flagAt body 1, value := readKey body 2, mask := readKey body 9, action := a }, ?_, rfl, rfl, rfl, hcarried⟩
  unfold readClassifierWrite
  rw [finBelow_of hi, ha]
  rfl

theorem readClassifierWrite_none (h : 63 < fieldAt body 0 1 ∨ ¬ actionInRange body 16) : readClassifierWrite body = none := by
  unfold readClassifierWrite
  rcases h with h | h
  · rw [finBelow_none (n := 64) h]
    rfl
  · rw [readAction_none h]
    cases finBelow 64 (fieldAt body 0 1) <;> rfl

theorem lookupOfCode_of {v : Nat} (h : v ≤ 1) : lookupOfCode v = some (decide (v = 1)) := by
  have hcases : v = 0 ∨ v = 1 := by omega
  rcases hcases with rfl | rfl <;> rfl

theorem readClassifierDefault_of (hi : fieldAt body 0 1 ≤ 1) (h : actionInRange body 1) :
    ∃ a : Action, readClassifierDefault body = some (decide (fieldAt body 0 1 = 1), a) ∧ a.carriedBy body 1 := by
  obtain ⟨a, ha, hcarried⟩ := readAction_of h
  refine ⟨a, ?_, hcarried⟩
  unfold readClassifierDefault
  rw [lookupOfCode_of hi, ha]
  rfl

theorem readClassifierDefault_none (h : 1 < fieldAt body 0 1 ∨ ¬ actionInRange body 1) : readClassifierDefault body = none := by
  unfold readClassifierDefault
  rcases h with h | h
  · have hcode : lookupOfCode (fieldAt body 0 1) = none := by
      unfold lookupOfCode
      split
      · omega
      · omega
      · rfl
    rw [hcode]
    rfl
  · rw [readAction_none h]
    cases lookupOfCode (fieldAt body 0 1) <;> rfl

theorem readRangeWrite_of {i : Fin 4} {source : RangeSource} (hi : fieldAt body 0 1 = i.val)
    (hs : fieldAt body 1 1 = (rangeSourceCode source).toNat)
    (hhour : source = .hour → fieldAt body 2 1 ≤ 23 ∧ fieldAt body 3 1 ≤ 23) :
    readRangeWrite body = some (i, ⟨source, fieldAt body 2 1, fieldAt body 3 1⟩) := by
  unfold readRangeWrite
  rw [finBelow_of hi, rangeSourceOfCode_eq_some.mpr hs]
  refine if_neg ?_
  rintro ⟨hh, hout⟩
  have := hhour hh
  omega

theorem readRangeWrite_none (h : 3 < fieldAt body 0 1 ∨ 3 < fieldAt body 1 1
    ∨ fieldAt body 1 1 = 2 ∧ (23 < fieldAt body 2 1 ∨ 23 < fieldAt body 3 1)) : readRangeWrite body = none := by
  unfold readRangeWrite
  cases hi : finBelow 4 (fieldAt body 0 1) with
  | none => rfl
  | some i =>
    cases hs : rangeSourceOfCode (fieldAt body 1 1) with
    | none => rfl
    | some source =>
      have hcode := rangeSourceOfCode_eq_some.mp hs
      have hcode3 : (rangeSourceCode source).toNat ≤ 3 := by cases source <;> decide
      have hindex := finBelow_eq_some.mp hi
      have := i.isLt
      refine if_pos ⟨?_, by omega⟩
      have hcode2 : (rangeSourceCode source).toNat = 2 := by omega
      revert hcode2
      cases source <;> decide

end

theorem exec_classifierWrite (p : PortId) (body : List Byte) (s : State) :
    exec (.classifierWrite p body) s = .next (takeCommand p [.supervisor]
      (withLength 32 body (withRange (readClassifierWrite body) classifierWrite)) s) := rfl

theorem exec_classifierDefault (p : PortId) (body : List Byte) (s : State) :
    exec (.classifierDefault p body) s = .next (takeCommand p [.supervisor]
      (withLength 17 body (withRange (readClassifierDefault body) classifierDefault)) s) := rfl

theorem exec_rangeWrite (p : PortId) (body : List Byte) (s : State) :
    exec (.rangeWrite p body) s = .next (takeCommand p [.supervisor]
      (withLength 4 body (withRange (readRangeWrite body) rangeWrite)) s) := rfl

/-- R55: one of the two defaults is replaced. -/
theorem classifierDefault_eq {v : Nat} (h : v ≤ 1) (a : Action) (s : State) :
    classifierDefault (decide (v = 1), a) s = ⟨.ok, bytesOf 1 v, { s with
      firstDefault := if v = 0 then a else s.firstDefault, secondDefault := if v = 0 then s.secondDefault else a }⟩ := by
  have hcases : v = 0 ∨ v = 1 := by omega
  rcases hcases with rfl | rfl <;> rfl

/-- Settles O15: each body read by its ranges, and the bank or the default after the write. -/
theorem classifierWritesReplaceOneItem : Obligations.ClassifierWritesReplaceOneItem := by
  intro s p body hs
  simp only [exec_classifierWrite, exec_classifierDefault, exec_rangeWrite]
  refine ⟨fun hb => ⟨fun h => ?_, fun i hi h => ?_⟩, fun hb => ⟨fun h => ?_, fun hi h => ?_⟩,
    fun hb => ⟨fun h => ?_, fun i source hi hsource hhour => ?_⟩⟩
  · exact congrArg _ (takeCommand_range _ hs hb (readClassifierWrite_none h))
  · obtain ⟨c, hread, hcarried⟩ := readClassifierWrite_of hi h
    exact ⟨c, _, hcarried, congrArg _ (takeCommand_answers hs hb hread rfl rfl),
      fun j => bankGet_bankSet s.classifier i j c, rfl, rfl⟩
  · exact congrArg _ (takeCommand_range _ hs hb (readClassifierDefault_none h))
  · obtain ⟨a, hread, hcarried⟩ := readClassifierDefault_of hi h
    exact ⟨a, hcarried, congrArg _ (takeCommand_answers hs hb hread (classifierDefault_eq hi a s) rfl)⟩
  · exact congrArg _ (takeCommand_range _ hs hb (readRangeWrite_none h))
  · have hcode : fieldAt body 1 1 = (rangeSourceCode source).toNat := by rw [hsource]; cases source <;> rfl
    exact ⟨_, congrArg _ (takeCommand_answers hs hb (readRangeWrite_of hi hcode hhour) rfl rfl),
      fun j => bankGet_bankSet s.checkers i j _, rfl, rfl⟩

end Sys2Proof.Machine
end

/-! ## The classifier tables read back: CLASSIFIER_READ and RANGE_READ (R44, R56) -/

section
namespace Sys2Proof.Machine

/-! ### The bytes of an action -/

/-- A presence field is its flag and its value, which is 0 when absent (Table 10-8). -/
theorem presenceBytes_eq (len : Nat) (o : Option Nat) :
    presenceBytes len o = bytesOf 1 (if o.isSome then 1 else 0) ++ bytesOf len (o.getD 0) := by
  cases o <;> simp [presenceBytes, bytesOf]

/-- The fields of an action in the order of Table 10-8. -/
def actionFields (a : Action) : List (Nat × Nat) :=
  [(1, (dispositionCode a.disposition).toNat), (1, a.reason.toNat), (2, a.target.val),
    (1, if (a.priority.map Fin.val).isSome then 1 else 0), (1, (a.priority.map Fin.val).getD 0),
    (1, (a.coverage.getD 0).toNat), (1, (flagByte a.noFocus).toNat), (1, if a.life.isSome then 1 else 0), (2, a.life.getD 0),
    (1, if a.retries.isSome then 1 else 0), (1, a.retries.getD 0), (1, if (a.plan.map Fin.val).isSome then 1 else 0),
    (1, (a.plan.map Fin.val).getD 0), (1, a.chain.toNat)]

theorem actionBytes_eq (a : Action) : actionBytes a = fieldsBytes (actionFields a) := by
  unfold actionBytes actionTailBytes actionFields
  simp only [fieldsBytes_cons, fieldsBytes_nil, presenceBytes_eq, bytesOf_one_toNat, List.append_assoc, List.append_nil,
    List.cons_append, List.nil_append]

theorem actionBytes_length (a : Action) : (actionBytes a).length = 16 := by
  rw [actionBytes_eq, fieldsBytes_length]
  simp [actionFields]

/-- A field of an action's bytes after a front part. -/
theorem fieldAt_actionBytes {front : List Byte} {a : Action} {off len v : Nat} (k : Nat)
    (h : (actionFields a)[k]? = some (len, v)) (hoff : off = front.length + (((actionFields a).take k).map Prod.fst).sum)
    (hv : v < 256 ^ len) : fieldAt (front ++ actionBytes a) off len = v := by
  rw [fieldAt_append hoff, actionBytes_eq, fieldAt_fields_nil k h rfl, Nat.mod_eq_of_lt hv]

theorem presence_lt (b : Bool) : (if b then 1 else 0) < 256 ^ 1 := by
  cases b <;> decide

/-- A presence flag and its value give the optional value back. -/
theorem presence_read {α : Type} (o : Option α) (d : α) :
    o = if (if o.isSome then 1 else 0) = 0 then none else some (o.getD d) := by
  cases o <;> simp

theorem optionFin_lt {n : Nat} (hn : 0 < n) (o : Option (Fin n)) : (o.map Fin.val).getD 0 < n := by
  cases o with
  | none => exact hn
  | some x => exact x.isLt

/-- The 14 fields of an action's bytes after a front part. -/
theorem fieldAt_actionBytes_all {a : Action} (h : a.legal) {front : List Byte} {off : Nat} (hoff : off = front.length) :
    fieldAt (front ++ actionBytes a) off 1 = (dispositionCode a.disposition).toNat
    ∧ fieldAt (front ++ actionBytes a) (off + 1) 1 = a.reason.toNat
    ∧ fieldAt (front ++ actionBytes a) (off + 2) 2 = a.target.val
    ∧ fieldAt (front ++ actionBytes a) (off + 4) 1 = (if (a.priority.map Fin.val).isSome then 1 else 0)
    ∧ fieldAt (front ++ actionBytes a) (off + 5) 1 = (a.priority.map Fin.val).getD 0
    ∧ fieldAt (front ++ actionBytes a) (off + 6) 1 = (a.coverage.getD 0).toNat
    ∧ fieldAt (front ++ actionBytes a) (off + 7) 1 = (flagByte a.noFocus).toNat
    ∧ fieldAt (front ++ actionBytes a) (off + 8) 1 = (if a.life.isSome then 1 else 0)
    ∧ fieldAt (front ++ actionBytes a) (off + 9) 2 = a.life.getD 0
    ∧ fieldAt (front ++ actionBytes a) (off + 11) 1 = (if a.retries.isSome then 1 else 0)
    ∧ fieldAt (front ++ actionBytes a) (off + 12) 1 = a.retries.getD 0
    ∧ fieldAt (front ++ actionBytes a) (off + 13) 1 = (if (a.plan.map Fin.val).isSome then 1 else 0)
    ∧ fieldAt (front ++ actionBytes a) (off + 14) 1 = (a.plan.map Fin.val).getD 0
    ∧ fieldAt (front ++ actionBytes a) (off + 15) 1 = a.chain.toNat := by
  obtain ⟨-, hlife, hretries⟩ := h
  have hl : a.life.getD 0 < 256 ^ 2 := by
    cases hlife' : a.life with
    | none => decide
    | some l => have := (hlife l hlife').2; simpa using Nat.lt_succ_of_le this
  have hr : a.retries.getD 0 < 256 ^ 1 := by
    cases hretries' : a.retries with
    | none => decide
    | some r => have := hretries r hretries'; simpa using Nat.lt_of_le_of_lt this (by decide : 7 < 256)
  have hreason : a.reason.toNat < 256 ^ 1 := Nat.lt_of_lt_of_le a.reason.isLt (by decide)
  have htarget : a.target.val < 256 ^ 2 := Nat.lt_of_lt_of_le a.target.isLt (by decide)
  have hpriority : (a.priority.map Fin.val).getD 0 < 256 ^ 1 := Nat.lt_of_lt_of_le (optionFin_lt (by decide) _) (by decide)
  have hplan : (a.plan.map Fin.val).getD 0 < 256 ^ 1 := Nat.lt_of_lt_of_le (optionFin_lt (by decide) _) (by decide)
  have hchain : a.chain.toNat < 256 ^ 1 := Nat.lt_of_lt_of_le a.chain.isLt (by decide)
  subst hoff
  refine ⟨fieldAt_actionBytes 0 rfl ?_ (BitVec.isLt _), fieldAt_actionBytes 1 rfl ?_ hreason,
    fieldAt_actionBytes 2 rfl ?_ htarget, fieldAt_actionBytes 3 rfl ?_ (presence_lt _), fieldAt_actionBytes 4 rfl ?_ hpriority,
    fieldAt_actionBytes 5 rfl ?_ (BitVec.isLt _), fieldAt_actionBytes 6 rfl ?_ (BitVec.isLt _),
    fieldAt_actionBytes 7 rfl ?_ (presence_lt _), fieldAt_actionBytes 8 rfl ?_ hl, fieldAt_actionBytes 9 rfl ?_ (presence_lt _),
    fieldAt_actionBytes 10 rfl ?_ hr, fieldAt_actionBytes 11 rfl ?_ (presence_lt _), fieldAt_actionBytes 12 rfl ?_ hplan,
    fieldAt_actionBytes 13 rfl ?_ hchain⟩ <;> simp [actionFields]

/-- The bytes of a legal action are in range and carry it. -/
theorem actionBytes_carried {a : Action} (h : a.legal) {front : List Byte} {off : Nat} (hoff : off = front.length) :
    a.carriedBy (front ++ actionBytes a) off ∧ actionInRange (front ++ actionBytes a) off := by
  obtain ⟨hcoverage, hlife, hretries⟩ := id h
  obtain ⟨h0, h1, h2, h4, h5, h6, h7, h8, h9, h11, h12, h13, h14, h15⟩ := fieldAt_actionBytes_all h hoff
  refine ⟨⟨?_, h1, h2, ?_, ?_, ?_, ?_, ?_, ?_, h15⟩, ?_, ?_, ?_, fun _ => ?_, fun hf => ?_, fun _ => ?_, fun _ => ?_, ?_⟩
  · rw [h0]; cases a.disposition <;> rfl
  · rw [h4, h5]; exact presence_read _ 0
  · rw [h6]
    cases hc : a.coverage with
    | none => rfl
    | some zs =>
      have hne : zs.toNat ≠ 0 := fun hz => hcoverage (hc.trans (congrArg some (BitVec.eq_of_toNat_eq hz)))
      simp [hne]
  · rw [h7]; exact (flagByte_ne_zero _).symm
  · rw [h8, h9]; exact presence_read _ 0
  · rw [h11, h12]; exact presence_read _ 0
  · rw [h13, h14]; exact presence_read _ 0
  · rw [h0]; cases a.disposition <;> decide
  · rw [h1]; have := a.reason.isLt; omega
  · rw [h2]; have := a.target.isLt; omega
  · rw [h5]; have := optionFin_lt (by decide) a.priority; omega
  · rw [h9]
    rw [h8] at hf
    cases hl : a.life with
    | none => simp [hl] at hf
    | some l => exact (hlife l hl).1
  · rw [h12]
    cases hr : a.retries with
    | none => exact Nat.zero_le _
    | some r => exact hretries r hr
  · rw [h14]; have := optionFin_lt (by decide) a.plan; omega
  · rw [h15]; have := a.chain.isLt; omega

/-! ### An entry, a default and the range checkers -/

/-- The bytes of a classifier entry before its action. -/
def entryFront (i : Nat) (c : ClassifierEntry) : List Byte :=
  fieldsBytes [(1, i), (1, (flagByte c.valid).toNat), (7, c.value.toNat), (7, c.mask.toNat)]

theorem classifierEntryBytes_eq (i : Nat) (c : ClassifierEntry) :
    classifierEntryBytes i c = entryFront i c ++ actionBytes c.action := by
  unfold classifierEntryBytes entryFront
  simp only [fieldsBytes_cons, fieldsBytes_nil, bytesOf_one_toNat, List.append_assoc, List.append_nil]

/-- The first byte of a number of several bytes. -/
theorem fieldAt_bytesOf_first (len n : Nat) (rest : List Byte) :
    fieldAt (bytesOf (len + 1) n ++ rest) 0 1 = n / 256 ^ len % 256 := by
  rw [bytesOf, List.cons_append, fieldAt_cons_zero, BitVec.toNat_ofNat]

theorem fieldAt_entryFront (i : Fin 64) (c : ClassifierEntry) (rest : List Byte) :
    fieldAt (entryFront i.val c ++ rest) 0 1 = i.val
    ∧ fieldAt (entryFront i.val c ++ rest) 1 1 = (flagByte c.valid).toNat
    ∧ fieldAt (entryFront i.val c ++ rest) 2 7 = c.value.toNat
    ∧ fieldAt (entryFront i.val c ++ rest) 9 7 = c.mask.toNat
    ∧ fieldAt (entryFront i.val c ++ rest) 2 1 < 8 ∧ fieldAt (entryFront i.val c ++ rest) 9 1 < 8 := by
  have hi : i.val % 256 ^ 1 = i.val := Nat.mod_eq_of_lt (Nat.lt_of_lt_of_le i.isLt (by decide))
  have hflag : (flagByte c.valid).toNat % 256 ^ 1 = (flagByte c.valid).toNat := Nat.mod_eq_of_lt (BitVec.isLt _)
  have hvalue : c.value.toNat % 256 ^ 7 = c.value.toNat := Nat.mod_eq_of_lt (Nat.lt_of_lt_of_le c.value.isLt (by decide))
  have hmask : c.mask.toNat % 256 ^ 7 = c.mask.toNat := Nat.mod_eq_of_lt (Nat.lt_of_lt_of_le c.mask.isLt (by decide))
  have htop : ∀ x : BitVec 51, x.toNat / 256 ^ 6 % 256 < 8 := fun x => by have := x.isLt; omega
  refine ⟨(fieldAt_fields 0 rfl rfl).trans hi, (fieldAt_fields 1 rfl rfl).trans hflag, (fieldAt_fields 2 rfl rfl).trans hvalue,
    (fieldAt_fields 3 rfl rfl).trans hmask, ?_, ?_⟩
  · have hfirst : fieldAt (entryFront i.val c ++ rest) 2 1 = c.value.toNat / 256 ^ 6 % 256 := by
      simp only [entryFront, fieldsBytes_cons, List.append_assoc]
      rw [fieldAt_append (k := 1) (by simp), fieldAt_append (k := 0) (by simp)]
      exact fieldAt_bytesOf_first 6 _ _
    rw [hfirst]; exact htop _
  · have hfirst : fieldAt (entryFront i.val c ++ rest) 9 1 = c.mask.toNat / 256 ^ 6 % 256 := by
      simp only [entryFront, fieldsBytes_cons, List.append_assoc]
      rw [fieldAt_append (k := 8) (by simp), fieldAt_append (k := 7) (by simp), fieldAt_append (k := 0) (by simp)]
      exact fieldAt_bytesOf_first 6 _ _
    rw [hfirst]; exact htop _

theorem entryFront_length (i : Nat) (c : ClassifierEntry) : (entryFront i c).length = 16 := by
  simp [entryFront]

/-- The fields of a range checker (Table 10-9). -/
theorem fieldAt_checkerBytes (c : RangeChecker) :
    fieldAt (checkerBytes c) 0 1 = (match c.source with | .none => 0 | .length => 1 | .hour => 2 | .line => 3)
    ∧ fieldAt (checkerBytes c) 1 1 = c.low % 256 ∧ fieldAt (checkerBytes c) 2 1 = c.high % 256 := by
  have hsource : (rangeSourceCode c.source).toNat = (match c.source with | .none => 0 | .length => 1 | .hour => 2 | .line => 3) := by
    cases c.source <;> rfl
  rw [← hsource]
  simp [checkerBytes, fieldAt_cons_zero, fieldAt_cons_skip, fieldAt_skip, fieldAt_bytesOf, fieldAt_bytesOf_nil]

@[simp] theorem checkerBytes_length (c : RangeChecker) : (checkerBytes c).length = 3 := by
  simp [checkerBytes]

/-- The record of a bank at a place of its list. -/
theorem bank_toList_get {α : Type} {n : Nat} (v : Vector α n) (i : Fin n) : v.toArray.toList[i.val]? = some (bankGet v i) := by
  rw [List.getElem?_eq_getElem (by simp)]
  simp [bankGet, Vector.get]

theorem exec_classifierRead (p : PortId) (body : List Byte) (s : State) :
    exec (.classifierRead p body) s = .next (takeCommand p anyRole
      (withLength 1 body (withRange (finBelow 66 (fieldAt body 0 1)) classifierRead)) s) := rfl

theorem exec_rangeRead (p : PortId) (body : List Byte) (s : State) :
    exec (.rangeRead p body) s = .next (takeCommand p anyRole (withLength 0 body rangeRead) s) := rfl

theorem classifierRead_entry (i : Fin 64) (s : State) : classifierRead ⟨i.val, by omega⟩ s
    = ⟨.ok, classifierEntryBytes i.val (bankGet s.classifier i), s⟩ := by
  unfold classifierRead
  rw [dif_pos i.isLt]

/-- What reading a default answers. -/
theorem fieldAt_defaultBytes {n : Nat} (hn : n < 256) {a : Action} (h : a.legal) :
    (bytesOf 1 n ++ actionBytes a).length = 17 ∧ fieldAt (bytesOf 1 n ++ actionBytes a) 0 1 = n
    ∧ a.carriedBy (bytesOf 1 n ++ actionBytes a) 1 ∧ actionInRange (bytesOf 1 n ++ actionBytes a) 1 := by
  obtain ⟨hcarried, hrange⟩ := actionBytes_carried h (front := bytesOf 1 n) (off := 1) (by simp)
  refine ⟨by simp [actionBytes_length], ?_, hcarried, hrange⟩
  rw [fieldAt_bytesOf]
  exact Nat.mod_eq_of_lt hn

/-- Settles O16: each response by the layout of its bytes. -/
theorem classifierReadsGiveBackTheItem : Obligations.ClassifierReadsGiveBackTheItem := by
  intro s p hs
  simp only [exec_classifierRead, exec_rangeRead]
  refine ⟨fun body hb => ⟨fun h => ?_, fun i hi h => ?_, fun hi h => ?_, fun hi h => ?_⟩, ?_⟩
  · exact congrArg _ (takeCommand_range _ hs hb (finBelow_none h))
  · have hread : finBelow 66 (fieldAt body 0 1) = some ⟨i.val, by omega⟩ := finBelow_of hi
    refine ⟨_, congrArg _ (takeCommand_answers hs hb hread (classifierRead_entry i s) rfl), ?_⟩
    obtain ⟨hcarried, hrange⟩ :=
      actionBytes_carried h (front := entryFront i.val (bankGet s.classifier i)) (off := 16) (entryFront_length _ _).symm
    obtain ⟨h0, h1, h2, h9, h2', h9'⟩ := fieldAt_entryFront i (bankGet s.classifier i) (actionBytes (bankGet s.classifier i).action)
    rw [classifierEntryBytes_eq]
    refine ⟨by simp [entryFront_length, actionBytes_length], h0, h2', h9', ⟨?_, ?_, ?_, hcarried⟩, hrange⟩
    · rw [h1]; exact (flagByte_ne_zero _).symm
    · rw [h2]; simp
    · rw [h9]; simp
  · exact ⟨_, congrArg _ (takeCommand_answers hs hb (finBelow_of (i := (64 : Fin 66)) hi) rfl rfl),
      fieldAt_defaultBytes (by decide) h⟩
  · exact ⟨_, congrArg _ (takeCommand_answers hs hb (finBelow_of (i := (65 : Fin 66)) hi) rfl rfl),
      fieldAt_defaultBytes (by decide) h⟩
  · refine ⟨s.checkers.toArray.toList.flatMap checkerBytes, ?_, ?_, fun i => ?_⟩
    · exact congrArg _ (takeCommand_plain_answers hs rfl rfl rfl)
    · rw [flatMap_length_of checkerBytes_length]; simp
    · obtain ⟨h0, h1, h2⟩ := fieldAt_checkerBytes (bankGet s.checkers i)
      have hfield := fun (off len : Nat) (h : off + len ≤ 3) =>
        fieldAt_flatMap checkerBytes_length (bank_toList_get s.checkers i) off h
      exact ⟨(hfield 0 1 (by omega)).trans h0, (hfield 1 1 (by omega)).trans h1, (hfield 2 1 (by omega)).trans h2⟩

end Sys2Proof.Machine
end

/-! ## Classification: normalisation, the key, the lookups and the merge (R38 to R51, R62, R63) -/

section
namespace Sys2Proof.Machine

/-! ### A part of two words one after the other -/

theorem extract_append_low {n m : Nat} (x : BitVec n) (y : BitVec m) {start len : Nat} (h : start + len ≤ m) :
    (x ++ y).extractLsb' start len = y.extractLsb' start len := by
  apply BitVec.eq_of_getLsbD_eq
  intro i hi
  have hlow : start + i < m := by omega
  simp [BitVec.getLsbD_append, hi, hlow]

theorem extract_append_high {n m : Nat} (x : BitVec n) (y : BitVec m) {start len : Nat} (h : m ≤ start) :
    (x ++ y).extractLsb' start len = x.extractLsb' (start - m) len := by
  apply BitVec.eq_of_getLsbD_eq
  intro i hi
  have hhigh : ¬ start + i < m := by omega
  have hsub : start + i - m = start - m + i := by omega
  simp [BitVec.getLsbD_append, hi, hhigh, hsub]

theorem extract_self {n : Nat} (x : BitVec n) : x.extractLsb' 0 n = x := by
  apply BitVec.eq_of_getLsbD_eq
  intro i hi
  simp [hi]

theorem getLsbD_append_low {n m : Nat} (x : BitVec n) (y : BitVec m) {i : Nat} (h : i < m) :
    (x ++ y).getLsbD i = y.getLsbD i := by
  simp [BitVec.getLsbD_append, h]

theorem getLsbD_append_high {n m : Nat} (x : BitVec n) (y : BitVec m) {i k : Nat} (h : i = k + m) :
    (x ++ y).getLsbD i = x.getLsbD k := by
  have hhigh : ¬ i < m := by omega
  have hsub : i - m = k := by omega
  simp [BitVec.getLsbD_append, hhigh, hsub]

/-- The twelve fields of the key, LOOKUP first, in the places of Table 10-8. -/
theorem key_parts (a : BitVec 1) (b : BitVec 6) (c : BitVec 2) (d : BitVec 8) (e : BitVec 4) (f : BitVec 2) (g : BitVec 3)
    (h : BitVec 1) (i : BitVec 2) (j : BitVec 2) (l : BitVec 4) (m : BitVec 16) (k : BitVec 51)
    (hk : k = a ++ b ++ c ++ d ++ e ++ f ++ g ++ h ++ i ++ j ++ l ++ m) :
    k.extractLsb' 50 1 = a ∧ k.extractLsb' 44 6 = b ∧ k.extractLsb' 42 2 = c ∧ k.extractLsb' 34 8 = d
    ∧ k.extractLsb' 30 4 = e ∧ k.extractLsb' 28 2 = f ∧ k.extractLsb' 25 3 = g ∧ k.extractLsb' 24 1 = h
    ∧ k.extractLsb' 22 2 = i ∧ (∀ n, n < 2 → k.getLsbD (20 + n) = j.getLsbD n)
    ∧ (∀ n, n < 4 → k.getLsbD (16 + n) = l.getLsbD n) ∧ k.extractLsb' 0 16 = m := by
  subst hk
  refine ⟨?lookup, ?_, ?_, ?_, ?_, ?_, ?_, ?_, ?_, fun n hn => ?flags, fun n hn => ?hits, ?_⟩
  case lookup =>
    repeat rw [extract_append_high _ _ (by decide)]
    exact extract_self _
  case flags =>
    rw [getLsbD_append_high (k := 4 + n) _ _ (by omega), getLsbD_append_high (k := n) _ _ (by omega),
      getLsbD_append_low _ _ hn]
  case hits => rw [getLsbD_append_high (k := n) _ _ (by omega), getLsbD_append_low _ _ hn]
  all_goals
    repeat rw [extract_append_high _ _ (by decide)]
    rw [extract_append_low _ _ (by decide)]
    exact extract_self _

/-! ### The lookups -/

theorem ClassifierEntry.matchesKey_iff (c : ClassifierEntry) (key : BitVec 51) : c.matchesKey key = true ↔
    c.valid = true ∧ ∀ b, c.mask.getLsbD b = true → c.value.getLsbD b = key.getLsbD b := by
  unfold ClassifierEntry.matchesKey
  rw [Bool.and_eq_true, decide_eq_true_eq]
  refine and_congr_right fun _ => ⟨fun h b hb => ?_, fun h => ?_⟩
  · have hbit := congrArg (fun x : BitVec 51 => x.getLsbD b) h
    simpa [hb] using hbit
  · apply BitVec.eq_of_getLsbD_eq
    intro b hlt
    cases hm : c.mask.getLsbD b with
    | false => simp [hm]
    | true => simp [hm, h b hm]

theorem firstMatch_none {key : BitVec 51} {l : List ClassifierEntry} (h : ∀ c ∈ l, c.matchesKey key = false) (i : Nat) :
    firstMatch key i l = none := by
  induction l generalizing i with
  | nil => rfl
  | cons c rest ih =>
    rw [firstMatch, if_neg (by simp [h c])]
    exact ih (fun d hd => h d (List.mem_cons_of_mem _ hd)) (i + 1)

theorem firstMatch_of {key : BitVec 51} {l : List ClassifierEntry} {j : Nat} {c : ClassifierEntry} (hj : l[j]? = some c)
    (hmatch : c.matchesKey key = true) (hbefore : ∀ k d, k < j → l[k]? = some d → d.matchesKey key = false) (i : Nat) :
    firstMatch key i l = some (i + j, c.action) := by
  induction l generalizing i j with
  | nil => simp at hj
  | cons d rest ih =>
    cases j with
    | zero =>
      simp only [List.getElem?_cons_zero, Option.some.injEq] at hj
      rw [firstMatch, hj, if_pos hmatch, Nat.add_zero]
    | succ j =>
      rw [firstMatch, if_neg (by simp [hbefore 0 d (Nat.succ_pos j) rfl]),
        ih (j := j) (by simpa using hj) (fun k e hk he => hbefore (k + 1) e (Nat.succ_lt_succ hk) (by simpa using he)) (i + 1)]
      congr 2
      omega

theorem State.lookup_none {s : State} {key : BitVec 51} (h : ∀ i, (bankGet s.classifier i).matchesKey key = false) (item : Nat)
    (default : Action) : s.lookup key item default = (item, default) := by
  unfold State.lookup
  rw [firstMatch_none]
  intro c hc
  obtain ⟨k, hk, rfl⟩ := List.mem_iff_getElem.mp hc
  exact h ⟨k, by simpa using hk⟩

theorem State.lookup_of {s : State} {key : BitVec 51} {i : Fin 64} (h : (bankGet s.classifier i).matchesKey key = true)
    (hbefore : ∀ j, j < i → (bankGet s.classifier j).matchesKey key = false) (item : Nat) (default : Action) :
    s.lookup key item default = (i.val, (bankGet s.classifier i).action) := by
  unfold State.lookup
  rw [firstMatch_of (bank_toList_get s.classifier i) h, Nat.zero_add]
  intro k d hk hd
  have hget := bank_toList_get s.classifier ⟨k, Nat.lt_trans hk i.isLt⟩
  rw [show s.classifier.toArray.toList[k]? = _ from hget, Option.some.injEq] at hd
  exact hd ▸ hbefore _ hk

/-! ### Normalisation, hours and digits -/

theorem carries_text (x : Byte) : carries .text x = true ↔ x.toNat < 128 := by simp [carries]

theorem carries_numeric (x : Byte) :
    carries .numeric x = true ↔ 48 ≤ x.toNat ∧ x.toNat ≤ 57 ∨ x.toNat ∈ [32, 45, 46, 42, 35] := by simp [carries]

section
variable {cls : MsgClass} {text : List Byte}

theorem normalise_length : (normalise cls text).text.length = min text.length (maxLength cls) := by
  simp [normalise, Nat.min_comm]

theorem normalise_get {i : Nat} {x : Byte} (hi : i < maxLength cls) (hx : text[i]? = some x) :
    (normalise cls text).text[i]? = some (if carries cls x then x else 32) := by
  simp [normalise, List.getElem?_take_of_lt hi, hx]

theorem normalise_substituted : (normalise cls text).substituted = true
    ↔ ∃ (i : Nat) (x : Byte), i < maxLength cls ∧ text[i]? = some x ∧ carries cls x = false := by
  simp only [normalise, List.any_eq_true, Bool.not_eq_true']
  constructor
  · rintro ⟨x, hx, hc⟩
    obtain ⟨i, hi⟩ := List.mem_iff_getElem?.mp hx
    have hlt : i < maxLength cls := by
      by_contra hge
      rw [List.getElem?_take_eq_none (by omega)] at hi
      cases hi
    rw [List.getElem?_take_of_lt hlt] at hi
    exact ⟨i, x, hlt, hi, hc⟩
  · rintro ⟨i, x, hlt, hx, hc⟩
    exact ⟨x, List.mem_iff_getElem?.mpr ⟨i, by rw [List.getElem?_take_of_lt hlt, hx]⟩, hc⟩

end

theorem RangeChecker.hits_iff (c : RangeChecker) (length line hour : Nat) : c.hits length line hour = true ↔
    match c.source with
    | .none => False
    | .length => c.low ≤ length ∧ length ≤ c.high
    | .line => c.low ≤ line ∧ line ≤ c.high
    | .hour => if c.low ≤ c.high then c.low ≤ hour ∧ hour ≤ c.high else c.low ≤ hour ∨ hour ≤ c.high := by
  unfold RangeChecker.hits
  cases c.source with
  | none => simp
  | length => simp
  | line => simp
  | hour =>
    dsimp only
    split <;> simp

/-- The hit bit of each checker. -/
theorem hitBits : ∀ (h0 h1 h2 h3 : Bool) (i : Fin 4),
    ((if h3 then 8 else 0 : BitVec 4) ||| (if h2 then 4 else 0) ||| (if h1 then 2 else 0) ||| (if h0 then 1 else 0)).getLsbD i.val
      = (match i with | 0 => h0 | 1 => h1 | 2 => h2 | 3 => h3) := by decide

theorem State.rangeHits_bit (s : State) (r : ClassifyRequest) (i : Fin 4) :
    (s.rangeHits r).getLsbD i.val = (bankGet s.checkers i).hits r.text.length r.line (officeHour s.clock) := by
  unfold State.rangeHits
  refine (hitBits _ _ _ _ i).trans ?_
  fin_cases i <;> rfl

/-! ### The merge -/

theorem orElse_eq {α : Type} (a b : Option α) : (b <|> a) = if b.isSome then b else a := by
  cases b <;> rfl

/-- What a classification is, by the FIRST action (R49 to R51). -/
theorem State.classify_refused {s : State} {r : ClassifyRequest}
    (h : (s.lookup (s.keyFor r 0 0) 64 s.firstDefault).2.disposition = .refuse) :
    s.classify r = ⟨s.rangeHits r, s.lookup (s.keyFor r 0 0) 64 s.firstDefault, none,
      refusedByFirst (s.lookup (s.keyFor r 0 0) 64 s.firstDefault).2⟩ := by
  unfold State.classify
  exact if_pos h

theorem State.classify_merged {s : State} {r : ClassifyRequest}
    (h : (s.lookup (s.keyFor r 0 0) 64 s.firstDefault).2.disposition ≠ .refuse) :
    s.classify r = ⟨s.rangeHits r, s.lookup (s.keyFor r 0 0) 64 s.firstDefault,
      some (s.lookup (s.keyFor r 1 (s.lookup (s.keyFor r 0 0) 64 s.firstDefault).2.chain) 65 s.secondDefault),
      mergeActions (s.lookup (s.keyFor r 0 0) 64 s.firstDefault).2
        (s.lookup (s.keyFor r 1 (s.lookup (s.keyFor r 0 0) 64 s.firstDefault).2.chain) 65 s.secondDefault).2⟩ := by
  unfold State.classify
  exact if_neg h

theorem State.classify_first (s : State) (r : ClassifyRequest) :
    (s.classify r).first = s.lookup (s.keyFor r 0 0) 64 s.firstDefault ∧ (s.classify r).hits = s.rangeHits r := by
  unfold State.classify
  dsimp only
  split <;> exact ⟨rfl, rfl⟩

/-- Settles O17: each part of a classification by its own lemma. -/
theorem lowestMatchingEntryWins : Obligations.LowestMatchingEntryWins := by
  refine ⟨fun s key item default => ⟨fun c => c.matchesKey_iff key, fun h => State.lookup_none h item default,
    fun i h hbefore => State.lookup_of h hbefore item default⟩, ?normalised, ?hit, ?key, ?digits, ?classified⟩
  case normalised =>
    rintro cls text most _ hmost rfl
    obtain rfl : most = maxLength cls := hmost.trans (by cases cls <;> rfl)
    refine ⟨normalise_length, by simp [normalise], fun i x hi hx => normalise_get hi hx, normalise_substituted,
      fun x => ⟨carries_text x, carries_numeric x⟩⟩
  case hit =>
    rintro c length line clock _ rfl
    exact c.hits_iff length line _
  case key =>
    rintro s r lookup chain _ rfl
    obtain ⟨hlookup, hchain, hport, hline, hplan, hcls, hpriority, hkind, hsubstate, hflags, hhits, hlead⟩ :=
      key_parts _ _ _ _ _ _ _ _ _ _ _ _ (s.keyFor r lookup chain) rfl
    refine ⟨hlookup, hchain, ?_, ?_, ?_, ?_, ?_, ?_, ?_, ?_, ?_, fun i => (hhits i.val i.isLt).trans (s.rangeHits_bit r i), ?_,
      fun i => ⟨rfl, rfl⟩⟩
    · rw [hport, BitVec.toNat_ofNat]; exact Nat.mod_eq_of_lt r.port.isLt
    · rw [hline, BitVec.toNat_ofNat]
    · rw [hplan, BitVec.toNat_ofNat]; exact Nat.mod_eq_of_lt r.entry.plan.isLt
    · rw [hcls]; cases r.cls <;> rfl
    · rw [hpriority]; rfl
    · rw [hkind]; cases r.entry.kind <;> rfl
    · rw [hsubstate, substateCode]; cases r.entry.state <;> rfl
    · rw [hflags 1 (by decide)]; cases r.entry.low <;> cases r.entry.exhausted <;> rfl
    · rw [hflags 0 (by decide)]; cases r.entry.low <;> cases r.entry.exhausted <;> rfl
    · rw [hlead]; cases hc : r.cls <;> simp [leadField]
  case digits => decide
  case classified =>
    rintro s r _ _ rfl rfl
    obtain ⟨hfirst, hhits⟩ := s.classify_first r
    refine ⟨hfirst, fun i => by rw [hhits]; exact s.rangeHits_bit r i, ?_⟩
    rw [hfirst]
    split
    · next h => rw [State.classify_refused h]; exact ⟨rfl, rfl⟩
    · next h =>
      rw [State.classify_merged h]
      exact ⟨_, _, rfl, rfl, rfl, rfl, orElse_eq _ _, orElse_eq _ _, rfl, orElse_eq _ _, orElse_eq _ _, orElse_eq _ _⟩

end Sys2Proof.Machine
end

/-! ## CLASSIFY_PROBE reports the classification (R58) -/

section
namespace Sys2Proof.Machine

/-! ### The body -/

section
variable {body : List Byte}

theorem readProbe_of {port : PortId} {billed : AccountIndex} {cls : MsgClass} {priority : Priority}
    (hport : fieldAt body 0 1 = port.val) (hbilled : fieldAt body 1 2 = billed.val)
    (hcls : fieldAt body 3 1 = (classCode cls).toNat) (hpriority : fieldAt body 4 1 = priority.val) :
    readProbe body = some ⟨port, billed, cls, priority, fieldAt body 5 1, body.drop 7⟩ := by
  unfold readProbe
  rw [finBelow_of hport, finBelow_of hbilled, classOfCode_eq_some.mpr hcls, finBelow_of hpriority]
  rfl

theorem classCode_toNat (cls : MsgClass) :
    (classCode cls).toNat = (match cls with | .tone => 0 | .numeric => 1 | .text => 2) := by
  cases cls <;> rfl

theorem exists_classCode {v : Nat} (h : v ≤ 2) : ∃ cls : MsgClass, v = (classCode cls).toNat := by
  have hcases : v = 0 ∨ v = 1 ∨ v = 2 := by omega
  rcases hcases with rfl | rfl | rfl
  · exact ⟨.tone, rfl⟩
  · exact ⟨.numeric, rfl⟩
  · exact ⟨.text, rfl⟩

theorem classOfCode_none {v : Nat} (h : 2 < v) : classOfCode v = none := by
  cases hread : classOfCode v with
  | none => rfl
  | some cls =>
    have hcode := classOfCode_eq_some.mp hread
    have : (classCode cls).toNat ≤ 2 := by cases cls <;> decide
    omega

theorem readProbe_none (h : 8191 < fieldAt body 1 2 ∨ 2 < fieldAt body 3 1 ∨ 3 < fieldAt body 4 1) :
    readProbe body = none := by
  unfold readProbe
  cases finBelow 4 (fieldAt body 0 1) with
  | none => rfl
  | some port =>
    rcases h with h | h | h
    · rw [finBelow_none (n := 8192) h]; rfl
    · rw [classOfCode_none h]
      cases finBelow 8192 (fieldAt body 1 2) <;> rfl
    · rw [finBelow_none (n := 4) h]
      cases finBelow 8192 (fieldAt body 1 2) with
      | none => rfl
      | some billed => cases classOfCode (fieldAt body 3 1) <;> rfl

end

/-! ### The response -/

theorem firstMatch_lt {key : BitVec 51} {l : List ClassifierEntry} {i : Nat} {w : Nat × Action}
    (h : firstMatch key i l = some w) : w.1 < i + l.length := by
  induction l generalizing i with
  | nil => cases h
  | cons c rest ih =>
    rw [firstMatch] at h
    rw [List.length_cons]
    split at h
    · cases h; dsimp only; omega
    · have := ih h; omega

/-- The winner of a lookup is an entry or the default's item. -/
theorem State.lookup_lt (s : State) (key : BitVec 51) {item : Nat} (hitem : item < 256) (default : Action) :
    (s.lookup key item default).1 < 256 := by
  unfold State.lookup
  split
  · next w h =>
    have hlt := firstMatch_lt h
    simp only [Array.length_toList, Vector.size_toArray] at hlt
    omega
  · exact hitem

/-- The four bytes of the merged disposition, with those it does not have free. -/
theorem mergedHeadBytes_fields (c : Classification) : ∃ v r t, mergedHeadBytes c = fieldsBytes [(1, v), (1, r), (2, t)]
    ∧ match c.merged.disposition with
      | .pass => v = 0
      | .refuse reason => v = 1 ∧ r = reason.toNat
      | .forward x => v = 2 ∧ t = x.val := by
  let other := (c.second.getD c.first).2
  let noReason := (Config.probeUnusedReason c.first.2.reason other.reason).toNat
  let noTarget := (Config.probeUnusedTarget c.first.2.target other.target).toNat
  unfold mergedHeadBytes
  cases c.merged.disposition with
  | pass => exact ⟨0, noReason, noTarget, by simp [noReason, noTarget, other, bytesOf], rfl⟩
  | refuse reason => exact ⟨1, reason.toNat, noTarget, by simp [noTarget, other, bytesOf], rfl, rfl⟩
  | forward x => exact ⟨2, noReason, x.val, by simp [noReason, other, bytesOf], rfl, rfl⟩

/-- The fields of a probe response in the order of Table 10-9, with the three of the disposition. -/
def probeFields (c : Classification) (v r t : Nat) : List (Nat × Nat) :=
  [(1, c.hits.toNat), (1, c.first.1), (1, match c.second with | some w => w.1 | none => 255), (1, v), (1, r), (2, t),
    (1, if (c.merged.priority.map Fin.val).isSome then 1 else 0), (1, (c.merged.priority.map Fin.val).getD 0),
    (1, (c.merged.coverage.getD 0).toNat), (1, (flagByte c.merged.noFocus).toNat), (1, if c.merged.life.isSome then 1 else 0),
    (2, c.merged.life.getD 0), (1, if c.merged.retries.isSome then 1 else 0), (1, c.merged.retries.getD 0),
    (1, if (c.merged.plan.map Fin.val).isSome then 1 else 0), (1, (c.merged.plan.map Fin.val).getD 0), (1, 0)]

theorem probeBytes_eq {c : Classification} {v r t : Nat} (h : mergedHeadBytes c = fieldsBytes [(1, v), (1, r), (2, t)]) :
    probeBytes c = fieldsBytes (probeFields c v r t) := by
  unfold probeBytes actionTailBytes probeFields
  rw [h]
  simp only [fieldsBytes_cons, fieldsBytes_nil, presenceBytes_eq, bytesOf_one_toNat, List.append_assoc, List.append_nil,
    List.cons_append, List.nil_append]
  <;> rfl

/-- A presence field of a response: two fields that are 0 together, or the flag 1 and the value. -/
theorem fieldAt_presence {l : List (Nat × Nat)} {off len flag v : Nat} (k : Nat) (hflag : l[k]? = some (1, flag))
    (hvalue : l[k + 1]? = some (len, v)) (hoff : off = ((l.take k).map Prod.fst).sum) (h0 : flag = 0) (hv : v = 0) :
    fieldAt (fieldsBytes l) off (1 + len) = 0 := by
  induction l generalizing k off with
  | nil => simp at hflag
  | cons f tail ih =>
    cases k with
    | zero =>
      obtain ⟨g, rest, rfl⟩ : ∃ g rest, tail = g :: rest := by
        cases tail with
        | nil => simp at hvalue
        | cons g rest => exact ⟨g, rest, rfl⟩
      simp only [Nat.zero_add, List.getElem?_cons_succ, List.getElem?_cons_zero, Option.some.injEq] at hflag hvalue
      subst hflag hvalue hoff h0 hv
      have hzero : bytesOf 1 0 ++ bytesOf len 0 = bytesOf (1 + len) 0 := by
        rw [Nat.add_comm]
        simp [bytesOf]
      rw [fieldsBytes_cons, fieldsBytes_cons, ← List.append_assoc, hzero]
      exact (fieldAt_bytesOf (1 + len) 0 _).trans (Nat.zero_mod _)
    | succ k =>
      rw [List.take_succ_cons, List.map_cons, List.sum_cons] at hoff
      rw [fieldsBytes_cons, fieldAt_append (k := ((tail.take k).map Prod.fst).sum) (by simpa using hoff)]
      exact ih k (by simpa using hflag) (by simpa using hvalue) rfl

/-- The optional field of a response that stands at a place: absent as zeros, or its flag and its value. -/
theorem fieldAt_optional {l : List (Nat × Nat)} {off len : Nat} (k : Nat) {o : Option Nat}
    (hflag : l[k]? = some (1, if o.isSome then 1 else 0)) (hvalue : l[k + 1]? = some (len, o.getD 0))
    (hoff : off = ((l.take k).map Prod.fst).sum) (hnext : off + 1 = ((l.take (k + 1)).map Prod.fst).sum) :
    (o = none → fieldAt (fieldsBytes l) off (1 + len) = 0)
    ∧ ∀ x, o = some x → fieldAt (fieldsBytes l) off 1 = 1 ∧ fieldAt (fieldsBytes l) (off + 1) len = x % 256 ^ len := by
  refine ⟨?_, ?_⟩
  · rintro rfl
    exact fieldAt_presence k hflag hvalue hoff rfl rfl
  · rintro x rfl
    exact ⟨fieldAt_fields_nil k hflag hoff, fieldAt_fields_nil (k + 1) hvalue hnext⟩

section
variable {c : Classification} {v r t : Nat}

theorem probeFields_length : (fieldsBytes (probeFields c v r t)).length = 19 := by
  rw [fieldsBytes_length]
  simp [probeFields]

/-- The fields of a probe response before the optional ones. -/
theorem fieldAt_probeFields (hfirst : c.first.1 < 256) (hsecond : ∀ w, c.second = some w → w.1 < 256) :
    fieldAt (fieldsBytes (probeFields c v r t)) 0 1 = c.hits.toNat
    ∧ fieldAt (fieldsBytes (probeFields c v r t)) 1 1 = c.first.1
    ∧ fieldAt (fieldsBytes (probeFields c v r t)) 2 1 = (match c.second with | some w => w.1 | none => 255)
    ∧ fieldAt (fieldsBytes (probeFields c v r t)) 3 1 = v % 256
    ∧ fieldAt (fieldsBytes (probeFields c v r t)) 4 1 = r % 256
    ∧ fieldAt (fieldsBytes (probeFields c v r t)) 5 2 = t % 65536
    ∧ fieldAt (fieldsBytes (probeFields c v r t)) 9 1 = (c.merged.coverage.getD 0).toNat
    ∧ fieldAt (fieldsBytes (probeFields c v r t)) 10 1 = (if c.merged.noFocus then 1 else 0)
    ∧ fieldAt (fieldsBytes (probeFields c v r t)) 18 1 = 0 := by
  have hhits : c.hits.toNat % 256 ^ 1 = c.hits.toNat := Nat.mod_eq_of_lt (Nat.lt_of_lt_of_le c.hits.isLt (by decide))
  have hsecond' : (match c.second with | some w => w.1 | none => 255) < 256 ^ 1 := by
    cases hc : c.second with
    | none => decide
    | some w => exact hsecond w hc
  have hcoverage : (c.merged.coverage.getD 0).toNat % 256 ^ 1 = (c.merged.coverage.getD 0).toNat :=
    Nat.mod_eq_of_lt (BitVec.isLt _)
  have hfocus : (flagByte c.merged.noFocus).toNat % 256 ^ 1 = if c.merged.noFocus then 1 else 0 := by
    cases c.merged.noFocus <;> rfl
  refine ⟨(fieldAt_fields_nil 0 rfl ?_).trans hhits, (fieldAt_fields_nil 1 rfl ?_).trans (Nat.mod_eq_of_lt hfirst),
    (fieldAt_fields_nil 2 rfl ?_).trans (Nat.mod_eq_of_lt hsecond'), fieldAt_fields_nil 3 rfl ?_, fieldAt_fields_nil 4 rfl ?_,
    fieldAt_fields_nil 5 rfl ?_, (fieldAt_fields_nil 8 rfl ?_).trans hcoverage, (fieldAt_fields_nil 9 rfl ?_).trans hfocus,
    (fieldAt_fields_nil 16 rfl ?_).trans (Nat.zero_mod _)⟩ <;> simp [probeFields]

end

/-- The winners of a classification are entries or default items. -/
theorem State.classify_items_lt (s : State) (r : ClassifyRequest) :
    (s.classify r).first.1 < 256 ∧ ∀ w, (s.classify r).second = some w → w.1 < 256 := by
  refine ⟨?_, fun w hw => ?_⟩
  · rw [(s.classify_first r).1]
    exact s.lookup_lt _ (by decide) _
  · unfold State.classify at hw
    dsimp only at hw
    split at hw
    · cases hw
    · cases hw
      exact s.lookup_lt _ (by decide) _

theorem exec_classifyProbe (p : PortId) (body : List Byte) (s : State) :
    exec (.classifyProbe p body) s = .next (takeCommand p [.intake, .supervisor] (fun u =>
      if probeWellFormed body then withRange (readProbe body) classifyProbe u else refuse .format u) s) := rfl

/-- A probe of the right form is answered with what its owner returns. -/
theorem takeCommand_probe {s : State} {p : PortId} {body b : List Byte} {st : Status} (h : s.serves p [.intake, .supervisor])
    (hform : probeWellFormed body = true) (ho : withRange (readProbe body) classifyProbe s = ⟨st, b, s⟩) :
    takeCommand p [.intake, .supervisor] (fun u =>
      if probeWellFormed body then withRange (readProbe body) classifyProbe u else refuse .format u) s = s.answers p st b := by
  rw [takeCommand_serves _ h, if_pos hform, ho]
  rfl

/-- Settles O18: the response by the layout of its fields. -/
theorem probeReportsTheClassification : Obligations.ProbeReportsTheClassification := by
  intro s p body hs hlow hlength hport
  have hform : probeWellFormed body = true := decide_eq_true ⟨hlow, hlength, hport⟩
  simp only [exec_classifyProbe]
  refine ⟨fun h => congrArg _ (takeCommand_probe hs hform (by rw [readProbe_none h]; rfl)), fun hbilled hcls hpriority => ?_⟩
  obtain ⟨cls, hclass⟩ := exists_classCode hcls
  have hread := readProbe_of (port := ⟨_, Nat.lt_succ_of_le hport⟩) (billed := ⟨_, Nat.lt_succ_of_le hbilled⟩)
    (priority := ⟨_, Nat.lt_succ_of_le hpriority⟩) rfl rfl hclass rfl
  refine ⟨⟨⟨_, Nat.lt_succ_of_le hport⟩, ⟨_, Nat.lt_succ_of_le hbilled⟩, cls, ⟨_, Nat.lt_succ_of_le hpriority⟩,
    fieldAt body 5 1, body.drop 7⟩, ⟨rfl, rfl, hclass.trans (classCode_toNat cls), rfl, rfl, rfl⟩, ?_⟩
  cases he : s.entry ⟨_, Nat.lt_succ_of_le hbilled⟩ with
  | none => exact congrArg _ (takeCommand_probe hs hform (by rw [hread, withRange_some]; simp only [classifyProbe, he]; rfl))
  | some e =>
    refine ⟨_, _, rfl, congrArg _ (takeCommand_probe hs hform
      (by rw [hread, withRange_some]; simp only [classifyProbe, he]; rfl)), ?_⟩
    generalize hc : s.classify _ = c
    obtain ⟨hfirst, hsecond⟩ : c.first.1 < 256 ∧ ∀ w, c.second = some w → w.1 < 256 := hc ▸ s.classify_items_lt _
    obtain ⟨v, r, t, hhead, hdisposition⟩ := mergedHeadBytes_fields c
    rw [probeBytes_eq hhead]
    obtain ⟨h0, h1, h2, h3, h4, h5, h9, h10, h18⟩ := fieldAt_probeFields (v := v) (r := r) (t := t) hfirst hsecond
    have hpriority := fieldAt_optional (l := probeFields c v r t) (off := 7) 6 rfl rfl (by simp [probeFields]) (by simp [probeFields])
    have hlife := fieldAt_optional (l := probeFields c v r t) (off := 11) 10 rfl rfl (by simp [probeFields]) (by simp [probeFields])
    have hretries := fieldAt_optional (l := probeFields c v r t) (off := 14) 12 rfl rfl (by simp [probeFields]) (by simp [probeFields])
    have hplan := fieldAt_optional (l := probeFields c v r t) (off := 16) 14 rfl rfl (by simp [probeFields]) (by simp [probeFields])
    refine ⟨probeFields_length, h0, h1, h2, ?_, ?_, h9, h10, ?_, ?_, ?_, h18⟩
    · rw [h3, h4, h5]
      cases hd : c.merged.disposition with
      | pass => rw [hd] at hdisposition; exact congrArg (· % 256) hdisposition
      | refuse reason =>
        rw [hd] at hdisposition
        obtain ⟨rfl, rfl⟩ := hdisposition
        exact ⟨rfl, Nat.mod_eq_of_lt (Nat.lt_of_lt_of_le reason.isLt (by decide))⟩
      | forward x =>
        rw [hd] at hdisposition
        obtain ⟨rfl, rfl⟩ := hdisposition
        exact ⟨rfl, Nat.mod_eq_of_lt (Nat.lt_of_lt_of_le x.isLt (by decide))⟩
    · cases hx : c.merged.priority with
      | none => exact hpriority.1 (by rw [hx]; rfl)
      | some x =>
        obtain ⟨hflag, hvalue⟩ := hpriority.2 x.val (by rw [hx]; rfl)
        exact ⟨hflag, hvalue.trans (Nat.mod_eq_of_lt (Nat.lt_of_lt_of_le x.isLt (by decide)))⟩
    · cases hx : c.merged.life with
      | none => exact hlife.1 hx
      | some x => exact hlife.2 x hx
    · cases hx : c.merged.retries with
      | none => exact hretries.1 hx
      | some x => exact hretries.2 x hx
    · cases hx : c.merged.plan with
      | none => exact hplan.1 (by rw [hx]; rfl)
      | some x =>
        obtain ⟨hflag, hvalue⟩ := hplan.2 x.val (by rw [hx]; rfl)
        exact ⟨hflag, hvalue.trans (Nat.mod_eq_of_lt (Nat.lt_of_lt_of_le x.isLt (by decide)))⟩

end Sys2Proof.Machine
end

/-! ## Admission: the checks of a SUBMIT and its acceptance (Table 4-1, R59 to R74) -/

section
namespace Sys2Proof.Machine

/-! ### The lowest FREE slot (R72) -/

section
variable {t : Tbl SlotId Message} {slot : SlotId}

theorem lowestFree_first (hfree : tblGet slot t = none) (fuel i : Nat) (hlow : i ≤ slot.val) (hfuel : slot.val < i + fuel)
    (hbefore : ∀ j : SlotId, i ≤ j.val → j < slot → tblGet j t ≠ none) : lowestFree t fuel i = some slot := by
  induction fuel generalizing i with
  | zero => omega
  | succ fuel ih =>
    have hi : i < 512 := Nat.lt_of_le_of_lt hlow slot.isLt
    rw [lowestFree, dif_pos hi]
    by_cases heq : i = slot.val
    · subst heq
      rw [hfree]
    · have hlt : (⟨i, hi⟩ : SlotId) < slot := by
        rw [Fin.lt_def]
        dsimp only
        omega
      cases hget : tblGet (⟨i, hi⟩ : SlotId) t with
      | none => exact absurd hget (hbefore _ le_rfl hlt)
      | some m => exact ih (i + 1) (by omega) (by omega) fun j hj => hbefore j (by omega)

end

section
variable {s : State}

theorem State.freeSlot_of {slot : SlotId} (hfree : s.message slot = none) (hbefore : ∀ j, j < slot → s.message j ≠ none) :
    s.freeSlot = some slot :=
  lowestFree_first hfree 512 0 (Nat.zero_le _) (by have := slot.isLt; omega) fun j _ hj => hbefore j hj

/-- R68: the store is full when no slot is FREE. -/
theorem State.freeSlot_none : s.freeSlot = none ↔ ∀ slot : SlotId, s.message slot ≠ none := by
  refine ⟨fun h slot hslot => ?_, fun h => ?_⟩
  · obtain ⟨first, hfirst, hleast⟩ := exists_minimal_of_wellFoundedLT (fun j : SlotId => s.message j = none) ⟨slot, hslot⟩
    rw [State.freeSlot_of hfirst fun j hj hj' => absurd (hleast hj' hj.le) (not_le.mpr hj)] at h
    cases h
  · cases hfree : s.freeSlot with
    | none => rfl
    | some slot => exact absurd (lowestFree_free hfree) (h slot)

theorem State.journalFull_iff : s.journalFull = true ↔ 1024 - s.journal.records.length < s.openMessages + 1 := decide_eq_true_iff

theorem State.congestedFor_iff {a : Admission} : s.congestedFor a = true
    ↔ ∃ z : ZoneId, zoneIn z (a.coverage &&& s.upZones) = true ∧ (s.zone z).congested = true := by
  simp [State.congestedFor, List.any_eq_true, mem_allZones]

theorem Admission.override_iff {a : Admission} : a.override = true ↔ a.priority = 3 ∧ a.plan.emergencyOverride = true := by
  simp [Admission.override]

/-! ### Checks 6 to 11 of Table 4-1 -/

/-- The refusals in their order, on conditions of the state alone. -/
theorem State.admissionRefusal_eq (s : State) (a : Admission) : s.admissionRefusal a =
    if a.billed.state = .barred then some .barred
    else if a.billed.state ≠ .active ∧ ¬ (a.priority = 3 ∧ a.plan.emergencyOverride = true) then some .suspended
    else if a.billed.outstandingLimit ≤ a.billed.openCount then some .outstanding
    else if ∀ slot : SlotId, s.message slot ≠ none then some .storeFull
    else if 1024 - s.journal.records.length < s.openMessages + 1 then some .journalFull
    else if a.priority = 0 ∧ ∃ z : ZoneId, zoneIn z (a.coverage &&& s.upZones) = true ∧ (s.zone z).congested = true then
      some .congested
    else if ¬ (a.priority = 3 ∧ a.plan.emergencyOverride = true) ∧ 0 < a.hold
        ∧ a.billed.balance + a.billed.creditLimit - a.billed.held < a.hold then some .credit
    else none := by
  unfold State.admissionRefusal
  simp only [State.freeSlot_none, State.journalFull_iff, State.congestedFor_iff, ← Bool.not_eq_true, Admission.override_iff,
    Entry.available]

theorem State.admissionRefusal_ne (s : State) (a : Admission) :
    s.admissionRefusal a ≠ some .accepted ∧ s.admissionRefusal a ≠ some .classified := by
  rw [State.admissionRefusal_eq]
  split_ifs <;> simp

theorem decideAdmission_refused {p : PortId} {a : Admission} {st : Status} (h : s.admissionRefusal a = some st) :
    decideAdmission p a s = refuse st s := by
  unfold decideAdmission
  rw [h]

theorem decideAdmission_accepted {p : PortId} {a : Admission} {slot : SlotId} (h : s.admissionRefusal a = none)
    (hslot : s.freeSlot = some slot) : decideAdmission p a s
      = ⟨.accepted, acceptedBytes slot (s.epoch slot) (a.message p), s.admitted a p slot⟩ := by
  unfold decideAdmission
  rw [h, hslot]

end

/-! ### What an admission uses (R22, R23, R30, R66, R69, R70, R139) -/

section
variable {s : State} {address : PagerAddress} {age : Nat} {noFocus : Bool}

theorem State.focusZone_eq_some {z : ZoneId} :
    s.focusZone address age noFocus = some z ↔ s.focuses address age noFocus z := by
  unfold State.focusZone State.focuses
  constructor
  · intro h
    split at h
    · cases h
    · next e he =>
      obtain ⟨i, hi, he⟩ := Option.bind_eq_some_iff.mp he
      split at h
      · cases h
      · next l hl =>
        split at h
        · next hfocus =>
          cases h
          obtain ⟨htime, hage, hne, hfree, hup⟩ := hfocus
          exact ⟨hne, hfree, hup, i, e, l, hi, he, hl, rfl, htime, hage⟩
        · cases h
  · rintro ⟨hne, hfree, hup, i, e, l, hi, he, hl, rfl, htime, hage⟩
    rw [hi, Option.bind_some, he]
    simp only [hl]
    rw [if_pos ⟨htime, hage, hne, hfree, hup⟩]

theorem State.firstCoverage_unfocused {kind : PagerKind} {home : ZoneSet}
    (h : kind = .oneWay ∨ ∀ z, ¬ s.focuses address age noFocus z) : s.firstCoverage kind address age noFocus home = home := by
  unfold State.firstCoverage
  cases kind with
  | oneWay => rfl
  | twoWay =>
    cases hz : s.focusZone address age noFocus with
    | none => rfl
    | some z =>
      rcases h with h | h
      · cases h
      · exact absurd (State.focusZone_eq_some.mp hz) (h z)

theorem State.firstCoverage_focused {home : ZoneSet} {z : ZoneId} (h : s.focuses address age noFocus z) :
    s.firstCoverage .twoWay address age noFocus home = zoneSingle z := by
  unfold State.firstCoverage
  rw [State.focusZone_eq_some.mpr h]

end

theorem State.follows_deriveAdmission (s : State) (req : SubmitReq) (billed : Entry) (content : Content) (merged : Merged)
    (delivery : AccountIndex) (target : Entry) (forwarded : Bool) :
    (s.deriveAdmission req billed content merged delivery target forwarded).follows s where
  priority := rfl
  plan := rfl
  home := rfl
  reach := rfl
  words := rfl
  tariff := rfl
  hold := rfl
  override := Admission.override_iff
  focused z hkind hfocus := by
    have hkind : target.kind = .twoWay := hkind
    show s.firstCoverage target.kind _ _ _ _ = _
    rw [hkind]
    exact State.firstCoverage_focused hfocus
  unfocused h := State.firstCoverage_unfocused h

/-! ### The body and the first five checks -/

section
variable {s : State} {p : PortId} {body : List Byte} {req : SubmitReq}

theorem submitWellFormed_iff : submitWellFormed body = true ↔ bodyFormOf 0x30 body := by
  unfold submitWellFormed bodyFormOf
  rw [if_pos rfl, decide_eq_true_eq]

theorem readSubmit_of {billed : AccountIndex} {cls : MsgClass} {priority : Priority} (hbilled : fieldAt body 0 2 = billed.val)
    (hcls : fieldAt body 2 1 = (classCode cls).toNat) (hpriority : fieldAt body 3 1 = priority.val) :
    readSubmit body = some ⟨billed, cls, priority, fieldAt body 4 2, fieldAt body 6 1, body.drop 8⟩ := by
  unfold readSubmit
  rw [readIndex_of hbilled, classOfCode_eq_some.mpr hcls, finBelow_of hpriority]
  rfl

theorem readSubmit_none (h : 8191 < fieldAt body 0 2 ∨ 2 < fieldAt body 2 1 ∨ 3 < fieldAt body 3 1) :
    readSubmit body = none := by
  unfold readSubmit
  rcases h with h | h | h
  · rw [readIndex_none h]; rfl
  · rw [classOfCode_none h]
    cases readIndex body <;> rfl
  · rw [finBelow_none (n := 4) h]
    cases readIndex body with
    | none => rfl
    | some billed => cases classOfCode (fieldAt body 2 1) <;> rfl

theorem exec_submit (p : PortId) (body : List Byte) (s : State) :
    exec (.submit p body) s = .next (takeCommand p [.intake, .supervisor] (fun u =>
      if submitWellFormed body then withRange (readSubmit body) (submit p) u else refuse .format u) s) := rfl

/-- A SUBMIT of the right form is answered with what its owner returns. -/
theorem exec_submit_answers {t : State} {st : Status} {b : List Byte} (h : s.serves p [.intake, .supervisor])
    (hform : bodyFormOf 0x30 body) (hread : readSubmit body = some req) (ho : submit p req s = ⟨st, b, t⟩)
    (hg : (t.port p).gap = (s.port p).gap) : exec (.submit p body) s = .next (t.answers p st b) := by
  rw [exec_submit, takeCommand_serves _ h, if_pos (submitWellFormed_iff.mpr hform), hread, withRange_some, ho]
  exact congrArg _ (State.respond_answers hg st b)

theorem submit_unbilled (h : s.entry req.billed = none) : submit p req s = refuse .noSubscriber s := by
  simp only [submit, h]

section
variable {billed : Entry} {merged : Merged}

theorem submit_classified (h : s.entry req.billed = some billed) {reason : BitVec 4}
    (hmerged : merged = (s.classify ⟨p, req.line, req.cls, req.priority, billed, (normalise req.cls req.text).text⟩).merged)
    (hrefuse : merged.disposition = .refuse reason) : submit p req s = ⟨.classified, [BitVec.ofNat 8 reason.toNat], s⟩ := by
  simp only [submit, h, ← hmerged, hrefuse]
  simp [bytesOf]

theorem submit_forwardInvalid (h : s.entry req.billed = some billed) {i : AccountIndex}
    (hmerged : merged = (s.classify ⟨p, req.line, req.cls, req.priority, billed, (normalise req.cls req.text).text⟩).merged)
    (hforward : merged.disposition = .forward i) (hinvalid : ∀ e, s.entry i = some e → e.state = .barred) :
    submit p req s = refuse .forwardInvalid s := by
  simp only [submit, h, ← hmerged, hforward]
  cases he : s.entry i with
  | none => rfl
  | some e => exact if_pos (hinvalid e he)

/-- A SUBMIT that passes its classification is decided by checks 6 to 11. -/
theorem submit_decides (h : s.entry req.billed = some billed) {delivery : AccountIndex} {target : Entry} {forwarded : Bool}
    (hmerged : merged = (s.classify ⟨p, req.line, req.cls, req.priority, billed, (normalise req.cls req.text).text⟩).merged)
    (hpass : merged.disposition = .pass ∧ delivery = req.billed ∧ target = billed ∧ forwarded = false
      ∨ merged.disposition = .forward delivery ∧ s.entry delivery = some target ∧ target.state ≠ .barred ∧ forwarded = true) :
    submit p req s = decideAdmission p
      (s.deriveAdmission req billed (normalise req.cls req.text) merged delivery target forwarded) s := by
  rcases hpass with ⟨hpass, rfl, rfl, rfl⟩ | ⟨hforward, htarget, hopen, rfl⟩
  · simp only [submit, h, ← hmerged, hpass]
  · simp only [submit, h, ← hmerged, hforward, htarget, if_neg hopen]

end

/-! ### A refusal changes nothing but the answering port -/

/-- A reply that is ACCEPTED, or a refusal that leaves the state alone, with a body only for CLASSIFIED. -/
def Reply.refusesOnly (s : State) (r : Reply) : Prop :=
  r.status ≠ .accepted → r.state = s ∧ (r.status ≠ .classified → r.body = []) ∧ (r.status = .classified → r.body.length = 1)

theorem Reply.refusesOnly_refuse {st : Status} (h : st ≠ .classified) (s : State) : (refuse st s).refusesOnly s :=
  fun _ => ⟨rfl, fun _ => rfl, fun hst => absurd hst h⟩

theorem decideAdmission_refusesOnly (p : PortId) (a : Admission) (s : State) : (decideAdmission p a s).refusesOnly s := by
  unfold decideAdmission
  cases h : s.admissionRefusal a with
  | some st => exact Reply.refusesOnly_refuse (fun hst => (s.admissionRefusal_ne a).2 (hst ▸ h)) s
  | none =>
    cases s.freeSlot with
    | none => exact Reply.refusesOnly_refuse (by decide) s
    | some slot => exact fun hst => absurd rfl hst

theorem submit_refusesOnly (p : PortId) (req : SubmitReq) (s : State) : (submit p req s).refusesOnly s := by
  unfold submit
  split
  · exact Reply.refusesOnly_refuse (by decide) s
  · dsimp only
    split
    · exact fun _ => ⟨rfl, fun hst => absurd rfl hst, fun _ => bytesOf_length ..⟩
    · exact decideAdmission_refusesOnly _ _ _
    · split
      · exact Reply.refusesOnly_refuse (by decide) s
      · split
        · exact Reply.refusesOnly_refuse (by decide) s
        · exact decideAdmission_refusesOnly _ _ _

end

/-- What a SUBMIT is answered when checks 6 to 11 refuse it. -/
def State.refusedWith (s : State) (p : PortId) (body : List Byte) (a : Admission) : Option Status → Prop
  | some st => exec (.submit p body) s = .next (s.answers p st [])
  | none => s.admissionRefusal a = none

/-- The answer of the first check that fails, check by check. -/
theorem State.refusedWith_checks {s : State} {p : PortId} {body : List Byte} {a : Admission}
    (h : s.refusedWith p body a (s.admissionRefusal a)) :
    if a.billed.state = .barred then s.refusedWith p body a (some .barred)
    else if a.billed.state ≠ .active ∧ ¬ (a.priority = 3 ∧ a.plan.emergencyOverride = true) then
      s.refusedWith p body a (some .suspended)
    else if a.billed.outstandingLimit ≤ a.billed.openCount then s.refusedWith p body a (some .outstanding)
    else if ∀ slot : SlotId, s.message slot ≠ none then s.refusedWith p body a (some .storeFull)
    else if 1024 - s.journal.records.length < s.openMessages + 1 then s.refusedWith p body a (some .journalFull)
    else if a.priority = 0 ∧ ∃ z : ZoneId, zoneIn z (a.coverage &&& s.upZones) = true ∧ (s.zone z).congested = true then
      s.refusedWith p body a (some .congested)
    else if ¬ (a.priority = 3 ∧ a.plan.emergencyOverride = true) ∧ 0 < a.hold
        ∧ a.billed.balance + a.billed.creditLimit - a.billed.held < a.hold then s.refusedWith p body a (some .credit)
    else s.refusedWith p body a none := by
  rw [s.admissionRefusal_eq] at h
  simpa only [apply_ite (s.refusedWith p body a)] using h

/-- Settles O19: the checks in the order of the definition, each on the state alone. -/
theorem refusedSubmitChangesNothing : Obligations.RefusedSubmitChangesNothing := by
  intro s p body hs
  refine ⟨?outcome, ?format, ?range, ?reads⟩
  case outcome =>
    rw [exec_submit, takeCommand_serves _ hs]
    generalize hr : (if submitWellFormed body then withRange (readSubmit body) (submit p) s else refuse .format s) = r
    have honly : r.refusesOnly s := by
      rw [← hr]
      split
      · cases readSubmit body with
        | none => exact Reply.refusesOnly_refuse (by decide) s
        | some req => exact submit_refusesOnly p req s
      · exact Reply.refusesOnly_refuse (by decide) s
    refine ⟨r.status, r.body, _, rfl, State.answer_respond .., fun hst => ?_⟩
    obtain ⟨hstate, hbody⟩ := honly hst
    rw [hstate]
    exact ⟨rfl, hbody⟩
  case format =>
    intro hform
    rw [exec_submit, takeCommand_serves _ hs, if_neg (mt submitWellFormed_iff.mp hform)]
    rfl
  case range =>
    intro hform h
    rw [exec_submit, takeCommand_serves _ hs, if_pos (submitWellFormed_iff.mpr hform), readSubmit_none h]
    rfl
  case reads =>
    intro hform hbilled hcls hpriority
    obtain ⟨cls, hclass⟩ := exists_classCode hcls
    have hread := readSubmit_of (billed := ⟨_, Nat.lt_succ_of_le hbilled⟩) (priority := ⟨_, Nat.lt_succ_of_le hpriority⟩)
      rfl hclass rfl
    refine ⟨_, hread, ⟨rfl, hclass.trans (classCode_toNat cls), rfl, rfl, rfl, rfl⟩, fun h => ?_, ?_⟩
    · exact exec_submit_answers hs hform hread (submit_unbilled h) rfl
    · rintro billed _ merged he rfl hmerged
      refine ⟨fun reason h => ?_, fun i hforward h => ?_, ?_⟩
      · exact exec_submit_answers hs hform hread (submit_classified he hmerged h) rfl
      · exact exec_submit_answers hs hform hread (submit_forwardInvalid he hmerged hforward h) rfl
      · rintro delivery target forwarded a hpass ha
        have hdecides := submit_decides he hmerged hpass
        rw [← ha] at hdecides
        refine ⟨ha ▸ State.follows_deriveAdmission .., ?_⟩
        have hbilled : a.billed = billed := by rw [ha]; rfl
        have hanswer : s.refusedWith p body a (s.admissionRefusal a) := by
          cases hrefusal : s.admissionRefusal a with
          | none => exact hrefusal
          | some st => exact exec_submit_answers hs hform hread (hdecides.trans (decideAdmission_refused hrefusal)) rfl
        have hchecks := State.refusedWith_checks hanswer
        rw [hbilled] at hchecks
        exact hchecks

end Sys2Proof.Machine
end

/-! ## Acceptance of a SUBMIT (R72 to R74, Table 4-3) -/

section
namespace Sys2Proof.Machine

section
variable {s : State} {a : Admission} {p : PortId} {slot : SlotId}

theorem State.pages.gap {s t : State} (h : s.pages t) (p : PortId) : (t.port p).gap = (s.port p).gap := by
  have hline := congrArg Port.gap (h.line p)
  exact hline

/-- The slot written and the hold placed, before attempt 0 is placed. -/
def State.booked (s : State) (a : Admission) (p : PortId) (slot : SlotId) : State :=
  (s.setMessage slot (a.message p)).setEntry a.req.billed
    { a.billed with held := a.billed.held + a.hold, openCount := a.billed.openCount + 1 }

theorem State.admitted_eq : s.admitted a p slot = ((s.booked a p slot).begin.place slot).finish := rfl

theorem State.openMessage_booked : (s.booked a p slot).openMessage slot = some (a.message p) :=
  State.openMessage_of (State.message_setMessage_self ..) rfl

/-- Everything that an acceptance does to the slot, the other messages, the accounts and the zones. -/
theorem State.message_admitted : (s.admitted a p slot).message slot
    = some { a.message p with attempts := [⟨0, a.coverage, a.coverage &&& s.upZones, 0, none⟩] } := by
  rw [State.admitted_eq, Work.message_finish,
    (Work.placed_place (w := (s.booked a p slot).begin) State.openMessage_booked rfl).message]
  rfl

theorem State.message_admitted_ne {j : SlotId} (hj : j ≠ slot) : (s.admitted a p slot).message j = s.message j := by
  rw [State.admitted_eq, Work.message_finish,
    (Work.placed_place (w := (s.booked a p slot).begin) State.openMessage_booked rfl).others j hj]
  exact State.message_setMessage_ne s _ hj

theorem State.entry_admitted (j : AccountIndex) : (s.admitted a p slot).entry j
    = if j = a.req.billed then some { a.billed with held := a.billed.held + a.hold, openCount := a.billed.openCount + 1 }
      else s.entry j := by
  rw [State.admitted_eq, Work.entry_finish,
    (Work.placed_place (w := (s.booked a p slot).begin) State.openMessage_booked rfl).rest]
  exact State.entry_setEntry _ _ _ _

theorem State.admitted_rest : s.admitted a p slot = { s with
    ports := (s.admitted a p slot).ports, directory := (s.admitted a p slot).directory
    messages := (s.admitted a p slot).messages, stalls := (s.admitted a p slot).stalls
    zones := (s.admitted a p slot).zones, links := (s.admitted a p slot).links } := by
  have hfinish := Work.finish_rest ((s.booked a p slot).begin.place slot)
  have hplace := (Work.placed_place (w := (s.booked a p slot).begin) State.openMessage_booked rfl).rest
  rw [State.admitted_eq]
  generalize (s.booked a p slot).begin.place slot = w at hfinish hplace ⊢
  generalize w.finish = t at hfinish ⊢
  rw [hfinish, hplace]
  rfl

theorem State.places_admitted : s.places (s.admitted a p slot) slot 0 a.words a.priority a.coverage := by
  obtain ⟨hstalls, helsewhere, hjoins, hholds, hflags, hrecords⟩ :=
    State.places_finish (s := s.booked a p slot) (slot := slot) State.openMessage_booked rfl
  exact ⟨hstalls, helsewhere, hjoins, hholds, hflags, hrecords⟩

theorem State.gap_admitted : ((s.admitted a p slot).port p).gap = (s.port p).gap :=
  ((Work.pages_place slot (s.booked a p slot).begin).trans (Work.pages_finish _)).gap p

end

/-- Settles O20: the owner of a SUBMIT that passes every check, and what its acceptance does. -/
theorem acceptedSubmitTakesTheSlot : Obligations.AcceptedSubmitTakesTheSlot := by
  intro s p body req billed target content merged delivery forwarded a slot hs hform hread he hcontent hmerged hpass ha hrefusal
    hfree hbefore
  subst hcontent
  have hdecides := submit_decides he hmerged hpass
  rw [← ha, decideAdmission_accepted hrefusal (State.freeSlot_of hfree hbefore)] at hdecides
  have hexec := exec_submit_answers hs hform hread hdecides State.gap_admitted
  have hreq : a.req = req := by rw [ha]; rfl
  have hbilled : a.billed = billed := by rw [ha]; rfl
  refine ⟨ha ▸ State.follows_deriveAdmission .., _, _, s.admitted a p slot, hexec, State.message_admitted, ?_, fun j hj => ?_, ?_,
    fun j hj => ?_, ?_, State.places_admitted, ?_⟩
  · rw [ha]
    rfl
  · exact State.message_admitted_ne hj
  · exact (State.entry_admitted _).trans (by rw [if_pos (congrArg _ hreq.symm), hbilled])
  · exact (State.entry_admitted _).trans (by rw [if_neg (hreq ▸ hj)])
  · simp only [acceptedBytes, messageIdBytes, List.append_assoc]
    rfl
  · have hrest := State.admitted_rest (s := s) (a := a) (p := p) (slot := slot)
    rw [hrest]
    rfl

end Sys2Proof.Machine
end

/-! ## CANCEL and LIFE_EXPIRY (R81 to R85) -/

section
namespace Sys2Proof.Machine

/-! ### CANCEL -/

section
variable {s : State} {p : PortId} {slot : SlotId} {e : Epoch} {m : Message} {body : List Byte}

theorem exec_cancel (p : PortId) (body : List Byte) (s : State) :
    exec (.cancel p body) s
      = .next (takeCommand p anyRole (withLength 3 body (withRange (readMessageId body) (cancel p))) s) := rfl

theorem State.liveMessage_dead (h : s.epoch slot ≠ e ∨ s.message slot = none) : s.liveMessage (slot, e) = none := by
  unfold State.liveMessage
  split
  · next he => exact h.resolve_left fun hne => hne he
  · rfl

theorem State.liveMessage_of (he : s.epoch slot = e) (hm : s.message slot = some m) : s.liveMessage (slot, e) = some m := by
  simp only [State.liveMessage, he, hm, if_true]

theorem cancel_dead (h : s.liveMessage (slot, e) = none) : cancel p (slot, e) s = refuse .noMessage s := by
  simp only [cancel, h]

theorem cancel_foreign (h : s.liveMessage (slot, e) = some m) (hrole : p ≠ m.port ∧ (s.port p).role ≠ .supervisor) :
    cancel p (slot, e) s = refuse .role s := by
  simp only [cancel, h]
  rw [if_pos ⟨hrole.1.symm, hrole.2⟩]

theorem cancel_closed {c : Closing} (h : s.liveMessage (slot, e) = some m) (hrole : ¬ (p ≠ m.port ∧ (s.port p).role ≠ .supervisor))
    (hc : m.closing = some c) :
    cancel p (slot, e) s = ⟨.alreadyClosed, messageIdBytes slot e ++ [outcomeCode c.outcome], s⟩ := by
  simp only [cancel, h, hc]
  rw [if_neg fun hforeign => hrole ⟨hforeign.1.symm, hforeign.2⟩]

theorem cancel_open (h : s.liveMessage (slot, e) = some m) (hrole : ¬ (p ≠ m.port ∧ (s.port p).role ≠ .supervisor))
    (hc : m.closing = none) :
    cancel p (slot, e) s = ⟨.ok, messageIdBytes slot e ++ [outcomeCode .cancelled] ++ bytesOf 3 m.hold
      ++ bytesOf 3 (m.settlementAmount .cancelled 0), s.closeMessage slot .cancelled 0⟩ := by
  simp only [cancel, h, hc]
  rw [if_neg fun hforeign => hrole ⟨hforeign.1.symm, hforeign.2⟩]

theorem State.gap_closeMessage (slot : SlotId) (o : MsgOutcome) (k : Nat) (s : State) (p : PortId) :
    ((s.closeMessage slot o k).port p).gap = (s.port p).gap := (State.pages_closeMessage slot o k s).gap p

end

/-- Settles O21: each check of R85, and the closing event through `State.closes_closeMessage`. -/
theorem cancelClosesTheMessage : Obligations.CancelClosesTheMessage := by
  intro s p body hs hb
  simp only [exec_cancel]
  refine ⟨fun h => congrArg _ (takeCommand_range _ hs hb (readMessageId_none h)), fun slot e hslot hepoch => ?_⟩
  have hread := readMessageId_of hslot hepoch
  have hid := messageIdBytes_of hb hslot hepoch
  refine ⟨fun hdead => ?_, fun m he hm => ?_⟩
  · exact congrArg _ (takeCommand_refused hs hb hread (cancel_dead (State.liveMessage_dead hdead)))
  · have hlive := State.liveMessage_of he hm
    split
    · next hrole => exact congrArg _ (takeCommand_refused hs hb hread (cancel_foreign hlive hrole))
    · next hrole =>
      cases hc : m.closing with
      | some c =>
        have hreply := cancel_closed hlive hrole hc
        rw [hid] at hreply
        exact congrArg _ (takeCommand_answers hs hb hread hreply rfl)
      | none =>
        have hreply := cancel_open hlive hrole hc
        rw [hid] at hreply
        exact ⟨_, State.closes_closeMessage .cancelled 0 hm hc,
          congrArg _ (takeCommand_answers hs hb hread hreply (State.gap_closeMessage ..))⟩

/-! ### LIFE_EXPIRY -/

section
variable {s : State} {slot : SlotId} {m : Message}

theorem exec_lifeExpiry (slot : SlotId) (s : State) : exec (.lifeExpiry slot) s
    = .next (if s.phase = .working ∧ s.dueLife = some slot then s.expireLife slot else s) := rfl

theorem Message.lastSecond_iff {m : Message} : m.lastSecond = true ↔ m.closing = none ∧ m.life ≤ 1 := by
  simp [Message.lastSecond, Message.isOpen]

theorem State.mem_lastSeconds (h : s.canonical) :
    slot ∈ s.lastSeconds ↔ ∃ m, s.message slot = some m ∧ m.closing = none ∧ m.life ≤ 1 := by
  unfold State.lastSeconds
  constructor
  · intro hmem
    obtain ⟨⟨j, m⟩, hpair, rfl⟩ := List.mem_map.mp hmem
    obtain ⟨hin, hlast⟩ := List.mem_filter.mp hpair
    exact ⟨m, (mem_iff_tblGet h.messages j m).mp hin, Message.lastSecond_iff.mp hlast⟩
  · rintro ⟨m, hm, hlast⟩
    exact List.mem_map.mpr ⟨(slot, m),
      List.mem_filter.mpr ⟨(mem_iff_tblGet h.messages slot m).mpr hm, Message.lastSecond_iff.mpr hlast⟩, rfl⟩

/-- R81: the expiries come in ascending slot order. -/
theorem State.lastSeconds_ascending (h : s.canonical) : s.lastSeconds.Pairwise (· < ·) := by
  unfold State.lastSeconds
  rw [List.pairwise_map]
  exact List.Pairwise.sublist List.filter_sublist h.messages

/-- The first of an ascending list is the least of its members. -/
theorem head?_eq_some_of_ascending {l : List SlotId} (h : l.Pairwise (· < ·)) :
    l.head? = some slot ↔ slot ∈ l ∧ ∀ j, j < slot → j ∉ l := by
  cases l with
  | nil => simp
  | cons a rest =>
    obtain ⟨hfirst, -⟩ := List.pairwise_cons.mp h
    simp only [List.head?_cons, Option.some.injEq, List.mem_cons, not_or]
    constructor
    · rintro rfl
      exact ⟨.inl rfl, fun j hj => ⟨hj.ne, fun hmem => lt_asymm hj (hfirst j hmem)⟩⟩
    · rintro ⟨rfl | hmem, hleast⟩
      · rfl
      · exact absurd rfl (hleast a (hfirst slot hmem)).1

/-- R82: the outcome of an expired life. -/
theorem Message.lifeOutcome_eq (m : Message) : m.lifeOutcome
    = if m.kind = .oneWay ∧ ∃ a ∈ m.attempts, a.number = 0 ∧ a.transmitted.isSome then .sent else .expired := by
  cases hk : m.kind <;> simp [Message.lifeOutcome, hk]

/-- R81 to R83: an expiry sets the life to 0 and closes the message. -/
theorem State.closes_expireLife (hm : s.message slot = some m) (ho : m.closing = none) :
    (s.setMessage slot { m with life := 0 }).closes (s.expireLife slot) slot { m with life := 0 } m.lifeOutcome 0 := by
  have hexpire : s.expireLife slot = (s.setMessage slot { m with life := 0 }).closeMessage slot m.lifeOutcome 0 := by
    simp only [State.expireLife, State.openMessage_of hm ho]
  rw [hexpire]
  exact State.closes_closeMessage _ _ (State.message_setMessage_self ..) ho

end

/-- Settles O22: the slot due is the least of the slots in their last second, and its expiry is a closing event. -/
theorem lifeExpiryClosesTheMessage : Obligations.LifeExpiryClosesTheMessage := by
  intro s slot
  simp only [exec_lifeExpiry]
  refine ⟨fun hcanonical => ?_, fun hnot => ?_, fun m u hworking hdue hm ho hu => ?_⟩
  · unfold State.dueLife
    by_cases hten : 10 ≤ s.secondDivider
    · rw [if_pos hten, head?_eq_some_of_ascending (State.lastSeconds_ascending hcanonical)]
      simp only [State.mem_lastSeconds hcanonical, hten, true_and, not_exists, not_and, not_le]
      refine and_congr_right fun _ => ?_
      exact ⟨fun h j m hj hm ho => h j hj m hm ho, fun h j hj m hm ho => h j m hj hm ho⟩
    · simp [hten]
  · rw [if_neg fun h => hnot.elim (fun hp => hp h.1) fun hd => hd h.2]
  · subst hu
    rw [if_pos ⟨hworking, hdue⟩]
    exact ⟨_, rfl, Message.lifeOutcome_eq m ▸ State.closes_expireLife hm ho⟩

end Sys2Proof.Machine
end

/-! ## FETCH_OUTCOMES, QUERY_MESSAGE and RETRY_STATUS (R80, R89 to R91, R142) -/

section
namespace Sys2Proof.Machine

/-! ### Fields and records -/

/-- A number that fits its field is read back. -/
theorem fieldAt_fields_lt {l : List (Nat × Nat)} {off len v : Nat} (k : Nat) (h : l[k]? = some (len, v))
    (hoff : off = ((l.take k).map Prod.fst).sum) (hv : v < 256 ^ len) : fieldAt (fieldsBytes l) off len = v :=
  (fieldAt_fields_nil k h hoff).trans (Nat.mod_eq_of_lt hv)

/-- A field of the record at a place of a list whose members have records of one length. -/
theorem fieldAt_flatMap_mem {α : Type} {f : α → List Byte} {n : Nat} {l : List α} (hf : ∀ a ∈ l, (f a).length = n) {i : Nat} {a : α}
    (h : l[i]? = some a) (off : Nat) {len : Nat} (hoff : off + len ≤ n) :
    fieldAt (l.flatMap f) (n * i + off) len = fieldAt (f a) off len := by
  have hmem : a ∈ l := List.mem_of_getElem? h
  have hattach : l.attach[i]? = some ⟨a, hmem⟩ := by
    obtain ⟨hi, rfl⟩ := List.getElem?_eq_some_iff.mp h
    rw [List.getElem?_eq_getElem (by simpa using hi)]
    simp
  have hl : l.flatMap f = l.attach.flatMap fun x => f x.1 := by
    conv_lhs => rw [← List.attach_map_subtype_val l, List.flatMap_map]
  rw [hl]
  exact fieldAt_flatMap (f := fun x : {x // x ∈ l} => f x.1) (fun x => hf x.1 x.2) hattach off hoff

theorem admissionFlagsByte_toNat (m : Message) : (admissionFlagsByte m).toNat
    = (if m.truncated then 1 else 0) + (if m.substituted then 2 else 0) + (if m.forwarded then 4 else 0)
      + (if m.override then 8 else 0) := by
  unfold admissionFlagsByte
  cases m.truncated <;> cases m.substituted <;> cases m.forwarded <;> cases m.override <;> rfl

theorem admissionFlagsFocusByte_toNat (m : Message) : (admissionFlagsFocusByte m).toNat
    = (if m.truncated then 1 else 0) + (if m.substituted then 2 else 0) + (if m.forwarded then 4 else 0)
      + (if m.override then 8 else 0) + (if m.noFocus then 16 else 0) := by
  unfold admissionFlagsFocusByte admissionFlagsByte
  cases m.truncated <;> cases m.substituted <;> cases m.forwarded <;> cases m.override <;> cases m.noFocus <;> rfl

/-! ### FETCH_OUTCOMES -/

section
variable {s : State} {p : PortId} {slot : SlotId} {m : Message} {c : Closing}

/-- The sent zones of a message's last attempt. -/
def Message.lastSent (m : Message) : ZoneSet := match m.lastAttempt with | some a => a.sent | none => 0

theorem Message.lastSent_toNat (m : Message) :
    m.lastSent.toNat = (match m.lastAttempt with | some a => a.sent.toNat | none => 0) := by
  unfold Message.lastSent
  cases m.lastAttempt <;> rfl

/-- The fields of the outcome record of a CLOSED slot in the order of Table 10-9. -/
def outcomeFields (slot : SlotId) (e : Epoch) (m : Message) (c : Closing) : List (Nat × Nat) :=
  [(2, slot.val), (1, e.toNat), (1, (outcomeCode c.outcome).toNat), (2, m.billed.val), (1, m.line), (3, m.hold), (3, c.settled),
    (1, m.attempts.length), (1, m.lastSent.toNat),
    (1, (admissionFlagsByte m).toNat)]

theorem outcomeRecordBytes_eq (e : Epoch) (hc : m.closing = some c) :
    outcomeRecordBytes slot e m = fieldsBytes (outcomeFields slot e m c) := by
  unfold outcomeRecordBytes outcomeFields messageIdBytes
  simp only [hc, fieldsBytes_cons, fieldsBytes_nil, bytesOf_one_toNat, List.append_assoc, List.append_nil, List.cons_append,
    List.nil_append, Message.lastSent]
  <;> rfl

theorem outcomeRecordBytes_length (slot : SlotId) (e : Epoch) (m : Message) : (outcomeRecordBytes slot e m).length = 16 := by
  unfold outcomeRecordBytes messageIdBytes
  cases m.closing <;> simp

theorem State.outcomeRecord_of (hm : s.message slot = some m) :
    s.outcomeRecord slot = outcomeRecordBytes slot (s.epoch slot) m := by
  simp only [State.outcomeRecord, hm]

/-- Every field of the outcome record of a CLOSED slot. -/
theorem fieldAt_outcomeRecord (e : Epoch) (hc : m.closing = some c) {b : List Byte} (hb : b = outcomeRecordBytes slot e m) :
    fieldAt b 0 2 = slot.val ∧ fieldAt b 2 1 = e.toNat ∧ fieldAt b 3 1 = (outcomeCode c.outcome).toNat
    ∧ fieldAt b 4 2 = m.billed.val ∧ fieldAt b 6 1 = m.line % 256 ∧ fieldAt b 7 3 = m.hold % 16777216
    ∧ fieldAt b 10 3 = c.settled % 16777216 ∧ fieldAt b 13 1 = m.attempts.length % 256
    ∧ fieldAt b 14 1 = (match m.lastAttempt with | some a => a.sent.toNat | none => 0)
    ∧ fieldAt b 15 1 = (admissionFlagsByte m).toNat := by
  rw [hb, outcomeRecordBytes_eq e hc, ← m.lastSent_toNat]
  refine ⟨fieldAt_fields_lt 0 rfl ?_ (Nat.lt_of_lt_of_le slot.isLt (by decide)),
    fieldAt_fields_lt 1 rfl ?_ (Nat.lt_of_lt_of_le e.isLt (by decide)), fieldAt_fields_lt 2 rfl ?_ (BitVec.isLt _),
    fieldAt_fields_lt 3 rfl ?_ (Nat.lt_of_lt_of_le m.billed.isLt (by decide)), fieldAt_fields_nil 4 rfl ?_,
    fieldAt_fields_nil 5 rfl ?_, fieldAt_fields_nil 6 rfl ?_, fieldAt_fields_nil 7 rfl ?_,
    fieldAt_fields_lt 8 rfl ?_ (BitVec.isLt _), fieldAt_fields_lt 9 rfl ?_ (BitVec.isLt _)⟩ <;> simp [outcomeFields]

/-- R90: each freed slot's epoch advances once. -/
theorem State.epoch_freeSlots {l : List SlotId} (h : l.Nodup) (s : State) (j : SlotId) :
    (l.foldl State.freeSlotOf s).epoch j = if j ∈ l then s.epoch j + 1 else s.epoch j := by
  induction l generalizing s with
  | nil => simp
  | cons slot rest ih =>
    obtain ⟨hnew, hrest⟩ := List.nodup_cons.mp h
    have hone : (s.freeSlotOf slot).epoch j = if j = slot then s.epoch slot + 1 else s.epoch j := State.epoch_setEpoch ..
    rw [List.foldl_cons, ih hrest, hone]
    by_cases hj : j = slot
    · subst hj; simp [hnew]
    · simp [hj]

/-- What FETCH_OUTCOMES leaves: the slots freed, the front of the list gone. -/
def State.fetched (s : State) (p : PortId) : State :=
  ((s.port p).outcomes.take 6).foldl State.freeSlotOf (s.setPort p { s.port p with outcomes := (s.port p).outcomes.drop 6 })

theorem fetchOutcomes_eq (s : State) (p : PortId) : fetchOutcomes p s = ⟨.ok,
    bytesOf 1 (min 6 (s.port p).outcomes.length) ++ bytesOf 2 ((s.port p).outcomes.length - 6)
      ++ ((s.port p).outcomes.take 6).flatMap s.outcomeRecord, s.fetched p⟩ := by
  rw [← List.length_take, ← List.length_drop]
  rfl

theorem State.fetched_rest (s : State) (p : PortId) : s.fetched p
    = { s.setPort p { s.port p with outcomes := (s.port p).outcomes.drop 6 } with
        messages := (s.fetched p).messages, epochs := (s.fetched p).epochs } := State.freeSlots_rest ..

theorem State.gap_fetched (s : State) (p : PortId) : ((s.fetched p).port p).gap = (s.port p).gap := by
  unfold State.fetched
  rw [State.port_congr (State.ports_freeSlots _ _), State.port_setPort_self]

end

/-- Settles O23: the slots freed one after another, and the records by their layout. -/
theorem fetchOutcomesFreesTheSlots : Obligations.FetchOutcomesFreesTheSlots := by
  refine ⟨rfl, fun s p hs hnodup => ⟨(s.fetched p).answers p .ok (bytesOf 1 (min 6 (s.port p).outcomes.length)
      ++ bytesOf 2 ((s.port p).outcomes.length - 6) ++ ((s.port p).outcomes.take 6).flatMap s.outcomeRecord),
    ((s.port p).outcomes.take 6).flatMap s.outcomeRecord,
    congrArg _ (takeCommand_plain_answers hs rfl (fetchOutcomes_eq s p) (State.gap_fetched s p)),
    fun slot hslot => ?_, fun slot hslot => ?_, ?_, fun hlisted => ?_, ?_⟩⟩
  · exact ⟨(State.message_freeSlots ..).trans (if_pos hslot),
      (State.epoch_freeSlots ((List.take_sublist _ _).nodup hnodup) _ _).trans (if_pos hslot)⟩
  · exact ⟨(State.message_freeSlots ..).trans (if_neg hslot),
      (State.epoch_freeSlots ((List.take_sublist _ _).nodup hnodup) _ _).trans (if_neg hslot)⟩
  · rw [State.fetched_rest]
    rfl
  · have hlength : ∀ slot ∈ (s.port p).outcomes.take 6, (s.outcomeRecord slot).length = 16 := fun slot hslot => by
      obtain ⟨m, hm⟩ := Option.isSome_iff_exists.mp (hlisted slot (List.mem_of_mem_take hslot))
      rw [State.outcomeRecord_of hm, outcomeRecordBytes_length]
    refine ⟨?_, fun i slot m c hi hslot hm hc => ?_⟩
    · rw [List.length_flatMap, List.map_congr_left hlength]
      simp [Nat.mul_comm]
    · have htaken : ((s.port p).outcomes.take 6)[i]? = some slot := by rw [List.getElem?_take_of_lt hi, hslot]
      obtain ⟨h0, h2, h3, h4, h6, h7, h10, h13, h14, h15⟩ :=
        fieldAt_outcomeRecord (s.epoch slot) hc (State.outcomeRecord_of hm)
      have hfield := fun (off len : Nat) (h : off + len ≤ 16) => fieldAt_flatMap_mem hlength htaken off h
      exact ⟨(hfield 0 2 (by decide)).trans h0, (hfield 2 1 (by decide)).trans h2, (hfield 3 1 (by decide)).trans h3,
        (hfield 4 2 (by decide)).trans h4, (hfield 6 1 (by decide)).trans h6, (hfield 7 3 (by decide)).trans h7,
        (hfield 10 3 (by decide)).trans h10, (hfield 13 1 (by decide)).trans h13, (hfield 14 1 (by decide)).trans h14,
        (hfield 15 1 (by decide)).trans (h15.trans (admissionFlagsByte_toNat m))⟩
  · rw [State.fetched_rest]
    rfl

end Sys2Proof.Machine
end

/-! ## QUERY_MESSAGE and RETRY_STATUS (R80, R91, R142) -/

section
namespace Sys2Proof.Machine

section
variable {s : State} {slot : SlotId} {e : Epoch} {m : Message}

theorem exec_queryMessage (p : PortId) (body : List Byte) (s : State) : exec (.queryMessage p body) s
    = .next (takeCommand p anyRole (withLength 3 body (withRange (readMessageId body) queryMessage)) s) := rfl

theorem exec_retryStatus (p : PortId) (body : List Byte) (s : State) : exec (.retryStatus p body) s
    = .next (takeCommand p [.intake, .dispatch, .supervisor] (withLength 3 body (withRange (readMessageId body) retryStatus)) s) :=
  rfl

theorem queryMessage_dead (h : s.liveMessage (slot, e) = none) : queryMessage (slot, e) s = refuse .noMessage s := by
  simp only [queryMessage, h]

theorem queryMessage_live (h : s.liveMessage (slot, e) = some m) : queryMessage (slot, e) s = ⟨.ok, s.queryBytes slot m, s⟩ := by
  simp only [queryMessage, h]

theorem retryStatus_dead (h : s.liveMessage (slot, e) = none) : retryStatus (slot, e) s = refuse .noMessage s := by
  simp only [retryStatus, h]

theorem retryStatus_live (h : s.liveMessage (slot, e) = some m) : retryStatus (slot, e) s = ⟨.ok, s.retryBytes slot m, s⟩ := by
  simp only [retryStatus, h]

theorem State.slotState_of (h : s.message slot = some m) : s.slotState slot = s.slotStateOf slot m := by
  simp only [State.slotState, h]

/-! ### The response of QUERY_MESSAGE (Table 10-9) -/

theorem bytesOf_one_zero : bytesOf 1 0 = [0] := rfl

/-- The outcome's code and the amount settled, both 0 while the message is open. -/
def Message.outcomeNumber (m : Message) : Nat := m.closing.elim 0 fun c => (outcomeCode c.outcome).toNat

def Message.settledNumber (m : Message) : Nat := m.closing.elim 0 Closing.settled

theorem Message.outcomeNumber_eq (m : Message) :
    m.outcomeNumber = (match m.closing with | some c => (outcomeCode c.outcome).toNat | none => 0) := by
  unfold Message.outcomeNumber
  cases m.closing <;> rfl

theorem Message.outcomeNumber_lt (m : Message) : m.outcomeNumber < 256 ^ 1 := by
  unfold Message.outcomeNumber
  cases m.closing with
  | none => decide
  | some c => exact BitVec.isLt _

theorem Message.settledNumber_mod (m : Message) : m.settledNumber % 256 ^ 3
    = (match m.closing with | some c => c.settled % 16777216 | none => 0) := by
  unfold Message.settledNumber
  cases m.closing <;> rfl

/-- The fields of the tariff snapshot. -/
def tariffFields (t : TariffSnapshot) : List (Nat × Nat) :=
  [(2, t.classBase), (2, t.wordRate), (2, t.zoneRate), (1, t.multiplier), (2, t.retryFee), (2, t.failFee), (3, t.cap),
    (1, t.retryCount), (1, t.retryBase), (2, t.retryCeiling), (2, t.focusAge)]

/-- The fields of the first 48 bytes. -/
def State.queryFields (s : State) (slot : SlotId) (m : Message) : List (Nat × Nat) :=
  [(1, (slotStateCode (s.slotStateOf slot m)).toNat), (1, m.outcomeNumber), (3, m.settledNumber), (1, m.port.val), (1, m.line),
    (2, m.billed.val), (2, m.delivery.val), (3, m.address.toNat), (1, (pagerKindCode m.kind).toNat), (1, (classCode m.cls).toNat),
    (1, m.priority.val), (1, m.length), (1, m.words), (2, m.life), (1, m.home.toNat), (1, m.reach.toNat)]
  ++ tariffFields m.tariff ++ [(3, m.hold), (1, (admissionFlagsFocusByte m).toNat), (1, m.attempts.length)]

theorem State.queryBytes_eq (s : State) (slot : SlotId) (m : Message) :
    s.queryBytes slot m = fieldsBytes (s.queryFields slot m) ++ m.attempts.flatMap attemptBytes := by
  unfold State.queryBytes State.queryFields tariffBytes tariffFields Message.outcomeNumber Message.settledNumber
  cases m.closing with
  | none =>
    simp only [fieldsBytes_cons, fieldsBytes_nil, bytesOf_one_toNat, bytesOf_one_zero, List.append_assoc, List.append_nil,
      List.cons_append, List.nil_append, Option.elim_none]
  | some c =>
    simp only [fieldsBytes_cons, fieldsBytes_nil, bytesOf_one_toNat, List.append_assoc, List.append_nil, List.cons_append,
      List.nil_append, Option.elim_some]

theorem State.queryFields_length (s : State) (slot : SlotId) (m : Message) : (fieldsBytes (s.queryFields slot m)).length = 48 := by
  rw [fieldsBytes_length]
  simp [State.queryFields, tariffFields]

/-- A field of the first 48 bytes of the response. -/
theorem State.fieldAt_query {off len v : Nat} (k : Nat) (h : (s.queryFields slot m)[k]? = some (len, v))
    (hoff : off = (((s.queryFields slot m).take k).map Prod.fst).sum) :
    fieldAt (s.queryBytes slot m) off len = v % 256 ^ len := by
  rw [State.queryBytes_eq]
  exact fieldAt_fields k h hoff

theorem State.fieldAt_query_lt {off len v : Nat} (k : Nat) (h : (s.queryFields slot m)[k]? = some (len, v))
    (hoff : off = (((s.queryFields slot m).take k).map Prod.fst).sum) (hv : v < 256 ^ len) :
    fieldAt (s.queryBytes slot m) off len = v :=
  (State.fieldAt_query k h hoff).trans (Nat.mod_eq_of_lt hv)

/-- The fields of an attempt record. -/
def attemptFields (a : Attempt) : List (Nat × Nat) :=
  [(1, a.number), (1, a.requested.toNat), (1, a.pending.toNat), (1, a.sent.toNat),
    (1, if (a.transmitted.map BitVec.toNat).isSome then 1 else 0), (4, (a.transmitted.map BitVec.toNat).getD 0)]

theorem attemptBytes_eq (a : Attempt) : attemptBytes a = fieldsBytes (attemptFields a) := by
  unfold attemptBytes attemptFields
  simp only [fieldsBytes_cons, fieldsBytes_nil, presenceBytes_eq, bytesOf_one_toNat, List.append_assoc, List.append_nil,
    List.cons_append, List.nil_append]

theorem attemptBytes_length (a : Attempt) : (attemptBytes a).length = 9 := by
  rw [attemptBytes_eq, fieldsBytes_length]
  simp [attemptFields]

theorem transmitted_toNat (a : Attempt) : (a.transmitted.map BitVec.toNat).getD 0
    = (match a.transmitted with | some c => c.toNat | none => 0) := by
  cases a.transmitted <;> rfl

/-- Every field of an attempt record. -/
theorem fieldAt_attemptBytes (a : Attempt) :
    fieldAt (attemptBytes a) 0 1 = a.number % 256 ∧ fieldAt (attemptBytes a) 1 1 = a.requested.toNat
    ∧ fieldAt (attemptBytes a) 2 1 = a.pending.toNat ∧ fieldAt (attemptBytes a) 3 1 = a.sent.toNat
    ∧ fieldAt (attemptBytes a) 4 1 = (if a.transmitted.isSome then 1 else 0)
    ∧ fieldAt (attemptBytes a) 5 4 = (match a.transmitted with | some c => c.toNat | none => 0) := by
  rw [attemptBytes_eq, ← transmitted_toNat, ← Option.isSome_map (f := BitVec.toNat) (x := a.transmitted)]
  have htime : (a.transmitted.map BitVec.toNat).getD 0 < 256 ^ 4 := by
    cases a.transmitted with
    | none => decide
    | some c => exact c.isLt
  exact ⟨fieldAt_fields_nil 0 rfl rfl, fieldAt_fields_lt 1 rfl rfl (BitVec.isLt _), fieldAt_fields_lt 2 rfl rfl (BitVec.isLt _),
    fieldAt_fields_lt 3 rfl rfl (BitVec.isLt _), fieldAt_fields_lt 4 rfl rfl (presence_lt _), fieldAt_fields_lt 5 rfl rfl htime⟩

/-- Every field of the attempt record at a place of the list. -/
theorem State.fieldAt_query_attempt {i : Nat} {a : Attempt} (h : m.attempts[i]? = some a) (off len : Nat) (hoff : off + len ≤ 9) :
    fieldAt (s.queryBytes slot m) (48 + off + 9 * i) len = fieldAt (attemptBytes a) off len := by
  rw [State.queryBytes_eq, fieldAt_append (k := 9 * i + off) (by rw [State.queryFields_length]; omega)]
  exact fieldAt_flatMap attemptBytes_length h off hoff

/-! ### The response of RETRY_STATUS -/

/-- The fields of the response. -/
def State.retryFields (s : State) (slot : SlotId) (m : Message) : List (Nat × Nat) :=
  [(1, (slotStateCode (s.slotStateOf slot m)).toNat), (1, m.currentAttempt), (2, s.remainingTicks slot m),
    (1, (flagByte m.frozen).toNat), (1, m.lastSent.toNat), (1, m.nextCoverage.toNat)]

theorem State.retryBytes_eq (s : State) (slot : SlotId) (m : Message) : s.retryBytes slot m = fieldsBytes (s.retryFields slot m) := by
  unfold State.retryBytes State.retryFields Message.lastSent
  simp only [fieldsBytes_cons, fieldsBytes_nil, bytesOf_one_toNat, List.append_assoc, List.append_nil, List.cons_append,
    List.nil_append]
  <;> rfl

theorem State.remainingTicks_mod (s : State) (slot : SlotId) (m : Message) : s.remainingTicks slot m % 65536
    = (match m.retryTimer with
      | some n => if s.slotStateOf slot m = .wait then n % 65536 else 65535
      | none => 65535) := by
  unfold State.remainingTicks
  cases m.retryTimer <;> by_cases h : s.slotStateOf slot m = .wait <;> simp [h]

theorem Message.nextCoverage_toNat (m : Message) : m.nextCoverage.toNat
    = if m.closing = none ∧ m.currentAttempt < m.tariff.retryCount then
        (if m.kind = .twoWay ∧ m.currentAttempt = 0 then m.home.toNat else m.reach.toNat) else 0 := by
  have hopen : m.isOpen = true ↔ m.closing = none := by simp [Message.isOpen]
  simp only [Message.nextCoverage, Message.ladder_next, hopen]
  cases m.kind <;> by_cases hfirst : m.currentAttempt = 0 <;> simp [hfirst, apply_ite BitVec.toNat]

/-- Every field of the response. -/
theorem State.fieldAt_retryBytes (s : State) (slot : SlotId) (m : Message) {b : List Byte} (hb : b = s.retryBytes slot m) :
    fieldAt b 0 1 = (slotStateCode (s.slotStateOf slot m)).toNat ∧ fieldAt b 1 1 = m.currentAttempt % 256
    ∧ fieldAt b 2 2 = s.remainingTicks slot m % 65536 ∧ fieldAt b 4 1 = (if m.frozen then 1 else 0)
    ∧ fieldAt b 5 1 = m.lastSent.toNat ∧ fieldAt b 6 1 = m.nextCoverage.toNat := by
  rw [hb, State.retryBytes_eq]
  exact ⟨fieldAt_fields_lt 0 rfl rfl (BitVec.isLt _), fieldAt_fields_nil 1 rfl rfl, fieldAt_fields_nil 2 rfl rfl,
    (fieldAt_fields_lt 3 rfl rfl (BitVec.isLt _)).trans (flagByte_toNat _), fieldAt_fields_lt 4 rfl rfl (BitVec.isLt _),
    fieldAt_fields_lt 5 rfl rfl (BitVec.isLt _)⟩

/-! ### The state of a slot (R80) -/

theorem State.inFlightAt_iff {z : ZoneId} : s.inFlightAt slot z = true ↔ ∃ b be, (s.zone z).inFlight = some b ∧ be ∈ b.entries
    ∧ be.void = false ∧ be.entry.slot = slot ∧ be.entry.epoch = s.epoch slot := by
  unfold State.inFlightAt
  cases (s.zone z).inFlight <;> simp

/-- The state of a slot whose last attempt is pending: ON_AIR when a batch in flight of a pending zone holds a live entry of it. -/
theorem State.slotStateOf_pending {a : Attempt} (ho : m.closing = none) (ha : m.lastAttempt = some a) (hp : a.pending ≠ 0) :
    s.slotStateOf slot m
      = if allZones.any fun z => zoneIn z a.pending && s.inFlightAt slot z then .onAir else .queued := by
  simp only [State.slotStateOf, ho, ha, if_pos hp, Option.isSome_none, Bool.false_eq_true, if_false]

theorem State.onAir_iff {a : Attempt} : (allZones.any fun z => zoneIn z a.pending && s.inFlightAt slot z) = true
    ↔ ∃ (z : ZoneId) (b : Batch) (be : BatchEntry), zoneIn z a.pending = true ∧ (s.zone z).inFlight = some b ∧ be ∈ b.entries
      ∧ be.void = false ∧ be.entry.slot = slot ∧ be.entry.epoch = s.epoch slot := by
  simp only [List.any_eq_true, mem_allZones, true_and, Bool.and_eq_true, State.inFlightAt_iff, exists_and_left]

end

/-- Settles O24: an id that is not live, the two responses by their layout, and the slot states in the order of the definition. -/
theorem messageReadsShowTheSlot : Obligations.MessageReadsShowTheSlot := by
  refine ⟨rfl, rfl, fun s p body hb => ⟨fun hs => ?query, fun hs => ?retry, fun slot h => ?_, fun slot m a hm ha => ?states⟩⟩
  case query =>
    simp only [exec_queryMessage]
    refine ⟨fun h => congrArg _ (takeCommand_range _ hs hb (readMessageId_none h)), fun slot e hslot hepoch => ?_⟩
    have hread := readMessageId_of hslot hepoch
    refine ⟨fun hdead => congrArg _ (takeCommand_refused hs hb hread (queryMessage_dead (State.liveMessage_dead hdead))),
      fun m he hm => ⟨s.queryBytes slot m,
        congrArg _ (takeCommand_answers hs hb hread (queryMessage_live (State.liveMessage_of he hm)) rfl), ?_⟩⟩
    rw [State.slotState_of hm]
    have hattempt := fun {i : Nat} {a : Attempt} (h : m.attempts[i]? = some a) (off len : Nat) (hoff : off + len ≤ 9) =>
      State.fieldAt_query_attempt (s := s) (slot := slot) h off len hoff
    refine ⟨?length, State.fieldAt_query_lt 0 rfl ?_ (BitVec.isLt _),
      (State.fieldAt_query_lt 1 rfl ?_ m.outcomeNumber_lt).trans m.outcomeNumber_eq,
      (State.fieldAt_query 2 rfl ?_).trans m.settledNumber_mod,
      State.fieldAt_query_lt 3 rfl ?_ (Nat.lt_of_lt_of_le m.port.isLt (by decide)), State.fieldAt_query 4 rfl ?_,
      State.fieldAt_query_lt 5 rfl ?_ (Nat.lt_of_lt_of_le m.billed.isLt (by decide)),
      State.fieldAt_query_lt 6 rfl ?_ (Nat.lt_of_lt_of_le m.delivery.isLt (by decide)),
      State.fieldAt_query_lt 7 rfl ?_ (Nat.lt_of_lt_of_le m.address.isLt (by decide)),
      State.fieldAt_query_lt 8 rfl ?_ (BitVec.isLt _), State.fieldAt_query_lt 9 rfl ?_ (BitVec.isLt _),
      State.fieldAt_query_lt 10 rfl ?_ (Nat.lt_of_lt_of_le m.priority.isLt (by decide)), State.fieldAt_query 11 rfl ?_,
      State.fieldAt_query 12 rfl ?_, State.fieldAt_query 13 rfl ?_, State.fieldAt_query_lt 14 rfl ?_ (BitVec.isLt _),
      State.fieldAt_query_lt 15 rfl ?_ (BitVec.isLt _), State.fieldAt_query 16 rfl ?_, State.fieldAt_query 17 rfl ?_,
      State.fieldAt_query 18 rfl ?_, State.fieldAt_query 19 rfl ?_, State.fieldAt_query 20 rfl ?_, State.fieldAt_query 21 rfl ?_,
      State.fieldAt_query 22 rfl ?_, State.fieldAt_query 23 rfl ?_, State.fieldAt_query 24 rfl ?_, State.fieldAt_query 25 rfl ?_,
      State.fieldAt_query 26 rfl ?_, State.fieldAt_query 27 rfl ?_,
      (State.fieldAt_query_lt 28 rfl ?_ (BitVec.isLt _)).trans (admissionFlagsFocusByte_toNat m), State.fieldAt_query 29 rfl ?_,
      fun i a ha => ?attempt⟩
    case length =>
      rw [State.queryBytes_eq, List.length_append, State.queryFields_length, flatMap_length_of attemptBytes_length]
    case attempt =>
      obtain ⟨h0, h1, h2, h3, h4, h5⟩ := fieldAt_attemptBytes a
      exact ⟨(hattempt ha 0 1 (by decide)).trans h0, (hattempt ha 1 1 (by decide)).trans h1,
        (hattempt ha 2 1 (by decide)).trans h2, (hattempt ha 3 1 (by decide)).trans h3,
        (hattempt ha 4 1 (by decide)).trans h4, (hattempt ha 5 4 (by decide)).trans h5⟩
    all_goals simp [State.queryFields, tariffFields]
  case retry =>
    simp only [exec_retryStatus]
    refine ⟨fun h => congrArg _ (takeCommand_range _ hs hb (readMessageId_none h)), fun slot e hslot hepoch => ?_⟩
    have hread := readMessageId_of hslot hepoch
    refine ⟨fun hdead => congrArg _ (takeCommand_refused hs hb hread (retryStatus_dead (State.liveMessage_dead hdead))),
      fun m he hm => ⟨s.retryBytes slot m,
        congrArg _ (takeCommand_answers hs hb hread (retryStatus_live (State.liveMessage_of he hm)) rfl), ?_, ?_⟩⟩
    · rw [State.retryBytes_eq, fieldsBytes_length]
      rfl
    · obtain ⟨h0, h1, h2, h4, h5, h6⟩ := s.fieldAt_retryBytes slot m rfl
      rw [State.slotState_of hm]
      exact ⟨h0, h1, h2.trans (s.remainingTicks_mod slot m), h4, h5.trans m.lastSent_toNat, h6.trans m.nextCoverage_toNat⟩
  case states =>
    rw [State.slotState_of hm]
    refine ⟨fun hc => ?_, fun ho hp => ?_, fun ho hp => ?_⟩
    · simp only [State.slotStateOf, hc, if_true]
    · rw [State.slotStateOf_pending ho ha hp, ← State.onAir_iff]
      split <;> simp_all
    · simp only [State.slotStateOf, ho, ha, hp]
      by_cases hsent : a.sent = 0 <;> simp [hsent]
  · simp only [State.slotState, h]

end Sys2Proof.Machine
end

/-! ## ZONE_CONFIG and READ_ZONE (R97, R110) -/

section
namespace Sys2Proof.Machine

section
variable {s : State} {z : ZoneId} {body : List Byte}

theorem exec_zoneConfig (p : PortId) (body : List Byte) (s : State) : exec (.zoneConfig p body) s
    = .next (takeCommand p [.dispatch, .supervisor] (withLength 13 body (withRange (readZoneConfig body) zoneConfig)) s) := rfl

theorem exec_readZone (p : PortId) (body : List Byte) (s : State) : exec (.readZone p body) s
    = .next (takeCommand p anyRole (withLength 1 body (withRange (readZoneNumber body) readZone)) s) := rfl

/-! ### The ZONE_CONFIG body (Tables 6-3 and 10-9) -/

theorem rateSetAt_eq_zero (body : List Byte) : rateSetAt body 8 = 0 ↔ fieldAt body 8 1 % 8 = 0 := by
  unfold rateSetAt
  rw [← BitVec.toNat_inj, BitVec.toNat_ofNat]
  rfl

theorem readZoneConfig_none (h : 7 < fieldAt body 0 1 ∨ fieldAt body 1 1 = 0 ∨ 60 < fieldAt body 1 1 ∨ fieldAt body 6 2 < 10
    ∨ 600 < fieldAt body 6 2 ∨ fieldAt body 8 1 % 8 = 0 ∨ fieldAt body 9 2 < 96 ∨ 2048 < fieldAt body 9 2) :
    readZoneConfig body = none := by
  cases hread : readZoneConfig body with
  | none => rfl
  | some r =>
    exfalso
    unfold readZoneConfig at hread
    obtain ⟨zone, hzone, hread⟩ := Option.bind_eq_some_iff.mp hread
    obtain ⟨hperiod, hread⟩ := within_bind hread
    obtain ⟨hmargin, hread⟩ := within_bind hread
    obtain ⟨hcapacity, hread⟩ := within_bind hread
    have hz := finBelow_eq_some.mp hzone
    have := zone.isLt
    split at hread
    · cases hread
    · next hrates =>
      rw [rateSetAt_eq_zero] at hrates
      omega

theorem readZoneConfig_of (hz : fieldAt body 0 1 = z.val) (hperiod : 1 ≤ fieldAt body 1 1) (hperiod' : fieldAt body 1 1 ≤ 60)
    (hmargin : 10 ≤ fieldAt body 6 2) (hmargin' : fieldAt body 6 2 ≤ 600) (hrates : fieldAt body 8 1 % 8 ≠ 0)
    (hcapacity : 96 ≤ fieldAt body 9 2) (hcapacity' : fieldAt body 9 2 ≤ 2048) :
    readZoneConfig body = some (z, ⟨⟨fieldAt body 1 1, fieldAt body 2 2, fieldAt body 4 2, fieldAt body 6 2⟩,
      BitVec.ofNat 3 (fieldAt body 8 1), fieldAt body 9 2, fieldAt body 11 2⟩) := by
  unfold readZoneConfig
  rw [readZoneNumber_of hz, within_of hperiod hperiod', within_of hmargin hmargin', within_of hcapacity hcapacity']
  exact if_neg fun h => hrates ((rateSetAt_eq_zero body).mp h)

/-! ### The response of READ_ZONE (Table 10-9), cut at the oldest entry and at the batch in flight -/

/-- The number of queued entries and words, and the congested flag. -/
def Zone.frontFields (x : Zone) : List (Nat × Nat) :=
  [(2, x.queue.length), (2, queuedWords x.queue), (1, (flagByte x.congested).toNat)]

/-- Priority and sequence of the first entry of the queue. -/
def oldestFields : List QueueEntry → List (Nat × Nat)
  | q :: _ => [(1, q.priority.val), (4, q.seq.toNat)]
  | [] => [(5, 0)]

/-- The zone's counters. -/
def Zone.counterFields (x : Zone) : List (Nat × Nat) := [(4, x.nextSeq.toNat), (1, x.nextBatch.toNat)]

/-- Presence and fields of the batch in flight. -/
def batchFields : Option Batch → List (Nat × Nat)
  | none => [(14, 0)]
  | some b => [(1, 1), (1, b.number.toNat), (2, b.capacity), (2, rateBits b.rate), (2, b.entries.length),
      (2, (b.entries.filter BatchEntry.void).length), (2, b.totalWords), (2, b.deadline)]

def dispatchFields (d : DispatchSettings) : List (Nat × Nat) := [(1, d.period), (2, d.threshold), (2, d.hysteresis), (2, d.margin)]

/-- The batch timer, the settings written and in force, and the air hold. -/
def Zone.settingsFields (x : Zone) (hold : Bool) : List (Nat × Nat) :=
  (2, x.batchTimer) :: dispatchFields x.written.dispatch
    ++ [(1, x.written.rates.toNat), (2, x.written.capacity), (2, x.written.identity)] ++ dispatchFields x.force
    ++ [(1, (flagByte hold).toNat)]

theorem batchBytes_eq (o : Option Batch) : batchBytes o = fieldsBytes (batchFields o) := by
  cases o with
  | none => simp [batchBytes, batchFields]
  | some b =>
    simp only [batchBytes, batchFields, fieldsBytes_cons, fieldsBytes_nil, List.append_assoc, List.append_nil]
    rfl

theorem State.zoneBytes_eq (s : State) (z : ZoneId) : s.zoneBytes z = fieldsBytes (s.zone z).frontFields
    ++ (fieldsBytes (oldestFields (s.zone z).queue) ++ (fieldsBytes (s.zone z).counterFields
      ++ (fieldsBytes (batchFields (s.zone z).inFlight) ++ fieldsBytes ((s.zone z).settingsFields s.airHold)))) := by
  unfold State.zoneBytes dispatchBytes
  dsimp only
  rw [batchBytes_eq]
  generalize s.zone z = x
  cases hq : x.queue <;>
    simp only [hq, Zone.frontFields, oldestFields, Zone.counterFields, Zone.settingsFields, dispatchFields, fieldsBytes_cons,
      fieldsBytes_nil, bytesOf_one_toNat, List.append_assoc, List.append_nil, List.cons_append, List.nil_append]

theorem oldestFields_length (l : List QueueEntry) : (fieldsBytes (oldestFields l)).length = 5 := by
  cases l <;> simp [oldestFields]

theorem batchFields_length (o : Option Batch) : (fieldsBytes (batchFields o)).length = 14 := by
  cases o <;> simp [batchFields]

theorem State.zoneBytes_length (s : State) (z : ZoneId) : (s.zoneBytes z).length = 51 := by
  rw [State.zoneBytes_eq]
  simp only [List.length_append, oldestFields_length, batchFields_length]
  simp [Zone.frontFields, Zone.counterFields, Zone.settingsFields, dispatchFields]

theorem State.fieldAt_zone_front {off len : Nat} (h : off + len ≤ 5) :
    fieldAt (s.zoneBytes z) off len = fieldAt (fieldsBytes (s.zone z).frontFields) off len := by
  rw [State.zoneBytes_eq]
  exact fieldAt_append_left _ (by simpa [Zone.frontFields] using h)

theorem State.fieldAt_zone_oldest {off len : Nat} (h : off + len ≤ 5) :
    fieldAt (s.zoneBytes z) (5 + off) len = fieldAt (fieldsBytes (oldestFields (s.zone z).queue)) off len := by
  rw [State.zoneBytes_eq, fieldAt_append (k := off) (by simp [Zone.frontFields])]
  exact fieldAt_append_left _ (by rw [oldestFields_length]; exact h)

theorem State.fieldAt_zone_counter {off len : Nat} (h : off + len ≤ 5) :
    fieldAt (s.zoneBytes z) (10 + off) len = fieldAt (fieldsBytes (s.zone z).counterFields) off len := by
  rw [State.zoneBytes_eq, fieldAt_append (k := 5 + off) (by simp [Zone.frontFields]; omega),
    fieldAt_append (k := off) (by rw [oldestFields_length])]
  exact fieldAt_append_left _ (by simpa [Zone.counterFields] using h)

theorem State.fieldAt_zone_batch {off len : Nat} (h : off + len ≤ 14) :
    fieldAt (s.zoneBytes z) (15 + off) len = fieldAt (fieldsBytes (batchFields (s.zone z).inFlight)) off len := by
  rw [State.zoneBytes_eq, fieldAt_append (k := 10 + off) (by simp [Zone.frontFields]; omega),
    fieldAt_append (k := 5 + off) (by rw [oldestFields_length]; omega), fieldAt_append (k := off) (by simp [Zone.counterFields])]
  exact fieldAt_append_left _ (by rw [batchFields_length]; exact h)

theorem State.fieldAt_zone_settings {off len : Nat} :
    fieldAt (s.zoneBytes z) (29 + off) len = fieldAt (fieldsBytes ((s.zone z).settingsFields s.airHold)) off len := by
  rw [State.zoneBytes_eq, fieldAt_append (k := 24 + off) (by simp [Zone.frontFields]; omega),
    fieldAt_append (k := 19 + off) (by rw [oldestFields_length]; omega),
    fieldAt_append (k := 14 + off) (by simp [Zone.counterFields]; omega),
    fieldAt_append (k := off) (by rw [batchFields_length])]

end

/-- Settles O25: the settings in range and out of range, and the response by its layout. -/
theorem zoneConfigAndReadZone : Obligations.ZoneConfigAndReadZone := by
  intro s p body
  simp only [exec_zoneConfig, exec_readZone]
  refine ⟨fun hs hb => ⟨fun h => ?_, ?_⟩, fun hs hb => ⟨fun h => ?_, fun z hz => ?_⟩⟩
  · exact congrArg _ (takeCommand_range _ hs hb (readZoneConfig_none h))
  · intro z x hz hperiod hperiod' hmargin hmargin' hrates hcapacity hcapacity' hx
    have hread := readZoneConfig_of hz hperiod hperiod' hmargin hmargin' hrates hcapacity hcapacity'
    rw [← hx] at hread
    exact congrArg _ (takeCommand_answers hs hb hread rfl rfl)
  · exact congrArg _ (takeCommand_range _ hs hb (readZoneNumber_none h))
  · have hlow : ∀ b : Bool, (flagByte b).toNat = if b then 1 else 0 := flagByte_toNat
    refine ⟨s.zoneBytes z, congrArg _ (takeCommand_answers hs hb (readZoneNumber_of hz) rfl ?_), State.zoneBytes_length s z,
      (State.fieldAt_zone_front (by decide)).trans (fieldAt_fields_nil 0 rfl ?_),
      (State.fieldAt_zone_front (by decide)).trans (fieldAt_fields_nil 1 rfl ?_),
      (State.fieldAt_zone_front (by decide)).trans ((fieldAt_fields_lt 2 rfl ?_ (BitVec.isLt _)).trans (flagByte_toNat _)), ?oldest,
      (State.fieldAt_zone_counter (off := 0) (by decide)).trans (fieldAt_fields_lt 0 rfl ?_ (BitVec.isLt _)),
      (State.fieldAt_zone_counter (off := 4) (by decide)).trans (fieldAt_fields_lt 1 rfl ?_ (BitVec.isLt _)), ?batch,
      (State.fieldAt_zone_settings (off := 0)).trans (fieldAt_fields_nil 0 rfl ?_),
      (State.fieldAt_zone_settings (off := 2)).trans (fieldAt_fields_nil 1 rfl ?_),
      (State.fieldAt_zone_settings (off := 3)).trans (fieldAt_fields_nil 2 rfl ?_),
      (State.fieldAt_zone_settings (off := 5)).trans (fieldAt_fields_nil 3 rfl ?_),
      (State.fieldAt_zone_settings (off := 7)).trans (fieldAt_fields_nil 4 rfl ?_),
      (State.fieldAt_zone_settings (off := 9)).trans
        (fieldAt_fields_lt 5 rfl ?_ (Nat.lt_of_lt_of_le (s.zone z).written.rates.isLt (by decide))),
      (State.fieldAt_zone_settings (off := 10)).trans (fieldAt_fields_nil 6 rfl ?_),
      (State.fieldAt_zone_settings (off := 12)).trans (fieldAt_fields_nil 7 rfl ?_),
      (State.fieldAt_zone_settings (off := 14)).trans (fieldAt_fields_nil 8 rfl ?_),
      (State.fieldAt_zone_settings (off := 15)).trans (fieldAt_fields_nil 9 rfl ?_),
      (State.fieldAt_zone_settings (off := 17)).trans (fieldAt_fields_nil 10 rfl ?_),
      (State.fieldAt_zone_settings (off := 19)).trans (fieldAt_fields_nil 11 rfl ?_),
      (State.fieldAt_zone_settings (off := 21)).trans
        ((fieldAt_fields_lt 12 rfl ?_ (BitVec.isLt _)).trans (flagByte_toNat _))⟩
    case oldest =>
      have holdest := fun off len (h : off + len ≤ 5) => State.fieldAt_zone_oldest (s := s) (z := z) h
      cases hq : (s.zone z).queue with
      | nil =>
        rw [hq] at holdest
        exact (holdest 0 5 (by decide)).trans (fieldAt_fields_lt 0 rfl rfl (by decide))
      | cons q rest =>
        rw [hq] at holdest
        exact ⟨(holdest 0 1 (by decide)).trans
            (fieldAt_fields_lt 0 rfl rfl (Nat.lt_of_lt_of_le q.priority.isLt (by decide))),
          (holdest 1 4 (by decide)).trans (fieldAt_fields_lt 1 rfl rfl (BitVec.isLt _))⟩
    case batch =>
      have hbatch := fun off len (h : off + len ≤ 14) => State.fieldAt_zone_batch (s := s) (z := z) h
      cases hb : (s.zone z).inFlight with
      | none =>
        rw [hb] at hbatch
        exact (hbatch 0 14 (by decide)).trans (fieldAt_fields_lt 0 rfl rfl (by decide))
      | some b =>
        rw [hb] at hbatch
        have hrate : rateBits b.rate < 256 ^ 2 := by cases b.rate <;> decide
        exact ⟨(hbatch 0 1 (by decide)).trans (fieldAt_fields_lt 0 rfl rfl (by decide)),
          (hbatch 1 1 (by decide)).trans (fieldAt_fields_lt 1 rfl rfl (BitVec.isLt _)),
          (hbatch 2 2 (by decide)).trans (fieldAt_fields_nil 2 rfl rfl),
          (hbatch 4 2 (by decide)).trans (fieldAt_fields_lt 3 rfl rfl hrate),
          (hbatch 6 2 (by decide)).trans (fieldAt_fields_nil 4 rfl rfl),
          (hbatch 8 2 (by decide)).trans (fieldAt_fields_nil 5 rfl rfl),
          (hbatch 10 2 (by decide)).trans (fieldAt_fields_nil 6 rfl rfl),
          (hbatch 12 2 (by decide)).trans (fieldAt_fields_nil 7 rfl rfl)⟩
    all_goals simp [Zone.frontFields, Zone.counterFields, Zone.settingsFields, dispatchFields]

end Sys2Proof.Machine
end

/-! ## The air hold and the walk of a formation (R96, R99, R100, R109, R135) -/

section
namespace Sys2Proof.Machine

/-! ### Exactly the zones that an event's end tests -/

/-- Formations mark the zones in which a batch is formed, and no other. -/
theorem Work.touched_forms {l : List ZoneId} (hl : l.Nodup) (w : Work) (y : ZoneId) :
    zoneIn y (l.foldl (fun v z => v.form z) w).touched
      = (zoneIn y w.touched || (decide (y ∈ l) && (w.state.formable y).isSome)) := by
  induction l generalizing w with
  | nil => simp
  | cons z rest ih =>
    obtain ⟨hz, hrest⟩ := List.nodup_cons.mp hl
    rw [List.foldl_cons, ih hrest]
    by_cases hy : y = z
    · subst hy
      simp only [hz, decide_false, Bool.false_and, Bool.or_false, List.mem_cons_self, decide_true, Bool.true_and]
      unfold Work.form
      cases hf : w.state.formable y <;> simp [zoneIn_insert]
    · have htouched : zoneIn y (w.form z).touched = zoneIn y w.touched := by
        unfold Work.form
        cases w.state.formable z <;> simp [zoneIn_insert, hy]
      rw [htouched, Work.formable_form_ne w hy]
      simp [hy]

/-- The end of an event tests the zones touched and those in which a batch has been formed, and no other. -/
theorem Work.tests_finish_formed (w : Work) : ∃ changed, w.state.tests w.finish changed []
    ∧ ∀ z, zoneIn z changed = (zoneIn z w.touched || (zoneIn z w.calls && (w.state.formable z).isSome)) := by
  have htouched := Work.touched_forms (allZones_nodup.filter fun z => zoneIn z w.calls) w
  obtain ⟨hcongested, hports, hclock, -, -⟩ := Work.forms_quiet (allZones.filter fun z => zoneIn z w.calls) w
  have hfinish : w.finish
      = ({ (allZones.filter fun z => zoneIn z w.calls).foldl (fun v z => v.form z) w with calls := 0 } : Work).finish := by
    simp [Work.finish]
  rw [hfinish]
  generalize (allZones.filter fun z => zoneIn z w.calls).foldl (fun v z => v.form z) w = x at *
  obtain ⟨changed, htested, hchanged⟩ := Work.tested_finish (w := { x with calls := 0 }) rfl
  have hport : ∀ q, x.state.port q = w.state.port q := State.port_congr hports
  have htests := htested.tests
  refine ⟨changed, ⟨fun z => ?_, fun q => ?_⟩, fun z => ?_⟩
  · rw [← hcongested z]
    exact htests.flags z
  · rw [← hport q, htests.records q]
    unfold State.congestionRecords
    simp only [hcongested, hclock]
  · rw [hchanged z, htouched z]
    simp [mem_allZones]

/-! ### The air hold -/

section
variable {s : State} {z : ZoneId}

theorem exec_airHold (p : PortId) (body : List Byte) (s : State) :
    exec (.airHold p body) s = .next (takeCommand p [.dispatch, .supervisor] (withLength 0 body airHold) s) := rfl

theorem exec_airRelease (p : PortId) (body : List Byte) (s : State) :
    exec (.airRelease p body) s = .next (takeCommand p [.dispatch, .supervisor] (withLength 0 body airRelease) s) := rfl

theorem airHold_held (h : s.airHold = true) : airHold s = ⟨.ok, [1], s⟩ := by
  simp [airHold, h, flagByte]

theorem airRelease_released (h : s.airHold = false) : airRelease s = ⟨.ok, [0], s⟩ := by
  simp [airRelease, h, flagByte]

/-- The hold in force, the retry timers of the slots in WAIT frozen. -/
def State.held (s : State) : State := { s with
  airHold := true
  messages := tblMap (fun _ (m : Message) => if m.inWait then { m with frozen := true } else m) s.messages }

theorem State.message_held (s : State) (slot : SlotId) :
    s.held.message slot = (s.message slot).map fun m => if m.inWait then { m with frozen := true } else m := by
  exact tblGet_tblMap (fun _ (m : Message) => if m.inWait then { m with frozen := true } else m) slot s.messages

theorem airHold_takes (h : s.airHold = false) : airHold s = ⟨.ok, [0], s.held⟩ := by
  simp [airHold, h, flagByte, State.held]

/-- The hold released and every frozen flag cleared. -/
def State.released (s : State) : State := { s with
  airHold := false, messages := tblMap (fun _ (m : Message) => { m with frozen := false }) s.messages }

theorem State.message_released (s : State) (slot : SlotId) :
    s.released.message slot = (s.message slot).map fun m => { m with frozen := false } :=
  tblGet_tblMap (fun _ (m : Message) => ({ m with frozen := false } : Message)) slot s.messages

/-- No air word shows a frozen flag. -/
theorem State.airWords_released (s : State) : s.released.airWords = s.airWords := by
  funext q
  simp only [State.airWords, State.message_released]
  cases s.message q.slot <;> rfl

/-- The formations that a release calls for. -/
def State.releaseWork (s : State) : Work :=
  { s.released.begin with calls := zonesWhere fun z => urgentFirst (s.zone z).queue }

theorem airRelease_takes (h : s.airHold = true) : airRelease s = ⟨.ok, [1], s.releaseWork.finish⟩ := by
  simp only [airRelease, h, flagByte, if_true]
  rfl

theorem urgentFirst_cons (q : QueueEntry) (rest : List QueueEntry) : urgentFirst (q :: rest) = true ↔ q.priority = 3 := by
  simp [urgentFirst]

/-- The profile that a zone's formation is made with at a release. -/
def State.releaseForms (s : State) (z : ZoneId) : Option Profile :=
  if zoneIn z s.releaseWork.calls = true then s.released.formable z else none

theorem State.releaseForms_of {pr : Profile} {q : QueueEntry} {rest : List QueueEntry} (hq : (s.zone z).queue = q :: rest)
    (hurgent : q.priority = 3) (hup : (s.link z).state = .up) (hp : (s.link z).profile = some pr)
    (hfree : (s.zone z).inFlight = none) : s.releaseForms z = some pr := by
  have hcalls : zoneIn z s.releaseWork.calls = true := by
    refine (zoneIn_zonesWhere ..).trans ?_
    rw [hq]
    exact (urgentFirst_cons q rest).mpr hurgent
  unfold State.releaseForms
  rw [if_pos hcalls]
  refine (if_pos ⟨hup, rfl, hfree, ?_⟩).trans hp
  have hne : (s.zone z).queue ≠ [] := hq ▸ List.cons_ne_nil _ _
  exact hne

theorem State.releaseForms_none (h : (∀ q rest, (s.zone z).queue = q :: rest → q.priority ≠ 3) ∨ (s.link z).state ≠ .up
    ∨ (s.link z).profile = none ∨ (s.zone z).inFlight ≠ none) : s.releaseForms z = none := by
  unfold State.releaseForms
  split
  · next hcalls =>
    have hurgent : urgentFirst (s.zone z).queue = true := (zoneIn_zonesWhere ..).symm.trans hcalls
    unfold State.formable
    split
    · next hform =>
      obtain ⟨hup, -, hfree, -⟩ := hform
      rcases h with h | h | h | h
      · cases hq : (s.zone z).queue with
        | nil => rw [hq] at hurgent; cases hurgent
        | cons q rest => rw [hq, urgentFirst_cons] at hurgent; exact absurd hurgent (h q rest hq)
      · exact absurd hup h
      · exact h
      · exact absurd hfree h
    · rfl
  · rfl

theorem State.inFlight_free {pr : Profile} (h : s.releaseForms z = some pr) : (s.zone z).inFlight = none := by
  unfold State.releaseForms at h
  split at h
  · unfold State.formable at h
    split at h
    · next hform => exact hform.2.2.1
    · cases h
  · cases h

end

/-- Settles O26: the timers frozen by `State.slotStateOf_wait`, and at a release each zone by `Work.zone_finish`. -/
theorem airHoldAndRelease : Obligations.AirHoldAndRelease := by
  intro s p hs
  simp only [exec_airHold, exec_airRelease]
  refine ⟨fun h => ?_, fun h => ?_, fun h => ?_, fun h => ?_⟩
  · exact congrArg _ (takeCommand_plain_answers hs rfl (airHold_held h) rfl)
  · exact congrArg _ (takeCommand_plain_answers hs rfl (airRelease_released h) rfl)
  · refine ⟨_, congrArg _ (takeCommand_plain_answers hs rfl (airHold_takes h) rfl), rfl, fun slot => ?_, rfl, rfl⟩
    refine (State.message_held s slot).trans ?_
    cases hm : s.message slot with
    | none => rfl
    | some m => simp only [Option.map_some, State.slotState_of hm, State.slotStateOf_wait]
  · have hzones := Work.zone_finish s.releaseWork
    obtain ⟨changed, htests, hchanged⟩ := Work.tests_finish_formed s.releaseWork
    have hformed : ∀ z, zoneIn z changed = (s.releaseForms z).isSome := fun z => by
      rw [hchanged z]
      have hidle : zoneIn z s.releaseWork.touched = false := zoneIn_zero z
      unfold State.releaseForms
      rw [hidle, Bool.false_or]
      split
      · next hcalls => rw [hcalls]; rfl
      · next hcalls => rw [Bool.eq_false_iff.mpr hcalls]; rfl
    have hstands : ∀ z, s.releaseForms z = none →
        s.releaseWork.finish.zone z = s.zone z ∧ s.releaseWork.finish.link z = s.link z := fun z hnone => by
      have hzone := hzones z
      rw [show (if zoneIn z s.releaseWork.calls = true then s.releaseWork.state.formable z else none) = none from hnone] at hzone
      have hflag := htests.flags z
      rw [hformed z, hnone] at hflag
      exact ⟨hzone.1.trans (by rw [hflag]; rfl), hzone.2⟩
    have hforms : ∀ z pr, s.releaseForms z = some pr →
        s.releaseWork.finish.zone z = { (s.zone z).formed pr with congested := (s.releaseWork.finish.zone z).congested }
          ∧ s.releaseWork.finish.link z = (s.link z).sendAll ((s.zone z).stream pr s.releaseWork.state.airWords) :=
      fun z pr hsome => by
        have hzone := hzones z
        rw [show (if zoneIn z s.releaseWork.calls = true then s.releaseWork.state.formable z else none) = some pr from hsome]
          at hzone
        exact hzone
    refine ⟨s.releaseWork.finish, congrArg _ (takeCommand_plain_answers hs rfl (airRelease_takes h)
        ((Work.pages_finish s.releaseWork).gap p)), ?_, fun slot => ?_, fun z hnone => ?_, fun z pr q rest hq hpriority hup hp hfree => ?_,
      ⟨changed, ⟨htests.flags, htests.records⟩, fun z => ?_⟩, ?_⟩
    · exact Work.finish_airHold _
    · exact (Work.message_finish ..).trans (State.message_released s slot)
    · exact hstands z (State.releaseForms_none hnone)
    · obtain ⟨hzone, hlink⟩ := hforms z pr (State.releaseForms_of hq hpriority hup hp hfree)
      exact ⟨hzone, hlink.trans (congrArg (fun words => (s.link z).sendAll ((s.zone z).stream pr words)) s.airWords_released)⟩
    · rw [hformed z]
      cases hf : s.releaseForms z with
      | none => simp [(hstands z hf).1]
      | some pr =>
        have hfree := State.inFlight_free hf
        rw [(hforms z pr hf).1, hfree]
        simp [Zone.formed]
    · rw [Work.finish_rest]
      rfl

/-! ### The walk (R100) -/

theorem walk_full {room : Nat} (h : room < 2) (queue : List QueueEntry) : walk room queue = ([], queue) := by
  cases queue with
  | nil => rfl
  | cons q rest => simp [walk, h]

/-- The walk of a queue is that of its front, and then that of the rest in the room left. -/
theorem walk_append (room : Nat) (before after : List QueueEntry) : walk room (before ++ after)
    = ((walk room before).1 ++ (walk (room - ((walk room before).1.map QueueEntry.words).sum) after).1,
      (walk room before).2 ++ (walk (room - ((walk room before).1.map QueueEntry.words).sum) after).2) := by
  induction before generalizing room with
  | nil => rfl
  | cons q rest ih =>
    by_cases hfull : room < 2
    · simp [walk_full hfull]
    · rw [List.cons_append, walk, walk, if_neg hfull, if_neg hfull]
      by_cases hfits : q.words ≤ room
      · simp only [if_pos hfits, ih, List.map_cons, List.sum_cons, List.cons_append, Nat.sub_sub]
      · simp only [if_neg hfits, ih, List.cons_append]

theorem walk_cons (room : Nat) (q : QueueEntry) (rest : List QueueEntry) : walk room (q :: rest)
    = if 2 ≤ room ∧ q.words ≤ room then (q :: (walk (room - q.words) rest).1, (walk (room - q.words) rest).2)
      else ((walk room rest).1, q :: (walk room rest).2) := by
  by_cases hfull : room < 2
  · rw [walk_full hfull, walk_full hfull, if_neg (by omega)]
  · rw [walk, if_neg hfull]
    by_cases hfits : q.words ≤ room
    · rw [if_pos hfits, if_pos (by omega)]
    · rw [if_neg hfits, if_neg (by omega)]

/-- What is taken fits the room and keeps queue order, and nothing is lost. -/
theorem walk_fits (room : Nat) (queue : List QueueEntry) : ((walk room queue).1.map QueueEntry.words).sum ≤ room
    ∧ (walk room queue).1.Sublist queue ∧ List.Perm ((walk room queue).1 ++ (walk room queue).2) queue := by
  induction queue generalizing room with
  | nil => exact ⟨Nat.zero_le _, .refl _, .refl _⟩
  | cons q rest ih =>
    rw [walk_cons]
    split
    · next hfits =>
      obtain ⟨hsum, hsub, hperm⟩ := ih (room - q.words)
      exact ⟨by simp only [List.map_cons, List.sum_cons]; omega, hsub.cons_cons q, hperm.cons q⟩
    · obtain ⟨hsum, hsub, hperm⟩ := ih room
      exact ⟨hsum, hsub.cons q, List.perm_middle.trans (hperm.cons q)⟩

/-- Settles O27: the walk of a queue cut at an entry (`walk_append`), and the entry's own turn (`walk_cons`). -/
theorem theWalkFillsTheBatch : Obligations.TheWalkFillsTheBatch := by
  intro room queue
  obtain ⟨hsum, hsub, hperm⟩ := walk_fits room queue
  refine ⟨hsum, hsub, walk_sublist room queue, hperm, fun q rest hqueue hroom hfits => ?_, ?_⟩
  · rw [hqueue, walk_cons, if_pos ⟨hroom, hfits⟩]
    rfl
  · intro before after q remainder hqueue hremainder
    rw [hqueue, walk_append, ← hremainder, walk_cons]
    split <;> rfl

end Sys2Proof.Machine
end

/-! ## Air words, the stream of a batch and the batch timer (R96 to R102, R115, R122, Table 7-4) -/

section
namespace Sys2Proof.Machine

/-! ### The air words of an entry, bit by bit -/

theorem addressWord_fields (m : Message) : (addressWord m).extractLsb' 10 22 = m.address
    ∧ (addressWord m).extractLsb' 8 2 = (match m.cls with | .tone => 0 | .numeric => 1 | .text => 2)
    ∧ ((addressWord m).extractLsb' 6 2).toNat = m.priority.val ∧ (addressWord m).extractLsb' 0 6 = 0 := by
  have hclass : BitVec.ofNat 2 (classCode m.cls).toNat = (match m.cls with | .tone => 0 | .numeric => 1 | .text => 2) := by
    cases m.cls <;> rfl
  have hpriority : (BitVec.ofNat 2 m.priority.val).toNat = m.priority.val := Nat.mod_eq_of_lt m.priority.isLt
  rw [← hclass]
  conv in (_ = m.priority.val) => rw [← hpriority]
  unfold addressWord
  refine ⟨?_, ?_, congrArg BitVec.toNat ?_, ?_⟩
  · repeat rw [extract_append_high _ _ (by decide)]
    exact extract_self _
  · repeat rw [extract_append_high _ _ (by decide)]
    rw [extract_append_low _ _ (by decide)]
    exact extract_self _
  · repeat rw [extract_append_high _ _ (by decide)]
    rw [extract_append_low _ _ (by decide)]
    exact extract_self _
  · rw [extract_append_low _ _ (by decide)]
    exact extract_self _

theorem tagWord_fields (slot : SlotId) (e : Epoch) (n p : Nat) : ((tagWord slot e n p).extractLsb' 23 9).toNat = slot.val
    ∧ (tagWord slot e n p).extractLsb' 19 4 = e ∧ ((tagWord slot e n p).extractLsb' 16 3).toNat = n % 8
    ∧ ((tagWord slot e n p).extractLsb' 9 7).toNat = p % 128 ∧ (tagWord slot e n p).extractLsb' 0 9 = 0 := by
  have hslot : (BitVec.ofNat 9 slot.val).toNat = slot.val := Nat.mod_eq_of_lt slot.isLt
  have hattempt : (BitVec.ofNat 3 n).toNat = n % 8 := BitVec.toNat_ofNat ..
  have hpayload : (BitVec.ofNat 7 p).toNat = p % 128 := BitVec.toNat_ofNat ..
  conv in (_ = slot.val) => rw [← hslot]
  rw [← hattempt, ← hpayload]
  unfold tagWord
  refine ⟨congrArg BitVec.toNat ?_, ?_, congrArg BitVec.toNat ?_, congrArg BitVec.toNat ?_, ?_⟩
  · repeat rw [extract_append_high _ _ (by decide)]
    exact extract_self _
  case refine_5 =>
    rw [extract_append_low _ _ (by decide)]
    exact extract_self _
  all_goals
    repeat rw [extract_append_high _ _ (by decide)]
    rw [extract_append_low _ _ (by decide)]
    exact extract_self _

theorem numericWord_fields (text : List Byte) (i : Nat) : (numericWord text i).extractLsb' 24 8 = 0
    ∧ ∀ j, j < 6 → (numericWord text i).extractLsb' (20 - 4 * j) 4 = digitAt text (6 * i + j) := by
  unfold numericWord
  refine ⟨?_, fun j hj => ?_⟩
  · repeat rw [extract_append_high _ _ (by decide)]
    exact extract_self _
  · interval_cases j
    all_goals
      repeat rw [extract_append_high _ _ (by decide)]
      rw [extract_append_low _ _ (by decide)]
      exact extract_self _

theorem textWord_fields (text : List Byte) (i : Nat) : (textWord text i).extractLsb' 21 11 = 0
    ∧ ∀ j, j < 3 → (textWord text i).extractLsb' (14 - 7 * j) 7 = charAt text (3 * i + j) := by
  unfold textWord
  refine ⟨?_, fun j hj => ?_⟩
  · repeat rw [extract_append_high _ _ (by decide)]
    exact extract_self _
  · interval_cases j
    all_goals
      repeat rw [extract_append_high _ _ (by decide)]
      rw [extract_append_low _ _ (by decide)]
      exact extract_self _

theorem payloadWords_length (m : Message) : (payloadWords m).length = if m.cls = .tone then 0 else m.words - 2 := by
  unfold payloadWords Message.payload
  cases m.cls <;> simp

/-- The payload word at a place of the list. -/
theorem payloadWords_get {m : Message} {i : Nat} {w : AirWord} (h : (payloadWords m)[i]? = some w) :
    (m.cls = .numeric → w = numericWord m.text i) ∧ (m.cls = .text → w = textWord m.text i) := by
  have hget : ∀ (f : Nat → AirWord), ((List.range m.payload).map f)[i]? = some w → w = f i := fun f hf => by
    rw [List.getElem?_map, Option.map_eq_some_iff] at hf
    obtain ⟨k, hk, rfl⟩ := hf
    obtain ⟨hlt, hk⟩ := List.getElem?_eq_some_iff.mp hk
    rw [List.getElem_range] at hk
    rw [hk]
  unfold payloadWords at h
  refine ⟨fun hc => ?_, fun hc => ?_⟩ <;> rw [hc] at h <;> exact hget _ h

/-! ### The stream of a batch -/

theorem wordBodies_flatten {fuel : Nat} {ws : List AirWord} (h : ws.length ≤ fuel) : (wordBodies fuel ws).flatten = ws := by
  induction fuel generalizing ws with
  | zero => rw [List.length_eq_zero_iff.mp (Nat.le_zero.mp h)]; rfl
  | succ fuel ih =>
    rw [wordBodies]
    split
    · next hempty => rw [hempty]; rfl
    · next hne =>
      have hpos := List.length_pos_iff.mpr hne
      rw [List.flatten_cons, ih (by rw [List.length_drop]; omega), List.take_append_drop]

/-- A body is of 32 words, or the last one and holds all that is left. -/
theorem wordBodies_lengths (fuel : Nat) (ws : List AirWord) : (∀ b ∈ wordBodies fuel ws, 1 ≤ b.length ∧ b.length ≤ 32)
    ∧ ∀ b ∈ (wordBodies fuel ws).dropLast, b.length = 32 := by
  induction fuel generalizing ws with
  | zero => exact ⟨nofun, nofun⟩
  | succ fuel ih =>
    obtain ⟨hall, hfull⟩ := ih (ws.drop 32)
    rw [wordBodies]
    split
    · exact ⟨nofun, nofun⟩
    · next hne =>
      have hpos := List.length_pos_iff.mpr hne
      refine ⟨fun b hb => ?_, fun b hb => ?_⟩
      · rcases List.mem_cons.mp hb with rfl | hb
        · rw [List.length_take]; omega
        · exact hall b hb
      · by_cases hrest : wordBodies fuel (ws.drop 32) = []
        · simp [hrest] at hb
        · rw [List.dropLast_cons_of_ne_nil hrest] at hb
          rcases List.mem_cons.mp hb with rfl | hb
          · have hleft : ws.drop 32 ≠ [] := fun hnil => hrest (by rw [hnil]; cases fuel <;> simp [wordBodies])
            have hlong : 32 < ws.length := by
              have := List.length_pos_iff.mpr hleft
              rw [List.length_drop] at this
              omega
            rw [List.length_take]; omega
          · exact hfull b hb

theorem OutBlock.isStream_iff (b : OutBlock) : b.isStream = true ↔
    (∃ n w, b = .batchOpen n w) ∨ (∃ ws, b = .batchWords ws) ∨ ∃ n, b = .batchClose n := by
  cases b <;> simp [OutBlock.isStream]

theorem Link.sendAll_busy {x : Link} (blocks : List OutBlock) (h : x.onLine.isSome) :
    x.sendAll blocks = { x with txQueue := x.txQueue ++ blocks } := by
  induction blocks generalizing x with
  | nil => simp [Link.sendAll]
  | cons b rest ih =>
    obtain ⟨front, hfront⟩ := Option.isSome_iff_exists.mp h
    have hsend : x.send b = { x with txQueue := x.txQueue ++ [b] } := by simp only [Link.send, hfront]
    have hrest := ih (x := { x with txQueue := x.txQueue ++ [b] }) h
    rw [Link.sendAll, List.foldl_cons, hsend]
    rw [Link.sendAll] at hrest
    rw [hrest, List.append_assoc]
    rfl

theorem Link.sendAll_idle {x : Link} {b : OutBlock} {rest : List OutBlock} (h : x.onLine = none) :
    x.sendAll (b :: rest) = { x with onLine := some b, txQueue := x.txQueue ++ rest } := by
  have hsend : x.send b = { x with onLine := some b } := by simp only [Link.send, h]
  have hrest := Link.sendAll_busy (x := { x with onLine := some b }) rest rfl
  rw [Link.sendAll, List.foldl_cons, hsend]
  exact hrest

/-! ### The batch timer -/

section
variable {s : State} {z : ZoneId} {pr : Profile}

theorem exec_batchTimerExpiry (z : ZoneId) (s : State) : exec (.batchTimerExpiry z) s
    = .next (if s.phase = .working ∧ (s.zone z).batchTimer = 0 then s.batchTimerExpiry z else s) := rfl

theorem State.batchTimerExpiry_unformed (h : s.formable z = none) :
    s.batchTimerExpiry z = s.setZone z { s.zone z with batchTimer := 10 * (s.zone z).force.period } := by
  have hform : s.begin.form z = s.begin := by
    unfold Work.form
    rw [show s.begin.state.formable z = none from h]
  unfold State.batchTimerExpiry
  rw [hform, Work.finish_idle (by rfl) (by rfl)]
  rfl

/-- The zone as formed, its timer reloaded, before the congestion test. -/
def State.timedForm (s : State) (z : ZoneId) (pr : Profile) : State :=
  (s.formWith z pr).setZone z { (s.zone z).formed pr with batchTimer := 10 * (s.zone z).written.dispatch.period }

/-- The event that forms a batch in the zone. -/
def State.timedWork (s : State) (z : ZoneId) (pr : Profile) : Work := { s.begin with
  state := s.timedForm z pr, touched := zoneInsert z 0 }

theorem State.batchTimerExpiry_formed (h : s.formable z = some pr) :
    s.batchTimerExpiry z = (s.timedWork z pr).finish := by
  have hform : s.begin.form z = { s.begin with state := s.formWith z pr, touched := zoneInsert z 0 } := by
    unfold Work.form
    rw [show s.begin.state.formable z = some pr from h]
    rfl
  have hzone : (s.formWith z pr).zone z = (s.zone z).formed pr := (State.forms_formWith z pr s).zone
  unfold State.batchTimerExpiry State.timedWork State.timedForm
  rw [hform]
  unfold Work.map
  dsimp only
  rw [hzone]
  rfl

theorem State.zone_timedForm_ne {y : ZoneId} (hy : y ≠ z) : (s.timedForm z pr).zone y = s.zone y := by
  unfold State.timedForm
  rw [State.zone_setZone_ne _ _ hy, ((State.forms_formWith z pr s).others y hy).1]

theorem State.zone_timedForm_self : (s.timedForm z pr).zone z
    = { (s.zone z).formed pr with batchTimer := 10 * (s.zone z).written.dispatch.period } := State.zone_setZone_self ..

theorem State.congested_timedForm (y : ZoneId) : ((s.timedForm z pr).zone y).congested = (s.zone y).congested := by
  by_cases hy : y = z
  · subst hy
    rw [State.zone_timedForm_self]
    rfl
  · rw [State.zone_timedForm_ne hy]

/-- What a batch formed at the expiry leaves: the zone as formed and tested, and nothing else of the zones changed. -/
theorem State.timedWork_finish (s : State) (z : ZoneId) (pr : Profile) :
    s.tests (s.timedWork z pr).finish (zoneSingle z) []
    ∧ (s.timedWork z pr).finish.zone z = { (s.zone z).formed pr with
        batchTimer := 10 * (s.zone z).written.dispatch.period
        congested := ((s.timedWork z pr).finish.zone z).congested }
    ∧ (∀ y, y ≠ z → (s.timedWork z pr).finish.zone y = s.zone y)
    ∧ (∀ y, (s.timedWork z pr).finish.link y = (s.formWith z pr).link y) := by
  obtain ⟨changed, htested, hchanged⟩ := Work.tested_finish (w := s.timedWork z pr) rfl
  have hsingle : ∀ y, zoneIn y changed = zoneIn y (zoneSingle z) := fun y => (hchanged y).trans (by
    simp [State.timedWork, zoneIn_insert, zoneIn_single])
  have htests : s.tests (s.timedWork z pr).finish changed [] := ⟨fun y => by
    rw [← State.congested_timedForm (s := s) (z := z) (pr := pr) y]
    exact htested.tests.flags y, fun q => by
    have hrecords := htested.tests.records q
    unfold State.congestionRecords at hrecords ⊢
    simp only [← State.congested_timedForm (s := s) (z := z) (pr := pr)]
    exact hrecords⟩
  refine ⟨State.tests_congr htests hsingle, ?_, fun y hy => ?_, fun y => ?_⟩
  · rw [htested.zones z]
    have hz : (s.timedWork z pr).state.zone z = _ := State.zone_timedForm_self
    rw [hz]
  · have hflag := htests.flags y
    rw [hsingle y, if_neg (by simp [zoneIn_single, hy])] at hflag
    rw [htested.zones y, hflag]
    have hz : (s.timedWork z pr).state.zone y = s.zone y := State.zone_timedForm_ne hy
    rw [hz]
  · rw [State.link, Work.links_finish (by rfl)]
    rfl

end

/-- Settles O28: the air words and the stream by their parts, and the expiry formed or not. -/
theorem batchTimerExpiryFormsABatch : Obligations.BatchTimerExpiryFormsABatch := by
  refine ⟨fun s q m hm => ?_, fun number total words => ?_, OutBlock.isStream_iff,
    fun x blocks => ⟨Link.sendAll_busy blocks, fun b rest hidle hblocks => hblocks ▸ Link.sendAll_idle hidle⟩,
    fun s z hworking htimer => ⟨fun h => ?_, fun pr hup hrelease hfree hqueue hprofile => ?_⟩⟩
  · refine ⟨addressWord m, tagWord q.slot q.epoch q.attempt m.payload, payloadWords m, by simp only [State.airWords, hm],
      addressWord_fields m, tagWord_fields .., payloadWords_length m, fun i w hw => ?_⟩
    obtain ⟨hnumeric, htext⟩ := payloadWords_get hw
    refine ⟨fun hc => ?_, fun hc => ?_⟩
    · rw [hnumeric hc]
      exact numericWord_fields m.text i
    · rw [htext hc]
      exact textWord_fields m.text i
  · obtain ⟨hlengths, hfull⟩ := wordBodies_lengths words.length words
    exact ⟨wordBodies words.length words, rfl, wordBodies_flatten (Nat.le_refl _), hfull, hlengths⟩
  · rw [exec_batchTimerExpiry, if_pos ⟨hworking, htimer⟩, State.batchTimerExpiry_unformed]
    refine if_neg fun hform => ?_
    obtain ⟨hup, hrelease, hfree, hqueue⟩ := hform
    rcases h with h | h | h | h
    · exact h hup
    · rw [h] at hrelease; cases hrelease
    · exact h hfree
    · exact hqueue h
  · have hform : s.formable z = some pr := (if_pos ⟨hup, hrelease, hfree, hqueue⟩).trans hprofile
    obtain ⟨htests, hzone, hzones, hlinks⟩ := State.timedWork_finish s z pr
    have hforms := State.forms_formWith z pr s
    rw [exec_batchTimerExpiry, if_pos ⟨hworking, htimer⟩, State.batchTimerExpiry_formed hform]
    refine ⟨_, _, rfl, (congrArg Zone.inFlight hzone).trans rfl, rfl, rfl, rfl, rfl, rfl, rfl, (congrArg Zone.queue hzone).trans rfl,
      (congrArg Zone.nextBatch hzone).trans rfl, (congrArg Zone.nextSeq hzone).trans rfl, (congrArg Zone.force hzone).trans rfl, (congrArg Zone.written hzone).trans rfl,
      (congrArg Zone.batchTimer hzone).trans rfl, (hlinks z).trans hforms.link, htests,
      fun y hy => ⟨hzones y hy, (hlinks y).trans (hforms.others y hy).2⟩, ?_⟩
    rw [Work.finish_rest]
    have hstate : (s.timedWork z pr).state = s.timedForm z pr := rfl
    rw [hstate, State.timedForm, hforms.rest]
    rfl

end Sys2Proof.Machine
end

/-! ## The site's answers to a batch (R103 to R105, R121, R122) -/

section
namespace Sys2Proof.Machine

/-! ### Taking a batch answer -/

section
variable {s : State} {z : ZoneId} {b : Batch} {n : BitVec 8}

/-- The owner of a batch answer, for what the dispatcher does with the batch it ends. -/
def batchAnswer (z : ZoneId) (handle : Batch → State → State) (st : LinkState) (number : BitVec 8) (u : State) : State :=
  if st = .up ∨ st = .exchange then
    match u.answeredBatch z number with
    | some b => handle b u
    | none => u
  else u

theorem exec_batchAccept (z : ZoneId) (body : List Byte) (s : State) : exec (.batchAccept z body) s
    = .next (receive z (readBatchAnswer body) (batchAnswer z fun b u => (u.begin.accepted z b).finish) s) := rfl

theorem exec_batchRefuse (z : ZoneId) (body : List Byte) (s : State) : exec (.batchRefuse z body) s
    = .next (receive z (readBatchAnswer body) (batchAnswer z fun b u => (u.begin.refused z b).finish) s) := rfl

theorem readBatchAnswer_one (n : BitVec 8) : readBatchAnswer [n] = some n := by
  simp [readBatchAnswer, fieldAt_cons_zero]

/-- A batch answer taken in UP or in EXCHANGE. -/
theorem receive_batchAnswer (h : (s.link z).state = .up ∨ (s.link z).state = .exchange) (n : BitVec 8)
    (handle : Batch → State → State) : receive z (readBatchAnswer [n]) (batchAnswer z handle) s
      = match (s.takeValid z).answeredBatch z n with
        | some b => handle b (s.takeValid z)
        | none => s.takeValid z := by
  have hon : (s.link z).state ≠ .off := by rcases h with h | h <;> rw [h] <;> decide
  rw [receive_good _ hon (readBatchAnswer_one n), batchAnswer, if_pos h]

theorem State.answeredBatch_of (h : (s.zone z).inFlight = some b) : (s.takeValid z).answeredBatch z b.number = some b := by
  have hzone : (s.takeValid z).zone z = s.zone z := rfl
  simp [State.answeredBatch, hzone, h]

theorem State.answeredBatch_stray (h : ∀ b, (s.zone z).inFlight = some b → b.number ≠ n) :
    (s.takeValid z).answeredBatch z n = none := by
  have hzone : (s.takeValid z).zone z = s.zone z := rfl
  unfold State.answeredBatch
  rw [hzone]
  cases hb : (s.zone z).inFlight with
  | none => rfl
  | some b => simp [h b hb]

/-- The state with the batch out of flight and the unsent blocks of its stream dropped. -/
def State.unloaded (s : State) (z : ZoneId) : State :=
  (s.setZone z { s.zone z with inFlight := none }).setLink z (s.link z).dropStream

theorem State.unloaded_takeValid (s : State) (z : ZoneId) : (s.takeValid z).unloaded z
    = (s.setZone z { s.zone z with inFlight := none }).setLink z { s.link z with
        received := none, silenceTimer := if (s.link z).state = .up then some 40 else (s.link z).silenceTimer
        txQueue := (s.link z).txQueue.filter fun x => !x.isStream } := by
  unfold State.unloaded State.takeValid
  dsimp only
  rw [State.link_setLink_self]
  exact State.setLink_setLink (s.setZone z { s.zone z with inFlight := none }) z _ _

end

/-! ### Queues that entries leave, with the zones they have left marked -/

/-- An event in progress that takes entries out of queues and marks exactly the zones whose queue it changes. -/
structure Work.Shrinks (w v : Work) : Prop where
  queue : ∀ y, (v.state.zone y).queue.Sublist (w.state.zone y).queue
  touched : ∀ y, zoneIn y v.touched = true ↔ zoneIn y w.touched = true ∨ (v.state.zone y).queue ≠ (w.state.zone y).queue

theorem Work.Shrinks.refl (w : Work) : w.Shrinks w := ⟨fun _ => .refl _, fun _ => by simp⟩

theorem Work.Shrinks.trans {w v u : Work} (h : w.Shrinks v) (k : v.Shrinks u) : w.Shrinks u where
  queue y := (k.queue y).trans (h.queue y)
  touched y := by
    have hboth : (u.state.zone y).queue = (w.state.zone y).queue →
        (v.state.zone y).queue = (w.state.zone y).queue ∧ (u.state.zone y).queue = (v.state.zone y).queue := fun heq => by
      have hv : (v.state.zone y).queue = (w.state.zone y).queue := (h.queue y).antisymm (heq ▸ k.queue y)
      exact ⟨hv, heq.trans hv.symm⟩
    rw [k.touched y, h.touched y, or_assoc]
    refine or_congr_right ⟨fun hchange heq => ?_, fun hne => ?_⟩
    · obtain ⟨hv, hu⟩ := hboth heq
      exact hchange.elim (fun hne => hne hv) fun hne => hne hu
    · by_contra hnone
      push Not at hnone
      exact hne (hnone.2.trans hnone.1)

/-- An update of a message is no part of a queue. -/
theorem Work.shrinks_setMessage (w : Work) (slot : SlotId) (f : State → Message) :
    w.Shrinks (w.map fun s => s.setMessage slot (f s)) := ⟨fun _ => .refl _, fun _ => by simp [Work.map]⟩

theorem Work.shrinks_close (slot : SlotId) (o : MsgOutcome) (k : Nat) (w : Work) : w.Shrinks (w.close slot o k) := by
  cases hm : w.state.openMessage slot with
  | none => rw [Work.close_closed o k hm]; exact .refl w
  | some m =>
    obtain ⟨hmsg, hopen⟩ := State.openMessage_eq_some.mp hm
    have hqueues := (Work.shuts_close o k hmsg hopen).queues
    refine ⟨fun y => ?_, fun y => ?_⟩
    · rw [hqueues y]
      exact List.filter_sublist
    · rw [Work.touched_close o k hm, zoneIn_or, zoneIn_zonesQueuing, Bool.or_eq_true, hqueues y, Ne, List.filter_eq_self]
      simp [QueueEntry.isOf]

theorem Work.shrinks_complete (slot : SlotId) (w : Work) : w.Shrinks (w.complete slot) := by
  rcases Work.complete_cases slot w with h | h | ⟨m, -, h⟩ <;> rw [h]
  · exact .refl w
  · exact Work.shrinks_close ..
  · exact Work.shrinks_setMessage ..

theorem Work.shrinks_credit (z : ZoneId) (be : BatchEntry) (w : Work) : w.Shrinks (w.credit z be) := by
  rcases Work.credit_cases z be w with h | ⟨m, a, h, hv, hz⟩
  · rw [h]; exact .refl w
  · rw [Work.credit_live h hv hz]
    have hset := Work.shrinks_setMessage w be.entry.slot
      fun _ => { m with attempts := changeLast (fun _ => a.credited z w.state.clock) m.attempts }
    split
    · exact hset.trans (Work.shrinks_complete ..)
    · exact hset

theorem Work.shrinks_credits (z : ZoneId) (l : List BatchEntry) (w : Work) :
    w.Shrinks (l.foldl (fun v be => v.credit z be) w) := by
  induction l generalizing w with
  | nil => exact .refl w
  | cons be rest ih => exact (Work.shrinks_credit z be w).trans (ih _)

/-! ### What crediting leaves of a message -/

/-- R103, R104, R133, R134: what an accepted entry leaves of its message. -/
def Message.creditedFrom (m' m : Message) (z : ZoneId) (a : Attempt) (time : Clock) (hold : Bool) : Prop :=
  m'.lastAttempt = some (a.credited z time)
  ∧ (zoneRemove z a.pending ≠ 0 → m'.closing = none ∧ m'.retryTimer = m.retryTimer)
  ∧ (zoneRemove z a.pending = 0 → m.kind = .twoWay → m'.closing = none ∧ m'.frozen = hold ∧
      m'.retryTimer = some (min (m.tariff.retryBase * 2 ^ a.number) m.tariff.retryCeiling))
  ∧ (zoneRemove z a.pending = 0 → m.kind = .oneWay → a.number < m.tariff.retryCount → m'.closing = none
      ∧ m'.frozen = hold ∧ m'.retryTimer = some (min m.tariff.retryBase m.tariff.retryCeiling))
  ∧ (zoneRemove z a.pending = 0 → m.kind = .oneWay → m.tariff.retryCount ≤ a.number →
      ∃ c, m'.closing = some c ∧ c.outcome = .sent)

section
variable {w : Work} {z : ZoneId} {be : BatchEntry} {m : Message} {a : Attempt}

theorem Work.message_credit_self (h : w.state.liveEntry be.entry = some (m, a)) (hv : be.void = false)
    (hz : zoneIn z a.pending = true) : ∃ m', (w.credit z be).state.message be.entry.slot = some m'
      ∧ m'.creditedFrom m z a w.state.clock w.state.airHold := by
  obtain ⟨-, hopen, hlast, -, -⟩ := State.liveEntry_eq_some.mp h
  rw [Work.credit_live h hv hz]
  generalize hn : ({ m with attempts := changeLast (fun _ => a.credited z w.state.clock) m.attempts } : Message) = n
  have hattempt : n.lastAttempt = some (a.credited z w.state.clock) := by
    rw [← hn]
    exact lastAttempt_changeLast (m := m) (fun _ => a.credited z w.state.clock) hlast rfl
  have hnumber : n.currentAttempt = a.number := (currentAttempt_of hattempt).trans rfl
  have hset : (w.map fun s => s.setMessage be.entry.slot n).state.openMessage be.entry.slot = some n :=
    State.openMessage_of (State.message_setMessage_self ..) (by rw [← hn]; exact hopen)
  have hkind : n.kind = m.kind := by rw [← hn]
  have htariff : n.tariff = m.tariff := by rw [← hn]
  split
  · next hdone =>
    by_cases hwaits : n.kind = .twoWay ∨ n.currentAttempt < n.tariff.retryCount
    · rw [Work.complete_waits hset hwaits]
      refine ⟨_, State.message_setMessage_self .., hattempt, fun hne => absurd hdone hne,
        fun _ htwo => ⟨by rw [← hn]; exact hopen, rfl, ?_⟩,
        fun _ hone _ => ⟨by rw [← hn]; exact hopen, rfl, ?_⟩, fun _ hone hlast => ?_⟩
      · rw [hkind, htwo, htariff, hnumber]
        rfl
      · rw [hkind, hone, htariff]
        rfl
      · rw [hkind, hnumber, htariff, hone] at hwaits
        exact hwaits.elim (fun hc => by cases hc) fun hlt => absurd hlast (Nat.not_le.mpr hlt)
    · push Not at hwaits
      obtain ⟨hone, hcount⟩ := hwaits
      have honeWay : n.kind = .oneWay := by
        cases hk : n.kind with
        | oneWay => rfl
        | twoWay => exact absurd hk hone
      obtain ⟨hmsg, hclosing⟩ := State.openMessage_eq_some.mp hset
      rw [Work.complete_sent hset honeWay hcount]
      refine ⟨_, (Work.shuts_close .sent 0 hmsg hclosing).message, hattempt, fun hne => absurd hdone hne,
        fun _ htwo => ?_, fun _ _ hlt => ?_, fun _ _ _ => ⟨_, rfl, rfl⟩⟩
      · exact absurd (hkind.trans htwo) hone
      · rw [hnumber, htariff] at hcount
        exact absurd hlt (Nat.not_lt.mpr hcount)
  · next hleft =>
    exact ⟨n, State.message_setMessage_self .., hattempt, fun _ => by rw [← hn]; exact ⟨hopen, rfl⟩,
      fun hdone => absurd hdone hleft, fun hdone => absurd hdone hleft, fun hdone => absurd hdone hleft⟩

theorem Work.message_credits_ne {l : List BatchEntry} (w : Work) {j : SlotId} (h : ∀ be ∈ l, be.entry.slot ≠ j) :
    (l.foldl (fun v be => v.credit z be) w).state.message j = w.state.message j := by
  induction l generalizing w with
  | nil => rfl
  | cons be rest ih =>
    rw [List.foldl_cons, ih _ fun x hx => h x (List.mem_cons_of_mem _ hx)]
    exact Work.message_credit_ne (h be List.mem_cons_self).symm

/-- Of a batch whose entries stand for different slots, each entry credits the message it finds. -/
theorem Work.message_credits_self {l : List BatchEntry} (hl : (l.map fun be => be.entry.slot).Nodup) (hbe : be ∈ l)
    (h : w.state.liveEntry be.entry = some (m, a)) (hv : be.void = false) (hz : zoneIn z a.pending = true) :
    ∃ m', (l.foldl (fun v be => v.credit z be) w).state.message be.entry.slot = some m'
      ∧ m'.creditedFrom m z a w.state.clock w.state.airHold := by
  obtain ⟨before, after, rfl⟩ := List.append_of_mem hbe
  rw [List.map_append, List.map_cons, List.nodup_append, List.nodup_cons] at hl
  obtain ⟨-, ⟨hafter, -⟩, hbefore⟩ := hl
  rw [List.foldl_append, List.foldl_cons]
  have hrest := (Work.withdraws_foldl (fun v be => v.credit z be) (fun v be => Work.withdraws_credit z be v) before w).rest
  have hmessage := Work.message_credits_ne (z := z) w (j := be.entry.slot) (l := before) fun x hx heq =>
    hbefore _ (List.mem_map_of_mem hx) _ List.mem_cons_self heq
  generalize before.foldl (fun v be => v.credit z be) w = v at hrest hmessage ⊢
  have hlive : v.state.liveEntry be.entry = some (m, a) := by
    rw [← h]
    exact State.liveEntry_congr hmessage (by rw [hrest]; rfl)
  obtain ⟨m', hm', hcredited⟩ := Work.message_credit_self hlive hv hz
  have hclock : v.state.clock = w.state.clock := by rw [hrest]
  have hhold : v.state.airHold = w.state.airHold := by rw [hrest]
  refine ⟨m', ?_, hclock ▸ hhold ▸ hcredited⟩
  rw [Work.message_credits_ne _ fun x hx heq => hafter (List.mem_map.mpr ⟨x, hx, heq⟩), hm']

end

/-! ### BATCH_ACCEPT -/

section
variable {s : State} {z : ZoneId} {b : Batch}

/-- An accepted batch with every entry handled, before the formation it calls for. -/
def State.creditedWork (s : State) (z : ZoneId) (b : Batch) : Work :=
  b.entries.foldl (fun v be => v.credit z be) ((s.unloaded z).begin)

theorem State.calls_creditedWork : (s.creditedWork z b).calls = 0 := by
  unfold State.creditedWork
  generalize hw : (s.unloaded z).begin = w
  have hcalls : w.calls = 0 := by rw [← hw]; rfl
  clear hw
  induction b.entries generalizing w with
  | nil => exact hcalls
  | cons be rest ih => exact ih _ ((Work.calls_credit z be w).trans hcalls)

theorem Work.form_calls (z : ZoneId) (w : Work) (c : ZoneSet) :
    ({ w with calls := c } : Work).form z = { w.form z with calls := c } := by
  unfold Work.form
  dsimp only
  cases w.state.formable z <;> rfl

theorem filter_zoneIn_single (z : ZoneId) : (allZones.filter fun y => zoneIn y (zoneInsert z 0)) = [z] := by
  revert z
  decide

@[simp] theorem Work.calls_form (z : ZoneId) (w : Work) : (w.form z).calls = w.calls := by
  unfold Work.form
  cases w.state.formable z <;> rfl

/-- The end of an event that calls for a formation in one zone. -/
theorem Work.finish_call {w : Work} (h : w.calls = 0) (z : ZoneId) :
    ({ w with calls := zoneInsert z w.calls } : Work).finish = (w.form z).finish := by
  unfold Work.finish
  rw [h, Work.calls_form, h]
  dsimp only
  rw [filter_zoneIn_single, List.foldl_cons, List.foldl_nil, Work.form_calls]
  simp

/-- An accepted batch with the formation it calls for made. -/
def State.acceptedWork (s : State) (z : ZoneId) (b : Batch) : Work :=
  if urgentFirst ((s.creditedWork z b).state.zone z).queue then (s.creditedWork z b).form z else s.creditedWork z b

theorem State.accepted_finish : (s.begin.accepted z b).finish = (s.acceptedWork z b).finish := by
  have haccepted : s.begin.accepted z b
      = if urgentFirst ((s.creditedWork z b).state.zone z).queue then
          { s.creditedWork z b with calls := zoneInsert z (s.creditedWork z b).calls } else s.creditedWork z b := rfl
  rw [haccepted, State.acceptedWork]
  split
  · exact Work.finish_call State.calls_creditedWork z
  · rfl

theorem State.calls_acceptedWork : (s.acceptedWork z b).calls = 0 := by
  unfold State.acceptedWork
  split
  · rw [Work.calls_form, State.calls_creditedWork]
  · exact State.calls_creditedWork

theorem State.withdraws_creditedWork : (s.unloaded z).Withdraws (s.creditedWork z b).state :=
  Work.withdraws_foldl (fun v be => v.credit z be) (fun v be => Work.withdraws_credit z be v) b.entries (s.unloaded z).begin

theorem State.inFlight_creditedWork : ((s.creditedWork z b).state.zone z).inFlight = none :=
  State.withdraws_creditedWork.inFlight z (by simp [State.unloaded])

theorem State.shrinks_creditedWork : (s.unloaded z).begin.Shrinks (s.creditedWork z b) := Work.shrinks_credits z b.entries _

theorem State.messages_acceptedWork : (s.acceptedWork z b).state.messages = (s.creditedWork z b).state.messages := by
  unfold State.acceptedWork
  split
  · exact Work.messages_form ..
  · rfl

/-- The zones marked are those whose queue has lost an entry and that in which a batch is formed. -/
theorem State.touched_acceptedWork (y : ZoneId) : zoneIn y (s.acceptedWork z b).touched = true ↔
    ((s.acceptedWork z b).state.zone y).queue ≠ ((s.unloaded z).zone y).queue
      ∨ ((s.acceptedWork z b).state.zone y).inFlight ≠ ((s.creditedWork z b).state.zone y).inFlight := by
  have htouched : zoneIn y (s.creditedWork z b).touched = true ↔
      ((s.creditedWork z b).state.zone y).queue ≠ ((s.unloaded z).zone y).queue := by
    rw [State.shrinks_creditedWork.touched y]
    have hidle : zoneIn y (s.unloaded z).begin.touched = false := zoneIn_zero y
    rw [hidle]
    simp only [Bool.false_eq_true, false_or]
    rfl
  have hfree := State.inFlight_creditedWork (s := s) (z := z) (b := b)
  unfold State.acceptedWork
  generalize s.creditedWork z b = v at htouched hfree ⊢
  split
  · cases hf : v.state.formable z with
    | none =>
      have hform : v.form z = v := by simp only [Work.form, hf]
      rw [hform, htouched]
      simp
    | some pr =>
      by_cases hy : y = z
      · subst hy
        obtain ⟨hzone, -⟩ : v.state.afterForming (v.form y).state y (some pr) := hf ▸ Work.afterForming_form y v
        have hmark : zoneIn y (v.form y).touched = true := by simp [Work.form, hf, zoneIn_insert]
        rw [hzone, hfree]
        exact iff_of_true hmark (.inr (by simp [Zone.formed]))
      · have hmark : zoneIn y (v.form z).touched = zoneIn y v.touched := by simp [Work.form, hf, zoneIn_insert, hy]
        rw [hmark, htouched, Work.zone_form_ne v hy]
        simp
  · rw [htouched]
    simp

theorem State.link_creditedWork (y : ZoneId) : (s.creditedWork z b).state.link y = (s.unloaded z).link y := by
  rw [State.withdraws_creditedWork.rest]
  rfl

theorem State.airHold_creditedWork : (s.creditedWork z b).state.airHold = s.airHold := by
  rw [State.withdraws_creditedWork.rest]
  rfl

end

/-- Settles O29: the entries credited one by one, and then one formation where a priority-3 entry is first. -/
theorem batchAcceptCreditsTheEntries : Obligations.BatchAcceptCreditsTheEntries := by
  intro s z b hstate hb
  have hexec : exec (.batchAccept z [b.number]) s = .next ((s.takeValid z).acceptedWork z b).finish := by
    rw [exec_batchAccept, receive_batchAnswer hstate, State.answeredBatch_of hb]
    exact congrArg _ State.accepted_finish
  have hmessage : ∀ slot, ((s.takeValid z).acceptedWork z b).finish.message slot
      = ((s.takeValid z).creditedWork z b).state.message slot := fun slot => by
    rw [Work.message_finish, State.message, State.messages_acceptedWork, State.message]
  have hpages := (Work.pages_accepted z b (s.takeValid z).begin).trans (Work.pages_finish _)
  rw [State.accepted_finish] at hpages
  obtain ⟨changed, htested, hchanged⟩ := Work.tested_finish (State.calls_acceptedWork (s := s.takeValid z) (z := z) (b := b))
  have hlink : (((s.takeValid z).creditedWork z b).state.link z).state = (s.link z).state
      ∧ (((s.takeValid z).creditedWork z b).state.link z).profile = (s.link z).profile := by
    rw [State.link_creditedWork, State.unloaded_takeValid, State.link_setLink_self]
    exact ⟨rfl, rfl⟩
  have hhold : ((s.takeValid z).creditedWork z b).state.airHold = s.airHold := State.airHold_creditedWork
  have hfree := State.inFlight_creditedWork (s := s.takeValid z) (z := z) (b := b)
  refine ⟨_, hexec, ⟨(s.takeValid z).unloaded z, ((s.takeValid z).creditedWork z b).state,
      ((s.takeValid z).acceptedWork z b).state, changed, State.unloaded_takeValid s z,
      Work.oneByOne_foldl (fun v be => v.credit z be) (fun v be => Work.credits_credit z be v) b.entries
        ((s.takeValid z).unloaded z).begin,
      fun pr q rest hq hurgent hup hrelease hprofile => ?_, fun hnone => ?_, htested, fun y => ?_⟩,
    fun slot hslot => ?_, fun hnodup be hbe m a hv hlive hz => ?_, fun hcalm => ?_, ?_⟩
  · have hform : ((s.takeValid z).creditedWork z b).state.formable z = some pr := by
      refine (if_pos ⟨hlink.1.trans hup, hhold.trans hrelease, hfree, ?_⟩).trans (hlink.2.trans hprofile)
      rw [hq]
      exact List.cons_ne_nil _ _
    have hwork : ((s.takeValid z).acceptedWork z b).state = ((s.takeValid z).creditedWork z b).state.formWith z pr := by
      rw [State.acceptedWork, hq, if_pos ((urgentFirst_cons q rest).mpr hurgent)]
      simp only [Work.form, hform]
    rw [hwork]
    exact State.forms_formWith ..
  · unfold State.acceptedWork
    split
    · next hurgent =>
      have hform : ((s.takeValid z).creditedWork z b).state.formable z = none := by
        refine if_neg fun hform => ?_
        obtain ⟨hup, hrelease, -, hne⟩ := hform
        rcases hnone with hcalm | hdown | hheld
        · obtain ⟨q, rest, hq⟩ := List.exists_cons_of_ne_nil hne
          rw [hq] at hurgent
          exact hcalm q rest hq ((urgentFirst_cons q rest).mp hurgent)
        · exact hdown (hlink.1.symm.trans hup)
        · rw [hhold, hheld] at hrelease
          cases hrelease
      simp only [Work.form, hform]
    · rfl
  · rw [hchanged y]
    exact State.touched_acceptedWork y
  · rw [hmessage]
    exact Work.message_credits_ne _ hslot
  · have hlive' : ((s.takeValid z).unloaded z).begin.state.liveEntry be.entry = some (m, a) := hlive
    obtain ⟨m', hm', hlast, hpending, htwo, hone, hsent⟩ := Work.message_credits_self hnodup hbe hlive' hv hz
    exact ⟨m', a.credited z s.clock, (hmessage _).trans hm', hlast, rfl, rfl, rfl, rfl, hpending, htwo, hone, hsent⟩
  · have hcalmQueue : urgentFirst (((s.takeValid z).creditedWork z b).state.zone z).queue = false := by
      cases hq : (((s.takeValid z).creditedWork z b).state.zone z).queue with
      | nil => rfl
      | cons q rest =>
        have hmem : q ∈ (((s.takeValid z).unloaded z).zone z).queue :=
          State.withdraws_creditedWork.queue z q (by rw [hq]; exact List.mem_cons_self)
        rw [State.unloaded_takeValid] at hmem
        have hmem : q ∈ (s.zone z).queue := by simpa using hmem
        simp [urgentFirst, hcalm q hmem]
    have hwork : (s.takeValid z).acceptedWork z b = (s.takeValid z).creditedWork z b := by
      rw [State.acceptedWork, if_neg (by rw [hcalmQueue]; decide)]
    rw [htested.zones z, hwork]
    exact hfree
  · rw [hpages.rest]
    rfl

end Sys2Proof.Machine
end

/-! ## A refused batch and stray batch answers (R94, R105) -/

section
namespace Sys2Proof.Machine

section
variable {s : State} {z : ZoneId} {b : Batch}

/-- The entries of a refused batch that return to the queue: those not void whose attempt is live. -/
def State.returned (s : State) (l : List BatchEntry) : List QueueEntry :=
  (l.filter fun be => !be.void && (s.liveEntry be.entry).isSome).map BatchEntry.entry

theorem State.returned_cons (s : State) (be : BatchEntry) (rest : List BatchEntry) : s.returned (be :: rest)
    = if be.void = false ∧ (s.liveEntry be.entry).isSome then be.entry :: s.returned rest else s.returned rest := by
  unfold State.returned
  rw [List.filter_cons]
  by_cases h : be.void = false ∧ (s.liveEntry be.entry).isSome
  · rw [if_pos h, if_pos (by simp [h])]
    rfl
  · rw [if_neg h, if_neg (by simpa using h)]

/-- The entries given back one after another: the queue holds what it held and what has returned, and nothing else changes. -/
theorem Work.giveBacks (z : ZoneId) (l : List BatchEntry) (w : Work) :
    ∃ queue, (l.foldl (fun v be => v.giveBack z be) w).state = w.state.setZone z { w.state.zone z with queue := queue }
      ∧ List.Perm queue ((w.state.zone z).queue ++ w.state.returned l)
      ∧ (∀ y, zoneIn y (l.foldl (fun v be => v.giveBack z be) w).touched
          = (zoneIn y w.touched || decide (y = z ∧ w.state.returned l ≠ [])))
      ∧ (l.foldl (fun v be => v.giveBack z be) w).calls = w.calls := by
  induction l generalizing w with
  | nil =>
    exact ⟨(w.state.zone z).queue, (State.setZone_zone w.state z).symm, by simp [State.returned], fun y => by simp [State.returned],
      rfl⟩
  | cons be rest ih =>
    rw [List.foldl_cons, State.returned_cons]
    by_cases h : be.void = false ∧ (w.state.liveEntry be.entry).isSome
    · rw [Work.giveBack_live h.1 h.2, if_pos h]
      obtain ⟨queue, hstate, hperm, htouched, hcalls⟩ := ih { w with
        touched := zoneInsert z w.touched
        state := w.state.setZone z { w.state.zone z with queue := queueInsert be.entry (w.state.zone z).queue } }
      refine ⟨queue, ?_, ?_, fun y => ?_, hcalls⟩
      · rw [hstate]
        dsimp only
        rw [State.setZone_setZone, State.zone_setZone_self]
      · dsimp only at hperm
        rw [State.zone_setZone_self] at hperm
        refine hperm.trans (((queueInsert_perm ..).append_right _).trans ?_)
        rw [List.append_assoc]
        exact .refl _
      · rw [htouched y]
        dsimp only
        rw [zoneIn_insert]
        by_cases hy : y = z <;> simp [hy]
    · rw [Work.giveBack_dead h, if_neg h]
      exact ih w

/-- A refused batch with every entry handled. -/
def State.refusedWork (s : State) (z : ZoneId) (b : Batch) : Work := s.begin.refused z b

theorem State.refusedWork_eq : s.refusedWork z b = b.entries.foldl (fun v be => v.giveBack z be) (s.unloaded z).begin := rfl

end

/-- Settles O30: the entries given back one after another, and a stray answer that is a valid block and no more. -/
theorem refusedAndStrayBatchAnswers : Obligations.RefusedAndStrayBatchAnswers := by
  intro s z hstate
  refine ⟨fun b back hb hback => ?_, fun n hstray t ht => ?_⟩
  · have hexec : exec (.batchRefuse z [b.number]) s = .next ((s.takeValid z).refusedWork z b).finish := by
      rw [exec_batchRefuse, receive_batchAnswer hstate, State.answeredBatch_of hb]
      rfl
    obtain ⟨queue, hwork, hperm, htouched, hcalls⟩ := Work.giveBacks z b.entries ((s.takeValid z).unloaded z).begin
    rw [← State.refusedWork_eq] at hwork htouched hcalls
    have hcalls : ((s.takeValid z).refusedWork z b).calls = 0 := hcalls
    have hordered := (Work.marks_refused z b (s.takeValid z).begin).finish
    obtain ⟨changed, htested, hchanged⟩ := Work.tested_finish hcalls
    have hback : back = ((s.takeValid z).unloaded z).returned b.entries := hback
    have hqueue : (((s.takeValid z).unloaded z).begin.state.zone z).queue = (s.zone z).queue := by
      simp [State.unloaded_takeValid, State.begin]
    rw [hqueue] at hperm
    rw [State.unloaded_takeValid] at hwork
    have hself : ((s.takeValid z).refusedWork z b).state.zone z = { s.zone z with inFlight := none, queue := queue } := by
      rw [hwork, State.zone_setZone_self]
      simp [State.begin]
    have hother : ∀ y, y ≠ z → ((s.takeValid z).refusedWork z b).state.zone y = s.zone y := fun y hy => by
      rw [hwork, State.zone_setZone_ne _ _ hy]
      exact State.zone_setZone_ne _ _ hy
    have hflags : ∀ y, (((s.takeValid z).refusedWork z b).state.zone y).congested = (s.zone y).congested := fun y => by
      by_cases hy : y = z
      · rw [hy, hself]
      · rw [hother y hy]
    have hlinks : ∀ y, ((s.takeValid z).refusedWork z b).finish.link y = if y = z then { s.link z with
        received := none, silenceTimer := if (s.link z).state = .up then some 40 else (s.link z).silenceTimer
        txQueue := (s.link z).txQueue.filter fun x => !x.isStream } else s.link y := fun y => by
      rw [State.link, Work.links_finish hcalls, hwork]
      by_cases hy : y = z
      · subst hy
        rw [if_pos rfl]
        exact State.link_setLink_self ..
      · rw [if_neg hy]
        exact State.link_setLink_ne _ _ hy
    have htests : s.tests ((s.takeValid z).refusedWork z b).finish (if back = [] then 0 else zoneSingle z) [] := by
      refine State.tests_congr (a := changed) ⟨fun y => ?_, fun q => ?_⟩ fun y => ?_
      · rw [← hflags y]
        exact htested.tests.flags y
      · have hrecords := htested.tests.records q
        unfold State.congestionRecords at hrecords ⊢
        simp only [hflags] at hrecords
        rw [hrecords, hwork]
        rfl
      · rw [hchanged y, htouched y]
        have hidle : zoneIn y ((s.takeValid z).unloaded z).begin.touched = false := zoneIn_zero y
        rw [hidle, hback]
        have hsame : ((s.takeValid z).unloaded z).begin.state.returned b.entries = ((s.takeValid z).unloaded z).returned b.entries :=
          rfl
        rw [hsame]
        by_cases hnone : ((s.takeValid z).unloaded z).returned b.entries = []
        · simp [hnone]
        · simp [hnone, zoneIn_single]
    refine ⟨_, hexec, ?_, ?_, fun hs => hordered.1 hs, ?_, ?_, htests, fun y hy => ⟨?_, ?_⟩, ?_⟩
    · rw [htested.zones z, hself]
    · rw [htested.zones z, hself, hback]
      exact hperm
    · rw [htested.zones z, hself]
    · rw [hlinks z, if_pos rfl]
    · have hflag := htests.flags y
      rw [if_neg (by split <;> simp [zoneIn_single, hy])] at hflag
      rw [htested.zones y, hother y hy, hflag]
    · rw [hlinks y, if_neg hy]
    · rw [Work.finish_rest, hwork]
      rfl
  · have hnone := State.answeredBatch_stray (z := z) hstray
    subst ht
    rw [exec_batchAccept, exec_batchRefuse, receive_batchAnswer hstate, receive_batchAnswer hstate, hnone]
    exact ⟨rfl, rfl⟩

end Sys2Proof.Machine
end

/-! ## LINK_ENABLE, LINK_RESTART and the departures from UP (R107, R116, R117, R124 to R126) -/

section
namespace Sys2Proof.Machine

/-! ### What the commands do by the link's state -/

section
variable {s : State} {z : ZoneId}

theorem exec_linkEnable (p : PortId) (body : List Byte) (s : State) : exec (.linkEnable p body) s
    = .next (takeCommand p [.dispatch, .supervisor] (withLength 2 body (withRange (readLinkEnable body) linkEnable)) s) := rfl

theorem exec_linkRestart (p : PortId) (body : List Byte) (s : State) : exec (.linkRestart p body) s
    = .next (takeCommand p [.dispatch, .supervisor] (withLength 1 body (withRange (readZoneNumber body) linkRestart)) s) := rfl

theorem readLinkEnable_of {body : List Byte} (hz : fieldAt body 0 1 = z.val) {on : Bool}
    (hon : fieldAt body 1 1 = if on then 1 else 0) : readLinkEnable body = some (z, on) := by
  unfold readLinkEnable
  cases on with
  | true => rw [readZoneNumber_of hz, finBelow_of (i := (1 : Fin 2)) hon]; rfl
  | false => rw [readZoneNumber_of hz, finBelow_of (i := (0 : Fin 2)) hon]; rfl

theorem readLinkEnable_none {body : List Byte} (h : 7 < fieldAt body 0 1 ∨ 1 < fieldAt body 1 1) : readLinkEnable body = none := by
  unfold readLinkEnable
  rcases h with h | h
  · rw [readZoneNumber_none h]; rfl
  · rw [finBelow_none (n := 2) h]
    cases readZoneNumber body <;> rfl

/-- R117: a link with nothing on its line enters HUNT. -/
theorem State.enterHunt_eq (h : (s.link z).onLine = none) : s.enterHunt z = s.setLink z { s.link z with
    state := .hunt, huntTimer := some 5, exchangeTimer := none, silenceTimer := none, idleTimer := none, holdOffTimer := none
    onLine := some (.capBase (s.zone z).written.rates (s.zone z).written.capacity
      (decide ((s.zone z).written.identity ≠ 0))) } := by
  unfold State.enterHunt Link.send Link.stopTimers
  rw [h]
  rfl

/-- R116, R124: the event that turns a link in UP off. -/
def State.turnOff (s : State) (z : ZoneId) : State :=
  ((s.begin.leaveUp z .restart).map fun t => t.enterOff z).finish

theorem State.leftUp_turnOff (s : State) (z : ZoneId) : s.leftUp (s.turnOff z) z .restart ∧ s.clearedOnLoss (s.turnOff z) z
    ∧ (s.turnOff z).link z = { (s.link z).quiet with
        state := .off, downCause := some .restart, basePage := none, received := none } := by
  have hleft := Work.left_leaveUp z .restart s.begin
  have hstate : ((s.begin.leaveUp z .restart).map fun t => t.enterOff z).state
      = (s.begin.leaveUp z .restart).state.setLink z { ((s.begin.leaveUp z .restart).state.link z).quiet with
          state := .off, basePage := none, received := none } := rfl
  rw [hleft.link] at hstate
  exact Work.leftUp_finish hleft hstate rfl rfl

theorem State.linkEnable_on_off (h : (s.link z).state = .off) : s.linkEnable z true = s.enterHunt z := by
  simp only [State.linkEnable, h]

theorem State.linkEnable_on_ne (h : (s.link z).state ≠ .off) : s.linkEnable z true = s := by
  unfold State.linkEnable
  split <;> simp_all

theorem State.linkEnable_off_off (h : (s.link z).state = .off) : s.linkEnable z false = s := by
  simp only [State.linkEnable, h]

theorem State.linkEnable_off_up (h : (s.link z).state = .up) : s.linkEnable z false = s.turnOff z := by
  simp only [State.linkEnable, h, State.turnOff]

theorem State.linkEnable_off_ne (hoff : (s.link z).state ≠ .off) (hup : (s.link z).state ≠ .up) :
    s.linkEnable z false = s.enterOff z := by
  unfold State.linkEnable
  split <;> simp_all

theorem State.linkStateBytes_of {st : LinkState} (h : (s.link z).state = st) :
    s.linkStateBytes z = bytesOf 1 z.val ++ [linkStateCode st] := by
  rw [State.linkStateBytes, h]

/-- The response of LINK_ENABLE. -/
theorem linkEnable_reply {on : Bool} {st : LinkState} {t : State} (ht : s.linkEnable z on = t) (hst : (t.link z).state = st) :
    linkEnable (z, on) s = ⟨.ok, bytesOf 1 z.val ++ [linkStateCode st], t⟩ := by
  simp only [linkEnable, ht, State.linkStateBytes_of hst]

/-- The response of LINK_RESTART. -/
theorem linkRestart_reply {st : LinkState} {t : State} (ht : s.linkRestart z = t) (hst : (t.link z).state = st) :
    linkRestart z s = ⟨.ok, bytesOf 1 z.val ++ [linkStateCode st], t⟩ := by
  simp only [linkRestart, ht, State.linkStateBytes_of hst]

theorem State.linkRestart_up (h : (s.link z).state = .up) : s.linkRestart z = (s.begin.failUp z .restart).finish := by
  simp only [State.linkRestart, h]

theorem State.linkRestart_starting (h : (s.link z).state = .hunt ∨ (s.link z).state = .exchange) :
    s.linkRestart z = s.enterFailed z .restart := by
  rcases h with h | h <;> simp only [State.linkRestart, h]

theorem State.linkRestart_failed (h : (s.link z).state = .failed) :
    s.linkRestart z = s.setLink z { s.link z with downCause := some .restart, holdOffTimer := some 20 } := by
  simp only [State.linkRestart, h]

theorem State.linkRestart_off (h : (s.link z).state = .off) : s.linkRestart z = s := by
  simp only [State.linkRestart, h]

/-! ### The gaps of the ports stand -/

theorem Work.gap_leaveUp (z : ZoneId) (cause : DownCause) (w : Work) (p : PortId) :
    ((w.leaveUp z cause).state.port p).gap = (w.state.port p).gap := by
  have hlose := (Work.pages_loseZone z (w.map fun s =>
    (s.setLink z { (s.link z).stopTimers.cut with state := .failed, downCause := some cause }).post
      .linkDown z.val (downCauseCode cause).toNat)).gap p
  have hpost := (State.pages_post .linkDown z.val (downCauseCode cause).toNat
    (w.state.setLink z { (w.state.link z).stopTimers.cut with state := .failed, downCause := some cause })).gap p
  exact hlose.trans hpost

theorem State.gap_failUp (s : State) (z : ZoneId) (cause : DownCause) (p : PortId) :
    (((s.begin.failUp z cause).finish).port p).gap = (s.port p).gap :=
  ((Work.pages_finish (s.begin.failUp z cause)).gap p).trans (Work.gap_leaveUp z cause s.begin p)

theorem State.gap_turnOff (s : State) (z : ZoneId) (p : PortId) : ((s.turnOff z).port p).gap = (s.port p).gap :=
  ((Work.pages_finish ((s.begin.leaveUp z .restart).map fun t => t.enterOff z)).gap p).trans
    (Work.gap_leaveUp z .restart s.begin p)

/-! ### The two commands in UP -/

theorem exec_linkEnable_up {p : PortId} {body : List Byte} (hs : s.serves p [.dispatch, .supervisor]) (hb : body.length = 2)
    (hz : fieldAt body 0 1 = z.val) (hoff : fieldAt body 1 1 = 0) (h : (s.link z).state = .up) :
    ∃ u : State, exec (.linkEnable p body) s = .next (u.answers p .ok (bytesOf 1 z.val ++ [0]))
      ∧ s.leftUp u z .restart ∧ s.clearedOnLoss u z
      ∧ u.link z = { (s.link z).quiet with state := .off, downCause := some .restart, basePage := none, received := none } := by
  obtain ⟨hleft, hcleared, hlink⟩ := State.leftUp_turnOff s z
  refine ⟨_, ?_, hleft, hcleared, hlink⟩
  rw [exec_linkEnable]
  exact congrArg _ (takeCommand_answers hs hb (readLinkEnable_of hz (on := false) hoff)
    (linkEnable_reply (State.linkEnable_off_up h) (congrArg Link.state hlink)) (State.gap_turnOff s z p))

theorem exec_linkRestart_up {p : PortId} {body : List Byte} (hs : s.serves p [.dispatch, .supervisor]) (hb : body.length = 1)
    (hz : fieldAt body 0 1 = z.val) (h : (s.link z).state = .up) :
    ∃ u : State, exec (.linkRestart p body) s = .next (u.answers p .ok (bytesOf 1 z.val ++ [4]))
      ∧ s.leftUp u z .restart ∧ s.clearedOnLoss u z
      ∧ u.link z = { (s.link z).quiet with
          state := .failed, downCause := some .restart, holdOffTimer := some 20, basePage := none } := by
  obtain ⟨hleft, hcleared, hlink⟩ := State.leftUp_failUp s z .restart
  refine ⟨_, ?_, hleft, hcleared, hlink⟩
  rw [exec_linkRestart]
  exact congrArg _ (takeCommand_answers hs hb (readZoneNumber_of hz)
    (linkRestart_reply (State.linkRestart_up h) (congrArg Link.state hlink)) (State.gap_failUp s z .restart p))

end

/-- Settles O31: each command by the link's state. -/
theorem linkEnableAndRestartByState : Obligations.LinkEnableAndRestartByState := by
  intro s p body hs
  refine ⟨fun hb => ⟨fun h => ?_, fun z hz => ⟨fun hon h hidle => ?_, fun hon h => ?_, fun hoff h => ?_, fun hoff h hne => ?_,
    fun hoff h => exec_linkEnable_up hs hb hz hoff h⟩⟩, fun hb => ⟨fun h => ?_, fun z hz => ⟨fun h => ?_, fun h => ?_, fun h => ?_,
      fun h => exec_linkRestart_up hs hb hz h⟩⟩⟩
  · exact congrArg _ (takeCommand_range _ hs hb (readLinkEnable_none h))
  · have hstate : ((s.enterHunt z).link z).state = .hunt := by
      rw [State.enterHunt_eq hidle, State.link_setLink_self]
    rw [exec_linkEnable, takeCommand_answers hs hb (readLinkEnable_of hz (on := true) hon)
      (linkEnable_reply (State.linkEnable_on_off h) hstate) rfl, State.enterHunt_eq hidle]
    rfl
  · exact congrArg _ (takeCommand_answers hs hb (readLinkEnable_of hz (on := true) hon)
      (linkEnable_reply (State.linkEnable_on_ne h) rfl) rfl)
  · exact congrArg _ (takeCommand_answers hs hb (readLinkEnable_of hz (on := false) hoff)
      (linkEnable_reply (State.linkEnable_off_off h) h) rfl)
  · exact congrArg _ (takeCommand_answers hs hb (readLinkEnable_of hz (on := false) hoff)
      (linkEnable_reply (State.linkEnable_off_ne h hne) (congrArg Link.state (State.link_setLink_self ..))) rfl)
  · exact congrArg _ (takeCommand_range _ hs hb (readZoneNumber_none h))
  · exact congrArg _ (takeCommand_answers hs hb (readZoneNumber_of hz)
      (linkRestart_reply (State.linkRestart_starting h) (congrArg Link.state (State.link_setLink_self ..))) rfl)
  · have hstate : ((s.setLink z { s.link z with downCause := some .restart, holdOffTimer := some 20 }).link z).state = .failed := by
      rw [State.link_setLink_self]
      exact h
    exact congrArg _ (takeCommand_answers hs hb (readZoneNumber_of hz)
      (linkRestart_reply (State.linkRestart_failed h) hstate) rfl)
  · exact congrArg _ (takeCommand_answers hs hb (readZoneNumber_of hz)
      (linkRestart_reply (State.linkRestart_off h) h) rfl)

/-! ### The other departures from UP -/

section
variable {s : State} {z : ZoneId}

theorem exec_acceptDeadlineExpiry (z : ZoneId) (s : State) : exec (.acceptDeadlineExpiry z) s
    = .next (if s.phase = .working ∧ s.deadlineDue z then (s.begin.failUp z .noAccept).finish else s) := rfl

theorem exec_silenceTimerExpiry (z : ZoneId) (s : State) : exec (.silenceTimerExpiry z) s
    = .next (if s.phase = .working ∧ (s.link z).state = .up ∧ (s.link z).silenceTimer = some 0 then
        (s.begin.failUp z .silence).finish else s) := rfl

theorem exec_siteStatus (z : ZoneId) (body : List Byte) (s : State) : exec (.siteStatus z body) s
    = .next (receive z (readSiteStatus body) (fun st fault u => u.siteStatus z st fault) s) := rfl

theorem readSiteStatus_offline : readSiteStatus [2] = some none := by
  simp [readSiteStatus, fieldAt_cons_zero, siteFaultOfCode]

/-- An OFFLINE site takes its link out of UP. -/
theorem exec_siteStatus_offline (h : (s.link z).state = .up) : ∃ t, exec (.siteStatus z [2]) s = .next t ∧ s.leftUp t z .remote
    ∧ s.clearedOnLoss t z ∧ t.link z = { (s.link z).quiet with
        state := .failed, downCause := some .remote, holdOffTimer := some 20, basePage := none, received := none } := by
  have hexec : exec (.siteStatus z [2]) s = .next ((s.takeValid z).begin.failUp z .remote).finish := by
    rw [exec_siteStatus, receive_good _ (by rw [h]; decide) readSiteStatus_offline, h]
    rfl
  obtain ⟨hleft, hcleared, hlink⟩ := State.leftUp_failUp (s.takeValid z) z .remote
  refine ⟨_, hexec, ?_, hcleared, ?_⟩
  · rw [State.takeValid_up h] at hleft ⊢
    exact State.leftUp_setLink hleft
  · rw [hlink, State.takeValid_up h, State.link_setLink_self]
    rfl

end

/-- Settles O32: every departure is that of `State.leftUp_failUp` or `State.leftUp_turnOff`. -/
theorem leavingUpEmptiesTheZone : Obligations.LeavingUpEmptiesTheZone := by
  intro s z p hworking hup
  have hzone : ∀ rest : List Byte, fieldAt (bytesOf 1 z.val ++ rest) 0 1 = z.val := fun rest =>
    (fieldAt_bytesOf 1 z.val rest).trans (Nat.mod_eq_of_lt (Nat.lt_of_lt_of_le z.isLt (by decide)))
  refine ⟨fun hs => ?_, fun hs => ?_, fun b hb hdue => ?_, fun hdue => ?_, exec_siteStatus_offline hup⟩
  · have hfield := hzone []
    rw [List.append_nil] at hfield
    exact exec_linkRestart_up hs rfl hfield hup
  · refine exec_linkEnable_up hs rfl (hzone [0]) ?_ hup
    rw [fieldAt_skip (by simp)]
    rfl
  · refine ⟨_, ?_, State.leftUp_failUp s z .noAccept⟩
    rw [exec_acceptDeadlineExpiry, if_pos ⟨hworking, by simp [State.deadlineDue, hb, hdue]⟩]
  · refine ⟨_, ?_, State.leftUp_failUp s z .silence⟩
    rw [exec_silenceTimerExpiry, if_pos ⟨hworking, hup, hdue⟩]

end Sys2Proof.Machine
end

/-! ## Link timers and the line (R112, R113, R117, R118, R122, R123, R125) -/

section
namespace Sys2Proof.Machine

section
variable {s : State} {z : ZoneId} {x : Link}

theorem exec_huntTimerExpiry (z : ZoneId) (s : State) : exec (.huntTimerExpiry z) s
    = .next (if s.phase = .working ∧ (s.link z).state = .hunt ∧ (s.link z).huntTimer = some 0 then
        s.setLink z { (s.link z).send (s.zone z).capPage with huntTimer := some 5 } else s) := rfl

theorem exec_exchangeTimerExpiry (z : ZoneId) (s : State) : exec (.exchangeTimerExpiry z) s
    = .next (if s.phase = .working ∧ (s.link z).state = .exchange ∧ (s.link z).exchangeTimer = some 0 then
        s.enterFailed z .timeout else s) := rfl

theorem exec_idleTimerExpiry (z : ZoneId) (s : State) : exec (.idleTimerExpiry z) s
    = .next (if s.phase = .working ∧ (s.link z).state = .up ∧ (s.link z).idleTimer = some 0
        ∧ (s.link z).idleWaiting = false ∧ (s.link z).streaming = false then s.setLink z ((s.link z).send .idle) else s) := rfl

theorem exec_holdOffTimerExpiry (z : ZoneId) (s : State) : exec (.holdOffTimerExpiry z) s
    = .next (if s.phase = .working ∧ (s.link z).state = .failed ∧ (s.link z).holdOffTimer = some 0 then s.enterHunt z else s) :=
  rfl

theorem exec_linkBlockSent (z : ZoneId) (s : State) : exec (.linkBlockSent z) s
    = .next (if (s.link z).onLine = none then s else s.setLink z (s.link z).blockSent) := rfl

/-- The blocks that a link sends or is to send. -/
theorem Link.mem_waiting {b : OutBlock} : b ∈ x.onLine.toList ++ x.txQueue ↔ x.onLine = some b ∨ b ∈ x.txQueue := by
  cases x.onLine <;> simp [eq_comm]

theorem Link.idle_or_streaming : (x.idleWaiting = true ∨ x.streaming = true)
    ↔ ∃ b, (x.onLine = some b ∨ b ∈ x.txQueue) ∧ (b = .idle ∨ b.isStream = true) := by
  simp only [Link.idleWaiting, Link.streaming, List.any_eq_true, Link.mem_waiting, decide_eq_true_eq, ← exists_or, ← and_or_left]

theorem Link.quiet_idle : (x.idleWaiting = false ∧ x.streaming = false)
    ↔ ∀ b, x.onLine = some b ∨ b ∈ x.txQueue → b ≠ .idle ∧ b.isStream = false := by
  have hnot : (x.idleWaiting = false ∧ x.streaming = false) ↔ ¬ (x.idleWaiting = true ∨ x.streaming = true) := by
    simp
  rw [hnot, Link.idle_or_streaming]
  push Not
  simp only [Bool.not_eq_true]

theorem Link.send_eq (b : OutBlock) (x : Link) : x.send b
    = if x.onLine = none then { x with onLine := some b } else { x with txQueue := x.txQueue ++ [b] } := by
  unfold Link.send
  cases x.onLine <;> rfl

/-! ### A block that has left the line -/

theorem Link.blockSent_fields (x : Link) : x.blockSent.onLine = x.txQueue.head? ∧ x.blockSent.txQueue = x.txQueue.tail
    ∧ x.blockSent.idleTimer = (if x.state = .up then some 10 else x.idleTimer)
    ∧ x.blockSent = { x with
        onLine := x.blockSent.onLine, txQueue := x.blockSent.txQueue, idleTimer := x.blockSent.idleTimer
        lineRate := x.blockSent.lineRate, slowBlocks := x.blockSent.slowBlocks } := by
  unfold Link.blockSent
  cases x.slowBlocks with
  | none => exact ⟨rfl, rfl, rfl, rfl⟩
  | some n =>
    cases x.profile with
    | none => exact ⟨rfl, rfl, rfl, rfl⟩
    | some p =>
      dsimp only
      split <;> exact ⟨rfl, rfl, rfl, rfl⟩

theorem Link.blockSent_last {p : Profile} (hslow : x.slowBlocks = some 1) (hp : x.profile = some p) :
    x.blockSent.lineRate = p.rate ∧ x.blockSent.slowBlocks = none := by
  simp [Link.blockSent, hslow, hp]

theorem Link.blockSent_counts {p : Profile} {n : Nat} (hslow : x.slowBlocks = some n) (hn : 2 ≤ n) (hp : x.profile = some p) :
    x.blockSent.lineRate = x.lineRate ∧ x.blockSent.slowBlocks = some (n - 1) := by
  have hmore : ¬ n ≤ 1 := by omega
  simp [Link.blockSent, hslow, hp, hmore]

theorem Link.blockSent_settled (hslow : x.slowBlocks = none) :
    x.blockSent.lineRate = x.lineRate ∧ x.blockSent.slowBlocks = none := by
  simp [Link.blockSent, hslow]

/-! ### What the line carries -/

theorem Link.txd_block {b : OutBlock} (hon : x.state ≠ .off) (hb : x.onLine = some b) : x.line.txd
    = (linkBlockBytes (outBlockKindBody b).1 (outBlockKindBody b).2).flatMap bitsMsbFirst := by
  simp [Link.line, hon, hb, LinkLine.txd]

end

/-- Settles O33: each expiry, a block that leaves the line, and the bits of the line. -/
theorem linkTimersAndTheLine : Obligations.LinkTimersAndTheLine := by
  refine ⟨fun s z => ⟨fun hworking => ⟨fun hstate hdue => ?_, fun hstate hdue => ?_, fun hstate hdue => ⟨fun hwaits => ?_,
    fun hquiet => ?_⟩, fun hstate hdue hidle => ?_⟩, fun b hb => ?_⟩,
    fun x => ⟨fun hoff => ?_, fun hon => ?_, fun hon hidle => ?_, ?_⟩, fun b => ?_⟩
  · rw [exec_huntTimerExpiry, if_pos ⟨hworking, hstate, hdue⟩]
    rfl
  · rw [exec_exchangeTimerExpiry, if_pos ⟨hworking, hstate, hdue⟩]
    rfl
  · rw [exec_idleTimerExpiry, if_neg]
    rintro ⟨-, -, -, hnot⟩
    obtain ⟨b, hb, hkind⟩ := hwaits
    obtain ⟨hne, hstream⟩ := Link.quiet_idle.mp hnot b hb
    exact hkind.elim hne fun h => by rw [hstream] at h; cases h
  · rw [exec_idleTimerExpiry, if_pos ⟨hworking, hstate, hdue, Link.quiet_idle.mpr hquiet⟩, Link.send_eq]
  · rw [exec_holdOffTimerExpiry, if_pos ⟨hworking, hstate, hdue⟩, State.enterHunt_eq hidle]
  · have hlink : (s.setLink z (s.link z).blockSent).link z = (s.link z).blockSent := State.link_setLink_self ..
    obtain ⟨hline, hqueue, hidle, hrest⟩ := (s.link z).blockSent_fields
    refine ⟨s.setLink z (s.link z).blockSent, ?_, ?_⟩
    · rw [exec_linkBlockSent, if_neg (by rw [hb]; exact Option.some_ne_none b)]
    · rw [hlink]
      exact ⟨rfl, hline, hqueue, hidle, fun p => Link.blockSent_last, fun p n => Link.blockSent_counts, Link.blockSent_settled, hrest⟩
  · simp [Link.line, hoff, LinkLine.txd, Link.clockRate]
  · simp [Link.clockRate, hon]
  · have hfill : x.line = .fill := by simp [Link.line, hon, hidle]
    rw [hfill]
    rfl
  · intro b kind body covered hon hb hbody hcovered
    rw [Link.txd_block hon hb, hcovered]
    cases b with
    | capBase rates capacity next =>
      obtain ⟨rfl, rfl⟩ := hbody
      cases next <;> rfl
    | capNext identity => obtain ⟨rfl, rfl⟩ := hbody; rfl
    | idle => obtain ⟨rfl, rfl⟩ := hbody; rfl
    | batchOpen number words =>
      obtain ⟨rfl, rfl⟩ := hbody
      simp only [outBlockKindBody, bytesOf_one_toNat]
      rfl
    | batchWords words => obtain ⟨rfl, rfl⟩ := hbody; rfl
    | batchClose number =>
      obtain ⟨rfl, rfl⟩ := hbody
      simp only [outBlockKindBody, bytesOf_one_toNat]
      rfl
  · rfl

end Sys2Proof.Machine
end

/-! ## A site's CAP_BASE (R117, R118, R120, R124, Table 7-3) -/

section
namespace Sys2Proof.Machine

/-! ### The body -/

section
variable {body : List Byte}

theorem siteFaultOfCode_eq {v : Nat} (h : v ≤ 2) :
    siteFaultOfCode v = some (if v = 0 then some .ok else if v = 1 then some .degraded else none) := by
  interval_cases v <;> rfl

theorem siteFaultOfCode_none {v : Nat} (h : 2 < v) : siteFaultOfCode v = none := by
  match v, h with
  | n + 3, _ => rfl

theorem readCapBase_of (hb : body.length = 5) (hlow : 96 ≤ fieldAt body 1 2) (hhigh : fieldAt body 1 2 ≤ 2048)
    (hfault : fieldAt body 3 1 ≤ 2) : readCapBase body = some ⟨BitVec.ofNat 3 (fieldAt body 0 1), fieldAt body 1 2,
      if fieldAt body 3 1 = 0 then some .ok else if fieldAt body 3 1 = 1 then some .degraded else none,
      decide (fieldAt body 4 1 ≠ 0)⟩ := by
  unfold readCapBase
  rw [if_neg (by simp [hb]), within_of hlow hhigh, siteFaultOfCode_eq hfault]
  rfl

theorem readCapBase_none (h : body.length ≠ 5 ∨ fieldAt body 1 2 < 96 ∨ 2048 < fieldAt body 1 2 ∨ 2 < fieldAt body 3 1) :
    readCapBase body = none := by
  unfold readCapBase
  split
  · rfl
  · next hb =>
    rcases h with h | h | h | h
    · exact absurd h hb
    · rw [within_none (.inl h)]; rfl
    · rw [within_none (.inr h)]; rfl
    · rw [siteFaultOfCode_none h]
      cases within 96 2048 (fieldAt body 1 2) <;> rfl

end

/-! ### The line at an entry to UP -/

section
variable {x : Link} {rate : Rate}

theorem Link.changeRate_clear (hidle : x.onLine = none) (hempty : x.txQueue = []) :
    x.changeRate rate = { x with lineRate := rate, slowBlocks := none } := by
  simp [Link.changeRate, hidle, hempty]

theorem Link.changeRate_queued (hidle : x.onLine = none) (hqueue : x.txQueue ≠ []) :
    x.changeRate rate = { x with slowBlocks := some x.txQueue.length } := by
  simp [Link.changeRate, hidle, hqueue]

theorem Link.changeRate_busy (hbusy : x.onLine.isSome) :
    x.changeRate rate = { x with slowBlocks := some (x.txQueue.length + 1) } := by
  simp [Link.changeRate, hbusy, Nat.add_comm]

end

/-! ### The evaluation of a page -/

section
variable {s : State} {z : ZoneId} {page : SitePage} {f : RemoteFault} {rate : Rate} {x : Link} {w : Work}

theorem Work.evaluate_up (h : page.fault = some f)
    (hr : highestRate ((w.state.zone z).written.rates &&& page.rates) = some rate)
    (hi : (w.state.zone z).written.identity = 0) (hn : page.nextPage = false) :
    w.evaluate z page = (w.map fun s => s.setLink z ((s.link z).send (s.zone z).capPage)).enterUp z
      ⟨rate, min (w.state.zone z).written.capacity page.capacity, 0, f⟩ := by
  simp [Work.evaluate, h, hr, hi, hn]

/-- R117, R118: a link in EXCHANGE with the exchange timer loaded. -/
def Link.exchanging (x : Link) : Link := { x.stopTimers with state := .exchange, exchangeTimer := some 30, basePage := none }

theorem Work.enterExchange_eq : w.enterExchange z page = (w.map fun s => s.setLink z (s.link z).exchanging).evaluate z page := rfl

theorem State.setLink_enterFailed (s : State) (z : ZoneId) (x : Link) (cause : DownCause) :
    (s.setLink z x).enterFailed z cause = s.setLink z { x.quiet with
      state := .failed, downCause := some cause, holdOffTimer := some 20, basePage := none } := by
  rw [State.enterFailed_eq, State.link_setLink_self, State.setLink_setLink]

/-- The event of a page evaluated in EXCHANGE by a link that has left no zone. -/
theorem State.evaluate_offline_finish (h : page.fault = none) : ((s.setLink z x).begin.evaluate z page).finish
    = s.setLink z { x.quiet with state := .failed, downCause := some .remote, holdOffTimer := some 20, basePage := none } := by
  rw [Work.evaluate_offline h, Work.finish_idle (by rfl) (by rfl)]
  exact State.setLink_enterFailed ..

theorem State.evaluate_mismatch_finish (h : page.fault = some f) (hr : (s.zone z).written.rates &&& page.rates = 0) :
    ((s.setLink z x).begin.evaluate z page).finish = s.setLink z { x.quiet with
      state := .failed, downCause := some .mismatch, holdOffTimer := some 20, basePage := none } := by
  rw [Work.evaluate_mismatch h (highestRate_none hr), Work.finish_idle (by rfl) (by rfl)]
  exact State.setLink_enterFailed ..

theorem State.evaluate_held_finish (h : page.fault = some f)
    (hr : highestRate ((s.zone z).written.rates &&& page.rates) = some rate)
    (hn : (s.zone z).written.identity ≠ 0 ∨ page.nextPage = true) :
    ((s.setLink z x).begin.evaluate z page).finish = s.setLink z
      { (x.send (s.zone z).capPage).send (.capNext (s.zone z).written.identity) with
        basePage := some ⟨page.rates, page.capacity, f, page.nextPage, rate, min (s.zone z).written.capacity page.capacity⟩ } := by
  have hheld := Work.evaluate_held (w := (s.setLink z x).begin) (z := z) h hr hn
  rw [hheld, Work.finish_idle (by rfl) (by rfl)]
  simp only [Work.map, State.begin, State.link_setLink_self, State.setLink_setLink]
  rfl

theorem State.evaluate_up_finish (h : page.fault = some f)
    (hr : highestRate ((s.zone z).written.rates &&& page.rates) = some rate) (hi : (s.zone z).written.identity = 0)
    (hn : page.nextPage = false) : s.entersUp ((s.setLink z x).begin.evaluate z page).finish z
      (({ x.send (.capBase (s.zone z).written.rates (s.zone z).written.capacity false) with
          state := .up, profile := some ⟨rate, min (s.zone z).written.capacity page.capacity, 0, f⟩
          huntTimer := none, exchangeTimer := none, silenceTimer := some 40, idleTimer := some 10
          holdOffTimer := none, basePage := none } : Link).changeRate rate) rate := by
  have hup := Work.evaluate_up (w := (s.setLink z x).begin) (z := z) h hr hi hn
  have hpage : (s.zone z).capPage = .capBase (s.zone z).written.rates (s.zone z).written.capacity false := by
    rw [Zone.capPage_eq, hi]
    rfl
  have hstate : ((s.setLink z x).begin.map fun s => s.setLink z ((s.link z).send (s.zone z).capPage)).state
      = s.setLink z (x.send (s.zone z).capPage) := by
    simp only [Work.map, State.begin, State.link_setLink_self, State.setLink_setLink]
    rfl
  rw [hup, ← hpage]
  exact Work.entersUp_whole hstate rfl

/-! ### A CAP_BASE in UP: the link leaves UP and is evaluated in EXCHANGE (R124) -/

/-- The link of a zone that has left UP to be evaluated again. -/
def Link.renegotiating (x : Link) : Link := { x.quiet with
  state := .exchange, downCause := some .renegotiate, exchangeTimer := some 30, basePage := none }

/-- The departure from UP that a CAP_BASE makes. -/
def State.renegotiated (s : State) (z : ZoneId) : Work := s.begin.leaveUp z .renegotiate

theorem State.left_renegotiated (s : State) (z : ZoneId) : s.begin.Left (s.renegotiated z) z .renegotiate :=
  Work.left_leaveUp ..

/-- The event of a CAP_BASE in UP, in EXCHANGE before the page is evaluated. -/
def State.exchanged (s : State) (z : ZoneId) : Work :=
  (s.renegotiated z).map fun t => t.setLink z (t.link z).exchanging

theorem State.exchanged_state : (s.exchanged z).state = (s.renegotiated z).state.setLink z (s.link z).renegotiating := by
  have hlink := (State.left_renegotiated s z).link
  unfold State.exchanged Work.map
  dsimp only
  rw [hlink]
  rfl

theorem State.calls_exchanged : (s.exchanged z).calls = 0 := by
  unfold State.exchanged Work.map
  exact (State.left_renegotiated s z).calls

theorem State.touched_exchanged : (s.exchanged z).touched = (s.renegotiated z).touched := by
  unfold State.exchanged Work.map
  rfl

theorem State.written_renegotiated : ((s.renegotiated z).state.zone z).written = (s.zone z).written :=
  congrArg Prod.snd ((State.left_renegotiated s z).fixed z).1

theorem State.written_exchanged : ((s.exchanged z).state.zone z).written = (s.zone z).written := by
  rw [State.exchanged_state]
  exact State.written_renegotiated

/-- An evaluation that ends with the link set to `x`. -/
theorem State.exchanged_finish (h : (s.exchanged z).evaluate z page = (s.exchanged z).map fun t => t.setLink z x) :
    s.leftUp ((s.exchanged z).evaluate z page).finish z .renegotiate
      ∧ s.clearedOnLoss ((s.exchanged z).evaluate z page).finish z
      ∧ ((s.exchanged z).evaluate z page).finish.link z = x := by
  have hstate : ((s.exchanged z).evaluate z page).state = (s.renegotiated z).state.setLink z x := by
    rw [h, Work.map, State.exchanged_state, State.setLink_setLink]
  exact Work.leftUp_finish (State.left_renegotiated s z) hstate
    (by rw [h]; exact State.calls_exchanged.trans (State.left_renegotiated s z).calls.symm) (by rw [h]; exact State.touched_exchanged)

theorem State.exchanged_failed {cause : DownCause}
    (h : (s.exchanged z).evaluate z page = (s.exchanged z).map fun t => t.enterFailed z cause) :
    s.leftUp ((s.exchanged z).evaluate z page).finish z .renegotiate
      ∧ s.clearedOnLoss ((s.exchanged z).evaluate z page).finish z
      ∧ ((s.exchanged z).evaluate z page).finish.link z = { (s.link z).quiet with
          state := .failed, downCause := some cause, holdOffTimer := some 20, basePage := none } := by
  refine State.exchanged_finish (h.trans ?_)
  have hlink : (s.exchanged z).state.link z = (s.link z).renegotiating := by
    rw [State.exchanged_state, State.link_setLink_self]
  unfold Work.map
  dsimp only
  rw [State.enterFailed_eq, hlink]
  rfl

theorem State.exchanged_held (h : page.fault = some f)
    (hr : highestRate ((s.zone z).written.rates &&& page.rates) = some rate)
    (hn : (s.zone z).written.identity ≠ 0 ∨ page.nextPage = true) :
    s.leftUp ((s.exchanged z).evaluate z page).finish z .renegotiate
      ∧ s.clearedOnLoss ((s.exchanged z).evaluate z page).finish z
      ∧ ((s.exchanged z).evaluate z page).finish.link z = { (s.link z).quiet with
          state := .exchange, downCause := some .renegotiate, exchangeTimer := some 30
          basePage := some ⟨page.rates, page.capacity, f, page.nextPage, rate, min (s.zone z).written.capacity page.capacity⟩
          onLine := some (s.zone z).capPage, txQueue := [.capNext (s.zone z).written.identity] } := by
  rw [← State.written_exchanged] at hr hn
  have hheld := Work.evaluate_held h hr hn
  have hlink : (s.exchanged z).state.link z = (s.link z).renegotiating := by
    rw [State.exchanged_state, State.link_setLink_self]
  have hpage : ((s.exchanged z).state.zone z).capPage = (s.zone z).capPage := by
    rw [Zone.capPage_eq, State.written_exchanged, Zone.capPage_eq]
  refine State.exchanged_finish (hheld.trans ?_)
  unfold Work.map
  dsimp only
  rw [hlink, hpage, State.written_exchanged]
  rfl

/-- The link enters UP again in the event in which it has left UP. -/
theorem State.exchanged_up (h : page.fault = some f)
    (hr : highestRate ((s.zone z).written.rates &&& page.rates) = some rate) (hi : (s.zone z).written.identity = 0)
    (hn : page.nextPage = false) :
    (s.renegotiated z).state.entersUp ((s.exchanged z).evaluate z page).finish z { (s.link z).quiet with
        state := .up, downCause := some .renegotiate
        profile := some ⟨rate, min (s.zone z).written.capacity page.capacity, 0, f⟩, silenceTimer := some 40
        idleTimer := some 10, basePage := none, slowBlocks := some 1
        onLine := some (.capBase (s.zone z).written.rates (s.zone z).written.capacity false) } rate
      ∧ ∃ changed, (s.renegotiated z).state.tests ((s.exchanged z).evaluate z page).finish changed
          [⟨.linkUp, z.val, (rateBits rate : Int), s.clock⟩]
        ∧ ∀ y, zoneIn y changed = false → (((s.exchanged z).evaluate z page).finish.zone y).queue = (s.zone y).queue := by
  have hwritten : ((s.exchanged z).state.zone z).written = (s.zone z).written := State.written_exchanged
  have hup := Work.evaluate_up (w := s.exchanged z) (z := z) h (by rw [hwritten]; exact hr) (by rw [hwritten]; exact hi) hn
  rw [hwritten] at hup
  have hpage : ((s.exchanged z).state.zone z).capPage = .capBase (s.zone z).written.rates (s.zone z).written.capacity false := by
    rw [Zone.capPage_eq, hwritten, hi]
    rfl
  have hstate : ((s.exchanged z).map fun t => t.setLink z ((t.link z).send (t.zone z).capPage)).state
      = (s.renegotiated z).state.setLink z
          ((s.link z).renegotiating.send (.capBase (s.zone z).written.rates (s.zone z).written.capacity false)) := by
    unfold Work.map
    dsimp only
    rw [hpage, State.exchanged_state, State.link_setLink_self, State.setLink_setLink]
  have hclock : (s.renegotiated z).state.clock = s.clock := by
    rw [(State.left_renegotiated s z).rest]
    rfl
  obtain ⟨-, -, -, ⟨changed, htests, htouched, hqueues⟩, -⟩ := Work.entersUp_finish (z := z)
    (p := ⟨rate, min (s.zone z).written.capacity page.capacity, 0, f⟩) hstate
  rw [hup]
  refine ⟨?_, changed, hclock ▸ htests, fun y hy => (hqueues y hy).trans ?_⟩
  · exact Work.entersUp_whole hstate State.calls_exchanged
  · have hmarks : s.begin.Marks (s.renegotiated z) := Work.marks_leaveUp ..
    refine ((hmarks.zones y).unmarked ?_).1
    cases hmark : zoneIn y (s.renegotiated z).touched with
    | false => rfl
    | true =>
      rw [← State.touched_exchanged] at hmark
      rw [htouched y hmark] at hy
      cases hy

theorem exec_capBase (z : ZoneId) (body : List Byte) (s : State) : exec (.capBase z body) s
    = .next (receive z (readCapBase body) (fun st page u =>
      match st with
      | .hunt => (u.begin.enterExchange z page).finish
      | .exchange => (u.begin.evaluate z page).finish
      | .up => ((u.begin.leaveUp z .renegotiate).enterExchange z page).finish
      | .off | .failed => u) s) := rfl

/-- A page taken in HUNT or in EXCHANGE is evaluated with the link in EXCHANGE. -/
theorem exec_capBase_starting {body : List Byte} (hread : readCapBase body = some page)
    (hx : (s.link z).state = .hunt ∧ x = { (s.link z).stopTimers with
          state := .exchange, exchangeTimer := some 30, basePage := none, received := none }
        ∨ (s.link z).state = .exchange ∧ x = { s.link z with received := none }) :
    exec (.capBase z body) s = .next ((s.setLink z x).begin.evaluate z page).finish := by
  rcases hx with ⟨hstate, rfl⟩ | ⟨hstate, rfl⟩
  · rw [exec_capBase, receive_good _ (by rw [hstate]; decide) hread, hstate, State.takeValid_ne (by rw [hstate]; decide)]
    dsimp only
    rw [Work.enterExchange_eq]
    unfold Work.map State.begin
    dsimp only
    rw [State.link_setLink_self, State.setLink_setLink]
    rfl
  · rw [exec_capBase, receive_good _ (by rw [hstate]; decide) hread, hstate, State.takeValid_ne (by rw [hstate]; decide)]

/-- A page taken in UP is evaluated after the departure from UP. -/
theorem exec_capBase_up {body : List Byte} (hread : readCapBase body = some page) (hstate : (s.link z).state = .up) :
    exec (.capBase z body) s = .next
      (((s.setLink z { s.link z with received := none, silenceTimer := some 40 }).exchanged z).evaluate z page).finish := by
  rw [exec_capBase, receive_good _ (by rw [hstate]; decide) hread, hstate, State.takeValid_up hstate]
  rfl

/-- The link of a state in which a block has just been taken, with nothing to send. -/
theorem State.quiet_taken (s : State) (z : ZoneId) :
    ((s.setLink z { s.link z with received := none, silenceTimer := some 40 }).link z).quiet
      = { (s.link z).quiet with received := none } := by
  rw [State.link_setLink_self]
  rfl

end

/-- Settles O34: the body, and the four ends of an evaluation in EXCHANGE and after a departure from UP. -/
theorem capBaseIsEvaluated : Obligations.CapBaseIsEvaluated := by
  refine ⟨fun body => ⟨readCapBase_none, readCapBase_of⟩, fun rates => rfl, fun x rate => ⟨Link.changeRate_clear,
    Link.changeRate_queued, Link.changeRate_busy, rfl, fun b => Link.send_eq b x⟩,
    fun s z body page hread => ⟨fun x hx => ⟨fun hfault => ?_, fun f hfault => ⟨fun hnone => ?_,
      fun rate hrate => ⟨fun hnext => ?_, fun hi hnext => ?_⟩⟩⟩, fun hup => ⟨fun hfault => ?_, fun f hfault => ⟨fun hnone => ?_,
        fun rate hrate => ⟨fun hnext => ?_, fun hi hnext => ?_⟩⟩⟩⟩⟩
  · rw [exec_capBase_starting hread hx, State.evaluate_offline_finish hfault]
  · rw [exec_capBase_starting hread hx, State.evaluate_mismatch_finish hfault hnone]
  · rw [exec_capBase_starting hread hx, State.evaluate_held_finish hfault hrate hnext]
    rfl
  · rw [exec_capBase_starting hread hx]
    exact ⟨_, rfl, State.evaluate_up_finish hfault hrate hi hnext⟩
  · obtain ⟨hleft, hcleared, hlink⟩ := State.exchanged_failed (s := s.setLink z _) (Work.evaluate_offline hfault)
    refine ⟨_, exec_capBase_up hread hup, State.leftUp_setLink hleft, hcleared, ?_⟩
    rw [hlink, State.quiet_taken]
  · obtain ⟨hleft, hcleared, hlink⟩ := State.exchanged_failed (s := s.setLink z _) (Work.evaluate_mismatch hfault (by
      rw [State.written_exchanged]
      exact highestRate_none hnone))
    refine ⟨_, exec_capBase_up hread hup, State.leftUp_setLink hleft, hcleared, ?_⟩
    rw [hlink, State.quiet_taken]
  · obtain ⟨hleft, hcleared, hlink⟩ := State.exchanged_held (s := s.setLink z _) hfault hrate hnext
    refine ⟨_, exec_capBase_up hread hup, State.leftUp_setLink hleft, hcleared, ?_⟩
    rw [hlink, State.quiet_taken]
    rfl
  · have hleft := (State.left_renegotiated (s.setLink z { s.link z with received := none, silenceTimer := some 40 }) z)
    obtain ⟨henters, htests⟩ := State.exchanged_up (s := s.setLink z _) hfault hrate hi hnext
    rw [State.quiet_taken] at henters
    exact ⟨_, _, exec_capBase_up hread hup, State.leftUp_setLink hleft.leftUp, hleft.flag, henters, htests⟩

end Sys2Proof.Machine
end

/-! ## CAP_NEXT and the quiet inbound blocks (R118 to R121, R123) -/

section
namespace Sys2Proof.Machine

/-! ### CAP_NEXT -/

section
variable {s : State} {z : ZoneId} {identity : Nat} {page : BasePage}

theorem exec_capNext (z : ZoneId) (body : List Byte) (s : State) : exec (.capNext z body) s
    = .next (receive z (readCapNext body) (fun st identity u => if st = .exchange then u.capNext z identity else u) s) := rfl

theorem readCapNext_of (h : identity < 65536) : readCapNext (bytesOf 2 identity) = some identity := by
  have hfield : fieldAt (bytesOf 2 identity) 0 2 = identity := (fieldAt_bytesOf_nil 2 identity).trans (Nat.mod_eq_of_lt h)
  unfold readCapNext
  rw [if_neg (by simp), hfield]

/-- A CAP_NEXT in EXCHANGE. -/
theorem exec_capNext_exchange (h : identity < 65536) (hstate : (s.link z).state = .exchange) :
    exec (.capNext z (bytesOf 2 identity)) s
      = .next ((s.setLink z { s.link z with received := none }).capNext z identity) := by
  rw [exec_capNext, receive_good _ (by rw [hstate]; decide) (readCapNext_of h), if_pos hstate,
    State.takeValid_ne (by rw [hstate]; decide)]

theorem State.capNext_wrongSite {x : Link} (hpage : x.basePage = some page) (h0 : (s.zone z).written.identity ≠ 0)
    (hne : (s.zone z).written.identity ≠ identity) : (s.setLink z x).capNext z identity = s.setLink z { x.quiet with
      state := .failed, downCause := some .wrongSite, holdOffTimer := some 20, basePage := none } := by
  have hwrong : ((s.setLink z x).zone z).written.identity ≠ 0 ∧ ((s.setLink z x).zone z).written.identity ≠ identity :=
    ⟨h0, hne⟩
  unfold State.capNext
  rw [State.link_setLink_self, hpage]
  dsimp only
  rw [if_pos hwrong, State.setLink_enterFailed]

theorem State.capNext_up {x : Link} (hpage : x.basePage = some page)
    (h : (s.zone z).written.identity = 0 ∨ (s.zone z).written.identity = identity) :
    (s.setLink z x).capNext z identity = ((s.setLink z x).begin.enterUp z
      ⟨page.agreedRate, page.agreedCapacity, identity, page.fault⟩).finish := by
  have hright : ¬ (((s.setLink z x).zone z).written.identity ≠ 0 ∧ ((s.setLink z x).zone z).written.identity ≠ identity) :=
    fun hwrong => h.elim hwrong.1 hwrong.2
  unfold State.capNext
  rw [State.link_setLink_self, hpage]
  dsimp only
  rw [if_neg hright]

/-- What a queue holds stays when records are offered. -/
theorem Port.events_takes (rs : List EventRecord) (x : Port) : x.events <+: (x.takes rs).events := by
  induction rs generalizing x with
  | nil => exact List.prefix_refl _
  | cons r rest ih =>
    rw [Port.takes_cons, Port.takes_one]
    split
    · refine List.IsPrefix.trans ?_ (ih _)
      unfold Port.offer
      split
      · exact List.prefix_append ..
      · exact List.prefix_refl _
    · exact ih x

/-- The first record offered stands in a queue that had room. -/
theorem Port.mem_takes_first {r : EventRecord} {rs : List EventRecord} {x : Port} (hrole : x.role ∈ eventRoles r.kind)
    (hroom : x.events.length < 32) : r ∈ (x.takes (r :: rs)).events := by
  have hfirst : (x.takes [r]).events = x.events ++ [r] := by
    have hroom : x.events.length < Config.eventQueueSize := hroom
    rw [Port.takes_one, if_pos hrole, Port.offer, if_pos hroom]
  rw [Port.takes_cons]
  refine (Port.events_takes rs _).subset ?_
  rw [hfirst]
  exact List.mem_append_right _ (List.mem_singleton_self r)

end

/-- Settles O35: WRONG_SITE, or the entry to UP of `Work.entersUp_whole`. -/
theorem capNextEndsTheExchange : Obligations.CapNextEndsTheExchange := by
  intro s z identity page hidentity hstate hpage
  rw [exec_capNext_exchange hidentity hstate]
  refine ⟨fun h0 hne => ?_, fun h => ?_⟩
  · rw [State.capNext_wrongSite (x := { s.link z with received := none }) hpage h0 hne]
    rfl
  · rw [State.capNext_up (x := { s.link z with received := none }) hpage h]
    have henters := Work.entersUp_whole (s := s) (w := (s.setLink z { s.link z with received := none }).begin) (z := z)
      (p := ⟨page.agreedRate, page.agreedCapacity, identity, page.fault⟩) rfl rfl
    refine ⟨_, rfl, henters, fun q hrole hroom => ?_, fun slot hslot m a hm ha hz => ?_⟩
    · obtain ⟨changed, htests, -⟩ := henters.tests
      rw [htests.records q]
      refine Port.mem_takes_first ?_ hroom
      show (s.port q).role ∈ [Role.dispatch, Role.supervisor]
      simpa using hrole
    · have hresumes : s.resumesIn z z slot = true := by
        refine State.resumesIn_iff.mpr ⟨m, a, hm, ha, hz, ?_⟩
        simp [zoneIn_and, hz, zoneIn_insert]
      rw [henters.resumes.stalls, List.mem_filter]
      simp [hresumes]

/-! ### The inbound blocks -/

/-- An inbound block is received by its kind: its body is read or bad, in FAILED it has no effect, and in HUNT only CAP_BASE
has one. -/
theorem exec_block {i : Instr} {z : ZoneId} {kind : Byte} {body : List Byte} (h : linkFields i = some (z, kind, body)) :
    ∃ (α : Type) (fields : Option α) (handle : LinkState → α → State → State), (∀ s, exec i s = .next (receive z fields handle s))
      ∧ inboundBodyGood kind.toNat body = fields.isSome ∧ (∀ x u, handle .failed x u = u)
      ∧ (kind ≠ 0x01 → ∀ x u, handle .hunt x u = u) := by
  cases i with
  | capBase zone body => cases h; exact ⟨_, _, _, fun _ => rfl, rfl, fun _ _ => rfl, fun hne => absurd rfl hne⟩
  | capNext zone body =>
    cases h
    exact ⟨_, _, _, fun _ => rfl, rfl, fun _ _ => if_neg (by decide), fun _ _ _ => if_neg (by decide)⟩
  | idle zone body => cases h; exact ⟨_, _, _, fun _ => rfl, rfl, fun _ _ => rfl, fun _ _ _ => rfl⟩
  | batchAccept zone body =>
    cases h
    exact ⟨_, _, _, fun s => exec_batchAccept _ _ s, rfl, fun _ _ => if_neg (by decide), fun _ _ _ => if_neg (by decide)⟩
  | batchRefuse zone body =>
    cases h
    exact ⟨_, _, _, fun s => exec_batchRefuse _ _ s, rfl, fun _ _ => if_neg (by decide), fun _ _ _ => if_neg (by decide)⟩
  | pagerAck zone body =>
    cases h
    exact ⟨_, _, _, fun _ => rfl, rfl, fun _ _ => if_neg (by decide), fun _ _ _ => if_neg (by decide)⟩
  | pagerLocate zone body =>
    cases h
    exact ⟨_, _, _, fun _ => rfl, rfl, fun _ _ => if_neg (by decide), fun _ _ _ => if_neg (by decide)⟩
  | siteStatus zone body =>
    cases h
    exact ⟨_, _, _, fun s => exec_siteStatus _ _ s, rfl, fun x _ => by cases x <;> rfl, fun _ x _ => by cases x <;> rfl⟩
  | _ => cases h

section
variable {s : State} {z : ZoneId} {i : Instr} {kind : Byte} {body : List Byte}

theorem exec_block_off (h : linkFields i = some (z, kind, body)) (hoff : (s.link z).state = .off) : exec i s = .next s := by
  obtain ⟨α, fields, handle, hexec, -⟩ := exec_block h
  rw [hexec, receive_off fields handle hoff]

theorem exec_block_bad (h : linkFields i = some (z, kind, body)) (hbad : inboundBodyGood kind.toNat body = false) :
    exec i s = .next (s.countBad z) := by
  obtain ⟨α, fields, handle, hexec, hgood, -⟩ := exec_block h
  have hnone : fields = none := by
    rw [hbad] at hgood
    exact Option.not_isSome_iff_eq_none.mp (by rw [← hgood]; decide)
  rw [hexec]
  by_cases hoff : (s.link z).state = .off
  · rw [receive_off fields handle hoff, State.countBad, if_pos hoff]
  · rw [receive_bad handle hoff hnone]

theorem exec_block_ignored (h : linkFields i = some (z, kind, body)) (hgood : inboundBodyGood kind.toNat body = true)
    (hstate : (s.link z).state = .failed ∨ (s.link z).state = .hunt ∧ kind ≠ 0x01) :
    exec i s = .next (s.setLink z { s.link z with received := none }) := by
  obtain ⟨α, fields, handle, hexec, hread, hfailed, hhunt⟩ := exec_block h
  obtain ⟨x, hx⟩ := Option.isSome_iff_exists.mp (hread.symm.trans hgood)
  rw [hexec]
  rcases hstate with hst | ⟨hst, hkind⟩
  · rw [receive_good handle (by rw [hst]; decide) hx, hst, hfailed, State.takeValid_ne (by rw [hst]; decide)]
  · rw [receive_good handle (by rw [hst]; decide) hx, hst, hhunt hkind, State.takeValid_ne (by rw [hst]; decide)]

theorem exec_idle (hon : (s.link z).state ≠ .off) : exec (.idle z []) s = .next (s.takeValid z) :=
  congrArg _ (receive_good (fields := readIdle []) (fun _ _ u => u) hon rfl)

theorem readSiteStatus_of (f : RemoteFault) : readSiteStatus [remoteFaultCode f] = some (some f) := by
  cases f <;> simp [readSiteStatus, fieldAt_cons_zero, remoteFaultCode, siteFaultOfCode]

end

/-- Settles O36: each block by the link's state. -/
theorem quietInboundBlocks : Obligations.QuietInboundBlocks := by
  intro s z f identity hidentity
  refine ⟨fun hup => ⟨?_, ?_, ?_⟩, fun hstate => ⟨?_, fun hpage => ?_, ?_, ?_⟩, fun i kind body hi hgood =>
    ⟨exec_block_off hi, exec_block_ignored hi hgood⟩⟩
  · rw [exec_idle (by rw [hup]; decide), State.takeValid_up hup]
  · rw [exec_capNext, receive_good _ (by rw [hup]; decide) (readCapNext_of hidentity), if_neg (by rw [hup]; decide),
      State.takeValid_up hup]
  · rw [exec_siteStatus, receive_good _ (by rw [hup]; decide) (readSiteStatus_of f), hup, State.takeValid_up hup]
    simp only [State.siteStatus, State.link_setLink_self, State.setLink_setLink]
  · rw [exec_idle (by rw [hstate]; decide), State.takeValid_ne (by rw [hstate]; decide)]
  · rw [exec_capNext_exchange hidentity hstate]
    unfold State.capNext
    rw [State.link_setLink_self, hpage]
  · rw [exec_siteStatus, receive_good _ (by rw [hstate]; decide) readSiteStatus_offline, hstate,
      State.takeValid_ne (by rw [hstate]; decide)]
    simp only [State.siteStatus]
    rw [State.setLink_enterFailed]
    rfl
  · rw [exec_siteStatus, receive_good _ (by rw [hstate]; decide) (readSiteStatus_of f), hstate,
      State.takeValid_ne (by rw [hstate]; decide)]
    simp only [State.siteStatus, State.link_setLink_self, State.setLink_setLink]

end Sys2Proof.Machine
end

/-! ## The link receiver, bad blocks and READ_LINK (R112 to R114, R127) -/

section
namespace Sys2Proof.Machine

/-! ### The bodies that each inbound kind allows (Table 7-3) -/

section
variable {body : List Byte}

theorem readCapBase_isSome : (readCapBase body).isSome = true ↔ body.length = 5 ∧ 96 ≤ fieldAt body 1 2
    ∧ fieldAt body 1 2 ≤ 2048 ∧ fieldAt body 3 1 ≤ 2 := by
  constructor
  · intro h
    by_contra hout
    rw [readCapBase_none (by omega)] at h
    cases h
  · rintro ⟨hb, hlow, hhigh, hfault⟩
    rw [readCapBase_of hb hlow hhigh hfault]
    rfl

theorem siteFaultOfCode_isSome (v : Nat) : (siteFaultOfCode v).isSome = true ↔ v ≤ 2 := by
  by_cases h : v ≤ 2
  · simp [siteFaultOfCode_eq h, h]
  · simp [siteFaultOfCode_none (Nat.lt_of_not_le h), h]

theorem readSiteStatus_isSome : (readSiteStatus body).isSome = true ↔ body.length = 1 ∧ fieldAt body 0 1 ≤ 2 := by
  unfold readSiteStatus
  by_cases hb : body.length = 1
  · simp [hb, siteFaultOfCode_isSome]
  · simp [hb]

theorem inboundBodyGood_iff (kind : Nat) (body : List Byte) : inboundBodyGood kind body = true ↔
    kind = 0x01 ∧ body.length = 5 ∧ 96 ≤ fieldAt body 1 2 ∧ fieldAt body 1 2 ≤ 2048 ∧ fieldAt body 3 1 ≤ 2
      ∨ kind = 0x02 ∧ body.length = 2 ∨ kind = 0x03 ∧ body.length = 0
      ∨ (kind = 0x20 ∨ kind = 0x21) ∧ body.length = 1 ∨ kind = 0x22 ∧ body.length = 7 ∨ kind = 0x23 ∧ body.length = 3
      ∨ kind = 0x24 ∧ body.length = 1 ∧ fieldAt body 0 1 ≤ 2 := by
  unfold inboundBodyGood
  split
  · simp [readCapBase_isSome]
  · simp [readCapNext]
  · simp [readIdle]
  · simp [readBatchAnswer]
  · simp [readBatchAnswer]
  · simp [readPagerAck]
  · simp [readPagerLocate]
  · simp [readSiteStatus_isSome]
  · refine iff_of_false (by decide) fun h => ?_
    rcases h with ⟨rfl, -⟩ | ⟨rfl, -⟩ | ⟨rfl, -⟩ | ⟨rfl | rfl, -⟩ | ⟨rfl, -⟩ | ⟨rfl, -⟩ | ⟨rfl, -⟩ <;> contradiction

end

/-! ### The judgement of a block (R114) -/

/-- Bytes that end with two of their own are judged by those two. -/
theorem crcGood_iff {covered crc : List Byte} (h : crc.length = 2) : crcGood (covered ++ crc) = true ↔ crc = crcBytes covered := by
  have hlen : (covered ++ crc).length - 2 = covered.length := by rw [List.length_append, h]; omega
  unfold crcGood
  rw [hlen, List.drop_left, List.take_left]
  simp [h]

theorem blockGood_iff {kind length : Byte} {body crc : List Byte} (hlength : length.toNat = body.length) (hcrc : crc.length = 2) :
    blockGood (kind :: length :: body ++ crc) = true ↔
      body.length ≤ 128 ∧ crc = crcBytes (kind :: length :: body) ∧ inboundBodyGood kind.toNat body = true := by
  have hkind : fieldAt (kind :: length :: body ++ crc) 0 1 = kind.toNat := fieldAt_cons_zero kind (length :: body ++ crc)
  have hfield : fieldAt (kind :: length :: body ++ crc) 1 1 = body.length := by
    rw [← hlength]
    exact (fieldAt_cons_skip kind (length :: body ++ crc) (by decide)).trans (fieldAt_cons_zero length (body ++ crc))
  have hbody : ((kind :: length :: body ++ crc).drop 2).take body.length = body := List.take_left
  have hwhole : (kind :: length :: body ++ crc).length = body.length + 4 := by simp [hcrc]
  unfold blockGood
  rw [hkind, hfield, hbody, hwhole, Bool.and_eq_true, Bool.and_eq_true, decide_eq_true_eq, crcGood_iff hcrc, and_assoc]
  refine and_congr_left fun _ => ?_
  omega

/-! ### The receiver -/

section
variable {s : State} {z : ZoneId}

theorem exec_badBlock (z : ZoneId) (block : List Byte) (s : State) :
    exec (.badBlock z block) s = .next (if blockGood block then s else s.countBad z) := rfl

theorem State.countBad_eq (s : State) (z : ZoneId) : s.countBad z = if (s.link z).state = .off then s
    else s.setLink z { s.link z with rxErrors := min 255 ((s.link z).rxErrors + 1), received := none } := rfl

/-- What stands received of a block does not change how a bad block is counted. -/
theorem State.countBad_received (r : Option (List Byte)) (hon : (s.link z).state ≠ .off) :
    (s.setLink z { s.link z with received := r }).countBad z
      = s.setLink z { s.link z with rxErrors := min 255 ((s.link z).rxErrors + 1), received := none } := by
  unfold State.countBad
  rw [State.link_setLink_self, if_neg hon, State.setLink_setLink]

theorem State.after_eq {i : Instr} {s t : State} (h : exec i s = .next t) : s.after i = t := by
  rw [exec_after] at h
  exact Host.Outcome.next.inj h

theorem State.linkByte_off (b : Byte) (hoff : (s.link z).state = .off) : s.linkByte z b = s := by
  simp only [State.linkByte, hoff, if_true]

theorem State.linkByte_between (b : Byte) (hon : (s.link z).state ≠ .off) (hnone : (s.link z).received = none) :
    s.linkByte z b = if b = 0xA6 then s.setLink z { s.link z with received := some [] } else s := by
  simp only [State.linkByte, hon, if_false, hnone]

/-- A length byte above 128 ends its block at once. -/
theorem State.linkByte_long {kind length : Byte} (hon : (s.link z).state ≠ .off) (hreceived : (s.link z).received = some [kind])
    (hlong : 128 < length.toNat) : s.linkByte z length
      = s.setLink z { s.link z with rxErrors := min 255 ((s.link z).rxErrors + 1), received := none } := by
  have hbyte : s.linkByte z length
      = (s.setLink z { s.link z with received := some [kind, length] }).after (.badBlock z [kind, length]) := by
    simp only [State.linkByte, hon, if_false, hreceived]
    exact if_pos ⟨rfl, hlong⟩
  have hbad : blockGood [kind, length] = false := by simp [blockGood]
  rw [hbyte]
  refine State.after_eq ?_
  rw [exec_badBlock, hbad, if_neg (by decide), State.countBad_received _ hon]

end

/-! ### READ_LINK (Table 10-9) -/

section
variable {x : Link}

theorem exec_readLink (p : PortId) (body : List Byte) (s : State) : exec (.readLink p body) s
    = .next (takeCommand p [.dispatch, .supervisor] (withLength 1 body (withRange (readZoneNumber body) readLink)) s) := rfl

/-- Presence and fields of the negotiated profile. -/
def profileFields : Option Profile → List (Nat × Nat)
  | some p => [(1, 1), (2, rateBits p.rate), (2, p.capacity), (2, p.identity), (1, (remoteFaultCode p.fault).toNat)]
  | none => [(8, 0)]

/-- The code of the last down cause, 0 before the first. -/
def Link.causeNumber (x : Link) : Nat := x.downCause.elim 0 fun c => (downCauseCode c).toNat

/-- Line rate, down cause, error count and timers. -/
def Link.lineFields (x : Link) : List (Nat × Nat) :=
  [(2, rateBits x.lineRate), (1, x.causeNumber), (1, x.rxErrors), (1, x.huntTimer.getD 255), (1, x.exchangeTimer.getD 255),
    (1, x.silenceTimer.getD 255), (1, x.idleTimer.getD 255), (1, x.holdOffTimer.getD 255)]

theorem linkBytes_eq (x : Link) : linkBytes x = fieldsBytes [(1, (linkStateCode x.state).toNat),
      (1, (flagByte (decide (x.state ≠ .off))).toNat)]
    ++ (fieldsBytes (profileFields x.profile) ++ fieldsBytes x.lineFields) := by
  unfold linkBytes Link.lineFields timerByte Link.causeNumber
  cases x.profile <;> cases x.downCause <;>
    simp only [profileFields, fieldsBytes_cons, fieldsBytes_nil, bytesOf_one_toNat, bytesOf_one_zero, List.append_assoc,
      List.append_nil, List.cons_append, List.nil_append, Option.elim_none, Option.elim_some] <;> rfl

theorem profileFields_length (o : Option Profile) : (fieldsBytes (profileFields o)).length = 8 := by
  cases o <;> simp [profileFields]

theorem linkBytes_length (x : Link) : (linkBytes x).length = 19 := by
  rw [linkBytes_eq]
  simp only [List.length_append, profileFields_length]
  simp [Link.lineFields]

theorem fieldAt_link_profile {off len : Nat} (h : off + len ≤ 8) :
    fieldAt (linkBytes x) (2 + off) len = fieldAt (fieldsBytes (profileFields x.profile)) off len := by
  rw [linkBytes_eq, fieldAt_append (k := off) (by simp)]
  exact fieldAt_append_left _ (by rw [profileFields_length]; exact h)

theorem fieldAt_link_line {off len : Nat} : fieldAt (linkBytes x) (10 + off) len = fieldAt (fieldsBytes x.lineFields) off len := by
  rw [linkBytes_eq, fieldAt_append (k := 8 + off) (by simp; omega), fieldAt_append (k := off) (by rw [profileFields_length])]

theorem Link.causeNumber_eq (x : Link) :
    x.causeNumber = (match x.downCause with | some c => (downCauseCode c).toNat | none => 0) := by
  unfold Link.causeNumber
  cases x.downCause <;> rfl

theorem Link.causeNumber_lt (x : Link) : x.causeNumber < 256 ^ 1 := by
  unfold Link.causeNumber
  cases x.downCause with
  | none => decide
  | some c => exact BitVec.isLt _

theorem fieldAt_link_state (x : Link) : fieldAt (linkBytes x) 0 1 = (linkStateCode x.state).toNat
    ∧ fieldAt (linkBytes x) 1 1 = (if x.state = .off then 0 else 1) := by
  rw [linkBytes_eq]
  refine ⟨(fieldAt_fields 0 rfl rfl).trans (Nat.mod_eq_of_lt (BitVec.isLt _)),
    ((fieldAt_fields 1 rfl rfl).trans (Nat.mod_eq_of_lt (BitVec.isLt _))).trans ?_⟩
  by_cases h : x.state = .off <;> simp [h, flagByte]

theorem fieldAt_link_profile_all (x : Link) : match x.profile with
    | none => fieldAt (linkBytes x) 2 8 = 0
    | some p => fieldAt (linkBytes x) 2 1 = 1 ∧ fieldAt (linkBytes x) 3 2 = rateBits p.rate
        ∧ fieldAt (linkBytes x) 5 2 = p.capacity % 65536 ∧ fieldAt (linkBytes x) 7 2 = p.identity % 65536
        ∧ fieldAt (linkBytes x) 9 1 = (remoteFaultCode p.fault).toNat := by
  have hprofile := fun off len (h : off + len ≤ 8) => fieldAt_link_profile (x := x) h
  cases hp : x.profile with
  | none =>
    rw [hp] at hprofile
    exact (hprofile 0 8 (by decide)).trans (fieldAt_fields_lt 0 rfl rfl (by decide))
  | some p =>
    rw [hp] at hprofile
    have hrate : rateBits p.rate < 256 ^ 2 := by cases p.rate <;> decide
    exact ⟨(hprofile 0 1 (by decide)).trans (fieldAt_fields_lt 0 rfl rfl (by decide)),
      (hprofile 1 2 (by decide)).trans (fieldAt_fields_lt 1 rfl rfl hrate),
      (hprofile 3 2 (by decide)).trans (fieldAt_fields_nil 2 rfl rfl),
      (hprofile 5 2 (by decide)).trans (fieldAt_fields_nil 3 rfl rfl),
      (hprofile 7 1 (by decide)).trans (fieldAt_fields_lt 4 rfl rfl (BitVec.isLt _))⟩

end

/-- Settles O37: the judgement of a block, the receiver byte by byte, and the response of READ_LINK by its layout. -/
theorem badBlocksAreCounted : Obligations.BadBlocksAreCounted := by
  refine ⟨inboundBodyGood_iff, fun kind length body crc => blockGood_iff, ⟨rfl, rfl, rfl, rfl⟩, fun s z =>
    ⟨fun t ht => ⟨fun block hbad => ?_, fun i kind body hi hbad => ?_, fun kind length hon hreceived hlong => ?_⟩,
      fun b => ⟨State.linkByte_off b, State.linkByte_between b, ?_⟩, fun block hon hnone h4 hlength hshort => ?_,
      fun p body hs hb => ⟨fun h => ?_, fun hz => ?_⟩⟩⟩
  · rw [exec_badBlock, hbad, if_neg (by decide), ht, State.countBad_eq]
  · rw [exec_block_bad hi hbad, ht, State.countBad_eq]
  · rw [State.linkByte_long hon hreceived hlong, ht, if_neg hon]
  · rw [State.linkBits, byteOfBits_bitsMsbFirst]
  · rw [exec_after, State.linkBytes_block z s hon hnone block h4 hlength hshort]
  · rw [exec_readLink, takeCommand_range _ hs hb (readZoneNumber_none h)]
  · obtain ⟨hstate, hactive⟩ := fieldAt_link_state (s.link z)
    have hrate : rateBits (s.link z).lineRate < 256 ^ 2 := by cases (s.link z).lineRate <;> decide
    have hreply : readLink z s = ⟨.ok, linkBytes (s.link z), s.setLink z { s.link z with rxErrors := 0 }⟩ := rfl
    refine ⟨linkBytes (s.link z), congrArg _ (takeCommand_answers hs hb (readZoneNumber_of hz) hreply rfl), linkBytes_length _, hstate,
      hactive, fieldAt_link_profile_all (s.link z),
      (fieldAt_link_line (off := 0)).trans (fieldAt_fields_lt 0 rfl rfl hrate),
      ((fieldAt_link_line (off := 2)).trans (fieldAt_fields_lt 1 rfl rfl (Link.causeNumber_lt _))).trans (Link.causeNumber_eq _),
      (fieldAt_link_line (off := 3)).trans (fieldAt_fields_nil 2 rfl rfl),
      (fieldAt_link_line (off := 4)).trans (fieldAt_fields_nil 3 rfl rfl),
      (fieldAt_link_line (off := 5)).trans (fieldAt_fields_nil 4 rfl rfl),
      (fieldAt_link_line (off := 6)).trans (fieldAt_fields_nil 5 rfl rfl),
      (fieldAt_link_line (off := 7)).trans (fieldAt_fields_nil 6 rfl rfl),
      (fieldAt_link_line (off := 8)).trans (fieldAt_fields_nil 7 rfl rfl)⟩

end Sys2Proof.Machine
end

/-! ## The expiry of a wait and the blocks about a pager (R8, R129 to R138) -/

section
namespace Sys2Proof.Machine

/-! ### RETRY_EXPIRY and REPEAT_EXPIRY -/

section
variable {s : State} {slot : SlotId} {m : Message}

theorem exec_retryExpiry (slot : SlotId) (s : State) : exec (.retryExpiry slot) s
    = .next (if s.retryReady slot .twoWay then s.expireRetry slot else s) := rfl

theorem exec_repeatExpiry (slot : SlotId) (s : State) : exec (.repeatExpiry slot) s
    = .next (if s.retryReady slot .oneWay then s.expireRetry slot else s) := rfl

theorem State.retryReady_iff {kind : PagerKind} : s.retryReady slot kind = true ↔ s.phase = .working ∧ s.dueRetry = some slot
    ∧ (s.openMessage slot).map Message.kind = some kind := by
  simp [State.retryReady]

theorem Message.lastTick_of_wait (hm : s.message slot = some m) : m.lastTick = true ↔
    s.slotState slot = .wait ∧ m.frozen = false ∧ ∃ n, m.retryTimer = some n ∧ n ≤ 1 := by
  rw [Message.lastTick_iff, State.slotState_of hm, State.slotStateOf_wait]
  simp only [Option.mem_def]

/-- R135: the slot whose wait expires first in the next tick. -/
theorem State.dueRetry_wait (h : s.canonical) : s.dueRetry = some slot ↔
    (∃ m n, s.message slot = some m ∧ s.slotState slot = .wait ∧ m.frozen = false ∧ m.retryTimer = some n ∧ n ≤ 1)
    ∧ ∀ j m n, j < slot → s.message j = some m → s.slotState j = .wait → m.frozen = false → m.retryTimer = some n → 1 < n := by
  rw [State.dueRetry_iff h, State.mem_lastTicks h]
  refine and_congr ⟨?_, ?_⟩ ⟨fun hnone j m n hj hm hwait hfrozen htimer => ?_, fun hlate j hj hmem => ?_⟩
  · rintro ⟨m, hm, htick⟩
    obtain ⟨hwait, hfrozen, n, htimer, hn⟩ := (Message.lastTick_of_wait hm).mp htick
    exact ⟨m, n, hm, hwait, hfrozen, htimer, hn⟩
  · rintro ⟨m, n, hm, hwait, hfrozen, htimer, hn⟩
    exact ⟨m, hm, (Message.lastTick_of_wait hm).mpr ⟨hwait, hfrozen, n, htimer, hn⟩⟩
  · by_contra hn
    exact hnone j hj ((State.mem_lastTicks h).mpr
      ⟨m, hm, (Message.lastTick_of_wait hm).mpr ⟨hwait, hfrozen, n, htimer, Nat.le_of_not_lt hn⟩⟩)
  · obtain ⟨m, hm, htick⟩ := (State.mem_lastTicks h).mp hmem
    obtain ⟨hwait, hfrozen, n, htimer, hn⟩ := (Message.lastTick_of_wait hm).mp htick
    exact absurd (hlate j m n hj hm hwait hfrozen htimer) (Nat.not_lt.mpr hn)

/-- The message of the slot that is due is open, with its last attempt. -/
theorem State.dueRetry_open (h : s.canonical) (hdue : s.dueRetry = some slot) (hm : s.message slot = some m) :
    m.closing = none ∧ ∃ a, m.lastAttempt = some a := by
  obtain ⟨m', hm', htick⟩ := (State.mem_lastTicks h).mp ((State.dueRetry_iff h).mp hdue).1
  rw [hm] at hm'
  cases hm'
  obtain ⟨hwait, -, -⟩ := Message.lastTick_iff.mp htick
  obtain ⟨hopen, a, ha, -⟩ := Message.inWait_iff.mp hwait
  exact ⟨hopen, a, ha⟩

end

/-- Settles O39: the slot due by `State.dueRetry_wait`, and its expiry by `State.waitEnds_expireRetry`. -/
theorem waitExpiryFormsTheNextAttempt : Obligations.WaitExpiryFormsTheNextAttempt := by
  intro s slot
  simp only [exec_retryExpiry, exec_repeatExpiry]
  refine ⟨State.dueRetry_wait, fun hnot => ?_, fun m hworking hcanonical hdue hm => ?_⟩
  · have hidle : ∀ kind, ¬ s.retryReady slot kind = true := fun kind hready => by
      obtain ⟨hworking, hdue, -⟩ := State.retryReady_iff.mp hready
      exact hnot.elim (fun h => h hworking) fun h => h hdue
    rw [if_neg (hidle .twoWay), if_neg (hidle .oneWay)]
    exact ⟨rfl, rfl⟩
  · obtain ⟨hopen, a, ha⟩ := State.dueRetry_open hcanonical hdue hm
    have hends := State.waitEnds_expireRetry hm hopen ha
    have hready : ∀ kind, s.retryReady slot kind = true ↔ m.kind = kind := fun kind => by
      rw [State.retryReady_iff, State.openMessage_of hm hopen]
      simp [hworking, hdue]
    refine ⟨fun hk => ⟨?_, _, rfl, ?_⟩, fun hk => ⟨?_, _, rfl, ?_⟩⟩
    · rw [if_neg (by rw [hready, hk]; decide)]
    · rw [if_pos ((hready _).mpr hk)]
      exact hends
    · rw [if_neg (by rw [hready, hk]; decide)]
    · rw [if_pos ((hready _).mpr hk)]
      exact hends

/-! ### PAGER_LOCATE and PAGER_ACK -/

section
variable {s : State} {z : ZoneId} {a : PagerAddress}

theorem exec_pagerLocate (z : ZoneId) (body : List Byte) (s : State) : exec (.pagerLocate z body) s
    = .next (receive z (readPagerLocate body)
        (fun st address u => if st = .up ∨ st = .exchange then u.seen z address else u) s) := rfl

theorem exec_pagerAck (z : ZoneId) (body : List Byte) (s : State) : exec (.pagerAck z body) s
    = .next (receive z (readPagerAck body)
        (fun st tag u => if st = .up ∨ st = .exchange then (u.seen z tag.address).matchAck tag else u) s) := rfl

theorem link_on_of_taking (h : (s.link z).state = .up ∨ (s.link z).state = .exchange) : (s.link z).state ≠ .off := by
  rcases h with h | h <;> rw [h] <;> decide

theorem fieldAt_address (a : PagerAddress) (rest : List Byte) : fieldAt (bytesOf 3 a.toNat ++ rest) 0 3 = a.toNat :=
  (fieldAt_bytesOf 3 a.toNat rest).trans (Nat.mod_eq_of_lt (Nat.lt_of_lt_of_le a.isLt (by decide)))

theorem readPagerLocate_of (a : PagerAddress) : readPagerLocate (bytesOf 3 a.toNat) = some a := by
  have hfield := fieldAt_address a []
  rw [List.append_nil] at hfield
  unfold readPagerLocate
  rw [if_neg (by simp), hfield, BitVec.ofNat_toNat, BitVec.setWidth_eq]

/-- Last-seen is written in the directory alone. -/
theorem State.seen_rest (s : State) (z : ZoneId) (a : PagerAddress) :
    s.seen z a = { s with directory := (s.seen z a).directory } := by
  unfold State.seen
  cases s.mapped a with
  | none => rfl
  | some i => dsimp only; cases s.entry i <;> rfl

theorem State.seen_mapped {i : AccountIndex} {e : Entry} (hi : s.mapped a = some i) (he : s.entry i = some e) :
    s.seen z a = s.setEntry i { e with lastSeen := some ⟨z, s.clock⟩ } := by
  simp only [State.seen, hi, he]

theorem State.seen_unmapped (h : s.mapped a = none) : s.seen z a = s := by
  simp only [State.seen, h]

end

/-- Settles O40: the entry that the address is mapped to. -/
theorem pagerLocateUpdatesLastSeen : Obligations.PagerLocateUpdatesLastSeen := by
  intro s z a hstate
  have hexec : exec (.pagerLocate z (bytesOf 3 a.toNat)) s = .next ((s.takeValid z).seen z a) := by
    rw [exec_pagerLocate, receive_good _ (link_on_of_taking hstate) (readPagerLocate_of a), if_pos hstate]
  have hrest := State.seen_rest (s.takeValid z) z a
  have hlinks : ((s.takeValid z).seen z a).links = (s.takeValid z).links := by rw [hrest]
  refine ⟨_, hexec, fun i e hi he => ?_, fun hnone => ?_, ?_, fun y hy => ?_, ?_⟩
  · have hseen : (s.takeValid z).seen z a = (s.takeValid z).setEntry i { e with lastSeen := some ⟨z, s.clock⟩ } :=
      State.seen_mapped (s := s.takeValid z) hi he
    rw [hseen]
    exact ⟨State.entry_setEntry_self .., fun j hj => State.entry_setEntry_ne (s.takeValid z) _ hj⟩
  · rw [State.seen_unmapped (s := s.takeValid z) hnone]
    rfl
  · rw [State.link, hlinks]
    exact (State.link_takeValid s z z).trans (if_pos rfl)
  · rw [State.link, hlinks]
    exact (State.link_takeValid s z y).trans (if_neg hy)
  · rw [hrest]
    rfl

section
variable {s : State} {t : AckTag} {m : Message}

theorem State.matchAck_free (h : s.message t.slot = none) : s.matchAck t = s := by
  simp only [State.matchAck, h]

/-- Table 8-2: an acknowledgement that does not match its slot. -/
theorem State.matchAck_unmatched (hm : s.message t.slot = some m) (h : s.epoch t.slot ≠ t.epoch ∨ m.kind = .oneWay
    ∨ m.address ≠ t.address ∨ m.currentAttempt < t.attempt) : s.matchAck t = s := by
  simp only [State.matchAck, hm]
  split
  · rfl
  · next he =>
    split
    · rfl
    · next hk =>
      rw [if_pos]
      rcases h with h | h | h
      · exact absurd h he
      · exact absurd h hk
      · exact h

theorem State.matchAck_matched (hm : s.message t.slot = some m) (h : ¬ (s.epoch t.slot ≠ t.epoch ∨ m.kind = .oneWay
    ∨ m.address ≠ t.address ∨ m.currentAttempt < t.attempt)) : s.matchAck t = match m.closing with
      | none => s.closeMessage t.slot .delivered t.attempt
      | some c => if c.outcome = .delivered then s else s.lateAck t.slot t.epoch m := by
  push Not at h
  obtain ⟨he, hk, ha, hn⟩ := h
  simp only [State.matchAck, hm]
  rw [if_neg (fun hne => hne he), if_neg hk, if_neg (by rintro (hne | hlt); exacts [hne ha, absurd hlt (Nat.not_lt.mpr hn)])] <;> rfl

/-- R131: the record of a late acknowledgement. -/
theorem State.posted_lateAck (s : State) (slot : SlotId) (e : Epoch) (m : Message) :
    s.posted (s.lateAck slot e m) .lateAck m.billed.val (slot.val * 16 + e.toNat) := by
  intro q
  unfold State.lateAck
  rw [State.port_post_takes]
  push_cast
  rfl

end

/-- Settles O41: the tag word's fields, and each row of Table 8-2. -/
theorem pagerAckIsMatched : Obligations.PagerAckIsMatched := by
  intro s z address slot e k low body u hk hstate hbody hu
  obtain ⟨hw, hslot, hepoch, hattempt⟩ := tag_fields (low := low.toNat) slot.isLt e.isLt hk low.isLt rfl
  have hlength : body.length = 7 := by rw [hbody]; simp
  have hfield : fieldAt body 3 4 = slot.val * 8388608 + e.toNat * 524288 + k * 65536 + low.toNat := by
    rw [hbody, fieldAt_append (k := 0) (by simp), fieldAt_bytesOf_nil]
    exact Nat.mod_eq_of_lt hw
  have hread := readPagerAck_of hlength (hbody ▸ fieldAt_address address _) hfield hw hslot hepoch hattempt
  have hexec : exec (.pagerAck z body) s = .next (u.matchAck ⟨address, slot, e, k⟩) := by
    rw [exec_pagerAck, receive_good _ (link_on_of_taking hstate) hread, if_pos hstate, hu]
    rfl
  have hrest : u = { s.takeValid z with directory := u.directory } := hu ▸ State.seen_rest (s.takeValid z) z address
  have hmessage : u.message slot = s.message slot := by rw [hrest]; rfl
  have hepochs : u.epoch slot = s.epoch slot := by rw [hrest]; rfl
  rw [hexec, ← hepochs]
  cases hm : s.message slot with
  | none => exact congrArg _ (State.matchAck_free (hmessage.trans hm))
  | some m =>
    have hm : u.message slot = some m := hmessage.trans hm
    dsimp only
    split
    · next hunmatched => exact congrArg _ (State.matchAck_unmatched (t := ⟨address, slot, e, k⟩) hm hunmatched)
    · next hmatched =>
      rw [State.matchAck_matched (t := ⟨address, slot, e, k⟩) hm hmatched]
      cases hc : m.closing with
      | none => exact ⟨_, rfl, State.closes_closeMessage .delivered k hm hc⟩
      | some c =>
        dsimp only
        split
        · rfl
        · exact ⟨_, rfl, State.posted_lateAck u slot e m, rfl⟩

end Sys2Proof.Machine
end

/-! ## ACCOUNT_ADJUST, JOURNAL_FETCH and JOURNAL_CONFIG (R145 to R148, R150) -/

section
namespace Sys2Proof.Machine

section
variable {s u : State} {p : PortId} {body : List Byte} {i : AccountIndex} {e : Entry}

/-! ### The high-water test (R148) -/

theorem State.highWaterTest_rest (s : State) :
    s.highWaterTest = { s with journal := s.highWaterTest.journal, ports := s.highWaterTest.ports } := by
  unfold State.highWaterTest
  dsimp only
  split
  · split <;> rfl
  · rfl

/-- The test posts nothing below the high water, and nothing while it is not armed. -/
theorem State.highWaterTest_ports (h : s.journal.records.length < s.journal.highWater ∨ s.journal.armed = false) :
    s.highWaterTest.ports = s.ports := by
  unfold State.highWaterTest
  dsimp only
  split
  · next hfull =>
    rcases h with hlow | harmed
    · omega
    · rw [if_neg (by simp [harmed])]
  · rfl

/-- The test after an event that has changed records or high water only. -/
theorem State.testsWater_of (harmed : u.journal.armed = s.journal.armed) (hclock : u.clock = s.clock)
    (hports : u.ports = s.ports) : s.testsWater u.highWaterTest := by
  obtain ⟨htest, hrecords⟩ := State.testsWater_highWaterTest u
  refine ⟨htest, fun q => ?_⟩
  rw [← harmed, ← hclock, hrecords q]
  exact congrArg (fun x => Port.takes _ x) (State.port_congr hports q)

theorem State.gap_highWaterTest (s : State) (q : PortId) : (s.highWaterTest.port q).gap = (s.port q).gap :=
  (State.pages_highWaterTest s).gap q

/-! ### ACCOUNT_ADJUST (R150) -/

theorem exec_accountAdjust (p : PortId) (body : List Byte) (s : State) : exec (.accountAdjust p body) s
    = .next (takeCommand p [.accounts, .supervisor] (withLength 7 body (withRange (readAccountAdjust body) accountAdjust)) s) := rfl

theorem readAccountAdjust_of (hi : fieldAt body 0 2 = i.val) (hlow : -16777215 ≤ signedAt body 2)
    (hhigh : signedAt body 2 ≤ 16777215) : readAccountAdjust body = some (i, signedAt body 2, fieldAt body 6 1) := by
  unfold readAccountAdjust
  rw [readIndex_of hi]
  exact if_neg (by omega)

theorem readAccountAdjust_none (h : 8191 < fieldAt body 0 2 ∨ signedAt body 2 < -16777215 ∨ 16777215 < signedAt body 2) :
    readAccountAdjust body = none := by
  unfold readAccountAdjust
  rcases h with hindex | hamount
  · rw [readIndex_none hindex]
    rfl
  · cases readIndex body with
    | none => rfl
    | some i => exact if_pos hamount

/-- The entry with its balance changed and the record in the journal, before the high-water test. -/
def State.adjusted (s : State) (i : AccountIndex) (e : Entry) (r : AdjustRecord) : State :=
  { s.setEntry i { e with balance := r.balanceAfter } with
    journal := { s.journal with records := s.journal.records ++ [.adjust r] } }

theorem accountAdjust_unused (amount : Int) (reason : Nat) (h : s.entry i = none) :
    accountAdjust (i, amount, reason) s = refuse .noSubscriber s := by
  simp only [accountAdjust, h]

theorem accountAdjust_full (amount : Int) (reason : Nat) (h : s.entry i = some e) (hfull : s.journalFull = true) :
    accountAdjust (i, amount, reason) s = refuse .journalFull s := by
  simp only [accountAdjust, h, if_pos hfull]

theorem accountAdjust_used (amount : Int) (reason : Nat) (h : s.entry i = some e) (hfree : ¬ s.journalFull = true) :
    accountAdjust (i, amount, reason) s = ⟨.ok, bytesOf 2 i.val ++ bytesOfInt (clampSigned (e.balance + amount))
        ++ bytesOfInt (clampSigned (clampSigned (e.balance + amount) + e.creditLimit - e.held)),
      (s.adjusted i e ⟨i, amount, reason, clampSigned (e.balance + amount), s.clock⟩).highWaterTest⟩ := by
  simp only [accountAdjust, h, if_neg hfree]
  rfl

end

/-- Settles O43: the checks in their order, and the change with its record and its test. -/
theorem accountAdjustChangesTheBalance : Obligations.AccountAdjustChangesTheBalance := by
  intro s p body hs hb
  simp only [exec_accountAdjust]
  refine ⟨fun h => congrArg _ (takeCommand_range _ hs hb (readAccountAdjust_none h)), fun i hi hlow hhigh => ?_⟩
  have hread := readAccountAdjust_of hi hlow hhigh
  cases he : s.entry i with
  | none => exact congrArg _ (takeCommand_refused hs hb hread (accountAdjust_unused _ _ he))
  | some e =>
    simp only [← State.journalFull_iff]
    split
    · next hfull => exact congrArg _ (takeCommand_refused hs hb hread (accountAdjust_full _ _ he hfull))
    · next hfree =>
      have howner := accountAdjust_used (signedAt body 2) (fieldAt body 6 1) he hfree
      set r : AdjustRecord := ⟨i, signedAt body 2, fieldAt body 6 1, clampSigned (e.balance + signedAt body 2), s.clock⟩
      have hrest := State.highWaterTest_rest (s.adjusted i e r)
      have hentry : ∀ j, (s.adjusted i e r).highWaterTest.entry j = (s.adjusted i e r).entry j :=
        fun j => congrArg (tblGet j) (State.highWaterTest_directory _)
      refine ⟨_, (s.adjusted i e r).highWaterTest, r.balanceAfter, rfl,
        congrArg _ (takeCommand_answers hs hb hread howner (State.gap_highWaterTest _ p)), ?_, ?_, ?_, ?_, rfl, ?_, ?_⟩
      · exact (hentry i).trans (State.entry_setEntry_self ..)
      · exact fun j hj => (hentry j).trans (State.entry_setEntry_ne _ _ hj)
      · exact State.highWaterTest_records _
      · exact State.highWaterTest_highWater _
      · exact State.testsWater_of rfl rfl rfl
      · rw [hrest]
        rfl

section
variable {s : State} {p : PortId} {body : List Byte} {i : Nat}

/-! ### The records of the journal (Tables 9-2 and 10-9) -/

def settleFields (r : SettleRecord) : List (Nat × Nat) :=
  [(1, 0), (2, r.account.val), (2, r.slot.val), (1, r.epoch.toNat), (1, (outcomeCode r.outcome).toNat),
    (1, (classCode r.cls).toNat), (1, r.payloadWords), (1, r.zonesSent), (1, r.attempt), (4, (BitVec.ofInt 32 r.amount).toNat),
    (1, 0), (4, (BitVec.ofInt 32 r.balanceAfter).toNat), (4, r.time.toNat)]

def adjustFields (r : AdjustRecord) : List (Nat × Nat) :=
  [(1, 1), (2, r.account.val), (8, 0), (4, (BitVec.ofInt 32 r.amount).toNat), (1, r.reason),
    (4, (BitVec.ofInt 32 r.balanceAfter).toNat), (4, r.time.toNat)]

theorem journalBytes_settle (r : SettleRecord) : journalBytes (.settle r) = fieldsBytes (settleFields r) := by
  simp only [journalBytes, settleFields, messageIdBytes, bytesOfInt, fieldsBytes_cons, fieldsBytes_nil, bytesOf_one_toNat,
    bytesOf_one_zero, List.append_assoc, List.append_nil, List.cons_append, List.nil_append]

theorem journalBytes_adjust (r : AdjustRecord) : journalBytes (.adjust r) = fieldsBytes (adjustFields r) := by
  have hone : bytesOf 1 1 = [1] := rfl
  simp only [journalBytes, adjustFields, bytesOfInt, fieldsBytes_cons, fieldsBytes_nil, hone, List.append_assoc,
    List.append_nil, List.cons_append, List.nil_append]

theorem journalBytes_length (r : JournalRecord) : (journalBytes r).length = 24 := by
  cases r with
  | settle r => simp [journalBytes_settle, settleFields]
  | adjust r => simp [journalBytes_adjust, adjustFields]

theorem fieldAt_settle {b : List Byte} (r : SettleRecord) (hb : b = journalBytes (.settle r)) :
    fieldAt b 0 1 = 0 ∧ fieldAt b 1 2 = r.account.val ∧ fieldAt b 3 2 = r.slot.val ∧ fieldAt b 5 1 = r.epoch.toNat
    ∧ fieldAt b 6 1 = (outcomeCode r.outcome).toNat ∧ fieldAt b 7 1 = (classCode r.cls).toNat
    ∧ fieldAt b 8 1 = r.payloadWords % 256 ∧ fieldAt b 9 1 = r.zonesSent % 256 ∧ fieldAt b 10 1 = r.attempt % 256
    ∧ fieldAt b 11 4 = r.amount % 4294967296 ∧ fieldAt b 15 1 = 0
    ∧ fieldAt b 16 4 = (BitVec.ofInt 32 r.balanceAfter).toNat ∧ fieldAt b 20 4 = r.time.toNat := by
  have hamount : (BitVec.ofInt 32 (r.amount : Int)).toNat = r.amount % 4294967296 := by
    rw [BitVec.ofInt_natCast, BitVec.toNat_ofNat]
  rw [hb, journalBytes_settle, ← hamount]
  refine ⟨fieldAt_fields_lt 0 rfl ?_ (by decide), fieldAt_fields_lt 1 rfl ?_ (Nat.lt_of_lt_of_le r.account.isLt (by decide)),
    fieldAt_fields_lt 2 rfl ?_ (Nat.lt_of_lt_of_le r.slot.isLt (by decide)),
    fieldAt_fields_lt 3 rfl ?_ (Nat.lt_of_lt_of_le r.epoch.isLt (by decide)), fieldAt_fields_lt 4 rfl ?_ (BitVec.isLt _),
    fieldAt_fields_lt 5 rfl ?_ (BitVec.isLt _), fieldAt_fields_nil 6 rfl ?_, fieldAt_fields_nil 7 rfl ?_,
    fieldAt_fields_nil 8 rfl ?_, fieldAt_fields_lt 9 rfl ?_ (BitVec.isLt _), fieldAt_fields_lt 10 rfl ?_ (by decide),
    fieldAt_fields_lt 11 rfl ?_ (BitVec.isLt _), fieldAt_fields_lt 12 rfl ?_ (BitVec.isLt _)⟩ <;> simp [settleFields]

theorem fieldAt_adjust {b : List Byte} (r : AdjustRecord) (hb : b = journalBytes (.adjust r)) :
    fieldAt b 0 1 = 1 ∧ fieldAt b 1 2 = r.account.val ∧ fieldAt b 3 8 = 0
    ∧ fieldAt b 11 4 = (BitVec.ofInt 32 r.amount).toNat ∧ fieldAt b 15 1 = r.reason % 256
    ∧ fieldAt b 16 4 = (BitVec.ofInt 32 r.balanceAfter).toNat ∧ fieldAt b 20 4 = r.time.toNat := by
  rw [hb, journalBytes_adjust]
  refine ⟨fieldAt_fields_lt 0 rfl ?_ (by decide), fieldAt_fields_lt 1 rfl ?_ (Nat.lt_of_lt_of_le r.account.isLt (by decide)),
    fieldAt_fields_lt 2 rfl ?_ (by decide), fieldAt_fields_lt 3 rfl ?_ (BitVec.isLt _), fieldAt_fields_nil 4 rfl ?_,
    fieldAt_fields_lt 5 rfl ?_ (BitVec.isLt _), fieldAt_fields_lt 6 rfl ?_ (BitVec.isLt _)⟩ <;> simp [adjustFields]

/-- A field of a fetched record. -/
theorem fieldAt_fetched {l : List JournalRecord} {r : JournalRecord} (hi : i < 4) (h : l[i]? = some r) (off : Nat) {len : Nat}
    (hoff : off + len ≤ 24) : fieldAt ((l.take 4).flatMap journalBytes) (24 * i + off) len = fieldAt (journalBytes r) off len :=
  fieldAt_flatMap journalBytes_length (by rw [List.getElem?_take_of_lt hi, h]) off hoff

/-! ### JOURNAL_FETCH and JOURNAL_CONFIG -/

theorem exec_journalFetch (p : PortId) (body : List Byte) (s : State) : exec (.journalFetch p body) s
    = .next (takeCommand p [.accounts, .supervisor] (withLength 0 body journalFetch) s) := rfl

theorem exec_journalConfig (p : PortId) (body : List Byte) (s : State) : exec (.journalConfig p body) s
    = .next (takeCommand p [.accounts, .supervisor]
        (withLength 2 body (withRange (within 1 1024 (fieldAt body 0 2)) journalConfig)) s) := rfl

/-- The state with other journal records, tested. -/
def State.withRecords (s : State) (l : List JournalRecord) : State :=
  ({ s with journal := { s.journal with records := l } } : State).highWaterTest

theorem journalFetch_eq (s : State) : journalFetch s = ⟨.ok, bytesOf 1 (min 4 s.journal.records.length)
    ++ bytesOf 2 (s.journal.records.length - 4) ++ (s.journal.records.take 4).flatMap journalBytes,
    s.withRecords (s.journal.records.drop 4)⟩ := by
  rw [← List.length_take, ← List.length_drop]
  rfl

/-- The state with another high water, tested. -/
def State.withHighWater (s : State) (n : Nat) : State :=
  ({ s with journal := { s.journal with highWater := n } } : State).highWaterTest

theorem State.withHighWater_records (s : State) (n : Nat) : (s.withHighWater n).journal.records = s.journal.records :=
  State.highWaterTest_records _

theorem State.withHighWater_highWater (s : State) (n : Nat) : (s.withHighWater n).journal.highWater = n :=
  State.highWaterTest_highWater _

theorem State.testsWater_withHighWater (s : State) (n : Nat) : s.testsWater (s.withHighWater n) :=
  State.testsWater_of rfl rfl rfl

theorem State.armed_withHighWater (s : State) (n : Nat) :
    (s.withHighWater n).journal.armed = decide (s.journal.records.length < n) := by
  rw [(s.testsWater_withHighWater n).armed, State.withHighWater_records, State.withHighWater_highWater]

theorem journalConfig_eq (n : Nat) (s : State) : journalConfig n s = ⟨.ok, bytesOf 2 s.journal.records.length
    ++ [if s.journal.records.length < n then 1 else 0], s.withHighWater n⟩ := by
  have hflag : flagByte (s.withHighWater n).journal.armed = if s.journal.records.length < n then 1 else 0 := by
    rw [State.armed_withHighWater]
    unfold flagByte
    simp only [decide_eq_true_eq]
  rw [← hflag, ← State.withHighWater_records s n]
  rfl

end

/-- Settles O46: the records by their layout, and the high-water test of both commands. -/
theorem journalCommands : Obligations.JournalCommands := by
  intro s p hs
  simp only [exec_journalFetch, exec_journalConfig]
  refine ⟨⟨s.withRecords (s.journal.records.drop 4), (s.journal.records.take 4).flatMap journalBytes,
    congrArg _ (takeCommand_plain_answers hs rfl (journalFetch_eq s) (State.gap_highWaterTest _ p)),
    State.highWaterTest_records _, State.highWaterTest_highWater _, State.testsWater_of rfl rfl rfl, fun hlow => ?quiet,
    ?length, fun i r hi hr => ?settle, fun i r hi hr => ?adjust, State.highWaterTest_rest _⟩, fun body hb => ⟨?range, ?config⟩⟩
  case quiet => exact State.highWaterTest_ports (.inl (by simpa using hlow))
  case length => rw [flatMap_length_of journalBytes_length, List.length_take]
  case settle =>
    obtain ⟨h0, h1, h3, h5, h6, h7, h8, h9, h10, h11, h15, h16, h20⟩ := fieldAt_settle r rfl
    have hfield := fun (off len : Nat) (hoff : off + len ≤ 24) => fieldAt_fetched hi hr off hoff
    exact ⟨(hfield 0 1 (by decide)).trans h0, (hfield 1 2 (by decide)).trans h1, (hfield 3 2 (by decide)).trans h3,
      (hfield 5 1 (by decide)).trans h5, (hfield 6 1 (by decide)).trans h6, (hfield 7 1 (by decide)).trans h7,
      (hfield 8 1 (by decide)).trans h8, (hfield 9 1 (by decide)).trans h9, (hfield 10 1 (by decide)).trans h10,
      (hfield 11 4 (by decide)).trans h11, (hfield 15 1 (by decide)).trans h15, (hfield 16 4 (by decide)).trans h16,
      (hfield 20 4 (by decide)).trans h20⟩
  case adjust =>
    obtain ⟨h0, h1, h3, h11, h15, h16, h20⟩ := fieldAt_adjust r rfl
    have hfield := fun (off len : Nat) (hoff : off + len ≤ 24) => fieldAt_fetched hi hr off hoff
    exact ⟨(hfield 0 1 (by decide)).trans h0, (hfield 1 2 (by decide)).trans h1, (hfield 3 8 (by decide)).trans h3,
      (hfield 11 4 (by decide)).trans h11, (hfield 15 1 (by decide)).trans h15, (hfield 16 4 (by decide)).trans h16,
      (hfield 20 4 (by decide)).trans h20⟩
  case range => exact fun h => congrArg _ (takeCommand_range _ hs hb (within_none (by omega)))
  case config =>
    intro hlow hhigh
    exact ⟨s.withHighWater (fieldAt body 0 2),
      congrArg _ (takeCommand_answers hs hb (within_of hlow hhigh) (journalConfig_eq _ s) (State.gap_highWaterTest _ p)),
      s.withHighWater_records _, s.withHighWater_highWater _, s.armed_withHighWater _, s.testsWater_withHighWater _,
      fun h => State.highWaterTest_ports h, State.highWaterTest_rest _⟩

end Sys2Proof.Machine
end

/-! ## ACCOUNT_STATE and the purge (R87, R152) -/

section
namespace Sys2Proof.Machine

/-! ### Closing events taken one by one -/

/-- What a closing event does to the other messages, to the account billed, to the journal's fill and to the outcome lists. -/
structure State.retires (x : SlotId × Message) (s t : State) : Prop where
  others : ∀ j, j ≠ x.1 → t.message j = s.message j
  account : ∀ e, s.entry x.2.billed = some e →
    ∃ e', t.entry x.2.billed = some e' ∧ e'.terms = e.terms ∧ e'.openCount = e.openCount - 1
  accounts : ∀ j, j ≠ x.2.billed → t.entry j = s.entry j
  records : (s.entry x.2.billed).isSome → t.journal.records.length = s.journal.records.length + 1
  outcomes : ∀ q, (t.port q).outcomes = (s.port q).outcomes ++ if x.2.port = q then [x.1] else []

section
variable {s t u : State} {slot : SlotId} {m : Message} {o : MsgOutcome} {k : Nat}

theorem State.shuts.retires (h : s.shuts t slot m o k) : State.retires (slot, m) s t where
  others := h.others
  account e he := ⟨_, h.account e he, rfl, rfl⟩
  accounts := h.accounts
  records hsome := by
    obtain ⟨e, he⟩ := Option.isSome_iff_exists.mp hsome
    rw [h.record e he, List.length_append]
    rfl
  outcomes q := by
    rw [h.ports q, Port.takes_outcomes]
    dsimp only
    split
    · next hq => rw [if_pos hq.symm]
    · next hq => rw [if_neg (Ne.symm hq), List.append_nil]

theorem State.tested.outcomes {changed : ZoneSet} (h : u.tested t changed) (q : PortId) :
    (t.port q).outcomes = (u.port q).outcomes := by
  rw [h.tests.2 q, Port.takes_outcomes]

theorem State.retires.tested {x : SlotId × Message} {changed : ZoneSet} (h : State.retires x s u) (ht : u.tested t changed) :
    State.retires x s t := by
  have houtcomes := ht.outcomes
  rw [ht.rest] at houtcomes ⊢
  exact ⟨h.others, h.account, h.accounts, h.records, fun q => (houtcomes q).trans (h.outcomes q)⟩

theorem State.closes.retires (h : s.closes t slot m o k) : State.retires (slot, m) s t := by
  obtain ⟨u, changed, hshuts, htested, -⟩ := h
  exact hshuts.retires.tested htested

/-- What a retirement does depends on the message's account and port alone. -/
theorem State.retires.congr {m' : Message} (h : State.retires (slot, m) s t) (hbilled : m.billed = m'.billed)
    (hport : m.port = m'.port) : State.retires (slot, m') s t :=
  ⟨h.others, hbilled ▸ h.account, hbilled ▸ h.accounts, hbilled ▸ h.records, hport ▸ h.outcomes⟩

end

section
variable {s t : State} {R : SlotId → State → State → Prop} {f : Message → Message} {l : List SlotId} {ms : List (SlotId × Message)}

/-- Slots taken one by one, each once: what a slot's turn makes of its message stands at the end. -/
theorem oneByOne_message (hothers : ∀ {slot a b}, R slot a b → ∀ j, j ≠ slot → b.message j = a.message j)
    (hself : ∀ {slot a b m}, R slot a b → a.message slot = some m → b.message slot = some (f m)) (hl : l.Nodup)
    (h : oneByOne R l s t) : (∀ j, j ∉ l → t.message j = s.message j)
      ∧ ∀ j ∈ l, ∀ m, s.message j = some m → t.message j = some (f m) := by
  induction l generalizing s with
  | nil => cases h; simp
  | cons slot rest ih =>
    obtain ⟨u, hturn, hrest⟩ := h
    obtain ⟨hnew, hnodup⟩ := List.nodup_cons.mp hl
    obtain ⟨hout, hin⟩ := ih hnodup hrest
    refine ⟨fun j hj => ?_, fun j hj m hm => ?_⟩
    · rw [List.mem_cons, not_or] at hj
      obtain ⟨hne, hj⟩ := hj
      rw [hout j hj, hothers hturn j hne]
    · rcases List.mem_cons.mp hj with rfl | hj
      · rw [hout j hnew, hself hturn hm]
      · have hne : j ≠ slot := fun heq => hnew (heq ▸ hj)
        exact hin j hj m ((hothers hturn j hne).trans hm)

/-- Slots taken one by one retire the messages that stood in them at the start. -/
theorem oneByOne_retires (hR : ∀ {slot a b}, R slot a b → ∃ m, a.message slot = some m ∧ State.retires (slot, m) a b)
    (hl : (ms.map Prod.fst).Nodup)
    (hms : ∀ x ∈ ms, ∃ m, s.message x.1 = some m ∧ m.billed = x.2.billed ∧ m.port = x.2.port)
    (h : oneByOne R (ms.map Prod.fst) s t) : oneByOne State.retires ms s t := by
  induction ms generalizing s with
  | nil => exact h
  | cons x rest ih =>
    obtain ⟨u, hturn, hrest⟩ := h
    obtain ⟨hnew, hnodup⟩ := List.nodup_cons.mp hl
    obtain ⟨m, hm, hretires⟩ := hR hturn
    obtain ⟨m', hm', hbilled, hport⟩ := hms x List.mem_cons_self
    cases hm.symm.trans hm'
    refine ⟨u, hretires.congr hbilled hport, ih hnodup (fun y hy => ?_) hrest⟩
    rw [hretires.others y.1 fun heq => hnew (heq ▸ List.mem_map_of_mem hy)]
    exact hms y (List.mem_cons_of_mem _ hy)

theorem entry_retires (h : oneByOne State.retires ms s t) {i : AccountIndex} {e : Entry} (he : s.entry i = some e) :
    ∃ e', t.entry i = some e' ∧ e'.terms = e.terms
      ∧ e'.openCount = e.openCount - (ms.filter fun x => decide (x.2.billed = i)).length := by
  induction ms generalizing s e with
  | nil => cases h; exact ⟨e, he, rfl, rfl⟩
  | cons x rest ih =>
    obtain ⟨u, hturn, hrest⟩ := h
    by_cases hx : x.2.billed = i
    · subst hx
      obtain ⟨e1, he1, hterms1, hcount1⟩ := hturn.account e he
      obtain ⟨e', he', hterms, hcount⟩ := ih hrest he1
      refine ⟨e', he', hterms.trans hterms1, ?_⟩
      rw [hcount, hcount1, List.filter_cons_of_pos (by simp), List.length_cons]
      omega
    · obtain ⟨e', he', hterms, hcount⟩ := ih hrest ((hturn.accounts i (Ne.symm hx)).trans he)
      exact ⟨e', he', hterms, by rw [hcount, List.filter_cons_of_neg (by simpa using hx)]⟩

theorem entry_retires_other (h : oneByOne State.retires ms s t) {i : AccountIndex} (hi : ∀ x ∈ ms, i ≠ x.2.billed) :
    t.entry i = s.entry i := by
  induction ms generalizing s with
  | nil => cases h; rfl
  | cons x rest ih =>
    obtain ⟨u, hturn, hrest⟩ := h
    rw [ih hrest fun y hy => hi y (List.mem_cons_of_mem _ hy), hturn.accounts i (hi x List.mem_cons_self)]

theorem records_retires (h : oneByOne State.retires ms s t) (hms : ∀ x ∈ ms, (s.entry x.2.billed).isSome) :
    t.journal.records.length = s.journal.records.length + ms.length := by
  induction ms generalizing s with
  | nil => cases h; rfl
  | cons x rest ih =>
    obtain ⟨u, hturn, hrest⟩ := h
    have hsome : ∀ y ∈ rest, (u.entry y.2.billed).isSome := fun y hy => by
      by_cases hxy : y.2.billed = x.2.billed
      · obtain ⟨e, he⟩ := Option.isSome_iff_exists.mp (hms x List.mem_cons_self)
        obtain ⟨e', he', -⟩ := hturn.account e he
        rw [hxy, he']
        rfl
      · rw [hturn.accounts _ hxy]
        exact hms y (List.mem_cons_of_mem _ hy)
    rw [ih hrest hsome, hturn.records (hms x List.mem_cons_self), List.length_cons]
    omega

theorem outcomes_retires (h : oneByOne State.retires ms s t) (q : PortId) :
    (t.port q).outcomes = (s.port q).outcomes ++ (ms.filter fun x => decide (x.2.port = q)).map Prod.fst := by
  induction ms generalizing s with
  | nil => cases h; simp
  | cons x rest ih =>
    obtain ⟨u, hturn, hrest⟩ := h
    rw [ih hrest, hturn.outcomes q, List.append_assoc]
    by_cases hx : x.2.port = q <;> simp [hx]

end

/-! ### The purge (R87) -/

section
variable {s t : State} {i : AccountIndex} {l : List SlotId}

/-- R87: the purge of one slot. -/
def State.purges (i : AccountIndex) (slot : SlotId) (a b : State) : Prop :=
  ∃ m, a.message slot = some m ∧ m.closing = none ∧ m.billed = i ∧ a.shuts b slot m .purged 0

/-- A message that a purge has closed. -/
def Message.purged (m : Message) : Message := { m with closing := some ⟨.purged, 0⟩, retryTimer := none, frozen := false }

theorem State.purges.self {slot : SlotId} {m : Message} (h : State.purges i slot s t) (hm : s.message slot = some m) :
    t.message slot = some m.purged := by
  obtain ⟨m', hm', -, -, hshuts⟩ := h
  cases hm.symm.trans hm'
  exact hshuts.message

theorem State.purges.others {slot : SlotId} (h : State.purges i slot s t) (j : SlotId) (hj : j ≠ slot) :
    t.message j = s.message j := by
  obtain ⟨m, -, -, -, hshuts⟩ := h
  exact hshuts.others j hj

theorem State.purges.retires {slot : SlotId} (h : State.purges i slot s t) :
    ∃ m, s.message slot = some m ∧ State.retires (slot, m) s t := by
  obtain ⟨m, hm, -, -, hshuts⟩ := h
  exact ⟨m, hm, hshuts.retires⟩

theorem oneByOne_purges_queue (h : oneByOne (State.purges i) l s t) (z : ZoneId) :
    (t.zone z).queue = (s.zone z).queue.filter fun q => decide (¬ (q.slot ∈ l ∧ q.epoch = s.epoch q.slot)) := by
  induction l generalizing s with
  | nil => cases h; simp
  | cons slot rest ih =>
    obtain ⟨u, ⟨m, -, -, -, hshuts⟩, hrest⟩ := h
    have hepoch : ∀ j, u.epoch j = s.epoch j := fun j => by rw [hshuts.rest]; rfl
    rw [ih hrest, hshuts.queues z, List.filter_filter]
    refine List.filter_congr fun q _ => ?_
    rw [hepoch, ← Bool.decide_and, decide_eq_decide, List.mem_cons]
    constructor
    · rintro ⟨hnot, hslot⟩ ⟨rfl | hmem, he⟩
      · exact hslot ⟨rfl, he⟩
      · exact hnot ⟨hmem, he⟩
    · intro hnone
      exact ⟨fun h => hnone ⟨.inr h.1, h.2⟩, fun h => hnone ⟨.inl h.1, h.1 ▸ h.2⟩⟩

/-- The purge of an entry's messages as an event in progress. -/
def State.purgeWork (s : State) (l : List SlotId) : Work := l.foldl (fun w slot => w.close slot .purged 0) s.begin

theorem Work.oneByOne_purge (hl : l.Nodup) (w : Work)
    (h : ∀ slot ∈ l, ∃ m, w.state.message slot = some m ∧ m.closing = none ∧ m.billed = i) :
    oneByOne (State.purges i) l w.state (l.foldl (fun w slot => w.close slot .purged 0) w).state := by
  induction l generalizing w with
  | nil => rfl
  | cons slot rest ih =>
    obtain ⟨hnew, hnodup⟩ := List.nodup_cons.mp hl
    obtain ⟨m, hm, hopen, hbilled⟩ := h slot List.mem_cons_self
    have hshuts := Work.shuts_close (w := w) .purged 0 hm hopen
    refine ⟨_, ⟨m, hm, hopen, hbilled, hshuts⟩, ih hnodup _ fun j hj => ?_⟩
    rw [hshuts.others j fun heq => hnew (heq ▸ hj)]
    exact h j (List.mem_cons_of_mem _ hj)

theorem Work.shrinks_purge (l : List SlotId) (w : Work) : w.Shrinks (l.foldl (fun w slot => w.close slot .purged 0) w) := by
  induction l generalizing w with
  | nil => exact .refl w
  | cons slot rest ih => exact (Work.shrinks_close slot .purged 0 w).trans (ih _)

theorem State.calls_purgeWork (s : State) (l : List SlotId) : (s.purgeWork l).calls = 0 := by
  unfold State.purgeWork
  have hbegin : s.begin.calls = 0 := rfl
  generalize s.begin = w at hbegin ⊢
  induction l generalizing w with
  | nil => exact hbegin
  | cons slot rest ih => exact ih _ ((Work.calls_close w slot .purged 0).trans hbegin)

theorem State.openBilledTo_eq (s : State) (i : AccountIndex) : s.openBilledTo i
    = (s.messages.filter fun x => decide (x.2.closing = none ∧ x.2.billed = i)).map Prod.fst := by
  unfold State.openBilledTo
  congr 1
  refine List.filter_congr fun x _ => ?_
  unfold Message.isOpen
  cases x.2.closing <;> simp

theorem State.openBilled_eq (s : State) (i : AccountIndex) : s.openBilled i
    = (s.messages.filter fun x => decide (x.2.closing = none ∧ x.2.billed = i)).map Prod.snd := by
  unfold State.openBilled
  rw [List.filter_map]
  congr 1
  refine List.filter_congr fun x _ => ?_
  rcases x with ⟨slot, m⟩
  cases hc : m.closing <;> simp [hc]

theorem State.openBilledTo_length (s : State) (i : AccountIndex) : (s.openBilledTo i).length = (s.openBilled i).length := by
  rw [State.openBilledTo_eq, State.openBilled_eq, List.length_map, List.length_map]

theorem State.mem_openBilledTo (h : tblSorted s.messages) {slot : SlotId} :
    slot ∈ s.openBilledTo i ↔ ∃ m, s.message slot = some m ∧ m.closing = none ∧ m.billed = i := by
  rw [State.openBilledTo_eq, List.mem_map]
  constructor
  · rintro ⟨⟨j, m⟩, hx, rfl⟩
    obtain ⟨hin, hopen⟩ := List.mem_filter.mp hx
    exact ⟨m, (mem_iff_tblGet h j m).mp hin, of_decide_eq_true hopen⟩
  · rintro ⟨m, hm, hopen⟩
    exact ⟨(slot, m), List.mem_filter.mpr ⟨(mem_iff_tblGet h slot m).mpr hm, decide_eq_true hopen⟩, rfl⟩

theorem nodup_keys_filter (h : tblSorted s.messages) (p : SlotId × Message → Bool) :
    ((s.messages.filter p).map Prod.fst).Nodup := by
  have hsorted : ((s.messages.filter p).map Prod.fst).Pairwise (· < ·) := by
    rw [List.pairwise_map]
    exact List.Pairwise.sublist List.filter_sublist h
  exact hsorted.imp ne_of_lt

theorem State.message_of_mem_filter (h : tblSorted s.messages) {p : SlotId × Message → Bool} {x : SlotId × Message}
    (hx : x ∈ s.messages.filter p) : s.message x.1 = some x.2 :=
  (mem_iff_tblGet h x.1 x.2).mp (List.mem_of_mem_filter hx)

/-- The messages that the purge of an entry closes, with their slots. -/
def State.purged (s : State) (i : AccountIndex) : List (SlotId × Message) :=
  s.messages.filter fun x => decide (x.2.closing = none ∧ x.2.billed = i)

theorem State.billed_purged {x : SlotId × Message} (hx : x ∈ s.purged i) : x.2.billed = i :=
  (of_decide_eq_true (List.mem_filter.mp hx).2).2

theorem State.purged_length (s : State) (i : AccountIndex) : (s.openBilled i).length = (s.purged i).length := by
  rw [State.openBilled_eq, List.length_map]
  rfl

section
variable (h : tblSorted s.messages)
include h

theorem State.purge_chain : oneByOne (State.purges i) (s.openBilledTo i) s (s.purgeWork (s.openBilledTo i)).state :=
  Work.oneByOne_purge (State.openBilledTo_eq s i ▸ nodup_keys_filter h _) s.begin fun _ hslot => (State.mem_openBilledTo h).mp hslot

theorem State.purge_retires : oneByOne State.retires (s.purged i) s (s.purgeWork (s.openBilledTo i)).state := by
  have hkeys : s.openBilledTo i = (s.purged i).map Prod.fst := State.openBilledTo_eq s i
  refine oneByOne_retires (R := State.purges i) State.purges.retires (nodup_keys_filter h _) (fun x hx => ?_)
    (by rw [← hkeys]; exact State.purge_chain h)
  exact ⟨x.2, State.message_of_mem_filter h hx, rfl, rfl⟩

/-- R87: the purge closes the open messages billed to the entry. -/
theorem State.purge_message {slot : SlotId} {m : Message} (hm : s.message slot = some m) :
    (s.purgeWork (s.openBilledTo i)).state.message slot
      = if m.closing = none ∧ m.billed = i then some m.purged else some m := by
  obtain ⟨hout, hin⟩ := oneByOne_message (f := Message.purged) State.purges.others State.purges.self
    (State.openBilledTo_eq s i ▸ nodup_keys_filter h _) (State.purge_chain h)
  split
  · next hpurged => exact hin slot ((State.mem_openBilledTo h).mpr ⟨m, hm, hpurged⟩) m hm
  · next hnot =>
    refine (hout slot fun hmem => hnot ?_).trans hm
    obtain ⟨m', hm', hpurged⟩ := (State.mem_openBilledTo h).mp hmem
    cases hm.symm.trans hm'
    exact hpurged

/-- The zones marked are those whose queue held a live entry of a message purged. -/
theorem State.purge_touched (z : ZoneId) : zoneIn z (s.purgeWork (s.openBilledTo i)).touched = true ↔
    ∃ q ∈ (s.zone z).queue, q.epoch = s.epoch q.slot ∧ ∃ m, s.message q.slot = some m ∧ m.closing = none ∧ m.billed = i := by
  have hidle : zoneIn z s.begin.touched = false := zoneIn_zero z
  have hqueue : (s.begin.state.zone z).queue = (s.zone z).queue := rfl
  rw [State.purgeWork, (Work.shrinks_purge (s.openBilledTo i) s.begin).touched z, hidle, ← State.purgeWork,
    oneByOne_purges_queue (State.purge_chain h) z, hqueue, Ne,
    List.filter_eq_self]
  simp only [Bool.false_eq_true, false_or, decide_eq_true_eq, not_forall, not_not, State.mem_openBilledTo h, exists_prop]
  exact exists_congr fun q => and_congr_right fun _ => and_comm

end

/-! ### ACCOUNT_STATE (R152) -/

variable {p : PortId} {body : List Byte} {e : Entry} {st : EntryState}

theorem exec_accountState (p : PortId) (body : List Byte) (s : State) : exec (.accountState p body) s
    = .next (takeCommand p [.accounts, .supervisor] (withLength 4 body (withRange (readAccountState body) accountState)) s) := rfl

theorem accountStateOfCode_none {v : Nat} (h : v = 0 ∨ 3 < v) : accountStateOfCode v = none := by
  unfold accountStateOfCode
  split
  · omega
  · omega
  · omega
  · rfl

theorem readAccountState_none (h : 8191 < fieldAt body 0 2 ∨ fieldAt body 2 1 = 0 ∨ 3 < fieldAt body 2 1
    ∨ (fieldAt body 2 1 = 1 ∧ fieldAt body 3 1 ≠ 0)) : readAccountState body = none := by
  unfold readAccountState
  cases hi : readIndex body with
  | none => rfl
  | some i =>
    rcases h with h | h | h | ⟨hactive, hpurge⟩
    · rw [readIndex_none h] at hi
      cases hi
    · rw [accountStateOfCode_none (.inl h)]
      rfl
    · rw [accountStateOfCode_none (.inr h)]
      rfl
    · rw [hactive]
      exact if_pos ⟨rfl, decide_eq_true hpurge⟩

theorem readAccountState_of (hi : fieldAt body 0 2 = i.val)
    (hst : fieldAt body 2 1 = 1 ∧ st = .active ∨ fieldAt body 2 1 = 2 ∧ st = .suspended .accounts
      ∨ fieldAt body 2 1 = 3 ∧ st = .barred) (hpurge : ¬ (st = .active ∧ fieldAt body 3 1 ≠ 0)) :
    readAccountState body = some (i, st, flagAt body 3) := by
  have hcode : accountStateOfCode (fieldAt body 2 1) = some st := by
    rcases hst with ⟨hv, rfl⟩ | ⟨hv, rfl⟩ | ⟨hv, rfl⟩ <;> rw [hv] <;> rfl
  unfold readAccountState
  rw [readIndex_of hi, hcode]
  exact if_neg fun h => hpurge ⟨h.1, of_decide_eq_true h.2⟩

theorem accountState_unused (purge : Bool) (h : s.entry i = none) : accountState (i, st, purge) s = refuse .noSubscriber s := by
  simp only [accountState, h]

theorem accountState_written (h : s.entry i = some e) : accountState (i, st, false) s
    = ⟨.ok, bytesOf 2 i.val ++ [entryStateCode st, 0], s.setEntry i { e with state := st }⟩ := by
  simp only [accountState, h, bytesOf_one_zero, List.append_assoc]
  rfl

theorem accountState_purged (h : s.entry i = some e) : accountState (i, st, true) s
    = ⟨.ok, bytesOf 2 i.val ++ [entryStateCode st] ++ bytesOf 1 (s.openBilled i).length,
        ((s.setEntry i { e with state := st }).purgeWork (s.openBilledTo i)).finish⟩ := by
  rw [← State.openBilledTo_length]
  simp only [accountState, h]
  rfl

end

/-- Settles O45: the state written, the purge as a chain of closings and one test at its end. -/
theorem accountStateWritesAndPurges : Obligations.AccountStateWritesAndPurges := by
  intro s p body hs hb
  simp only [exec_accountState]
  refine ⟨fun h => congrArg _ (takeCommand_range _ hs hb (readAccountState_none h)), fun i st hi hst => ?_⟩
  cases he : s.entry i with
  | none => exact fun hpurge =>
      congrArg _ (takeCommand_refused hs hb (readAccountState_of hi hst hpurge) (accountState_unused _ he))
  | some e =>
    refine ⟨fun hflag => ?written, fun hflag hactive hcanonical => ?purge⟩
    case written =>
      have hread := readAccountState_of hi hst fun h => h.2 hflag
      have hclear : flagAt body 3 = false := decide_eq_false fun h => h hflag
      rw [hclear] at hread
      exact congrArg _ (takeCommand_answers hs hb hread (accountState_written he) rfl)
    case purge =>
      have hread := readAccountState_of hi hst fun h => hactive h.1
      have hset : flagAt body 3 = true := decide_eq_true hflag
      rw [hset] at hread
      set written := s.setEntry i { e with state := st }
      have hsorted : tblSorted written.messages := hcanonical.messages
      have hlength : (s.openBilled i).length = (written.purged i).length := State.purged_length s i
      have hretires := State.purge_retires (i := i) hsorted
      have hentry : written.entry i = some { e with state := st } := State.entry_setEntry_self ..
      obtain ⟨e', he', hterms, hcount⟩ := entry_retires hretires hentry
      obtain ⟨changed, htested, hchanged⟩ := Work.tested_finish (State.calls_purgeWork written (written.openBilledTo i))
      have hfinish := htested.rest
      have hanswers := takeCommand_answers hs hb hread (accountState_purged he) ((State.pages_purge i written).gap p)
      have hgap := (State.pages_purge i written).gap p
      have hchain := State.purge_chain (i := i) hsorted
      have hmessage : ∀ slot m, s.message slot = some m → (written.purgeWork (written.openBilledTo i)).finish.message slot
          = if m.closing = none ∧ m.billed = i then some m.purged else some m := fun slot m hm => by
        rw [hfinish]
        exact State.purge_message hsorted hm
      refine ⟨_, congrArg _ hanswers, ⟨_, _, changed, State.openBilledTo_eq written i ▸ hchain, htested,
          fun z => by rw [hchanged z]; exact State.purge_touched hsorted z, rfl⟩,
        fun slot m hm hopen hbilled => (hmessage slot m hm).trans (if_pos ⟨hopen, hbilled⟩),
        fun slot m hm hnot => (hmessage slot m hm).trans (if_neg hnot),
        ⟨e', ?entry, congrArg Entry.state hterms, hterms, ?count⟩, fun j hj => ?entries, ?records, ?answer⟩
      case entry => exact (congrArg (State.entry · i) hfinish).trans he'
      case count => rw [hcount, List.filter_eq_self.mpr fun x hx => decide_eq_true (State.billed_purged hx), hlength]
      case entries =>
        refine (congrArg (State.entry · j) hfinish).trans ?_
        refine (entry_retires_other hretires fun x hx => ?_).trans (State.entry_setEntry_ne _ _ hj)
        rw [State.billed_purged hx]
        exact hj
      case records =>
        have hrecords := records_retires hretires fun x hx => by rw [State.billed_purged hx, hentry]; rfl
        rw [hlength]
        exact (congrArg (fun w => w.journal.records.length) hfinish).trans hrecords
      case answer =>
        refine (congrArg Port.answer (State.port_setPort_self ..)).trans ?_
        exact congrArg (fun g => some (Answer.mk _ g)) hgap

end Sys2Proof.Machine
end

/-! ## The office clock and the one-second step (R81 to R83, R170, R171) -/

section
namespace Sys2Proof.Machine

section
variable {s t : State} {slot : SlotId} {m : Message}

/-! ### READ_CLOCK and CLOCK_SET -/

theorem exec_readClock (p : PortId) (body : List Byte) (s : State) :
    exec (.readClock p body) s = .next (takeCommand p anyRole (withLength 0 body readClock) s) := rfl

theorem exec_clockSet (p : PortId) (body : List Byte) (s : State) : exec (.clockSet p body) s
    = .next (takeCommand p [.supervisor] (withLength 4 body (clockSet (BitVec.ofNat 32 (fieldAt body 0 4)))) s) := rfl

theorem clock_of_bytes (v : Clock) : BitVec.ofNat 32 (fieldAt (bytesOf 4 v.toNat) 0 4) = v := by
  have hfits : v.toNat < 256 ^ 4 := v.isLt
  rw [fieldAt_bytesOf_nil, Nat.mod_eq_of_lt hfits]
  exact BitVec.eq_of_toNat_eq (by simp)

/-! ### The expiries of a one-second step -/

theorem exec_oneSecondStep (s : State) :
    exec .oneSecondStep s = .next (if s.phase = .working ∧ 10 ≤ s.secondDivider then s.second else s) := rfl

/-- The state of a one-second step with the clock advanced and the lives lowered, before its expiries. -/
def State.lowered (s : State) : State :=
  { s with
    secondDivider := s.secondDivider - 10, clock := s.clock + 1
    messages := tblMap (fun _ (m : Message) => m.second) s.messages }

theorem Message.second_eq (m : Message) : m.second = if m.closing = none then { m with life := m.life - 1 } else m := by
  unfold Message.second Message.isOpen
  cases m.closing <;> rfl

theorem State.message_lowered (s : State) (slot : SlotId) : s.lowered.message slot = (s.message slot).map Message.second :=
  tblGet_tblMap (fun _ (m : Message) => m.second) slot s.messages

/-- R81 to R83: one slot's expiry in a one-second step. -/
def State.expires (slot : SlotId) (a b : State) : Prop :=
  ∃ m, a.message slot = some m ∧ m.closing = none ∧ a.closes b slot m
    (if m.kind = .oneWay ∧ ∃ r ∈ m.attempts, r.number = 0 ∧ r.transmitted.isSome then .sent else .expired) 0

/-- A message whose life has expired. -/
def Message.expired (m : Message) : Message :=
  { m with closing := some ⟨m.lifeOutcome, m.settlementAmount m.lifeOutcome 0⟩, retryTimer := none, frozen := false }

/-- A closing replaces the message of its slot whatever stood there. -/
theorem State.closes.of_setMessage {m' : Message} {o : MsgOutcome} {k : Nat} (h : (s.setMessage slot m').closes t slot m o k) :
    s.closes t slot m o k := by
  obtain ⟨u, changed, hshuts, htested, hchanged⟩ := h
  refine ⟨u, changed, ?_, htested, hchanged⟩
  exact {
    message := hshuts.message
    others := fun j hj => (hshuts.others j hj).trans (State.message_setMessage_ne _ _ hj)
    queues := hshuts.queues
    inFlight := hshuts.inFlight
    zones := hshuts.zones
    stalls := hshuts.stalls
    account := hshuts.account
    accounts := hshuts.accounts
    record := hshuts.record
    unbilled := hshuts.unbilled
    highWater := hshuts.highWater
    armed := hshuts.armed
    ports := hshuts.ports
    rest := hshuts.rest }

theorem State.expires_expireLife (hm : s.message slot = some m) (ho : m.closing = none) (hlife : m.life = 0) :
    State.expires slot s (s.expireLife slot) := by
  have hsame : ({ m with life := 0 } : Message) = m := by rw [← hlife]
  have hcloses := (State.closes_expireLife hm ho).of_setMessage
  rw [hsame, Message.lifeOutcome_eq] at hcloses
  exact ⟨m, hm, ho, hcloses⟩

theorem State.expires.others (h : State.expires slot s t) (j : SlotId) (hj : j ≠ slot) : t.message j = s.message j := by
  obtain ⟨m, -, -, hcloses⟩ := h
  exact hcloses.retires.others j hj

theorem State.expires.retires (h : State.expires slot s t) : ∃ m, s.message slot = some m ∧ State.retires (slot, m) s t := by
  obtain ⟨m, hm, -, hcloses⟩ := h
  exact ⟨m, hm, hcloses.retires⟩

theorem State.closes.self {o : MsgOutcome} {k : Nat} (h : s.closes t slot m o k) : t.message slot
    = some { m with closing := some ⟨o, m.settlementAmount o k⟩, retryTimer := none, frozen := false } := by
  obtain ⟨u, changed, hshuts, htested, -⟩ := h
  rw [htested.rest]
  exact hshuts.message

theorem State.closes.rest {o : MsgOutcome} {k : Nat} (h : s.closes t slot m o k) : t = { s with
    messages := t.messages, ports := t.ports, directory := t.directory, stalls := t.stalls, zones := t.zones
    journal := t.journal } := by
  obtain ⟨u, changed, hshuts, htested, -⟩ := h
  rw [htested.rest, hshuts.rest]

theorem State.expires.self (h : State.expires slot s t) (hm : s.message slot = some m) :
    t.message slot = some m.expired := by
  obtain ⟨m', hm', -, hcloses⟩ := h
  cases hm.symm.trans hm'
  rw [← Message.lifeOutcome_eq] at hcloses
  exact hcloses.self

theorem oneByOne_expires_rest {l : List SlotId} (h : oneByOne State.expires l s t) : t = { s with
    messages := t.messages, ports := t.ports, directory := t.directory, stalls := t.stalls, zones := t.zones
    journal := t.journal } := by
  induction l generalizing s with
  | nil => cases h; rfl
  | cons slot rest ih =>
    obtain ⟨u, ⟨m, -, -, hcloses⟩, hrest⟩ := h
    rw [ih hrest, hcloses.rest]

/-- Expiries taken one after another, each slot once, of messages with no life left. -/
theorem oneByOne_expireLife {l : List SlotId} (hl : l.Nodup)
    (h : ∀ slot ∈ l, ∃ m, s.message slot = some m ∧ m.closing = none ∧ m.life = 0) :
    oneByOne State.expires l s (l.foldl State.expireLife s) := by
  induction l generalizing s with
  | nil => rfl
  | cons slot rest ih =>
    obtain ⟨hnew, hnodup⟩ := List.nodup_cons.mp hl
    obtain ⟨m, hm, ho, hlife⟩ := h slot List.mem_cons_self
    have hexpires := State.expires_expireLife hm ho hlife
    refine ⟨_, hexpires, ih hnodup fun j hj => ?_⟩
    rw [hexpires.others j fun heq => hnew (heq ▸ hj)]
    exact h j (List.mem_cons_of_mem _ hj)

/-- The messages in their last second, with their slots. -/
def State.expiring (s : State) : List (SlotId × Message) :=
  s.messages.filter fun x => decide (x.2.closing = none ∧ x.2.life ≤ 1)

theorem State.lastSeconds_eq (s : State) : s.lastSeconds = s.expiring.map Prod.fst := by
  unfold State.lastSeconds State.expiring
  congr 1
  refine List.filter_congr fun x _ => ?_
  rw [Bool.eq_iff_iff, Message.lastSecond_iff, decide_eq_true_eq]

section
variable (h : s.canonical)
include h

theorem State.second_chain : oneByOne State.expires s.lastSeconds s.lowered s.second := by
  refine oneByOne_expireLife ((State.lastSeconds_ascending h).imp ne_of_lt) fun slot hslot => ?_
  obtain ⟨m, hm, ho, hlife⟩ := (State.mem_lastSeconds h).mp hslot
  refine ⟨m.second, by rw [State.message_lowered, hm]; rfl, ?_, ?_⟩ <;> rw [Message.second_eq, if_pos ho]
  · exact ho
  · exact Nat.sub_eq_zero_of_le hlife

theorem State.second_retires : oneByOne State.retires s.expiring s.lowered s.second := by
  refine oneByOne_retires (R := State.expires) State.expires.retires (nodup_keys_filter h.messages _) (fun x hx => ?_)
    (by rw [← State.lastSeconds_eq]; exact State.second_chain h)
  refine ⟨x.2.second, ?_, ?_, ?_⟩
  · rw [State.message_lowered, State.message_of_mem_filter h.messages hx]
    rfl
  · rw [Message.second_eq]
    split <;> rfl
  · rw [Message.second_eq]
    split <;> rfl

/-- What a one-second step makes of each message. -/
theorem State.message_second (hm : s.message slot = some m) : s.second.message slot
    = some (if m.closing = none ∧ m.life ≤ 1 then m.second.expired else m.second) := by
  obtain ⟨hout, hin⟩ := oneByOne_message (f := Message.expired) State.expires.others State.expires.self
    ((State.lastSeconds_ascending h).imp ne_of_lt) (State.second_chain h)
  have hlowered : s.lowered.message slot = some m.second := by rw [State.message_lowered, hm]; rfl
  split
  · next hlast => exact hin slot ((State.mem_lastSeconds h).mpr ⟨m, hm, hlast⟩) _ hlowered
  · next hnot =>
    refine (hout slot fun hmem => hnot ?_).trans hlowered
    obtain ⟨m', hm', hlast⟩ := (State.mem_lastSeconds h).mp hmem
    cases hm.symm.trans hm'
    exact hlast

theorem State.message_second_none (hm : s.message slot = none) : s.second.message slot = none := by
  obtain ⟨hout, -⟩ := oneByOne_message (f := Message.expired) State.expires.others State.expires.self
    ((State.lastSeconds_ascending h).imp ne_of_lt) (State.second_chain h)
  rw [hout slot, State.message_lowered, hm]
  · rfl
  · intro hmem
    obtain ⟨m', hm', -⟩ := (State.mem_lastSeconds h).mp hmem
    cases hm.symm.trans hm'

theorem State.second_rest : s.second = { s with
    clock := s.clock + 1, secondDivider := s.secondDivider - 10, messages := s.second.messages, ports := s.second.ports
    directory := s.second.directory, stalls := s.second.stalls, zones := s.second.zones, journal := s.second.journal } :=
  oneByOne_expires_rest (State.second_chain h)

end

theorem State.expiring_port (s : State) (q : PortId) : s.expiring.filter (fun x => decide (x.2.port = q))
    = s.messages.filter fun x => decide (x.2.closing = none ∧ x.2.life ≤ 1 ∧ x.2.port = q) := by
  unfold State.expiring
  rw [List.filter_filter]
  refine List.filter_congr fun x _ => ?_
  rw [← Bool.decide_and, decide_eq_decide]
  tauto

theorem State.expiring_billed (s : State) (i : AccountIndex) : (s.expiring.filter fun x => decide (x.2.billed = i)).length
    = ((s.openBilled i).filter fun m => decide (m.life ≤ 1)).length := by
  unfold State.expiring
  rw [State.openBilled_eq, List.filter_map, List.length_map, List.filter_filter, List.filter_filter]
  congr 1
  refine List.filter_congr fun x _ => ?_
  rw [Function.comp_apply, ← Bool.decide_and, ← Bool.decide_and, decide_eq_decide]
  tauto

end

/-- Settles O49: the clock commands, and the step as the lowered lives with a chain of expiries after them. -/
theorem officeClockAndSeconds : Obligations.OfficeClockAndSeconds := by
  intro s p
  simp only [exec_readClock, exec_clockSet, exec_oneSecondStep]
  refine ⟨fun hs => ⟨_, congrArg _ (takeCommand_plain_answers hs rfl rfl rfl), rfl, ?clock⟩, fun v hs => ?set,
    fun _ hearly => ?early, fun hworking hten hcanonical => ?step⟩
  case clock =>
    have hfits : s.clock.toNat < 256 ^ 4 := s.clock.isLt
    exact (natOfBytes_bytesOf ..).trans (Nat.mod_eq_of_lt hfits)
  case set =>
    rw [clock_of_bytes]
    exact congrArg _ (takeCommand_plain_answers hs (by simp) rfl rfl)
  case early => rw [if_neg fun h => Nat.not_le.mpr hearly h.2]
  case step =>
    have hrest := State.second_rest hcanonical
    have hclock : s.second.clock = s.clock + 1 := congrArg State.clock hrest
    have hdivider : s.second.secondDivider = s.secondDivider - 10 := congrArg State.secondDivider hrest
    have hretires := State.second_retires hcanonical
    rw [if_pos ⟨hworking, hten⟩]
    refine ⟨s.second, rfl, ?advances, hdivider, fun slot m hm ho hlife => ?lives, fun slot m o hm ho hlife houtcome => ?ends,
      fun slot m hm hc => ?closed, fun slot hm => State.message_second_none hcanonical hm,
      ⟨s.lowered, fun slot => ?lowered, rfl, State.lastSeconds_eq s ▸ State.second_chain hcanonical⟩, fun q => ?outcomes,
      fun i e he => ?entries, fun hbilled => ?records, fun hlong => ?quiet, ?frame⟩
    case advances => rw [hclock, BitVec.toNat_add]; rfl
    case lives =>
      rw [State.message_second hcanonical hm, if_neg (by omega), Message.second_eq, if_pos ho]
    case ends =>
      rw [← Message.lifeOutcome_eq] at houtcome
      rw [State.message_second hcanonical hm, if_pos ⟨ho, hlife⟩, Message.second_eq, if_pos ho, houtcome,
        Nat.sub_eq_zero_of_le hlife]
      rfl
    case closed =>
      have hne : m.closing ≠ none := Option.isSome_iff_ne_none.mp hc
      rw [State.message_second hcanonical hm, if_neg fun h => hne h.1, Message.second_eq, if_neg hne]
    case lowered =>
      rw [State.message_lowered]
      exact congrArg (Option.map · _) (funext Message.second_eq)
    case outcomes => rw [outcomes_retires hretires q, State.expiring_port]; rfl
    case entries =>
      obtain ⟨e', he', hterms, hcount⟩ := entry_retires hretires he
      exact ⟨e', he', hterms, by rw [hcount, State.expiring_billed]⟩
    case records =>
      have hrecords := records_retires hretires fun x hx =>
        hbilled x.1 x.2 (State.message_of_mem_filter hcanonical.messages hx)
      exact hrecords
    case quiet =>
      have hnone : s.lastSeconds = [] := List.eq_nil_iff_forall_not_mem.mpr fun slot hslot => by
        obtain ⟨m, hm, ho, hlife⟩ := (State.mem_lastSeconds hcanonical).mp hslot
        exact absurd (hlong slot m hm ho) (by omega)
      have hsecond : s.second = s.lowered := by
        unfold State.second
        rw [hnone]
        rfl
      rw [hsecond]
      rfl
    case frame =>
      rw [hclock, hdivider]
      exact hrest

end Sys2Proof.Machine
end

/-! ## The tick and the device resets (R135, R170, R172, R173) -/

section
namespace Sys2Proof.Machine

section
variable {s : State}

/-! ### TICK -/

theorem exec_tick (s : State) : exec .tick s = .next (if s.phase = .working then s.tick else s) := rfl

theorem State.zone_count (s : State) (z : ZoneId) : s.count.zone z = (s.zone z).tick := bankGet_bankMap ..

theorem State.link_count (s : State) (z : ZoneId) : s.count.link z = (s.link z).tick := bankGet_bankMap ..

/-- R122: the idle timer does not reach 0 while a stream is being sent. -/
theorem Link.tick_idle (x : Link) : x.tick.idleTimer
    = if (x.onLine.toList ++ x.txQueue).any OutBlock.isStream = true ∧ x.idleTimer = some 1 then some 1
      else x.idleTimer.map (· - 1) := rfl

/-- R135: what a tick makes of a message in its slot. -/
theorem State.tick_message (s : State) (slot : SlotId) (m : Message) : m.tick
    = if s.slotStateOf slot m = .wait ∧ m.frozen = false then { m with retryTimer := m.retryTimer.map (· - 1) } else m := by
  unfold Message.tick
  simp only [State.slotStateOf_wait, Bool.not_eq_true]
  rfl

theorem State.lastTicks_eq (s : State) : s.lastTicks = (s.messages.filter fun x => decide
    (s.slotStateOf x.1 x.2 = .wait ∧ x.2.frozen = false ∧ ∃ n ∈ x.2.retryTimer, n ≤ 1)).map Prod.fst := by
  unfold State.lastTicks
  congr 1
  refine List.filter_congr fun x _ => ?_
  rw [Bool.eq_iff_iff, Message.lastTick_iff, decide_eq_true_eq, State.slotStateOf_wait]

end

/-- Settles O50: the state as counted, and the retry expiries as a chain on it. -/
theorem tickCountsEveryTimer : Obligations.TickCountsEveryTimer := by
  intro s
  simp only [exec_tick]
  refine ⟨fun hidle => by rw [if_neg hidle], fun hworking => ⟨s.count, s.lastTicks.foldl State.expireRetry s.count, ?_, rfl,
    s.zone_count, fun z => ?_, fun z => ?_, fun slot m hm => ?_, fun slot hm => ?_, rfl, fun hcanonical => ?_⟩⟩
  · rw [if_pos hworking]
    rfl
  · rw [State.link_count]
    rfl
  · rw [State.link_count]
    exact Link.tick_idle _
  · rw [State.message_count, hm, State.slotState_of hm, ← State.tick_message]
    rfl
  · rw [State.message_count, hm]
    rfl
  · rw [← State.lastTicks_eq]
    exact State.oneByOne_tick hcanonical

section
variable {s : State}

/-! ### The resets -/

theorem exec_officeReset (p : PortId) (body : List Byte) (s : State) : exec (.officeReset p body) s
    = .next (takeCommand p [.supervisor] (withLength 0 body (officeReset p)) s) := rfl

theorem exec_officeResetTakesEffect (r1 r0 : Bool) (s : State) : exec (.officeResetTakesEffect r1 r0) s
    = .next (if s.phase ≠ .held ∧ s.officeResetReady then s.deviceReset r1 r0 .starting else s) := rfl

theorem exec_resetNHigh (s : State) :
    exec .resetNHigh s = .next (if s.phase = .held then { s with phase := .starting } else s) := rfl

theorem exec_initialisationPassEnd (s : State) : exec .initialisationPassEnd s = .next (if s.phase = .starting then
    { s with
      phase := .working, tickDivider := 0, secondDivider := 0
      zones := bankMap (fun (x : Zone) => ({ x with batchTimer := 50 } : Zone)) s.zones }
    else s) := rfl

theorem State.officeResetReady_iff : s.officeResetReady = true ↔
    s.resetDue = true ∨ ∃ p : PortId, (s.port p).resetAfter = true ∧ (s.port p).receiver = .sending := by
  unfold State.officeResetReady
  rw [Bool.or_eq_true, List.any_eq_true]
  refine or_congr_right (exists_congr fun p => ?_)
  rw [Bool.and_eq_true, decide_eq_true_eq]
  exact and_iff_right (mem_allPorts p)

/-- Each port after a reset, but for its role. -/
theorem State.port_reset (p : PortId) : State.reset.port p = Port.reset (State.reset.port p).role := by
  revert p
  decide

/-- Every record has its value after reset, whatever the queue of commands, the straps and the phase. -/
theorem State.afterReset_reset (pending : List Instr) (straps : Straps) (phase : Phase) :
    State.afterReset { State.reset with pending := pending, straps := straps, phase := phase } where
  roles := ⟨rfl, rfl, rfl, rfl⟩
  ports p := by
    have hport : State.port { State.reset with pending := pending, straps := straps, phase := phase } p = State.reset.port p := rfl
    rw [hport, State.port_reset]
    exact ⟨rfl, rfl, rfl, rfl, rfl, rfl, rfl⟩
  clock := rfl
  directory := ⟨fun _ => rfl, fun _ => rfl⟩
  plans i := bankGet_replicate Plan.reset i
  classifier i := by
    have hentry : bankGet State.reset.classifier i = ClassifierEntry.reset := bankGet_replicate ClassifierEntry.reset i
    rw [show bankGet _ i = _ from hentry]
    exact ⟨rfl, rfl, rfl, rfl, rfl, rfl, rfl, rfl, rfl, rfl, rfl⟩
  defaults := ⟨⟨rfl, rfl, rfl, rfl, rfl, rfl, rfl, rfl⟩, rfl, rfl, rfl, rfl, rfl, rfl, rfl, rfl⟩
  checkers i := bankGet_replicate (⟨.none, 0, 0⟩ : RangeChecker) i
  store := ⟨fun _ => ⟨rfl, rfl⟩, rfl⟩
  zones z := State.zone_reset z
  airHold := rfl
  links z := by
    have hlink : State.link { State.reset with pending := pending, straps := straps, phase := phase } z = Link.reset :=
      State.link_reset z
    rw [hlink]
    exact ⟨rfl, rfl, rfl, rfl, rfl, rfl, rfl, rfl, rfl, rfl, rfl, rfl, rfl⟩
  journal := rfl
  sweep := rfl

end

/-- Settles O51: the reset that an OFFICE_RESET makes due, the other sources of a reset, and the end of the pass. -/
theorem resetsAndThePass : Obligations.ResetsAndThePass := by
  intro s r1 r0
  simp only [exec_officeReset, exec_officeResetTakesEffect, exec_resetNHigh, exec_initialisationPassEnd]
  refine ⟨fun p hs => ?command, fun hphase hready => ?taken, fun hnot => ?waits, rfl, rfl,
    fun ph => State.afterReset_reset _ _ ph, fun hheld => by rw [if_pos hheld], fun hfree => by rw [if_neg hfree],
    fun hother => by rw [if_neg hother], fun hstarting => ?pass⟩
  case command => exact congrArg _ (takeCommand_plain_answers hs rfl rfl (by rw [State.port_setPort_self]))
  case taken =>
    rw [if_pos ⟨hphase, State.officeResetReady_iff.mpr hready⟩]
    rfl
  case waits =>
    rw [if_neg]
    rintro ⟨hphase, hready⟩
    rcases hnot with hheld | ⟨hdue, hports⟩
    · exact hphase hheld
    · rcases State.officeResetReady_iff.mp hready with hset | ⟨p, hafter, hsending⟩
      · rw [hdue] at hset
        cases hset
      · rcases hports p with hclear | hother
        · rw [hclear] at hafter
          cases hafter
        · exact hother hsending
  case pass =>
    rw [if_pos hstarting]
    exact ⟨_, rfl, rfl, rfl, rfl, fun z => bankGet_bankMap .., rfl⟩

end Sys2Proof.Machine
end

/-! ## The credit sweep (R153 to R156) -/

section
namespace Sys2Proof.Machine

section
variable {s : State} {p : PortId} {body : List Byte} {mode : SweepMode} {single : AccountIndex}

/-! ### SWEEP_START and SWEEP_STATUS -/

theorem exec_sweepStart (p : PortId) (body : List Byte) (s : State) : exec (.sweepStart p body) s
    = .next (takeCommand p [.accounts, .supervisor] (withLength 6 body (withRange (readSweepStart body) sweepStart)) s) := rfl

theorem exec_sweepStatus (p : PortId) (body : List Byte) (s : State) :
    exec (.sweepStatus p body) s = .next (takeCommand p anyRole (withLength 0 body sweepStatus) s) := rfl

theorem sweepModeOfCode_toNat (mode : SweepMode) : sweepModeOfCode (sweepModeCode mode).toNat = some mode := by
  cases mode <;> rfl

theorem sweepModeOfCode_none {v : Nat} (h : 3 < v) : sweepModeOfCode v = none := by
  unfold sweepModeOfCode
  split
  · omega
  · omega
  · omega
  · omega
  · rfl

theorem readSweepStart_of (hmode : fieldAt body 0 1 = (sweepModeCode mode).toNat) (hlow : 1 ≤ fieldAt body 1 1)
    (hhigh : fieldAt body 1 1 ≤ 64) (hsingle : fieldAt body 2 2 = single.val) :
    readSweepStart body = some ⟨mode, fieldAt body 1 1, single, flagAt body 4, flagAt body 5⟩ := by
  unfold readSweepStart
  rw [hmode, sweepModeOfCode_toNat, within_of hlow hhigh, finBelow_of hsingle]
  rfl

theorem readSweepStart_none (h : 3 < fieldAt body 0 1 ∨ fieldAt body 1 1 = 0 ∨ 64 < fieldAt body 1 1 ∨ 8191 < fieldAt body 2 2) :
    readSweepStart body = none := by
  cases hread : readSweepStart body with
  | none => rfl
  | some r =>
    exfalso
    unfold readSweepStart at hread
    obtain ⟨mode, hmode, hread⟩ := Option.bind_eq_some_iff.mp hread
    obtain ⟨hrate, hread⟩ := within_bind hread
    obtain ⟨single, hsingle, -⟩ := Option.bind_eq_some_iff.mp hread
    have hbound := single.isLt
    have hindex := finBelow_eq_some.mp hsingle
    by_cases hcode : 3 < fieldAt body 0 1
    · rw [sweepModeOfCode_none hcode] at hmode
      cases hmode
    · omega

/-- The sweep that a SWEEP_START writes. -/
def State.startedSweep (s : State) (r : SweepReq) : Sweep :=
  ⟨r.mode, r.rate, r.single, r.autoSuspend, r.autoResume, bankMap Plan.lowWater s.plans,
    if r.mode = .single then r.single else 0, 0⟩

theorem sweepStart_eq (r : SweepReq) (s : State) : sweepStart r s = ⟨.ok, [], { s with sweep := s.startedSweep r }⟩ := rfl

/-- The fields of a SWEEP_STATUS response (Table 10-9). -/
def sweepFields (w : Sweep) : List (Nat × Nat) :=
  [(1, (sweepModeCode w.mode).toNat), (2, w.position.val), (2, w.passCount.toNat), (1, w.rate), (2, w.single.val),
    (1, (flagByte w.autoSuspend).toNat), (1, (flagByte w.autoResume).toNat)]

theorem sweepBytes_eq (w : Sweep) : sweepBytes w = fieldsBytes (sweepFields w) := by
  simp only [sweepBytes, sweepFields, fieldsBytes_cons, fieldsBytes_nil, bytesOf_one_toNat, List.append_assoc,
    List.append_nil, List.cons_append, List.nil_append]

end

/-- Settles O47: the body in range and out of range, and the response by its layout. -/
theorem sweepStartAndStatus : Obligations.SweepStartAndStatus := by
  refine ⟨rfl, fun s p => ⟨fun body hs hb => ?start, fun hs => ?status⟩⟩
  case start =>
    simp only [exec_sweepStart]
    refine ⟨fun h => congrArg _ (takeCommand_range _ hs hb (readSweepStart_none h)), ?_⟩
    intro mode single hmode hlow hhigh hsingle
    have hread := readSweepStart_of hmode hlow hhigh hsingle
    exact ⟨_, congrArg _ (takeCommand_answers hs hb hread (sweepStart_eq _ s) rfl), rfl, fun i => bankGet_bankMap .., rfl, rfl⟩
  case status =>
    simp only [exec_sweepStatus]
    refine ⟨fieldsBytes (sweepFields s.sweep), congrArg _ (takeCommand_plain_answers hs rfl ?_ rfl), ?_,
      fieldAt_fields_lt 0 rfl ?_ (BitVec.isLt _), fieldAt_fields_lt 1 rfl ?_ (Nat.lt_of_lt_of_le s.sweep.position.isLt (by decide)),
      fieldAt_fields_lt 2 rfl ?_ (BitVec.isLt _), fieldAt_fields_nil 3 rfl ?_,
      fieldAt_fields_lt 4 rfl ?_ (Nat.lt_of_lt_of_le s.sweep.single.isLt (by decide)),
      (fieldAt_fields_lt 5 rfl ?_ (BitVec.isLt _)).trans (flagByte_toNat _),
      (fieldAt_fields_lt 6 rfl ?_ (BitVec.isLt _)).trans (flagByte_toNat _)⟩
    · rw [← sweepBytes_eq]
      rfl
    all_goals simp [sweepFields]

section
variable {s : State} {i : AccountIndex} {e : Entry}

/-! ### A visit (R155) -/

/-- The event records of a visit with their subject and time. -/
def visitRecords (i : AccountIndex) (time : Clock) (before after : Entry) : List EventRecord :=
  (visitEvents before after).map fun ev => ⟨ev.1, i.val, ev.2, time⟩

theorem State.post_all_rest (l : List (EventKind × Int)) (subject : Nat) (s : State) :
    l.foldl (fun t ev => t.post ev.1 subject ev.2) s
      = { s with ports := (l.foldl (fun t ev => t.post ev.1 subject ev.2) s).ports } := by
  induction l generalizing s with
  | nil => rfl
  | cons ev rest ih =>
    rw [List.foldl_cons, ih]
    rfl

/-- Events posted one after another. -/
theorem State.port_post_all (l : List (EventKind × Int)) (subject : Nat) (s : State) (q : PortId) :
    (l.foldl (fun t ev => t.post ev.1 subject ev.2) s).port q
      = (s.port q).takes (l.map fun ev => ⟨ev.1, subject, ev.2, s.clock⟩) := by
  induction l generalizing s with
  | nil => rfl
  | cons ev rest ih =>
    rw [List.foldl_cons, ih, State.port_post_takes, List.map_cons, Port.takes_cons (rest := rest.map _)]
    rfl

/-- The entry that a visit leaves at its index. -/
def State.visitedEntry (s : State) (e : Entry) : Entry := e.visited s.sweep (bankGet s.sweep.lowWater e.plan)

theorem State.visit_unused (h : s.entry i = none) : s.visit i = s := by
  simp only [State.visit, h]

theorem State.visit_used (h : s.entry i = some e) : s.visit i
    = (visitEvents e (s.visitedEntry e)).foldl (fun t ev => t.post ev.1 i.val ev.2) (s.setEntry i (s.visitedEntry e)) := by
  simp only [State.visit, h]
  rfl

theorem State.visit_rest (i : AccountIndex) (s : State) :
    s.visit i = { s with directory := (s.visit i).directory, ports := (s.visit i).ports } := by
  cases h : s.entry i with
  | none => rw [State.visit_unused h]
  | some e =>
    rw [State.visit_used h, State.post_all_rest]
    rfl

theorem State.entry_visit (h : s.entry i = some e) (j : AccountIndex) :
    (s.visit i).entry j = (s.setEntry i (s.visitedEntry e)).entry j := by
  rw [State.visit_used h, State.post_all_rest]
  rfl

theorem State.port_visit (h : s.entry i = some e) (q : PortId) :
    (s.visit i).port q = (s.port q).takes (visitRecords i s.clock e (s.visitedEntry e)) := by
  rw [State.visit_used h, State.port_post_all]
  rfl

theorem Entry.visited_state (e : Entry) (w : Sweep) (low : Nat) : (e.visited w low).state
    = if w.autoSuspend = true ∧ (e.visited w low).exhausted = true ∧ e.exhausted = false ∧ e.state = .active then .suspended .sweep
      else if w.autoResume = true ∧ e.state = .suspended .sweep ∧ (e.visited w low).low = false then .active
      else e.state := by
  unfold Entry.visited
  simp

/-- R155: when a visit suspends, when it resumes, and that it changes the state in no other way. -/
theorem Entry.visited_changes (e : Entry) (w : Sweep) (low : Nat) :
    ((e.visited w low).state = .suspended .sweep ∧ e.state ≠ .suspended .sweep ↔
      w.autoSuspend = true ∧ e.exhausted = false ∧ (e.visited w low).exhausted = true ∧ e.state = .active)
    ∧ (e.state = .suspended .sweep ∧ (e.visited w low).state = .active ↔
      w.autoResume = true ∧ e.state = .suspended .sweep ∧ (e.visited w low).low = false)
    ∧ ((e.visited w low).state ≠ e.state → (e.visited w low).state = .suspended .sweep ∨ (e.visited w low).state = .active) := by
  have hstate := e.visited_state w low
  generalize e.visited w low = e' at hstate ⊢
  rw [hstate]
  split
  · next hsuspends =>
    obtain ⟨hauto, hexhausted, hbefore, hactive⟩ := hsuspends
    refine ⟨iff_of_true ⟨rfl, by rw [hactive]; decide⟩ ⟨hauto, hbefore, hexhausted, hactive⟩, iff_of_false ?_ ?_, fun _ => .inl rfl⟩
    · rintro ⟨-, h⟩
      cases h
    · rintro ⟨-, h, -⟩
      rw [hactive] at h
      cases h
  · next hstays =>
    have hno : ¬ (w.autoSuspend = true ∧ e.exhausted = false ∧ e'.exhausted = true ∧ e.state = .active) :=
      fun ⟨hauto, hbefore, hexhausted, hactive⟩ => hstays ⟨hauto, hexhausted, hbefore, hactive⟩
    split
    · next hresumes =>
      refine ⟨iff_of_false ?_ hno, iff_of_true ⟨hresumes.2.1, rfl⟩ hresumes, fun _ => .inr rfl⟩
      rintro ⟨h, -⟩
      cases h
    · next hkeeps =>
      refine ⟨iff_of_false (fun h => h.2 h.1) hno, iff_of_false ?_ hkeeps, fun h => absurd rfl h⟩
      rintro ⟨hsweep, hactive⟩
      rw [hsweep] at hactive
      cases hactive

/-- R155: the records of a visit, in their order. -/
theorem visitRecords_eq (i : AccountIndex) (time : Clock) (e e' : Entry) : visitRecords i time e e'
    = (if e.low = false ∧ e'.low = true then [⟨.creditLow, i.val, e.reported, time⟩] else [])
      ++ (if e.exhausted = false ∧ e'.exhausted = true then [⟨.creditExhausted, i.val, e.reported, time⟩] else [])
      ++ (if e.state = .active ∧ e'.state = .suspended .sweep then [⟨.accountSuspended, i.val, 2, time⟩] else [])
      ++ (if e.state = .suspended .sweep ∧ e'.state = .active then [⟨.accountResumed, i.val, 0, time⟩] else []) := by
  have hflag : ∀ a b : Bool, (b = true ∧ ¬ a = true) ↔ (a = false ∧ b = true) := fun a b => by
    rw [Bool.not_eq_true, and_comm]
  unfold visitRecords visitEvents
  simp only [List.map_append, apply_ite (List.map _), List.map_cons, List.map_nil, hflag]
  congr 2
  split
  · next hsuspended => rw [hsuspended.2]; rfl
  · rfl

/-! ### The position (R154) -/

theorem State.visit_sweep (i : AccountIndex) (s : State) : (s.visit i).sweep = s.sweep := by
  rw [State.visit_rest]

theorem State.sweepVisit_inside (h : s.sweep.position.val < 8191) : s.sweepVisit
    = { s.visit s.sweep.position with sweep := { s.sweep with position := s.sweep.position + 1 } } := by
  have hne : s.sweep.position ≠ 8191 := fun heq => by rw [heq] at h; exact absurd h (by decide)
  unfold State.sweepVisit
  dsimp only
  rw [if_neg hne, State.visit_sweep]

theorem State.position_inside (h : s.sweep.position.val < 8191) : (s.sweep.position + 1).val = s.sweep.position.val + 1 := by
  rw [Fin.val_add]
  exact Nat.mod_eq_of_lt (by omega)

/-- The sweep at the end of a pass. -/
def Sweep.passed (w : Sweep) : Sweep :=
  { w with mode := if w.mode = .onePass then .stop else w.mode, position := 0, passCount := w.passCount + 1 }

theorem State.sweepVisit_last (h : s.sweep.position.val = 8191) : s.sweepVisit
    = ({ s.visit s.sweep.position with sweep := s.sweep.passed } : State).post .sweepPassDone 0 (s.sweep.passCount + 1).toNat := by
  have heq : s.sweep.position = 8191 := Fin.ext h
  unfold State.sweepVisit
  dsimp only
  rw [if_pos heq]
  unfold State.endPass Sweep.passed
  rw [State.visit_sweep]

theorem State.sweep_inside (h : s.sweep.position.val < 8191) :
    s.sweepVisit.sweep = { s.sweep with position := s.sweep.position + 1 } := by
  rw [State.sweepVisit_inside h]

theorem State.sweep_last (h : s.sweep.position.val = 8191) : s.sweepVisit.sweep = s.sweep.passed := by
  rw [State.sweepVisit_last h]
  rfl

theorem State.position_cases (s : State) : s.sweep.position.val < 8191 ∨ s.sweep.position.val = 8191 := by
  have := s.sweep.position.isLt
  omega

/-! ### The visits of a tick (R154) -/

theorem State.sweepVisits_stop (h : s.sweep.mode = .stop) (n : Nat) : s.sweepVisits n = s := by
  cases n with
  | zero => rfl
  | succ n => simp only [State.sweepVisits, h]

theorem State.sweepVisits_succ (h : s.sweep.mode = .continuous ∨ s.sweep.mode = .onePass) (n : Nat) :
    s.sweepVisits (n + 1) = s.sweepVisit.sweepVisits n := by
  rcases h with h | h <;> simp only [State.sweepVisits, h]

theorem State.continuous_sweepVisit (h : s.sweep.mode = .continuous) : s.sweepVisit.sweep.mode = .continuous := by
  rcases s.position_cases with hinside | hlast
  · rw [State.sweep_inside hinside]
    exact h
  · rw [State.sweep_last hlast]
    simp [Sweep.passed, h]

/-- In CONTINUOUS each visit of the tick is made. -/
theorem State.sweepVisits_continuous (h : s.sweep.mode = .continuous) (n : Nat) :
    s.sweepVisits n = Nat.iterate State.sweepVisit n s := by
  induction n generalizing s with
  | zero => rfl
  | succ n ih => rw [State.sweepVisits_succ (.inl h), ih (State.continuous_sweepVisit h), Function.iterate_succ_apply]

/-- In ONE_PASS the visits end with the pass. -/
theorem State.sweepVisits_onePass (h : s.sweep.mode = .onePass) (n : Nat) :
    s.sweepVisits n = Nat.iterate State.sweepVisit (min n (8192 - s.sweep.position.val)) s
      ∧ (8192 ≤ s.sweep.position.val + n → (s.sweepVisits n).sweep.mode = .stop) := by
  induction n generalizing s with
  | zero =>
    have := s.sweep.position.isLt
    rw [Nat.zero_min]
    exact ⟨rfl, fun hpass => by omega⟩
  | succ n ih =>
    rw [State.sweepVisits_succ (.inr h)]
    rcases s.position_cases with hinside | hlast
    · have hsweep := State.sweep_inside hinside
      have hposition : s.sweepVisit.sweep.position.val = s.sweep.position.val + 1 := by
        rw [hsweep]
        exact State.position_inside hinside
      obtain ⟨hvisits, hstop⟩ := ih (s := s.sweepVisit) (by rw [hsweep]; exact h)
      have hcount : min (n + 1) (8192 - s.sweep.position.val) = min n (8192 - s.sweepVisit.sweep.position.val) + 1 := by omega
      refine ⟨?_, fun hpass => hstop (by omega)⟩
      rw [hvisits, hcount, Function.iterate_succ_apply]
    · have hmode : s.sweepVisit.sweep.mode = .stop := by
        rw [State.sweep_last hlast]
        simp [Sweep.passed, h]
      have hcount : min (n + 1) (8192 - s.sweep.position.val) = 1 := by omega
      rw [State.sweepVisits_stop hmode, hcount]
      exact ⟨rfl, fun _ => hmode⟩

/-- The sweep after up to 64 visits in CONTINUOUS. -/
theorem State.sweep_iterate (h : s.sweep.mode = .continuous) {n : Nat} (hn : n ≤ 64) :
    (Nat.iterate State.sweepVisit n s).sweep.position.val = (s.sweep.position.val + n) % 8192
    ∧ (Nat.iterate State.sweepVisit n s).sweep.mode = .continuous
    ∧ (Nat.iterate State.sweepVisit n s).sweep.passCount
      = if 8192 ≤ s.sweep.position.val + n then s.sweep.passCount + 1 else s.sweep.passCount := by
  have hbound := s.sweep.position.isLt
  induction n with
  | zero => exact ⟨(Nat.mod_eq_of_lt hbound).symm, h, (if_neg (by omega)).symm⟩
  | succ n ih =>
    obtain ⟨hposition, hmode, hcount⟩ := ih (by omega)
    rw [Function.iterate_succ_apply']
    generalize Nat.iterate State.sweepVisit n s = t at hposition hmode hcount ⊢
    refine ⟨?_, State.continuous_sweepVisit hmode, ?_⟩
    · rcases t.position_cases with hinside | hlast
      · rw [State.sweep_inside hinside]
        exact (State.position_inside hinside).trans (by omega)
      · rw [State.sweep_last hlast]
        exact (rfl : (0 : AccountIndex).val = 0).trans (by omega)
    · rcases t.position_cases with hinside | hlast
      · rw [State.sweep_inside hinside]
        refine hcount.trans (if_congr ?_ rfl rfl)
        omega
      · rw [State.sweep_last hlast, if_pos (by omega)]
        rw [if_neg (by omega)] at hcount
        exact congrArg (· + 1) hcount

end

/-- Settles O48: a visit, the position after it, and the visits of a tick by its mode. -/
theorem sweepVisitsAndPosition : Obligations.SweepVisitsAndPosition := by
  intro s
  refine ⟨fun i e he => ?visit, fun i => State.visit_unused, fun hinside => ?inside, fun hlast => ?last, fun hmode => ?stop,
    fun hmode => ?single, fun hmode => ?continuous, fun hmode => ?onePass, fun hmode hrate => ?lap⟩
  case visit =>
    obtain ⟨hsuspends, hresumes, hother⟩ := e.visited_changes s.sweep (bankGet s.sweep.lowWater e.plan)
    refine ⟨s.visitedEntry e, (State.entry_visit he i).trans (State.entry_setEntry_self ..), rfl, rfl, rfl, hsuspends, hresumes,
      hother, fun j hj => (State.entry_visit he j).trans (State.entry_setEntry_ne _ _ hj), ?_, State.visit_rest i s⟩
    intro reported hreported q
    rw [State.port_visit he q, visitRecords_eq, hreported]
    rfl
  case inside =>
    have hsweep := State.sweep_inside hinside
    refine ⟨_, rfl, ?_, ?_, ?_⟩ <;> rw [hsweep]
    · exact State.position_inside hinside
    · exact State.sweepVisit_inside hinside
  case last =>
    have hclock : (s.visit s.sweep.position).clock = s.clock := by
      rw [State.visit_rest]
    refine ⟨_, rfl, State.sweep_last hlast, fun q => ?_, ?_⟩ <;> rw [State.sweepVisit_last hlast]
    · rw [State.port_post_takes, ← hclock]
      rfl
    · rfl
  case stop => simp only [State.sweepTick, hmode]
  case single => simp only [State.sweepTick, hmode]
  case continuous => simp only [State.sweepTick, hmode, State.sweepVisits_continuous hmode]
  case onePass =>
    simp only [State.sweepTick, hmode]
    exact State.sweepVisits_onePass hmode _
  case lap =>
    simp only [State.sweepTick, hmode, State.sweepVisits_continuous hmode]
    exact State.sweep_iterate hmode hrate

end Sys2Proof.Machine
end

/-! ## A port's line (R159, R160, R162, R163, R168) -/

section
namespace Sys2Proof.Machine

section
variable {s : State} {p : PortId} {frame : List Byte} {b : Byte}

theorem exec_commandFrameBadCrc (p : PortId) (frame : List Byte) (s : State) : exec (.commandFrameBadCrc p frame) s
    = .next (if frameGood frame then s else s.frameDropped p) := rfl

theorem exec_frameAbandoned (p : PortId) (s : State) : exec (.frameAbandoned p) s = .next (s.frameDropped p) := rfl

theorem exec_turnAroundGapExpiry (p : PortId) (s : State) : exec (.turnAroundGapExpiry p) s
    = .next (if s.phase ≠ .held ∧ (s.port p).receiver = .gap then s.setPort p (s.port p).startSending else s) := rfl

theorem exec_responseSent (p : PortId) (s : State) : exec (.responseSent p) s
    = .next (if s.phase ≠ .held ∧ (s.port p).receiver = .sending then s.answerEnded p [] else s) := rfl

theorem exec_lineBreak (p : PortId) (s : State) : exec (.lineBreak p) s
    = .next (if s.phase ≠ .held then s.answerEnded p (finishByte (s.port p).unsent) else s) := rfl

/-! ### The receiver -/

theorem State.listens_iff (hworks : s.phase ≠ .held) :
    s.listens p = true ↔ (s.port p).receiver = .listening ∨ (s.port p).receiver = .receiving := by
  simp [State.listens, hworks]

theorem State.frameDropped_taking (hworks : s.phase ≠ .held)
    (h : (s.port p).receiver = .listening ∨ (s.port p).receiver = .receiving) :
    s.frameDropped p = s.setPort p { s.port p with receiver := .listening, frame := [] } :=
  if_pos ((State.listens_iff hworks).mpr h)

theorem State.frameDropped_answering (h : (s.port p).receiver = .gap ∨ (s.port p).receiver = .sending) : s.frameDropped p = s := by
  refine if_neg fun hlistens => ?_
  unfold State.listens at hlistens
  rcases h with h | h <;> simp [h] at hlistens

theorem State.portByte_listening (hworks : s.phase ≠ .held) (h : (s.port p).receiver = .listening) :
    s.portByte p b = if b = 0xC3 then s.setPort p { s.port p with receiver := .receiving, frame := [] } else s := by
  simp only [State.portByte, hworks, if_false, h]

theorem State.portByte_answering (h : (s.port p).receiver = .gap ∨ (s.port p).receiver = .sending) : s.portByte p b = s := by
  unfold State.portByte
  rcases h with h | h <;> simp only [h, ite_self]

theorem State.portCharacter_good (b : Byte) : s.portCharacter p (characterBits b) = s.portByte p b := by
  simp only [State.portCharacter, byteOfCharacter_characterBits]

/-- A character with a bad stop bit abandons the frame being received. -/
theorem State.portCharacter_badStop (hworks : s.phase ≠ .held) (b : Byte) :
    s.portCharacter p ((characterBits b).dropLast ++ [false])
      = if (s.port p).receiver = .receiving then s.setPort p { s.port p with receiver := .listening, frame := [] } else s := by
  simp only [State.portCharacter, byteOfCharacter_badStop]
  refine ite_congr rfl (fun hreceiving => ?_) fun _ => rfl
  rw [State.after_eq (exec_frameAbandoned p s), State.frameDropped_taking hworks (.inr hreceiving)]

/-! ### The transmitter -/

theorem State.txdBit_idle (h : (s.port p).unsent = []) : s.txdBit p = s := by
  simp only [State.txdBit, h]

theorem State.txdBit_more {bit : Bool} {rest : List Bool} (h : (s.port p).unsent = bit :: rest)
    (hmore : rest ≠ [] ∨ (s.port p).receiver ≠ .sending) : s.txdBit p = s.setPort p { s.port p with unsent := rest } := by
  simp only [State.txdBit, h]
  split
  · next hlast =>
    have hother : (s.port p).receiver ≠ .sending := hmore.resolve_left fun hne => hne hlast
    refine State.after_eq ?_
    rw [exec_responseSent, State.port_setPort_self, if_neg fun hsending => hother hsending.2]
  · rfl

/-- The last bit of a response ends it. -/
theorem State.txdBit_last {bit : Bool} (h : (s.port p).unsent = [bit]) (hworks : s.phase ≠ .held)
    (hsending : (s.port p).receiver = .sending) : s.txdBit p = s.answerEnded p [] := by
  simp only [State.txdBit, h, if_true]
  refine State.after_eq ?_
  rw [exec_responseSent, State.port_setPort_self, if_pos ⟨hworks, hsending⟩]
  unfold State.answerEnded
  rw [State.port_setPort_self, State.setPort_setPort]
  rfl

/-- The bits still to be driven leave one by one. -/
theorem State.iterate_txdBit (k : Nat) (h : k < (s.port p).unsent.length ∨ (s.port p).receiver ≠ .sending) :
    Nat.iterate (State.txdBit p) k s = s.setPort p { s.port p with unsent := (s.port p).unsent.drop k } := by
  induction k generalizing s with
  | zero => exact (State.setPort_port s p).symm
  | succ k ih =>
    rw [Function.iterate_succ_apply]
    cases hunsent : (s.port p).unsent with
    | nil =>
      rw [hunsent] at h
      have hother : (s.port p).receiver ≠ .sending := h.resolve_left (by simp)
      rw [State.txdBit_idle hunsent, ih (.inr hother), hunsent, List.drop_nil, List.drop_nil]
    | cons bit rest =>
      have hrest : k < rest.length ∨ (s.port p).receiver ≠ .sending := by simpa [hunsent] using h
      rw [State.txdBit_more hunsent (hrest.imp_left fun hk => List.ne_nil_of_length_pos (by omega)),
        ih (by rw [State.port_setPort_self]; exact hrest), State.port_setPort_self, State.setPort_setPort]
      rfl

/-- The bits of a response in SENDING, and its end with the last. -/
theorem State.iterate_txdBit_all (hworks : s.phase ≠ .held) (hsending : (s.port p).receiver = .sending)
    (hne : (s.port p).unsent ≠ []) : Nat.iterate (State.txdBit p) (s.port p).unsent.length s = s.answerEnded p [] := by
  obtain ⟨before, bit, hunsent⟩ : ∃ before bit, (s.port p).unsent = before ++ [bit] :=
    ⟨_, _, (List.dropLast_append_getLast hne).symm⟩
  rw [hunsent, List.length_append, List.length_singleton, Function.iterate_succ_apply',
    State.iterate_txdBit _ (.inl (by simp [hunsent])), hunsent, List.drop_left, State.txdBit_last (bit := bit)]
  · unfold State.answerEnded
    rw [State.port_setPort_self, State.setPort_setPort]
    rfl
  · rw [State.port_setPort_self]
  · exact hworks
  · rw [State.port_setPort_self]
    exact hsending

theorem State.attention_iff (s : State) (p : PortId) :
    s.attention p = true ↔ (s.port p).events ≠ [] ∨ (s.port p).outcomes ≠ [] := by
  simp [State.attention]

/-- The characters of the response in a port. -/
theorem Port.startSending_bits {x : Port} {a : Answer} (h : x.answer = some a) :
    x.startSending.unsent = (responseFrame a.response).flatMap characterBits := by
  simp only [Port.startSending, Port.sending, h, Option.getD_some]

end

/-- Settles O4: the receiver by its byte, the transmitter by its bit, and the codes by their tables. -/
theorem lineEventsMoveTheReceiver : Obligations.LineEventsMoveTheReceiver := by
  refine ⟨fun p frame s hworks => ?events, fun p s b hworks => ?receiver, characterBits_eq, fun s p => ?transmitter,
    ⟨rfl, rfl, rfl⟩, rfl, rfl, rfl, rfl⟩
  case events =>
    simp only [exec_commandFrameBadCrc, exec_frameAbandoned, exec_turnAroundGapExpiry, exec_responseSent, exec_lineBreak]
    refine ⟨fun htaking => ⟨fun hbad => ?_, ?_⟩, fun hanswering => ?_, fun hgap => ?_, fun part rest k t ht => ⟨?_, ?_⟩⟩
    · rw [hbad, State.frameDropped_taking hworks htaking]
      rfl
    · rw [State.frameDropped_taking hworks htaking]
    · rw [State.frameDropped_answering hanswering, ite_self]
      exact ⟨rfl, rfl⟩
    · rw [if_pos ⟨hworks, hgap⟩]
      refine ⟨(s.port p).startSending.unsent, rfl, ?_⟩
      rintro a covered ha rfl
      exact Port.startSending_bits ha
    · rintro hsending rfl
      rw [if_pos ⟨hworks, hsending⟩, ht]
      rfl
    · intro hunsent hshort hnone hwhole
      rw [if_pos hworks, ht, hunsent, finishByte_append part rest k hshort hwhole hnone]
      rfl
  case receiver =>
    refine ⟨fun h => State.portByte_listening hworks h, fun h frame hlong hwhole => ?_, fun h => State.portByte_answering h,
      State.portCharacter_good b, State.portCharacter_badStop hworks b⟩
    rw [State.portBytes_frame p s hworks h frame hlong hwhole]
    exact exec_after ..
  case transmitter =>
    refine ⟨rfl, fun k h => State.iterate_txdBit k h, fun hworks hsending hne => ?_, State.attention_iff s p⟩
    rw [exec_responseSent, if_pos ⟨hworks, hsending⟩, State.iterate_txdBit_all hworks hsending hne]

end Sys2Proof.Machine
end

/-! ## Command frames and link blocks read back (R113, R114, R160, R161) -/

section
namespace Sys2Proof.Machine

section
variable {i : Instr} {p : PortId} {z : ZoneId} {code kind : Byte} {body crc : List Byte}

/-! ### The CRC -/

/-- One bit of the register, by its highest bit. -/
theorem crcShift_eq : crcShift = fun r : BitVec 16 => if r.getLsbD 15 then (r <<< 1) ^^^ 0x1021 else r <<< 1 := by
  funext r
  unfold crcShift
  rw [BitVec.msb_eq_getLsbD_last]
  rfl

theorem crcByte_eq (r : BitVec 16) (b : Byte) : crcByte r b = Nat.iterate crcShift 8 (r ^^^ (b.setWidth 16 <<< 8)) := rfl

theorem crc16_append (bytes : List Byte) (b : Byte) : crc16 (bytes ++ [b])
    = Nat.iterate (fun r : BitVec 16 => if r.getLsbD 15 then (r <<< 1) ^^^ 0x1021 else r <<< 1) 8
        (crc16 bytes ^^^ (b.setWidth 16 <<< 8)) := by
  rw [← crcShift_eq, ← crcByte_eq, crc16, List.foldl_append]
  rfl

/-- The high byte is sent first. -/
theorem crcBytes_eq (bytes : List Byte) :
    crcBytes bytes = [(crc16 bytes).extractLsb' 8 8, (crc16 bytes).extractLsb' 0 8] := by
  unfold crcBytes
  generalize crc16 bytes = r
  have hhigh : BitVec.ofNat 8 (r.toNat / 256 ^ 1) = r.extractLsb' 8 8 := by
    apply BitVec.eq_of_toNat_eq
    rw [BitVec.toNat_ofNat, BitVec.extractLsb'_toNat, Nat.shiftRight_eq_div_pow]
    norm_num
  have hlow : BitVec.ofNat 8 (r.toNat / 256 ^ 0) = r.extractLsb' 0 8 := by
    apply BitVec.eq_of_toNat_eq
    rw [BitVec.toNat_ofNat, BitVec.extractLsb'_toNat, Nat.shiftRight_zero, Nat.pow_zero, Nat.div_one]
  rw [← hhigh, ← hlow]
  rfl

/-! ### Station frames -/

/-- The one byte of a length below 256. -/
theorem bytesOf_one_length {n : Nat} (h : n ≤ 255) : bytesOf 1 n = [BitVec.ofNat 8 n] ∧ (BitVec.ofNat 8 n).toNat = n := by
  have hvalue : (BitVec.ofNat 8 n).toNat = n := by
    rw [BitVec.toNat_ofNat]
    exact Nat.mod_eq_of_lt (by omega)
  exact ⟨by rw [← bytesOf_one_toNat, hvalue], hvalue⟩

theorem frameGood_iff {length : Byte} (hlength : length.toNat = body.length) (hcrc : crc.length = 2) :
    frameGood (length :: code :: body ++ crc) = true ↔ crc = crcBytes (length :: code :: body) := by
  have hfield : fieldAt (length :: code :: body ++ crc) 0 1 = body.length := by
    rw [← hlength]
    exact fieldAt_cons_zero length (code :: body ++ crc)
  have hwhole : (length :: code :: body ++ crc).length = 4 + body.length := by
    simp [hcrc]
    omega
  unfold frameGood
  rw [hfield, hwhole, Bool.and_eq_true, decide_eq_true_eq, crcGood_iff hcrc]
  exact and_iff_right ⟨Nat.le_add_right .., rfl⟩

/-- A whole frame with its own CRC is taken as the command of its code with its body. -/
theorem takeStationFrame_stationFrame (hbody : body.length ≤ 255) (code : Byte) :
    takeStationFrame p (stationFrame code body) = stationCommand p code body := by
  obtain ⟨hbyte, hvalue⟩ := bytesOf_one_length hbody
  have hframe : stationFrame code body = BitVec.ofNat 8 body.length :: code :: body
      ++ crcBytes (BitVec.ofNat 8 body.length :: code :: body) := by
    unfold stationFrame
    rw [hbyte]
    rfl
  have hcrc := crcBytes_length (BitVec.ofNat 8 body.length :: code :: body)
  have hgood := (frameGood_iff (code := code) hvalue hcrc).mpr rfl
  rw [hframe]
  unfold takeStationFrame
  rw [if_pos hgood]
  generalize crcBytes (BitVec.ofNat 8 body.length :: code :: body) = crc at hcrc
  have hrest : (body ++ crc).length - 2 = body.length := by
    rw [List.length_append, hcrc]
    exact Nat.add_sub_cancel ..
  have htake : (body ++ crc).take ((body ++ crc).length - 2) = body := by rw [hrest, List.take_left]
  exact congrArg (stationCommand p code) htake

/-- Table 10-6: a code that is not in the catalogue names no command. -/
theorem stationCommand_unknown (h : code ∉ catalogueCodes) : stationCommand p code body = .unknownCommand p code body := by
  have hcodes : ∀ k ∈ catalogueCodes, code.toNat ≠ k.toNat := fun k hk heq => h (BitVec.eq_of_toNat_eq heq ▸ hk)
  simp only [catalogueCodes, List.forall_mem_cons] at hcodes
  unfold stationCommand
  split
  case h_39 => rfl
  all_goals
    exfalso
    simp_all

/-- A command that a frame carries is the one its code and body spell. -/
theorem stationCommand_fields (h : stationFields i = some (p, code, body)) (hwell : i.wellFormed = true) :
    body.length ≤ 255 ∧ stationCommand p code body = i := by
  cases i <;> cases h
  case unknownCommand =>
    obtain ⟨hbody, hcode⟩ := Bool.and_eq_true_iff.mp hwell
    exact ⟨of_decide_eq_true hbody, stationCommand_unknown (of_decide_eq_true hcode)⟩
  all_goals exact ⟨of_decide_eq_true hwell, rfl⟩

/-! ### Link blocks -/

/-- A whole block with its own CRC and a body in its kind's ranges is taken as the event of its kind. -/
theorem takeLinkBlock_linkBlock (hbody : body.length ≤ 128) (hgood : inboundBodyGood kind.toNat body = true) :
    takeLinkBlock z (linkBlock kind body)
      = (linkBlockOf z kind.toNat body).getD (.badBlock z (linkBlock kind body)) := by
  obtain ⟨hbyte, hvalue⟩ := bytesOf_one_length (n := body.length) (by omega)
  have hblock : linkBlock kind body = kind :: BitVec.ofNat 8 body.length :: body
      ++ crcBytes (kind :: BitVec.ofNat 8 body.length :: body) := by
    unfold linkBlock
    rw [hbyte]
    rfl
  have hcrc := crcBytes_length (kind :: BitVec.ofNat 8 body.length :: body)
  have hjudged := (blockGood_iff (kind := kind) hvalue hcrc).mpr ⟨hbody, rfl, hgood⟩
  rw [hblock, takeLinkBlock, if_pos hjudged]
  generalize crcBytes (kind :: BitVec.ofNat 8 body.length :: body) = crc
  have hkind : fieldAt (kind :: BitVec.ofNat 8 body.length :: body ++ crc) 0 1 = kind.toNat := fieldAt_cons_zero ..
  have hlength : fieldAt (kind :: BitVec.ofNat 8 body.length :: body ++ crc) 1 1 = body.length :=
    (fieldAt_cons_skip kind _ (by decide)).trans ((fieldAt_cons_zero ..).trans hvalue)
  have htail : ((kind :: BitVec.ofNat 8 body.length :: body ++ crc).drop 2).take body.length = body := List.take_left
  rw [hkind, hlength, htail]

theorem linkBlockOf_fields (h : linkFields i = some (z, kind, body)) : linkBlockOf z kind.toNat body = some i := by
  cases i <;> cases h <;> rfl

end

/-- Settles O3: the CRC from its steps, and each frame and block by the judgement of its own bytes. -/
theorem framesAndBlocksSpellTheirEvents : Obligations.FramesAndBlocksSpellTheirEvents := by
  refine ⟨⟨rfl, crc16_append, by decide +kernel, crcBytes_eq⟩, fun code body => ⟨rfl, rfl⟩,
    fun length code body crc hlength hcrc => frameGood_iff hlength hcrc, fun i p code body h hwell => ?station,
    fun i z kind body h hbody hgood => ?link⟩
  case station =>
    obtain ⟨hbody, hcommand⟩ := stationCommand_fields h hwell
    exact (takeStationFrame_stationFrame hbody code).trans hcommand
  case link => rw [takeLinkBlock_linkBlock hbody hgood, linkBlockOf_fields h, Option.getD_some]

end Sys2Proof.Machine
end

/-! ## The checks common to all station commands (R160, R161, R169, R172) -/

section
namespace Sys2Proof.Machine

section
variable {i : Instr} {p : PortId} {code : Byte} {body : List Byte} {s : State}

/-- What a command of the catalogue is: taken with the roles of its code, and refused FORMAT when its body has not the form
that the code asks for. -/
def Instr.takenAs (i : Instr) (p : PortId) (code : Byte) (body : List Byte) : Prop :=
  ∃ roles owner, rolesOfCode code = some roles ∧ (∀ s, exec i s = .next (takeCommand p roles owner s))
    ∧ (¬ bodyFormOf code body → ∀ s, owner s = refuse .format s)

theorem bodyFormOf_fixed {n : Nat} (hsubmit : code ≠ 0x30) (hprobe : code ≠ 0x25) (h : fixedBodyLength code = some n) :
    bodyFormOf code body ↔ body.length = n := by
  unfold bodyFormOf
  rw [if_neg hsubmit, if_neg hprobe, h, Option.some.injEq]
  exact eq_comm

/-- A command of fixed body length. -/
theorem Instr.takenAs_fixed {roles : List Role} {n : Nat} {owner : State → Reply}
    (hroles : rolesOfCode code = some roles ∧ code ≠ 0x30 ∧ code ≠ 0x25 ∧ fixedBodyLength code = some n)
    (hexec : ∀ s, exec i s = .next (takeCommand p roles (withLength n body owner) s)) : Instr.takenAs i p code body := by
  obtain ⟨hroles, hsubmit, hprobe, hlength⟩ := hroles
  refine ⟨roles, _, hroles, hexec, fun hform s => withLength_ne _ _ fun hb => hform ?_⟩
  exact (bodyFormOf_fixed hsubmit hprobe hlength).mpr hb

theorem Instr.takenAs_submit (p : PortId) (body : List Byte) : Instr.takenAs (.submit p body) p 0x30 body :=
  ⟨_, _, rfl, fun _ => rfl, fun hform _ => if_neg fun h => hform (submitWellFormed_iff.mp h)⟩

theorem probeWellFormed_iff : probeWellFormed body = true ↔ bodyFormOf 0x25 body := by
  unfold probeWellFormed
  rw [decide_eq_true_eq]
  rfl

theorem Instr.takenAs_probe (p : PortId) (body : List Byte) : Instr.takenAs (.classifyProbe p body) p 0x25 body :=
  ⟨_, _, rfl, fun _ => rfl, fun hform _ => if_neg fun h => hform (probeWellFormed_iff.mp h)⟩

theorem rolesOfCode_unknown (h : code ∉ catalogueCodes) : rolesOfCode code = none := by
  simp only [catalogueCodes, List.mem_cons, List.not_mem_nil, or_false, not_or] at h
  simp only [rolesOfCode, List.mem_cons, List.not_mem_nil, h, or_self, if_false]

/-- A command that a frame carries is of the catalogue, or has a code that is not in it. -/
theorem Instr.takenAs_or_unknown (h : stationFields i = some (p, code, body)) (hwell : i.wellFormed = true) :
    Instr.takenAs i p code body ∨ i = .unknownCommand p code body ∧ code ∉ catalogueCodes := by
  cases i <;> cases h
  case unknownCommand => exact .inr ⟨rfl, of_decide_eq_true (Bool.and_eq_true_iff.mp hwell).2⟩
  case submit => exact .inl (Instr.takenAs_submit p body)
  case classifyProbe => exact .inl (Instr.takenAs_probe p body)
  all_goals exact .inl (Instr.takenAs_fixed ⟨rfl, by decide, by decide, rfl⟩ fun _ => rfl)

/-! ### The checks in their order -/

theorem exec_unknownCommand (p : PortId) (code : Byte) (body : List Byte) (s : State) : exec (.unknownCommand p code body) s
    = .next (if code ∉ catalogueCodes ∧ s.listens p then
        s.respond p (s.port p).gap (if s.phase = .starting then .starting else .unknownCommand) [] else s) := rfl

theorem State.deaf_of (h : s.phase = .held ∨ (s.port p).receiver = .gap ∨ (s.port p).receiver = .sending) :
    s.listens p = false := by
  rcases h with h | h | h <;> simp [State.listens, h]

theorem State.listens_of (h : ¬ (s.phase = .held ∨ (s.port p).receiver = .gap ∨ (s.port p).receiver = .sending)) :
    s.listens p = true := by
  push Not at h
  obtain ⟨hworks, hgap, hsending⟩ := h
  rw [State.listens_iff hworks]
  cases hreceiver : (s.port p).receiver with
  | listening => exact .inl rfl
  | receiving => exact .inr rfl
  | gap => exact absurd hreceiver hgap
  | sending => exact absurd hreceiver hsending

theorem State.respond_none (s : State) (p : PortId) (st : Status) : s.respond p (s.port p).gap st [] = s.answers p st [] :=
  State.respond_answers rfl st []

/-- A code outside the catalogue on a port that takes a frame. -/
theorem exec_unknownCommand_taken (body : List Byte) (hunknown : code ∉ catalogueCodes) (hlistens : s.listens p = true) :
    exec (.unknownCommand p code body) s
      = .next (s.answers p (if s.phase = .starting then .starting else .unknownCommand) []) := by
  rw [exec_unknownCommand, if_pos ⟨hunknown, hlistens⟩, State.respond_none]

theorem State.serves_of_listens {roles : List Role} (h : s.listens p = true) (hstarted : s.phase ≠ .starting)
    (hrole : (s.port p).role ∈ roles) : s.serves p roles := by
  obtain ⟨hheld, hreceiver⟩ := of_decide_eq_true h
  refine ⟨?_, hreceiver, hrole⟩
  cases hphase : s.phase with
  | working => rfl
  | held => exact absurd hphase hheld
  | starting => exact absurd hphase hstarted

end

/-- Settles O2: a command of the catalogue through its roles and its body form, and a code outside it. -/
theorem commonChecksComeFirst : Obligations.CommonChecksComeFirst := by
  intro i p code body s hfields hwell
  rcases Instr.takenAs_or_unknown hfields hwell with ⟨roles, owner, hroles, hexec, hformat⟩ | ⟨rfl, hunknown⟩
  · rw [hroles]
    simp only [hexec]
    split
    · next hdeaf => rw [takeCommand_deaf _ _ (State.deaf_of hdeaf)]
    next htaking =>
    have hlistens := State.listens_of htaking
    split
    · next hstarting => rw [takeCommand_starting _ _ hlistens hstarting]
    next hstarted =>
    split
    · next hrole => rw [takeCommand_role _ hlistens hstarted hrole]
    · next hrole =>
      intro hform
      have hs := State.serves_of_listens hlistens hstarted (not_not.mp hrole)
      rw [takeCommand_serves _ hs, hformat hform]
      exact congrArg _ (State.respond_none ..)
  · rw [rolesOfCode_unknown hunknown]
    split
    · next hdeaf => rw [exec_unknownCommand, if_neg (by simp [State.deaf_of hdeaf])]
    next htaking =>
    rw [exec_unknownCommand_taken body hunknown (State.listens_of htaking)]
    by_cases hstarting : s.phase = .starting
    · rw [if_pos hstarting, if_pos hstarting]
    · rw [if_neg hstarting, if_neg hstarting]

end Sys2Proof.Machine
end
